-- ==== Sys2Proof/Word.lean ====
section
/-! DEFINITION. The word types of the core (spec/00_scope.md R6, R10, R11): the byte (a symbol), the
32-bit word (every length, count, weight, address and register), the 9-bit node index, and bit strings. -/

namespace Sys2Proof

/-- A symbol, and the unit of memory: `SYM_BITS` = 8 (R6, R74). -/
abbrev Byte := BitVec 8

/-- A register, count, weight, length or address: `LEN_BITS` = `ADDR_BITS` = 32 (R6). -/
abbrev Word := BitVec 32

/-- An index into the node store, or `NIL`; 9 bits wide (R53). -/
abbrev NodeIdx := BitVec 9

/-- A code or a path: a finite bit string, first bit (the one nearest the root) first (R11). -/
abbrev BitString := List Bool

/-- The bit-stream format a command word selects with its `BITFMT` bit (R90): 0 is ASCII (R76), 1 is
packed (R77). -/
inductive BitFmt where
  | ascii
  | packed
  deriving DecidableEq, Repr, Inhabited

end Sys2Proof
end

