-- ==== Sys2Proof/Config.lean ====
section
/-! DEFINITION. What is fixed for this hardware (spec/00_scope.md R2, R6) and the FREE VALUES: the values
the spec leaves open ("any value"), as opaque constants with no body. -/

namespace Sys2Proof

namespace Config

/-- `NSYMS`: the size of the alphabet (R6). -/
def nsyms : Nat := 256

/-- `NODE_CAP`: the capacity of the node store, `2*NSYMS - 1` (R6). -/
def nodeCap : Nat := 511

/-- `NIL`: the node index that means "no child" (R6). -/
def nil : NodeIdx := 0x1FF

/-- `MAX_CODE_LEN`: the longest code or serialized path the core holds (R6). -/
def maxCodeLen : Nat := 255

/-- `REG_BLOCK`: the size in bytes of the register block (R6, R22). -/
def regBlock : Nat := 4096

/-- The number of byte addresses of the memory the core masters, `2^ADDR_BITS` (R70). -/
def memSize : Nat := 2 ^ 32

/-- What `ID` reads at all times: the ASCII bytes "HUFF" (R2, R25). -/
def idValue : Word := 0x48554646

/-- What `VERSION` reads at all times: major 1, minor 0 (R2, R26). -/
def versionValue : Word := 0x00010000

end Config

/-- One record of the node store (R53). A Leaf has `internal` = false, a symbol and two `NIL` children;
an Internal node has `internal` = true, symbol 0, and children that are node indices or `NIL`. -/
structure Node where
  internal : Bool
  sym      : Byte
  left     : NodeIdx
  right    : NodeIdx
  weight   : Word
  deriving DecidableEq, Repr, Inhabited

namespace Config

/-- FREE VALUE (log 6): draw `n`'s byte for address `a`. Bytes of write ranges after an error or an
abandoned command, and host reads of them while busy (R78, R81, R211). -/
opaque freeByte : Nat → Nat → Byte

/-- FREE VALUE (log 6): draw `n`'s word number `k`. Registers read while busy (R69), and the frequency
table and summary after a bus error in a count step (R102). -/
opaque freeWord : Nat → Nat → Word

/-- FREE VALUE (log 6): draw `n`'s contents of node `k`. The node store after a reset (R53, R210) and
after a deserialize-step error (R146). -/
opaque freeNode : Nat → Nat → Node

/-- FREE VALUE (log 7): draw `n`'s choice among the outcomes R186 admits for a command that meets a bus
error. -/
opaque freeChoice : Nat → Nat

end Config

end Sys2Proof
end

