-- ==== Sys2Proof/Syntax.lean ====
section
/-! DEFINITION. The command set (spec/30_encoding.md R90, R92; spec/opcode_table.json): the nine commands,
one constructor a row. A command's only operand in its word is `BITFMT`; the commands of R94 that ignore
it carry it too, since both values are legal encodings of them. Beside it, one host access to the register
block as the host presents it (R23). -/

namespace Sys2Proof

/-- The commands of the core, in the opcode table's order (R92). -/
inductive Instr where
  /-- COUNT, `OP` = 0x1 (R100). -/
  | count (fmt : BitFmt)
  /-- BUILD, `OP` = 0x2 (R110). -/
  | build (fmt : BitFmt)
  /-- GENCODE, `OP` = 0x3 (R120). -/
  | gencode (fmt : BitFmt)
  /-- ENCODE, `OP` = 0x4 (R125). -/
  | encode (fmt : BitFmt)
  /-- SERIALIZE, `OP` = 0x5 (R140). -/
  | serialize (fmt : BitFmt)
  /-- DESERIALIZE, `OP` = 0x6 (R145). -/
  | deserialize (fmt : BitFmt)
  /-- DECODE, `OP` = 0x7 (R160). -/
  | decode (fmt : BitFmt)
  /-- COMPRESS, `OP` = 0x8 (R170). -/
  | compress (fmt : BitFmt)
  /-- DECOMPRESS, `OP` = 0x9 (R174). -/
  | decompress (fmt : BitFmt)
  deriving DecidableEq, Repr

/-- The format operand of a command (R90). -/
def Instr.fmt : Instr → BitFmt
  | .count f | .build f | .gencode f | .encode f | .serialize f | .deserialize f | .decode f
  | .compress f | .decompress f => f

/-- One host access to the register block: its address in the host's address space and its width in
bytes (R22, R23). -/
structure RegAccess where
  addr  : Nat
  bytes : Nat
  deriving DecidableEq, Repr

end Sys2Proof
end

