-- ==== Sys2Proof/WellFormed.lean ====
section
/-! DEFINITION. The checks a term must pass to have a meaning: a command word (spec/30_encoding.md R90,
R93) and a host access to the register block (spec/10_state.md R22, R23). A term of `Instr` is always
well formed: its one operand has two values and both are legal on all nine commands (R94, R96). -/

namespace Sys2Proof

/-- Bits 3:0 name one of the nine commands: 0x0 and 0xA..0xF are reserved (R92, R93). -/
def opLegal (w : Word) : Bool := decide (1 ≤ (w.extractLsb' 0 4).toNat ∧ (w.extractLsb' 0 4).toNat ≤ 9)

/-- Bits 7:4 are 0 (R90). -/
def lowReservedZero (w : Word) : Bool := decide (w.extractLsb' 4 4 = 0)

/-- Bits 31:9 are 0 (R90). -/
def highReservedZero (w : Word) : Bool := decide (w.extractLsb' 9 23 = 0)

/-- A legal command word (R93). -/
def cmdWordLegal (w : Word) : Bool := opLegal w && lowReservedZero w && highReservedZero w

/-- Every term of `Instr` is a legal command (R94: both values of `BITFMT` are legal on all nine). -/
def Instr.wellFormed : Instr → Bool
  | .count _ | .build _ | .gencode _ | .encode _ | .serialize _ | .deserialize _ | .decode _
  | .compress _ | .decompress _ => true

/-- The access falls inside the 4096-byte register block at `base` (R22). -/
def RegAccess.inBlock (base : Nat) (a : RegAccess) : Bool :=
  decide (base ≤ a.addr ∧ a.addr < base + Config.regBlock)

/-- The access is 32 bits wide (R23). -/
def RegAccess.isWord (a : RegAccess) : Bool := decide (a.bytes = 4)

/-- The offset of the access in a block at `base`. -/
def RegAccess.offset (base : Nat) (a : RegAccess) : Nat := a.addr - base

/-- The access is aligned to 4 bytes; the block's base is taken to be aligned, so its offset decides
(R23; log 12). -/
def RegAccess.aligned (base : Nat) (a : RegAccess) : Bool := decide (a.offset base % 4 = 0)

/-- A host access the spec gives a meaning: in the block, 32 bits wide and aligned (R23). -/
def RegAccess.wellFormed (base : Nat) (a : RegAccess) : Bool :=
  a.inBlock base && a.isWord && a.aligned base

end Sys2Proof
end

