-- ==== Sys2Proof/Decode.lean ====
section
/-! DEFINITION. Decoding a command word, total on every 32-bit word and rejecting by name
(spec/30_encoding.md R90 to R93), the encoder written from the same map (R92), and the mnemonic notation of
host programs (R96). -/

namespace Sys2Proof

/-- Why a word is no command (R93). -/
inductive DecodeError where
  /-- bits 3:0 are 0x0 or 0xA..0xF -/
  | reservedOp
  /-- bits 7:4 are not 0 -/
  | reservedLow
  /-- bits 31:9 are not 0 -/
  | reservedHigh
  deriving DecidableEq, Repr

/-- The `BITFMT` field, bit 8 (R90). -/
def fmtField (w : Word) : BitFmt := if w.getLsbD 8 then .packed else .ascii

/-- The `OP` field, bits 3:0 (R90). -/
def opField (w : Word) : BitVec 4 := w.extractLsb' 0 4

/-- The command of an opcode (the map of R92). -/
def commandOf (op : Nat) (f : BitFmt) : Option Instr :=
  match op with
  | 0x1 => some (.count f)
  | 0x2 => some (.build f)
  | 0x3 => some (.gencode f)
  | 0x4 => some (.encode f)
  | 0x5 => some (.serialize f)
  | 0x6 => some (.deserialize f)
  | 0x7 => some (.decode f)
  | 0x8 => some (.compress f)
  | 0x9 => some (.decompress f)
  | _ => none

/-- The command a word stands for, or why it stands for none (R90, R92, R93). -/
def decode (w : Word) : Except DecodeError Instr :=
  if !lowReservedZero w then .error .reservedLow
  else if !highReservedZero w then .error .reservedHigh
  else match commandOf (opField w).toNat (fmtField w) with
    | some i => .ok i
    | none => .error .reservedOp

/-- A command's opcode (R92). -/
def Instr.opcode : Instr → Word
  | .count _ => 0x1
  | .build _ => 0x2
  | .gencode _ => 0x3
  | .encode _ => 0x4
  | .serialize _ => 0x5
  | .deserialize _ => 0x6
  | .decode _ => 0x7
  | .compress _ => 0x8
  | .decompress _ => 0x9

/-- The `BITFMT` bit in its place (R90). -/
def fmtBit : BitFmt → Word
  | .ascii => 0x000
  | .packed => 0x100

/-- The word of a command (R90, R92): every reserved bit 0. -/
def encode (i : Instr) : Word := i.opcode ||| fmtBit i.fmt

/-- What the decoder reads from a table word: bit 0 is the least significant bit of the one 32-bit word,
and every bit above `nbits` is 0. -/
def decodeTableWord (nbits w : Nat) : Option Instr :=
  (decode (BitVec.ofNat 32 (w % 2 ^ nbits))).toOption

/-- A command's mnemonic (R92). -/
def Instr.mnemonic : Instr → String
  | .count _ => "COUNT"
  | .build _ => "BUILD"
  | .gencode _ => "GENCODE"
  | .encode _ => "ENCODE"
  | .serialize _ => "SERIALIZE"
  | .deserialize _ => "DESERIALIZE"
  | .decode _ => "DECODE"
  | .compress _ => "COMPRESS"
  | .decompress _ => "DECOMPRESS"

/-- The suffix that spells a format (R96). -/
def fmtSuffix : BitFmt → String
  | .ascii => ".A"
  | .packed => ".P"

/-- The spelling of a command in a host program, with its suffix (R96). -/
def Instr.text (i : Instr) : String := i.mnemonic ++ fmtSuffix i.fmt

/-- The nine commands in one format. -/
def commandsIn (f : BitFmt) : List Instr :=
  [.count f, .build f, .gencode f, .encode f, .serialize f, .deserialize f, .decode f, .compress f,
   .decompress f]

/-- Reading a mnemonic: with a suffix `.A` or `.P`, or with none, which means `.A` (R96). -/
def parseMnemonic (t : String) : Option Instr :=
  (commandsIn .ascii ++ commandsIn .packed).find? fun i =>
    decide (i.text = t ∨ (i.fmt = .ascii ∧ i.mnemonic = t))

end Sys2Proof
end

