-- ==== Sys2Proof/Machine/HostSyntax.lean ====
section
/-! DEFINITION. The outside world as the core sees it: the names of the register block
(spec/10_state.md R22), the steps the host, the platform and the engine take (spec/20_memory.md R80), and
the statements of a host program (spec/30_encoding.md R97). -/

namespace Sys2Proof.Machine

/-- The registers of the block by name (R22); the two windows and `CODEBITS` by their index. -/
inductive RegName where
  | id | version | ctrl | cmd | status | errinfo | irqEn | irqStat
  | srcBase | srcLen | treeBase | treeLen | dstBase | dstCap | toutBase | toutCap
  | dstLen | toutLen | ratio
  | nsym | total | nnodes | root
  | codeSel | codeBits (k : Fin 8) | nodeSel | nodeW | nodeInfo
  | freqW (s : Byte) | codeLenW (s : Byte)
  deriving DecidableEq, Repr

/-- The offset of a register in the block (the table of R22). -/
def RegName.offset : RegName → Nat
  | .id => 0x000
  | .version => 0x004
  | .ctrl => 0x008
  | .cmd => 0x00C
  | .status => 0x010
  | .errinfo => 0x014
  | .irqEn => 0x018
  | .irqStat => 0x01C
  | .srcBase => 0x020
  | .srcLen => 0x024
  | .treeBase => 0x028
  | .treeLen => 0x02C
  | .dstBase => 0x030
  | .dstCap => 0x034
  | .toutBase => 0x038
  | .toutCap => 0x03C
  | .dstLen => 0x040
  | .toutLen => 0x044
  | .ratio => 0x048
  | .nsym => 0x04C
  | .total => 0x050
  | .nnodes => 0x054
  | .root => 0x058
  | .codeSel => 0x060
  | .codeBits k => 0x064 + 4 * k.val
  | .nodeSel => 0x084
  | .nodeW => 0x088
  | .nodeInfo => 0x08C
  | .freqW s => 0x400 + 4 * s.toNat
  | .codeLenW s => 0x800 + 4 * s.toNat

/-- The registers of the block below the windows, in offset order (R22). -/
def fixedRegs : List RegName :=
  [.id, .version, .ctrl, .cmd, .status, .errinfo, .irqEn, .irqStat,
   .srcBase, .srcLen, .treeBase, .treeLen, .dstBase, .dstCap, .toutBase, .toutCap,
   .dstLen, .toutLen, .ratio, .nsym, .total, .nnodes, .root, .codeSel]
  ++ [.codeBits 0, .codeBits 1, .codeBits 2, .codeBits 3, .codeBits 4, .codeBits 5, .codeBits 6,
   .codeBits 7, .nodeSel, .nodeW, .nodeInfo]

/-- The register at an aligned offset of the block; none at a reserved offset (R22, R23). -/
def regAt (off : Nat) : Option RegName :=
  if 0x400 ≤ off ∧ off < 0x800 then some (.freqW (BitVec.ofNat 8 ((off - 0x400) / 4)))
  else if 0x800 ≤ off ∧ off < 0xC00 then some (.codeLenW (BitVec.ofNat 8 ((off - 0x800) / 4)))
  else fixedRegs.find? fun r => r.offset == off

/-- One step of the world: a host access to the register block or to one byte of memory, the host accepting
the completion interrupt (R81 item 2), the engine completing the running command, or the platform asserting
the core's reset (R80, R210). -/
inductive Event where
  | regRead (a : RegAccess)
  | regWrite (a : RegAccess) (v : Word)
  | memRead (a : Word)
  | memWrite (a : Word) (v : Byte)
  | irqAccept
  | complete
  | hwReset
  deriving DecidableEq, Repr

/-- A statement of a host program (R97). `MEM` is start state and not a step: `State.withMem`. `wait`
carries how many polls find the engine busy before the completion, a number no rule fixes. -/
inductive HostStmt where
  | write (r : RegName) (v : Word)
  | read (r : RegName)
  | cmd (i : Instr)
  | wait (polls : Nat)
  | srst
  | ack
  deriving DecidableEq, Repr

/-- An aligned 32-bit access to a register of a block at `base`. -/
def accessTo (base : Nat) (r : RegName) : RegAccess := ⟨base + r.offset, 4⟩

/-- The steps a statement stands for (R97): `CMD m` is `W CMD, enc(m)`; `WAIT` reads `STATUS` until bit 0
is 0; `SRST` is `W CTRL, 1`; `ACK` is `W IRQ_STAT, 3`. DESIGN CHOICE (log 26): where the completion falls is
open (R80), and here it falls inside a `WAIT`, between its last two reads. -/
def HostStmt.events (base : Nat) : HostStmt → List Event
  | .write r v => [.regWrite (accessTo base r) v]
  | .read r => [.regRead (accessTo base r)]
  | .cmd i => [.regWrite (accessTo base .cmd) (encode i)]
  | .wait polls =>
    List.replicate polls (.regRead (accessTo base .status))
      ++ [.complete, .regRead (accessTo base .status)]
  | .srst => [.regWrite (accessTo base .ctrl) 0x1]
  | .ack => [.regWrite (accessTo base .irqStat) 0x3]

/-- The steps of a host program, its statements in order (R97). A command no `WAIT` follows completes after
the last statement; a completion at any other place is written into `State.events` (DESIGN CHOICE, log 26). -/
def hostProgram (base : Nat) (p : List HostStmt) : List Event := p.flatMap (HostStmt.events base)

end Sys2Proof.Machine
end

