-- ==== Sys2Proof/Machine/Table.lean ====
section
/-! DEFINITION. A register file of a fixed number of like entries: a list with the proof of its length.
(A list, because the kernel evaluates and compares it by structural recursion.) -/

namespace Sys2Proof.Machine

/-- `n` entries of type `α`, numbered from 0. -/
structure Table (α : Type) (n : Nat) where
  cells : List α
  size  : cells.length = n
  deriving DecidableEq, Repr

/-- Entry `i`; past the end, where no rule reads, the type's default. -/
def Table.read {α : Type} {n : Nat} [Inhabited α] (t : Table α n) (i : Nat) : α := t.cells.getD i default

/-- The table with entry `i` replaced; past the end nothing changes. -/
def Table.write {α : Type} {n : Nat} (t : Table α n) (i : Nat) (v : α) : Table α n :=
  ⟨t.cells.set i v, by simp [t.size]⟩

/-- The table with one value in every entry. -/
def Table.fill {α : Type} (n : Nat) (v : α) : Table α n := ⟨List.replicate n v, by simp⟩

/-- The table whose entry `i` is `f i`. -/
def Table.ofFn {α : Type} (n : Nat) (f : Nat → α) : Table α n := ⟨(List.range n).map f, by simp⟩

end Sys2Proof.Machine
end

