-- ==== Sys2Proof/Machine/State.lean ====
section
/-! DEFINITION. The state of the core (spec/10_state.md), of the memory it masters (spec/20_memory.md R70)
and of the world around it, as plain data, and the state right after reset (spec/70_reset_and_hazards.md
R210). -/

namespace Sys2Proof.Machine

/-- The memory the core masters: address and byte, addresses strictly rising, no entry equal to what an
unlisted address reads as (0, log 1). -/
abbrev Memory := List Host.Cell

/-- The eight configuration registers `SRC_BASE` to `TOUT_CAP` (R33 to R40). -/
structure BufRegs where
  srcBase  : Word
  srcLen   : Word
  treeBase : Word
  treeLen  : Word
  dstBase  : Word
  dstCap   : Word
  toutBase : Word
  toutCap  : Word
  deriving DecidableEq, Repr

/-- `cfg`: the copy of `CMD` and the configuration registers taken at a launch (R58, R91). -/
structure LaunchCopy where
  cmd  : Word
  bufs : BufRegs
  deriving DecidableEq, Repr

/-- `ENGINE` (R21); while busy it holds the launch copy, while idle none is held (R58). -/
inductive Engine where
  | idle
  | busy (cfg : LaunchCopy)
  deriving DecidableEq, Repr

/-- The decoder's walk pointer: the root position `TOP`, or an Internal node (R161). -/
inductive WalkPtr where
  | top
  | node (k : NodeIdx)
  deriving DecidableEq, Repr

/-- The hidden working state of a running command: BUILD's priority queue (R57), the position in each
stream and the decoder's walk pointer (R58). -/
structure Work where
  queue   : List NodeIdx
  srcPos  : Nat
  treePos : Nat
  dstPos  : Nat
  toutPos : Nat
  walk    : WalkPtr
  deriving DecidableEq, Repr

/-- The working state outside a command's run: queue empty, no position held (R57, R58). -/
def Work.rest : Work := ⟨[], 0, 0, 0, 0, .top⟩

/-- The stored registers of the block. `ID`, `VERSION` and `CTRL` store nothing (R25 to R27), and the
views of R60 to R68 show the tables. -/
structure Regs where
  /-- `CMD` (R28) -/
  cmd : Word
  /-- `STATUS.ERR` (R29) -/
  err : Bool
  /-- `STATUS.ERRCODE` (R29) -/
  errcode : BitVec 4
  /-- `ERRINFO` (R30) -/
  errinfo : Word
  /-- `IRQ_EN.DONE_IE` (R31) -/
  doneIe : Bool
  /-- `IRQ_EN.ERR_IE` (R31) -/
  errIe : Bool
  /-- `IRQ_STAT.DONE_IP` (R32) -/
  doneIp : Bool
  /-- `IRQ_STAT.ERR_IP` (R32) -/
  errIp : Bool
  /-- `SRC_BASE` to `TOUT_CAP` (R33 to R40) -/
  bufs : BufRegs
  /-- `DST_LEN` (R41) -/
  dstLen : Word
  /-- `TOUT_LEN` (R42) -/
  toutLen : Word
  /-- `RATIO` (R43) -/
  ratio : Word
  /-- `CODE_SEL.SYM` (R44) -/
  codeSel : Byte
  /-- `NODE_SEL.IDX` (R45) -/
  nodeSel : BitVec 9
  deriving DecidableEq, Repr

/-- The internal state that persists between commands, each structure with its valid flag (R50 to R56). -/
structure Tables where
  /-- `FREQ[0..255]` (R50) -/
  freq : Table Word 256
  /-- `nsym` (R51) -/
  nsym : BitVec 9
  /-- `total` (R51) -/
  total : Word
  /-- `FREQ_V` (R52) -/
  freqV : Bool
  /-- `NODE[0..510]` (R53) -/
  node : Table Node 511
  /-- `NNODES` (R54) -/
  nnodes : BitVec 10
  /-- `ROOT` (R55) -/
  root : NodeIdx
  /-- `TREE_V` (R52) -/
  treeV : Bool
  /-- `CODE[0..255]` (R56): each code as its bit string, whose length is the record's `len` -/
  code : Table BitString 256
  /-- `CODE_V` (R52) -/
  codeV : Bool
  deriving DecidableEq, Repr

/-- What belongs to the platform and never changes (R7): the addresses it answers with a bus error
(R186), the addresses whose reads have side effects or do not repeat (R79), and the base address of the
register block in the host's address space (R22). -/
structure Platform where
  busError : List Nat
  volatile : List Nat
  regBase  : Nat
  deriving DecidableEq, Repr

/-- The whole state. `unseen` holds the copies of the commands that have completed without the host having
observed it, newest first (R81, R220; log 25). `events`, `seen` and `drawn` are the model's own: which agent
moves next (R80), what the host's reads returned, newest first, and how many free values have been drawn. -/
structure State where
  engine   : Engine
  work     : Work
  regs     : Regs
  tabs     : Tables
  mem      : Memory
  platform : Platform
  unseen   : List LaunchCopy
  events   : List Event
  seen     : List Word
  drawn    : Nat
  deriving DecidableEq, Repr

/-- Why the machine stops with a fault. -/
inductive Fault where
  /-- Raised by BUILD, GENCODE, SERIALIZE and COMPRESS on a frequency table or node store that no command
  leaves (a positive `nsym` with no positive counter; a store whose walk from `ROOT` runs deeper than
  `MAX_CODE_LEN`). No state that meets the invariant of Safety.lean raises it. SAFE (log 8). -/
  | corruptStore
  deriving DecidableEq, Repr

/-- Why the model gives a run no meaning. -/
inductive Refusal where
  /-- An instruction with no meaning yet, by its mnemonic: raised by no arm of exec. SAFE. -/
  | notModelled (mnemonic : String)
  /-- A write range of the command overlaps a read range or the other write range (R86). SAFE. -/
  | overlap
  /-- A range of the command holds memory whose reads have side effects or do not repeat (R79; log 11). SAFE. -/
  | sideEffectMemory
  /-- The host wrote a byte of a range of a command that runs, or whose completion the host has not observed
  (R81 item 4, R220; log 25). SAFE. -/
  | hostWroteBusyRange
  /-- A host register access that is not 32 bits wide or not aligned to 4 bytes (R23). SAFE. -/
  | badRegAccess
  /-- A host access outside the register block, presented as a register access (R22). SAFE. -/
  | outsideBlock
  deriving DecidableEq, Repr

/-- The configuration registers after reset (R22). -/
def BufRegs.reset : BufRegs := ⟨0, 0, 0, 0, 0, 0, 0, 0⟩

/-- The stored registers after reset: all 0 (R22). -/
def Regs.reset : Regs where
  cmd := 0
  err := false
  errcode := 0
  errinfo := 0
  doneIe := false
  errIe := false
  doneIp := false
  errIp := false
  bufs := BufRegs.reset
  dstLen := 0
  toutLen := 0
  ratio := 0
  codeSel := 0
  nodeSel := 0

/-- The internal state after reset (R50 to R56). The contents of the node store are unspecified and
unobservable; the all-zero records are the model's choice (log 2). -/
def Tables.reset : Tables where
  freq := Table.fill 256 0
  nsym := 0
  total := 0
  freqV := false
  node := Table.fill 511 ⟨false, 0, 0, 0, 0⟩
  nnodes := 0
  root := 0
  treeV := false
  code := Table.fill 256 []
  codeV := false

/-- A platform with no failing address, no volatile address and the block at address 0 (log 3). -/
def Platform.reset : Platform := ⟨[], [], 0⟩

/-- The machine right after reset (R210, R212): idle, every register 0, no structure valid. -/
def State.reset : State where
  engine := .idle
  work := Work.rest
  regs := Regs.reset
  tabs := Tables.reset
  mem := []
  platform := Platform.reset
  unseen := []
  events := []
  seen := []
  drawn := 0

end Sys2Proof.Machine
end

