-- ==== Sys2Proof/Machine/Ops.lean ====
section
/-! DEFINITION. The named operations over memory, streams and registers that the meanings share
(spec/20_memory.md), and the two ways a command ends: successful completion and error completion, the
core's "trap entry" (spec/60_exceptions.md R189, R190). -/

namespace Sys2Proof.Machine

/-! Memory, one byte at a time (R74). -/

/-- What a byte of memory that nothing has written reads as (log 1). -/
def Memory.unlisted : Byte := 0

/-- `MemRead(addr, 1)` (R13, R74). -/
def Memory.read : Memory → Nat → Byte
  | [], _ => Memory.unlisted
  | (a, v) :: m, x => if a = x then v else Memory.read m x

/-- Memory with no entry for address `x`. -/
def Memory.erase (m : Memory) (x : Nat) : Memory := m.filter fun c => c.1 != x

/-- Memory with an entry for address `x` in its place among rising addresses. -/
def Memory.insert : Memory → Nat → Byte → Memory
  | [], x, v => [(x, v)]
  | (a, w) :: m, x, v => if x < a then (x, v) :: (a, w) :: m else (a, w) :: Memory.insert m x v

/-- `MemWrite(addr, 1, v)` (R13, R74), keeping the canonical form: writing what an unlisted address reads
as removes the entry. -/
def Memory.write (m : Memory) (x : Nat) (v : Byte) : Memory :=
  if v = Memory.unlisted then m.erase x else (m.erase x).insert x v

/-- Every listed address is above `lo`, the addresses strictly rise and stay in the address space, and no
listed byte is what an unlisted address reads as. -/
def Memory.wfFrom : Nat → Memory → Bool
  | _, [] => true
  | lo, (a, v) :: m =>
    decide (lo ≤ a) && decide (a < Config.memSize) && decide (v ≠ Memory.unlisted) && Memory.wfFrom (a + 1) m

/-- The canonical form. -/
def Memory.wf (m : Memory) : Bool := Memory.wfFrom 0 m

/-- The `n` bytes from `base` up, in address order (R73). -/
def readBytes (m : Memory) (base n : Nat) : List Byte := (List.range n).map fun i => m.read (base + i)

/-- `WriteText(base, T)`: byte `j` goes to `base + j` (R89). -/
def writeBytes : Memory → Nat → List Byte → Memory
  | m, _, [] => m
  | m, base, b :: bs => writeBytes (m.write base b) (base + 1) bs

/-! Ranges (R71). -/

/-- A range (base, n): the bytes `base` to `base + n - 1` (R71). -/
structure Range where
  base : Nat
  len  : Nat
  deriving DecidableEq, Repr

/-- `base + n ≤ 2^32` without wrap-around; a range of length 0 is always legal (R72). -/
def Range.legal (r : Range) : Bool := decide (r.len = 0 ∨ r.base + r.len ≤ Config.memSize)

/-- The range names address `a`. -/
def Range.has (r : Range) (a : Nat) : Bool := decide (r.base ≤ a ∧ a < r.base + r.len)

/-- Two ranges share a byte; a range of length 0 overlaps nothing (R86). -/
def Range.meets (r q : Range) : Bool :=
  decide (0 < r.len ∧ 0 < q.len ∧ r.base < q.base + q.len ∧ q.base < r.base + r.len)

/-- The first bytes of a range, at most `m` of them. -/
def Range.first (r : Range) (m : Nat) : Range := ⟨r.base, min r.len m⟩

/-- Some range of the list names `a`. -/
def inRanges (rs : List Range) (a : Nat) : Bool := rs.any fun r => r.has a

/-- Every byte of a range takes draw `n`'s free value; addresses past the top of memory do not exist
(R78, R211). -/
def scribbleRange (n : Nat) (m : Memory) (r : Range) : Memory :=
  (List.range (min r.len (Config.memSize - r.base))).foldl
    (fun m j => m.write (r.base + j) (Config.freeByte n (r.base + j))) m

/-- Every byte of every range takes draw `n`'s free value (R78). -/
def scribble (n : Nat) (m : Memory) (rs : List Range) : Memory := rs.foldl (scribbleRange n) m

/-! Bit streams (R76, R77, R89). -/

/-- `ceil(E / 8)`. -/
def ceil8 (e : Nat) : Nat := (e + 7) / 8

/-- The bytes a stream of `e` bits occupies (R76, R77). -/
def streamBytes (f : BitFmt) (e : Nat) : Nat :=
  match f with
  | .ascii => e
  | .packed => ceil8 e

/-- The character of a bit in the ASCII format: `0x30` or `0x31` (R76). -/
def bitChar (b : Bool) : Byte := if b then 0x31 else 0x30

/-- Byte `q` of a packed stream: bit `8q + r` in bit `7 - r`, unused low bits 0 (R77, R89). -/
def packedByte (s : BitString) (q : Nat) : Byte :=
  BitVec.ofNat 8 (((List.range 8).map fun r => if s.getD (8 * q + r) false then 2 ^ (7 - r) else 0).sum)

/-- The bytes `WriteStream` writes (R89). -/
def streamImage (f : BitFmt) (s : BitString) : List Byte :=
  match f with
  | .ascii => s.map bitChar
  | .packed => (List.range (ceil8 s.length)).map (packedByte s)

/-- `ReadBit(base, i, fmt)`; none is the bad character that raises `E_BADBIT` (R89). -/
def readBit (m : Memory) (base i : Nat) (f : BitFmt) : Option Bool :=
  match f with
  | .ascii =>
    let c := m.read (base + i)
    if c = 0x30 then some false else if c = 0x31 then some true else none
  | .packed => some ((m.read (base + i / 8)).getLsbD (7 - i % 8))

/-- The first `n` bits of a stream, each as `ReadBit` finds it. -/
def readBits (m : Memory) (base n : Nat) (f : BitFmt) : List (Option Bool) :=
  (List.range n).map fun i => readBit m base i f

/-- `rhe(n, d)`: `n / d` to the nearest integer, halfway cases to the even one (R12). -/
def rhe (n d : Nat) : Nat :=
  if 2 * (n % d) < d then n / d
  else if d < 2 * (n % d) then n / d + 1
  else if n / d % 2 = 0 then n / d
  else n / d + 1

/-! Errors and the two completions (R180, R181, R189, R190). -/

/-- The error kinds (R180). -/
inductive ErrCode where
  | empty | parse | struct | malformed | trunc | lookup | badbit | capacity | sequence | illegal | range | bus
  deriving DecidableEq, Repr

/-- `STATUS.ERRCODE` of each kind (R180). -/
def ErrCode.num : ErrCode → BitVec 4
  | .empty => 1
  | .parse => 2
  | .struct => 3
  | .malformed => 4
  | .trunc => 5
  | .lookup => 6
  | .badbit => 7
  | .capacity => 8
  | .sequence => 9
  | .illegal => 10
  | .range => 11
  | .bus => 12

/-- An error with its error information (R181). -/
structure Err where
  code : ErrCode
  info : Word
  deriving DecidableEq, Repr

/-- An error whose information is a count or an index. -/
def errAt (c : ErrCode) (n : Nat) : Err := ⟨c, BitVec.ofNat 32 n⟩

/-- Which result registers a command writes, and an error so clears (R41 to R43, R190). -/
structure Results where
  dstLen  : Bool
  toutLen : Bool
  ratio   : Bool
  deriving DecidableEq, Repr

/-- The result registers an error sets to 0 (R190). -/
def Regs.clearResults (c : Results) (r : Regs) : Regs :=
  { r with
    dstLen := if c.dstLen then 0 else r.dstLen
    toutLen := if c.toutLen then 0 else r.toutLen
    ratio := if c.ratio then 0 else r.ratio }

/-- The registers a successful completion writes (R189). -/
def Regs.succeed (r : Regs) : Regs :=
  { r with err := false, errcode := 0, errinfo := 0, doneIp := true }

/-- The registers an error completion writes (R190). -/
def Regs.fail (c : Results) (e : Err) (r : Regs) : Regs :=
  { r.clearResults c with err := true, errcode := e.code.num, errinfo := e.info, doneIp := true, errIp := true }

/-- The configuration a command runs on: the launch copy; with the engine idle, the copy a launch would
take now (R91). -/
def State.cfg (s : State) : LaunchCopy :=
  match s.engine with
  | .busy c => c
  | .idle => ⟨s.regs.cmd, s.regs.bufs⟩

/-- `complete()`: successful completion (R189), which the host has yet to observe (R81, R220). -/
def complete (s : State) : State :=
  { s with engine := .idle, work := Work.rest, regs := s.regs.succeed, unseen := s.cfg :: s.unseen }

/-- `raise E(info)`: error completion, the analogue of trap entry (R190). `ws` are the command's write
ranges and `c` the result registers it writes; the internal state is that of `s`, which the command's rule
for this error has made. The host has yet to observe it (R81, R220). -/
def raise (ws : List Range) (c : Results) (e : Err) (s : State) : State :=
  { s with
    engine := .idle
    work := Work.rest
    regs := s.regs.fail c e
    mem := scribble s.drawn s.mem ws
    unseen := s.cfg :: s.unseen
    drawn := s.drawn + 1 }

/-- The launch of command word `w` by an idle engine (R91). -/
def launch (w : Word) (s : State) : State :=
  { s with
    engine := .busy ⟨w, s.regs.bufs⟩
    work := Work.rest
    regs := { s.regs with cmd := w, err := false, errcode := 0 } }

/-- An illegal command word: it writes nothing but `STATUS`, `ERRINFO` and `IRQ_STAT` (R93). -/
def raiseIllegal (w : Word) (s : State) : State := raise [] ⟨false, false, false⟩ ⟨.illegal, w⟩ s

/-! Bus errors (R186). -/

/-- The addresses of the ranges that the platform answers with a bus error. -/
def failing (s : State) (rs : List Range) : List Nat := s.platform.busError.filter fun a => inRanges rs a

/-- The choice draw `n` makes from a list that is not empty. -/
def pick {α : Type} (n : Nat) (x : α) : List α → α
  | [] => x
  | y :: ys => (x :: y :: ys).getD (Config.freeChoice n % (ys.length + 2)) x

/-- The error a command ends with after its upfront checks, or none (R186): `rs` are the addresses it
accesses and `data` is the data-check error it ends with when no access fails. With no failing address
that is the outcome; else the outcome is `E_BUS` at a failing address, any of them, or the data-check
error. -/
def outcomeOf (s : State) (rs : List Range) (data : Option Err) : Option Err :=
  match failing s rs with
  | [] => data
  | a :: as =>
    let buses := as.map (errAt .bus)
    match data with
    | none => some (pick s.drawn (errAt .bus a) buses)
    | some e => some (pick s.drawn e (errAt .bus a :: buses))

/-! Reset (R210, R211). -/

/-- Every register and internal structure at its reset value, the node store unspecified, memory `m`; the
platform, the host's further steps and what it has read are not the core's and stay. -/
def resetCore (m : Memory) (s : State) : State :=
  { State.reset with
    tabs := { Tables.reset with node := Table.ofFn 511 (Config.freeNode s.drawn) }
    mem := m
    platform := s.platform
    events := s.events
    seen := s.seen
    drawn := s.drawn + 1 }

/-- Memory with the bytes of a host program's `MEM` statement in place before it starts (R97). -/
def State.withMem (s : State) (a : Nat) (bs : List Byte) : State := { s with mem := writeBytes s.mem a bs }

/-- The state with a host program still to run (R97). -/
def State.withProgram (s : State) (p : List HostStmt) : State :=
  { s with events := hostProgram s.platform.regBase p }

end Sys2Proof.Machine
end

