-- ==== Sys2Proof/Machine/Operands.lean ====
section
/-! DEFINITION. The operands of each command (spec/30_encoding.md R95): its memory ranges
(spec/20_memory.md R71), the result registers it writes (spec/10_state.md R41 to R43), the conditions under
which the spec gives it no meaning (R79, R86), and its upfront checks in their order
(spec/60_exceptions.md R182). -/

namespace Sys2Proof.Machine

/-- SRC as text: `SRC_LEN` counts bytes whatever `BITFMT` is (R71). -/
def srcText (c : LaunchCopy) : Range := ⟨c.bufs.srcBase.toNat, c.bufs.srcLen.toNat⟩

/-- SRC as a bit stream: `srcBytes` bytes (R71). -/
def srcStream (f : BitFmt) (c : LaunchCopy) : Range :=
  ⟨c.bufs.srcBase.toNat, streamBytes f c.bufs.srcLen.toNat⟩

/-- TREE (R71). -/
def treeRange (c : LaunchCopy) : Range := ⟨c.bufs.treeBase.toNat, c.bufs.treeLen.toNat⟩

/-- DST (R71). -/
def dstRange (c : LaunchCopy) : Range := ⟨c.bufs.dstBase.toNat, c.bufs.dstCap.toNat⟩

/-- TOUT (R71). -/
def toutRange (c : LaunchCopy) : Range := ⟨c.bufs.toutBase.toNat, c.bufs.toutCap.toNat⟩

/-- The read ranges of a command (R71). -/
def readRanges (i : Instr) (c : LaunchCopy) : List Range :=
  match i with
  | .count _ => [srcText c]
  | .build _ => []
  | .gencode _ => []
  | .encode _ => [srcText c]
  | .serialize _ => []
  | .deserialize _ => [treeRange c]
  | .decode f => [srcStream f c]
  | .compress _ => [srcText c]
  | .decompress f => [srcStream f c, treeRange c]

/-- The write ranges of a command (R71). -/
def writeRanges (i : Instr) (c : LaunchCopy) : List Range :=
  match i with
  | .count _ => []
  | .build _ => []
  | .gencode _ => []
  | .encode _ => [dstRange c]
  | .serialize _ => [toutRange c]
  | .deserialize _ => []
  | .decode _ => [dstRange c]
  | .compress _ => [dstRange c, toutRange c]
  | .decompress _ => [dstRange c]

/-- The result registers a command writes (R41 to R43). -/
def resultsOf (i : Instr) : Results :=
  match i with
  | .count _ => ⟨false, false, false⟩
  | .build _ => ⟨false, false, false⟩
  | .gencode _ => ⟨false, false, false⟩
  | .encode _ => ⟨true, false, true⟩
  | .serialize _ => ⟨false, true, false⟩
  | .deserialize _ => ⟨false, false, false⟩
  | .decode _ => ⟨true, false, false⟩
  | .compress _ => ⟨true, true, true⟩
  | .decompress _ => ⟨true, false, false⟩

/-- A write range overlaps a read range, or the two write ranges overlap each other (R86). -/
def overlapping (i : Instr) (c : LaunchCopy) : Bool :=
  (writeRanges i c).any (fun w => (readRanges i c).any fun r => w.meets r)
    || (match writeRanges i c with
        | [w, v] => w.meets v
        | _ => false)

/-- Why the spec gives this command at this state no meaning, if it gives none: ranges that overlap (R86), or
a buffer, read or written, in memory whose reads have side effects or do not repeat (R79; log 11). -/
def noMeaning (i : Instr) (s : State) : Option Refusal :=
  if overlapping i s.cfg then some .overlap
  else if s.platform.volatile.any fun a => inRanges (readRanges i s.cfg ++ writeRanges i s.cfg) a then
    some .sideEffectMemory
  else none

/-- The `ERRINFO` that names each buffer in `E_RANGE` (R72, R181). -/
inductive BufId where
  | src | tree | dst | tout
  deriving DecidableEq, Repr

/-- 0 for SRC, 1 for TREE, 2 for DST, 3 for TOUT (R72). -/
def BufId.num : BufId → Word
  | .src => 0
  | .tree => 1
  | .dst => 2
  | .tout => 3

/-- `check_range` of one range (R72). -/
def rangeCheck (b : BufId) (r : Range) : Bool × Err := (!r.legal, ⟨.range, b.num⟩)

/-- The frequency table, tree or code table is not valid: information 0, 1 or 2 (R181, R182). -/
def sequenceCheck (valid : Bool) (which : Word) : Bool × Err := (!valid, ⟨.sequence, which⟩)

/-- An input of length 0: information 0 for SRC and the frequency table, 1 for the tree text (R181). -/
def emptyCheck (isEmpty : Bool) (which : Word) : Bool × Err := (isEmpty, ⟨.empty, which⟩)

/-- The upfront checks of a command after the illegal-word check, in the order of R182: the needed
structure, empty input (SRC before TREE), ranges (SRC, TREE, DST, TOUT). A true means the check fails. -/
def upfrontChecks (i : Instr) (s : State) : List (Bool × Err) :=
  let c := s.cfg
  match i with
  | .count _ => [rangeCheck .src (srcText c)]
  | .build _ => [sequenceCheck s.tabs.freqV 0, emptyCheck (s.tabs.nsym == 0) 0]
  | .gencode _ => [sequenceCheck s.tabs.treeV 1]
  | .encode _ =>
    [sequenceCheck s.tabs.codeV 2, emptyCheck (c.bufs.srcLen == 0) 0, rangeCheck .src (srcText c),
     rangeCheck .dst (dstRange c)]
  | .serialize _ => [sequenceCheck s.tabs.treeV 1, rangeCheck .tout (toutRange c)]
  | .deserialize _ => [emptyCheck (c.bufs.treeLen == 0) 1, rangeCheck .tree (treeRange c)]
  | .decode f =>
    [sequenceCheck s.tabs.treeV 1, emptyCheck (c.bufs.srcLen == 0) 0, rangeCheck .src (srcStream f c),
     rangeCheck .dst (dstRange c)]
  | .compress _ =>
    [emptyCheck (c.bufs.srcLen == 0) 0, rangeCheck .src (srcText c), rangeCheck .dst (dstRange c),
     rangeCheck .tout (toutRange c)]
  | .decompress f =>
    [emptyCheck (c.bufs.srcLen == 0) 0, emptyCheck (c.bufs.treeLen == 0) 1,
     rangeCheck .src (srcStream f c), rangeCheck .tree (treeRange c), rangeCheck .dst (dstRange c)]

/-- The first check of the list that fails (R182: exactly one error, the first met). -/
def firstFailure : List (Bool × Err) → Option Err
  | [] => none
  | (fails, e) :: cs => if fails then some e else firstFailure cs

/-- The upfront error of a command, if it has one (R182). -/
def upfront (i : Instr) (s : State) : Option Err := firstFailure (upfrontChecks i s)

/-- Error completion of command `i` (R190): its write ranges and its result registers. -/
def raiseFor (i : Instr) (e : Err) (s : State) : State := raise (writeRanges i s.cfg) (resultsOf i) e s

/-- What every command does first: no meaning under R79 and R86, then the upfront checks, then its body. -/
def checked (i : Instr) (s : State) (body : Host.Outcome State Fault Refusal) :
    Host.Outcome State Fault Refusal :=
  match noMeaning i s with
  | some r => .refused r
  | none =>
    match upfront i s with
    | some e => .next (raiseFor i e s)
    | none => body

/-- A soft reset, or the platform's reset, of the core (R210, R211): a running command is abandoned, every
byte of its write ranges takes a free value, and no other memory byte changes. -/
def resetNow (s : State) : Host.Outcome State Fault Refusal :=
  match s.engine with
  | .idle => .next (resetCore s.mem s)
  | .busy c =>
    match decode c.cmd with
    | .error _ => .next (resetCore s.mem s)
    | .ok i =>
      match noMeaning i s with
      | some r => .refused r
      | none => .next (resetCore (scribble s.drawn s.mem (writeRanges i c)) s)

/-- The write ranges of the command of a launch copy; none when its word is illegal (R71, R93). -/
def copyWrites (c : LaunchCopy) : List Range :=
  match decode c.cmd with
  | .ok i => writeRanges i c
  | .error _ => []

/-- All ranges of the command of a launch copy (R71, R93). -/
def copyRanges (c : LaunchCopy) : List Range :=
  match decode c.cmd with
  | .ok i => readRanges i c ++ writeRanges i c
  | .error _ => []

/-- The copy of the running command, none while idle (R58). -/
def runningCopies (s : State) : List LaunchCopy :=
  match s.engine with
  | .idle => []
  | .busy c => [c]

/-- The write ranges of the running command (R211). -/
def runningWrites (s : State) : List Range := (runningCopies s).flatMap copyWrites

/-- The commands whose window is open: the running one, and each completed one until the host observes its
completion. DESIGN CHOICE (log 25): R81 ends the window with `BUSY`, R220 with the host's observation; the
wider is taken. -/
def openCopies (s : State) : List LaunchCopy := runningCopies s ++ s.unseen

/-- The bytes a host read of which may return anything (R81 item 3, R220 item 2; log 25). -/
def openWrites (s : State) : List Range := (openCopies s).flatMap copyWrites

/-- The bytes a host write of which gives the run no meaning (R81 item 4, R220 item 1; log 25). -/
def openRanges (s : State) : List Range := (openCopies s).flatMap copyRanges

end Sys2Proof.Machine
end

