-- ==== Sys2Proof/Machine/Encoder.lean ====
section
/-! DEFINITION. The encoder family (spec/40_encoder.md): COUNT, BUILD, GENCODE and ENCODE, each as the
step its rule describes (which COMPRESS runs again) and the command that completes with it. -/

namespace Sys2Proof.Machine

/-! COUNT (R100 to R102). -/

/-- The counters after a text, each byte's occurrences counted (R100). -/
def countBytes (bs : List Byte) : Table Word 256 :=
  bs.foldl (fun f b => f.write b.toNat (f.read b.toNat + 1)) (Table.fill 256 0)

/-- The number of symbols with a positive counter (R51). -/
def countSymbols (f : Table Word 256) : Nat := (f.cells.filter fun w => w != 0).length

/-- The count step's results for the text `bs` (R100). -/
def Tables.counted (bs : List Byte) (t : Tables) : Tables :=
  { t with
    freq := countBytes bs
    nsym := BitVec.ofNat 9 (countSymbols (countBytes bs))
    total := BitVec.ofNat 32 bs.length
    freqV := true }

/-- A count step that ends with `E_BUS`: the table and its summary hold any value, `FREQ_V` is 0 (R102). -/
def Tables.countLost (n : Nat) (t : Tables) : Tables :=
  { t with
    freq := Table.ofFn 256 (Config.freeWord n)
    nsym := (Config.freeWord n 256).setWidth 9
    total := Config.freeWord n 257
    freqV := false }

/-- The text a command reads from SRC. -/
def srcBytes (s : State) : List Byte := readBytes s.mem (srcText s.cfg).base (srcText s.cfg).len

/-- COUNT after its checks (R100, R102). -/
def countBody (i : Instr) (s : State) : Host.Outcome State Fault Refusal :=
  match outcomeOf s [srcText s.cfg] none with
  | some e => .next (raiseFor i e { s with tabs := s.tabs.countLost s.drawn })
  | none => .next (complete { s with tabs := s.tabs.counted (srcBytes s) })

/-- COUNT (R100). -/
def execCount (f : BitFmt) (s : State) : Host.Outcome State Fault Refusal :=
  checked (.count f) s (countBody (.count f) s)

/-! BUILD (R110 to R114). -/

/-- A Leaf (R53, R110). -/
def leafNode (sym : Byte) (weight : Word) : Node := ⟨false, sym, Config.nil, Config.nil, weight⟩

/-- An Internal node (R53, R110). -/
def internalNode (left right : NodeIdx) (weight : Word) : Node := ⟨true, 0, left, right, weight⟩

/-- `NODE[k]`. -/
def nodeAt (ns : Table Node 511) (k : NodeIdx) : Node := ns.read k.toNat

/-- The Leaves of the positive counters of a list of counters whose first is symbol `s`'s (R110). -/
def leavesOf : Nat → List Word → List Node
  | _, [] => []
  | s, w :: ws => if w = 0 then leavesOf (s + 1) ws else leafNode (BitVec.ofNat 8 s) w :: leavesOf (s + 1) ws

/-- Step 1: one Leaf for each symbol with a positive counter, in increasing symbol value (R110). -/
def leafNodes (f : Table Word 256) : List Node := leavesOf 0 f.cells

/-- The store with `l` written from index `n` up. -/
def placeNodes : Table Node 511 → Nat → List Node → Table Node 511
  | ns, _, [] => ns
  | ns, n, d :: ds => placeNodes (ns.write n d) (n + 1) ds

/-- The key order of the queue: lower weight first, then lower index (R111). -/
def keyLess (ns : Table Node 511) (a b : NodeIdx) : Bool :=
  decide ((nodeAt ns a).weight.toNat < (nodeAt ns b).weight.toNat
    ∨ ((nodeAt ns a).weight.toNat = (nodeAt ns b).weight.toNat ∧ a.toNat < b.toNat))

/-- The node of least key among `m` and the list (R111). -/
def leastKey (ns : Table Node 511) (m : NodeIdx) (q : List NodeIdx) : NodeIdx :=
  q.foldl (fun m k => if keyLess ns k m then k else m) m

/-- `extract_min`: the node of least key and the queue without it (R111). -/
def extractMin (ns : Table Node 511) : List NodeIdx → Option (NodeIdx × List NodeIdx)
  | [] => none
  | k :: q => some (leastKey ns k q, (k :: q).erase (leastKey ns k q))

/-- BUILD's working state: the store, the number of nodes created, the queue (R57, R110). -/
structure Builder where
  nodes : Table Node 511
  count : Nat
  queue : List NodeIdx
  deriving DecidableEq, Repr

/-- One round of step 3: the first extracted becomes the left child, the second the right (R110, R111). -/
def mergeOnce (b : Builder) : Builder :=
  match extractMin b.nodes b.queue with
  | none => b
  | some (x, q) =>
    match extractMin b.nodes q with
    | none => b
    | some (y, q') =>
      { nodes := b.nodes.write b.count
          (internalNode x y ((nodeAt b.nodes x).weight + (nodeAt b.nodes y).weight))
        count := b.count + 1
        queue := q' ++ [BitVec.ofNat 9 b.count] }

/-- Step 3: `k` rounds; each leaves the queue one shorter, so the queue's length less one is all of them
(R110). -/
def mergeAll : Nat → Builder → Builder
  | 0, b => b
  | k + 1, b => mergeAll k (mergeOnce b)

/-- The builder after steps 1 and 2 (R110). -/
def startBuilder (ns : Table Node 511) (leaves : List Node) : Builder :=
  { nodes := placeNodes ns 0 leaves
    count := leaves.length
    queue := (List.range leaves.length).map (BitVec.ofNat 9) }

/-- Steps 1 to 4 of BUILD: the builder at the end of step 3 and the root it leaves; none when the table
holds no positive counter, which no counted table with a positive `nsym` is (R110). -/
def buildTree (ns : Table Node 511) (f : Table Word 256) : Option (Builder × NodeIdx) :=
  let leaves := leafNodes f
  let b := mergeAll (leaves.length - 1) (startBuilder ns leaves)
  match b.queue with
  | [r] => some (b, r)
  | _ => none

/-- The build step's results (R110). -/
def Tables.built (t : Tables) : Option Tables :=
  match buildTree t.node t.freq with
  | none => none
  | some (b, r) =>
    some { t with
      node := b.nodes
      nnodes := BitVec.ofNat 10 b.count
      root := r
      treeV := true
      codeV := false }

/-- BUILD after its checks (R110). -/
def buildBody (s : State) : Host.Outcome State Fault Refusal :=
  match s.tabs.built with
  | none => .fault .corruptStore
  | some t => .next (complete { s with tabs := t })

/-- BUILD (R110). -/
def execBuild (f : BitFmt) (s : State) : Host.Outcome State Fault Refusal :=
  checked (.build f) s (buildBody s)

/-! GENCODE (R120 to R123). -/

/-- The (path, symbol) pairs of the Leaves at and below node `k`, whose path is `p`, depth first and left
before right; a `NIL` branch is skipped (R120). The walk goes at most `fuel` levels down; none when an
Internal node lies deeper. -/
def leavesFrom (ns : Table Node 511) : Nat → NodeIdx → BitString → Option (List (BitString × Byte))
  | 0, k, p => if (nodeAt ns k).internal then none else some [(p, (nodeAt ns k).sym)]
  | fuel + 1, k, p =>
    if (nodeAt ns k).internal then
      let below (c : NodeIdx) (b : Bool) : Option (List (BitString × Byte)) :=
        if c = Config.nil then some [] else leavesFrom ns fuel c (p ++ [b])
      match below (nodeAt ns k).left false, below (nodeAt ns k).right true with
      | some l, some r => some (l ++ r)
      | _, _ => none
    else some [(p, (nodeAt ns k).sym)]

/-- The (path, symbol) pairs of the tree; the Leaf of a single-Leaf tree has the path `0` (R120, R121,
R142). No path is longer than `MAX_CODE_LEN`. -/
def treeLeaves (ns : Table Node 511) (root : NodeIdx) : Option (List (BitString × Byte)) :=
  if (nodeAt ns root).internal then leavesFrom ns Config.maxCodeLen root []
  else some [([false], (nodeAt ns root).sym)]

/-- The code table: every Leaf's path as its symbol's code, the Leaf visited last winning (R120, R122). -/
def codeTable (ls : List (BitString × Byte)) : Table BitString 256 :=
  ls.foldl (fun t l => t.write l.2.toNat l.1) (Table.fill 256 [])

/-- The code step's results (R120). -/
def Tables.coded (ls : List (BitString × Byte)) (t : Tables) : Tables :=
  { t with code := codeTable ls, codeV := true }

/-- GENCODE after its checks (R120). -/
def gencodeBody (s : State) : Host.Outcome State Fault Refusal :=
  match treeLeaves s.tabs.node s.tabs.root with
  | none => .fault .corruptStore
  | some ls => .next (complete { s with tabs := s.tabs.coded ls })

/-- GENCODE (R120). -/
def execGencode (f : BitFmt) (s : State) : Host.Outcome State Fault Refusal :=
  checked (.gencode f) s (gencodeBody s)

/-! ENCODE (R125 to R128). -/

/-- The codes of the text's bytes, concatenated in order; or the offset of the first byte with no code
(R125, R126). -/
def encodeStream (code : Table BitString 256) : List Byte → Nat → Except Nat BitString
  | [], _ => .ok []
  | b :: bs, i =>
    if (code.read b.toNat).length = 0 then .error i
    else
      match encodeStream code bs (i + 1) with
      | .error j => .error j
      | .ok t => .ok (code.read b.toNat ++ t)

/-- What the encode step finds when no access fails: how many bytes of DST it may access if no check
failed (R186; log 9), and the stream or the data-check error (R125). -/
structure EncodeRun where
  extent : Nat
  result : Except Err BitString
  deriving Repr

/-- The most bits the stream of a text can take, a missing code counted as the longest (R6; log 9). -/
def streamBound (code : Table BitString 256) (bs : List Byte) : Nat :=
  (bs.map fun b =>
    if (code.read b.toNat).length = 0 then Config.maxCodeLen else (code.read b.toNat).length).sum

/-- The data checks of the encode step: every lookup, then the capacity (R125). -/
def encodeRun (code : Table BitString 256) (bs : List Byte) (f : BitFmt) (cap : Nat) : EncodeRun :=
  match encodeStream code bs 0 with
  | .error i => ⟨streamBytes f (streamBound code bs), .error (errAt .lookup i)⟩
  | .ok t =>
    let need := streamBytes f t.length
    if 0xFFFFFFFF < t.length ∨ cap < need then ⟨need, .error ⟨.capacity, BufId.dst.num⟩⟩
    else ⟨need, .ok t⟩

/-- The compression ratio in hundredths of a percent (R127). -/
def ratioOf (e l : Nat) : Word := BitVec.ofNat 32 (rhe (e * 1250) l)

/-- The result registers of the encode step: `DST_LEN` bits and `RATIO` (R125). -/
def Regs.encoded (e l : Nat) (r : Regs) : Regs :=
  { r with dstLen := BitVec.ofNat 32 e, ratio := ratioOf e l }

/-- The error of a data phase, if it has one. -/
def errOf {α : Type} : Except Err α → Option Err
  | .error e => some e
  | .ok _ => none

/-- ENCODE after its checks (R125). -/
def encodeBody (i : Instr) (s : State) : Host.Outcome State Fault Refusal :=
  let run := encodeRun s.tabs.code (srcBytes s) i.fmt s.cfg.bufs.dstCap.toNat
  match outcomeOf s [srcText s.cfg, (dstRange s.cfg).first run.extent] (errOf run.result), run.result with
  | none, .ok t =>
    .next (complete { s with
      regs := s.regs.encoded t.length s.cfg.bufs.srcLen.toNat
      mem := writeBytes s.mem (dstRange s.cfg).base (streamImage i.fmt t) })
  | some e, _ => .next (raiseFor i e s)
  | none, .error e => .next (raiseFor i e s)

/-- ENCODE (R125). -/
def execEncode (f : BitFmt) (s : State) : Host.Outcome State Fault Refusal :=
  checked (.encode f) s (encodeBody (.encode f) s)

end Sys2Proof.Machine
end

