-- ==== Sys2Proof/Machine/TreeCodec.lean ====
section
/-! DEFINITION. The tree codec (spec/41_tree_codec.md): SERIALIZE writes the current tree as text,
DESERIALIZE rebuilds a tree from text. -/

namespace Sys2Proof.Machine

/-! The tree text (R141). -/

/-- The separator `" -> "` (R141). -/
def sepBytes : List Byte := [0x20, 0x2D, 0x3E, 0x20]

/-- The quote `'` (R141). -/
def quote : Byte := 0x27

/-- The byte between lines (R141). -/
def lineFeed : Byte := 0x0A

/-- The line of one Leaf (R141). -/
def treeLine (l : BitString × Byte) : List Byte := l.1.map bitChar ++ sepBytes ++ [quote, l.2, quote]

/-- The text of a tree: one line a Leaf, `0x0A` between lines and none after the last (R140, R141). -/
def treeText : List (BitString × Byte) → List Byte
  | [] => []
  | [l] => treeLine l
  | l :: ls => treeLine l ++ lineFeed :: treeText ls

/-! SERIALIZE (R140, R142, R143). -/

/-- The result register of the serialize step (R140). -/
def Regs.serialized (n : Nat) (r : Regs) : Regs := { r with toutLen := BitVec.ofNat 32 n }

/-- The capacity check of the serialize step (R140). -/
def textCheck (text : List Byte) (cap : Nat) : Option Err :=
  if cap < text.length then some ⟨.capacity, BufId.tout.num⟩ else none

/-- SERIALIZE after its checks (R140). -/
def serializeBody (i : Instr) (s : State) : Host.Outcome State Fault Refusal :=
  match treeLeaves s.tabs.node s.tabs.root with
  | none => .fault .corruptStore
  | some ls =>
    match outcomeOf s [(toutRange s.cfg).first (treeText ls).length]
        (textCheck (treeText ls) s.cfg.bufs.toutCap.toNat) with
    | some e => .next (raiseFor i e s)
    | none =>
      .next (complete { s with
        regs := s.regs.serialized (treeText ls).length
        mem := writeBytes s.mem (toutRange s.cfg).base (treeText ls) })

/-- SERIALIZE (R140). -/
def execSerialize (f : BitFmt) (s : State) : Host.Outcome State Fault Refusal :=
  checked (.serialize f) s (serializeBody (.serialize f) s)

/-! DESERIALIZE (R145 to R149). -/

/-- The byte is `0` or `1` (R147). -/
def isBitChar (b : Byte) : Bool := b == 0x30 || b == 0x31

/-- After the closing quote: the end of the text, or one `0x0A` and the rest (R145, R147). -/
def afterLine : List Byte → Option (List Byte)
  | [] => some []
  | b :: rest => if b = lineFeed then some rest else none

/-- One line of the text, its path, its symbol and the rest of the text; none is a parse error (R145,
R147). The path is the longest run of `0x30` and `0x31` bytes; separator, quote, one symbol byte and quote
follow by position. -/
def parseLine (text : List Byte) : Option (BitString × Byte × List Byte) :=
  let path := (text.takeWhile isBitChar).map fun b => b == 0x31
  let after := text.dropWhile isBitChar
  if after.take 4 = sepBytes then
    match after.drop 4 with
    | q :: sym :: q' :: rest =>
      if q = quote ∧ q' = quote then (afterLine rest).map fun r => (path, sym, r) else none
    | _ => none
  else none

/-- The trie a deserialize step grows: the store and `cnt`, the nodes allocated (R145). -/
structure Trie where
  nodes : Table Node 511
  cnt   : Nat
  deriving DecidableEq, Repr

/-- An Internal node of a deserialized tree: no children yet, weight 0 (R145). -/
def bareInternal : Node := internalNode Config.nil Config.nil 0

/-- The trie before the first line: the root alone (R145). -/
def startTrie (ns : Table Node 511) : Trie := ⟨ns.write 0 bareInternal, 1⟩

/-- The child of node `k` for a bit: left for 0, right for 1 (R145, R161). -/
def childOf (d : Node) (b : Bool) : NodeIdx := if b then d.right else d.left

/-- "set child b of NODE[k] to c" (R145). -/
def setChild (ns : Table Node 511) (k : NodeIdx) (b : Bool) (c : NodeIdx) : Table Node 511 :=
  ns.write k.toNat
    (if b then { nodeAt ns k with right := c } else { nodeAt ns k with left := c })

/-- Allocate node `d` as child `b` of node `k` (R145). -/
def allocChild (t : Trie) (k : NodeIdx) (b : Bool) (d : Node) : Trie :=
  ⟨setChild (t.nodes.write t.cnt d) k b (BitVec.ofNat 9 t.cnt), t.cnt + 1⟩

/-- `insert` below node `k` (R145): `E_STRUCT` for an empty path, a Leaf on the way or an occupied end
(R148); `E_CAPACITY` when the store is full (R149). -/
def insertFrom (sym : Byte) : BitString → NodeIdx → Trie → Except ErrCode Trie
  | [], _, _ => .error .struct
  | [b], k, t =>
    if (nodeAt t.nodes k).internal = false then .error .struct
    else if childOf (nodeAt t.nodes k) b ≠ Config.nil then .error .struct
    else if t.cnt = Config.nodeCap then .error .capacity
    else .ok (allocChild t k b (leafNode sym 0))
  | b :: b' :: p, k, t =>
    if (nodeAt t.nodes k).internal = false then .error .struct
    else if childOf (nodeAt t.nodes k) b = Config.nil then
      if t.cnt = Config.nodeCap then .error .capacity
      else insertFrom sym (b' :: p) (BitVec.ofNat 9 t.cnt) (allocChild t k b bareInternal)
    else insertFrom sym (b' :: p) (childOf (nodeAt t.nodes k) b) t

/-- `insert(p, s)`: an empty path is `E_STRUCT`, a path over `MAX_CODE_LEN` bits is `E_CAPACITY`, then
from the root (R145, R148, R149). -/
def insertLine (t : Trie) (path : BitString) (sym : Byte) : Except ErrCode Trie :=
  if path.length = 0 then .error .struct
  else if Config.maxCodeLen < path.length then .error .capacity
  else insertFrom sym path 0 t

/-- The lines of the text from line number `line` on (R145). Every line takes at least one byte, so `fuel`
at the text's length is all of them. -/
def deserializeLines : Nat → List Byte → Nat → Trie → Except Err Trie
  | 0, _, line, _ => .error (errAt .parse line)
  | fuel + 1, text, line, t =>
    match parseLine text with
    | none => .error (errAt .parse line)
    | some (path, sym, rest) =>
      match insertLine t path sym with
      | .error c => .error (errAt c line)
      | .ok t' => if rest = [] then .ok t' else deserializeLines fuel rest (line + 1) t'

/-- The deserialize step on a text (R145). -/
def deserializeText (ns : Table Node 511) (text : List Byte) : Except Err Trie :=
  deserializeLines text.length text 0 (startTrie ns)

/-- The text a command reads from TREE. -/
def treeBytes (s : State) : List Byte := readBytes s.mem (treeRange s.cfg).base (treeRange s.cfg).len

/-- The deserialize step's results (R145). -/
def Tables.deserialized (t : Trie) (tb : Tables) : Tables :=
  { tb with
    node := t.nodes
    nnodes := BitVec.ofNat 10 t.cnt
    root := 0
    treeV := true
    codeV := false }

/-- A deserialize step that fails after its upfront checks: no tree and no code table, and the store,
`NNODES` and `ROOT` hold any value (R146). -/
def Tables.treeLost (n : Nat) (tb : Tables) : Tables :=
  { tb with
    node := Table.ofFn 511 (Config.freeNode n)
    nnodes := (Config.freeWord n 258).setWidth 10
    root := (Config.freeWord n 259).setWidth 9
    treeV := false
    codeV := false }

/-- DESERIALIZE after its checks (R145, R146). -/
def deserializeBody (i : Instr) (s : State) : Host.Outcome State Fault Refusal :=
  let run := deserializeText s.tabs.node (treeBytes s)
  match outcomeOf s [treeRange s.cfg] (errOf run), run with
  | none, .ok t => .next (complete { s with tabs := s.tabs.deserialized t })
  | some e, _ => .next (raiseFor i e { s with tabs := s.tabs.treeLost s.drawn })
  | none, .error e => .next (raiseFor i e { s with tabs := s.tabs.treeLost s.drawn })

/-- DESERIALIZE (R145). -/
def execDeserialize (f : BitFmt) (s : State) : Host.Outcome State Fault Refusal :=
  checked (.deserialize f) s (deserializeBody (.deserialize f) s)

end Sys2Proof.Machine
end

