-- ==== Sys2Proof/Machine/Decoder.lean ====
section
/-! DEFINITION. The tree-walk decoder (spec/42_decoder.md): DECODE. -/

namespace Sys2Proof.Machine

/-- The child function of the walk (R161): from `TOP` the root's children, or for a single-Leaf tree the
Leaf itself on 0 and nothing on 1; from an Internal node its child. -/
def walkChild (ns : Table Node 511) (root : NodeIdx) (w : WalkPtr) (b : Bool) : NodeIdx :=
  match w with
  | .top =>
    if (nodeAt ns root).internal then childOf (nodeAt ns root) b
    else if b then Config.nil else root
  | .node k => childOf (nodeAt ns k) b

/-- What the decode step finds when no access fails: the bytes decoded before it ends, the data-check error
it ends with, if any, and how many bits it leaves undecoded, the failing one among them. -/
structure DecodeRun where
  out  : List Byte
  err  : Option Err
  left : Nat
  deriving DecidableEq, Repr

/-- The decode loop from bit `i` on (R160): `E_BADBIT`, `E_MALFORMED` and `E_CAPACITY` at the bit being
consumed, `E_TRUNC` when the last bit leaves the walk below `TOP` (R162 to R166). `bits` is the rest of the
stream, so at its end `i` is `SRC_LEN`. -/
def decodeBits (ns : Table Node 511) (root : NodeIdx) (cap : Nat) :
    List (Option Bool) → Nat → WalkPtr → List Byte → DecodeRun
  | [], i, w, out => if w = .top then ⟨out, none, 0⟩ else ⟨out, some (errAt .trunc i), 0⟩
  | none :: bits, i, _, out => ⟨out, some (errAt .badbit i), bits.length + 1⟩
  | some b :: bits, i, w, out =>
    let c := walkChild ns root w b
    if c = Config.nil then ⟨out, some (errAt .malformed i), bits.length + 1⟩
    else if (nodeAt ns c).internal then decodeBits ns root cap bits (i + 1) (.node c) out
    else if out.length = cap then ⟨out, some (errAt .capacity i), bits.length + 1⟩
    else decodeBits ns root cap bits (i + 1) .top (out ++ [(nodeAt ns c).sym])

/-- The decode step over the tree of `tb`, from `TOP` with nothing decoded (R160). -/
def decodeRun (tb : Tables) (f : BitFmt) (s : State) : DecodeRun :=
  decodeBits tb.node tb.root s.cfg.bufs.dstCap.toNat
    (readBits s.mem s.cfg.bufs.srcBase.toNat s.cfg.bufs.srcLen.toNat f) 0 .top []

/-- How many bytes of DST the decode step may access if no check failed: those it decoded, and one at most for
each bit left, since a symbol takes a bit or more (R160, R186; log 9). -/
def DecodeRun.extent (run : DecodeRun) : Nat := run.out.length + run.left

/-- The result register of the decode step: `DST_LEN` bytes (R160). -/
def Regs.decoded (n : Nat) (r : Regs) : Regs := { r with dstLen := BitVec.ofNat 32 n }

/-- DECODE after its checks (R160). -/
def decodeBody (i : Instr) (s : State) : Host.Outcome State Fault Refusal :=
  let run := decodeRun s.tabs i.fmt s
  match outcomeOf s [srcStream i.fmt s.cfg, (dstRange s.cfg).first run.extent] run.err with
  | some e => .next (raiseFor i e s)
  | none =>
    .next (complete { s with
      regs := s.regs.decoded run.out.length
      mem := writeBytes s.mem (dstRange s.cfg).base run.out })

/-- DECODE (R160). -/
def execDecode (f : BitFmt) (s : State) : Host.Outcome State Fault Refusal :=
  checked (.decode f) s (decodeBody (.decode f) s)

end Sys2Proof.Machine
end

