-- ==== Sys2Proof/Machine/Composite.lean ====
section
/-! DEFINITION. The composite commands (spec/43_composite.md): COMPRESS and DECOMPRESS, each running the
steps of the component commands in order over the shared definitions of those steps. -/

namespace Sys2Proof.Machine

/-- The first data-check error of COMPRESS: the encode step's, then the serialize step's (R170). -/
def compressErr (run : EncodeRun) (text : List Byte) (toutCap : Nat) : Option Err :=
  match run.result with
  | .error e => some e
  | .ok _ => textCheck text toutCap

/-- The encode and serialize steps of COMPRESS and its end, over the tables `tb` its first three steps
leave and the tree's Leaves `ls` (R170). An error leaves those tables, but `E_BUS` with a failing address in
SRC is the count step's, which leaves the tree and the code table of before (R102, R170). -/
def compressEnd (i : Instr) (s : State) (tb : Tables) (ls : List (BitString × Byte)) : State :=
  let c := s.cfg
  let run := encodeRun tb.code (srcBytes s) i.fmt c.bufs.dstCap.toNat
  let text := treeText ls
  match outcomeOf s
      [srcText c, (dstRange c).first run.extent, (toutRange c).first text.length]
      (compressErr run text c.bufs.toutCap.toNat), run.result with
  | none, .ok t =>
    complete { s with
      tabs := tb
      regs := (s.regs.encoded t.length c.bufs.srcLen.toNat).serialized text.length
      mem := writeBytes (writeBytes s.mem (dstRange c).base (streamImage i.fmt t)) (toutRange c).base text }
  | some e, _ =>
    if e.code = .bus ∧ failing s [srcText c] ≠ [] then
      raiseFor i e { s with tabs := s.tabs.countLost s.drawn }
    else raiseFor i e { s with tabs := tb }
  | none, .error e => raiseFor i e { s with tabs := tb }

/-- COMPRESS after its checks (R170). -/
def compressBody (i : Instr) (s : State) : Host.Outcome State Fault Refusal :=
  match (s.tabs.counted (srcBytes s)).built with
  | none => .fault .corruptStore
  | some t =>
    match treeLeaves t.node t.root with
    | none => .fault .corruptStore
    | some ls => .next (compressEnd i s (t.coded ls) ls)

/-- COMPRESS (R170). -/
def execCompress (f : BitFmt) (s : State) : Host.Outcome State Fault Refusal :=
  checked (.compress f) s (compressBody (.compress f) s)

/-- The decode step of DECOMPRESS and its end, over the tables `tb` its deserialize step leaves (R174). An
error leaves that tree valid, but `E_BUS` with a failing address in TREE is the deserialize step's (R146). -/
def decompressEnd (i : Instr) (s : State) (tb : Tables) : State :=
  let c := s.cfg
  let run := decodeRun tb i.fmt s
  match outcomeOf s [srcStream i.fmt c, treeRange c, (dstRange c).first run.extent] run.err with
  | some e =>
    if e.code = .bus ∧ failing s [treeRange c] ≠ [] then
      raiseFor i e { s with tabs := s.tabs.treeLost s.drawn }
    else raiseFor i e { s with tabs := tb }
  | none =>
    complete { s with
      tabs := tb
      regs := s.regs.decoded run.out.length
      mem := writeBytes s.mem (dstRange c).base run.out }

/-- DECOMPRESS whose deserialize step cannot complete: its data-check error, or `E_BUS` at a failing address
of SRC, TREE or the first `SRC_LEN` bytes of DST, the most that a stream of `SRC_LEN` bits decodes to (R146,
R160, R174, R186; log 9). -/
def decompressLost (i : Instr) (s : State) (e : Err) : State :=
  match outcomeOf s
      [srcStream i.fmt s.cfg, treeRange s.cfg, (dstRange s.cfg).first s.cfg.bufs.srcLen.toNat] (some e) with
  | some e' => raiseFor i e' { s with tabs := s.tabs.treeLost s.drawn }
  | none => raiseFor i e { s with tabs := s.tabs.treeLost s.drawn }

/-- DECOMPRESS after its checks (R174). -/
def decompressBody (i : Instr) (s : State) : Host.Outcome State Fault Refusal :=
  match deserializeText s.tabs.node (treeBytes s) with
  | .error e => .next (decompressLost i s e)
  | .ok t => .next (decompressEnd i s (s.tabs.deserialized t))

/-- DECOMPRESS (R174). -/
def execDecompress (f : BitFmt) (s : State) : Host.Outcome State Fault Refusal :=
  checked (.decompress f) s (decompressBody (.decompress f) s)

end Sys2Proof.Machine
end

