-- ==== Sys2Proof/Machine/Dispatch.lean ====
section
/-! DEFINITION. The dispatch: one arm a command, each the meaning its rule gives it
(spec/30_encoding.md R92). -/

namespace Sys2Proof.Machine

def exec (i : Instr) (s : State) : Host.Outcome State Fault Refusal :=
  match i with
  | .count f => Sys2Proof.Machine.execCount f s
  | .build f => Sys2Proof.Machine.execBuild f s
  | .gencode f => Sys2Proof.Machine.execGencode f s
  | .encode f => Sys2Proof.Machine.execEncode f s
  | .serialize f => Sys2Proof.Machine.execSerialize f s
  | .deserialize f => Sys2Proof.Machine.execDeserialize f s
  | .decode f => Sys2Proof.Machine.execDecode f s
  | .compress f => Sys2Proof.Machine.execCompress f s
  | .decompress f => Sys2Proof.Machine.execDecompress f s

end Sys2Proof.Machine
end

