-- ==== Sys2Proof/Machine/Flags.lean ====
section
/-! DEFINITION. The status, flag and interrupt words of the core: `STATUS` (spec/10_state.md R29), `IRQ_EN`
(R31), `IRQ_STAT` (R32), the valid flags (R52) and the interrupt line (spec/60_exceptions.md R192). -/

namespace Sys2Proof.Machine

/-- A flag as a word with that one bit. -/
def bitWord (b : Bool) (i : Nat) : Word := BitVec.ofNat 32 (b.toNat * 2 ^ i)

/-- The engine is busy (R21). -/
def State.isBusy (s : State) : Bool :=
  match s.engine with
  | .idle => false
  | .busy _ => true

/-- The three valid flags as `STATUS` bits 8, 9 and 10 (R29). -/
def validBits (freqV treeV codeV : Bool) : Word := bitWord freqV 8 ||| bitWord treeV 9 ||| bitWord codeV 10

/-- `STATUS` bits 7:0: `BUSY`, `ERR`, reserved bits 3:2 as 0, `ERRCODE` (R29). -/
def statusLow (s : State) : Word :=
  bitWord s.isBusy 0 ||| bitWord s.regs.err 1 ||| (s.regs.errcode.setWidth 32 <<< 4)

/-- `STATUS` as read while idle (R29). -/
def statusWord (s : State) : Word := statusLow s ||| validBits s.tabs.freqV s.tabs.treeV s.tabs.codeV

/-- `STATUS` as read while busy: bits 10:8 take any value, the others are as R29 says (R69). -/
def statusBusy (free : Word) (s : State) : Word := statusLow s ||| (free &&& 0x700)

/-- `IRQ_EN` (R31). -/
def irqEnWord (r : Regs) : Word := bitWord r.doneIe 0 ||| bitWord r.errIe 1

/-- `IRQ_STAT` (R32). -/
def irqStatWord (r : Regs) : Word := bitWord r.doneIp 0 ||| bitWord r.errIp 1

/-- A write of `IRQ_EN` (R31); reserved bits are ignored (R24). -/
def Regs.writeIrqEn (v : Word) (r : Regs) : Regs := { r with doneIe := v.getLsbD 0, errIe := v.getLsbD 1 }

/-- A write of `IRQ_STAT` clears each pending bit where the value has a 1 (R32, R193). -/
def Regs.ackIrq (v : Word) (r : Regs) : Regs :=
  { r with doneIp := r.doneIp && !v.getLsbD 0, errIp := r.errIp && !v.getLsbD 1 }

/-- The interrupt line, level-sensitive and active-high (R192). -/
def irqLine (s : State) : Bool := (s.regs.doneIp && s.regs.doneIe) || (s.regs.errIp && s.regs.errIe)

end Sys2Proof.Machine
end

