-- ==== Sys2Proof/Machine/Registers.lean ====
section
/-! DEFINITION. The register block as the host reads and writes it (spec/10_state.md R22 to R46), and the
read-only views of the internal state (R60 to R68). -/

namespace Sys2Proof.Machine

/-! The views (R60 to R68): each reads 0 while its structure is not valid. -/

/-- `NSYM` (R60). -/
def viewNsym (t : Tables) : Word := if t.freqV then t.nsym.setWidth 32 else 0

/-- `TOTAL` (R61). -/
def viewTotal (t : Tables) : Word := if t.freqV then t.total else 0

/-- `NNODES` (R62). -/
def viewNnodes (t : Tables) : Word := if t.treeV then t.nnodes.setWidth 32 else 0

/-- `ROOT` (R63). -/
def viewRoot (t : Tables) : Word := if t.treeV then t.root.setWidth 32 else 0

/-- `CODEBITSk` for symbol `sel`: bit `31 - j` is bit `32k + j` of the code (R64). -/
def viewCodeBits (t : Tables) (sel : Byte) (k : Nat) : Word :=
  if t.codeV then
    BitVec.ofNat 32 (((List.range 32).map fun j =>
      if (t.code.read sel.toNat).getD (32 * k + j) false then 2 ^ (31 - j) else 0).sum)
  else 0

/-- The node views show index `k` (R65, R66). -/
def nodeShown (t : Tables) (k : BitVec 9) : Bool := t.treeV && decide (k.toNat < t.nnodes.toNat)

/-- `NODE_W` for index `k` (R65). -/
def viewNodeW (t : Tables) (k : BitVec 9) : Word := if nodeShown t k then (nodeAt t.node k).weight else 0

/-- A node as `NODE_INFO` lays it out: `LEFT` 8:0, `RIGHT` 17:9, `SYM` 25:18, `INTERNAL` 26 (R66). -/
def nodeInfoWord (d : Node) : Word :=
  d.left.setWidth 32 ||| (d.right.setWidth 32 <<< 9) ||| (d.sym.setWidth 32 <<< 18) ||| bitWord d.internal 26

/-- `NODE_INFO` for index `k` (R66). -/
def viewNodeInfo (t : Tables) (k : BitVec 9) : Word := if nodeShown t k then nodeInfoWord (nodeAt t.node k) else 0

/-- `FREQ_W[s]` (R67). -/
def viewFreq (t : Tables) (s : Byte) : Word := if t.freqV then t.freq.read s.toNat else 0

/-- `CODE_LEN_W[s]`: the 8-bit `len` of the code, zero-extended (R56, R68). -/
def viewCodeLen (t : Tables) (s : Byte) : Word :=
  if t.codeV then (BitVec.ofNat 8 (t.code.read s.toNat).length).setWidth 32 else 0

/-- What a register reads as while the engine is idle (R22 to R45, R60 to R68). -/
def readReg (s : State) : RegName → Word
  | .id => Config.idValue
  | .version => Config.versionValue
  | .ctrl => 0
  | .cmd => s.regs.cmd
  | .status => statusWord s
  | .errinfo => s.regs.errinfo
  | .irqEn => irqEnWord s.regs
  | .irqStat => irqStatWord s.regs
  | .srcBase => s.regs.bufs.srcBase
  | .srcLen => s.regs.bufs.srcLen
  | .treeBase => s.regs.bufs.treeBase
  | .treeLen => s.regs.bufs.treeLen
  | .dstBase => s.regs.bufs.dstBase
  | .dstCap => s.regs.bufs.dstCap
  | .toutBase => s.regs.bufs.toutBase
  | .toutCap => s.regs.bufs.toutCap
  | .dstLen => s.regs.dstLen
  | .toutLen => s.regs.toutLen
  | .ratio => s.regs.ratio
  | .nsym => viewNsym s.tabs
  | .total => viewTotal s.tabs
  | .nnodes => viewNnodes s.tabs
  | .root => viewRoot s.tabs
  | .codeSel => s.regs.codeSel.setWidth 32
  | .codeBits k => viewCodeBits s.tabs s.regs.codeSel k.val
  | .nodeSel => s.regs.nodeSel.setWidth 32
  | .nodeW => viewNodeW s.tabs s.regs.nodeSel
  | .nodeInfo => viewNodeInfo s.tabs s.regs.nodeSel
  | .freqW b => viewFreq s.tabs b
  | .codeLenW b => viewCodeLen s.tabs b

/-- The registers that read as any value while the engine is busy, but for `STATUS`, of which only bits
10:8 do (R69). -/
def freeWhileBusy : RegName → Bool
  | .errinfo | .dstLen | .toutLen | .ratio | .nsym | .total | .nnodes | .root | .codeBits _ | .nodeW
  | .nodeInfo | .freqW _ | .codeLenW _ => true
  | .id | .version | .ctrl | .cmd | .status | .irqEn | .irqStat | .srcBase | .srcLen | .treeBase
  | .treeLen | .dstBase | .dstCap | .toutBase | .toutCap | .codeSel | .nodeSel => false

/-- What a read of a register returns, draw `s.drawn` supplying what is free while busy (R69). -/
def regValue (s : State) (r : RegName) : Word :=
  if s.isBusy then
    if freeWhileBusy r then Config.freeWord s.drawn 0
    else if r = .status then statusBusy (Config.freeWord s.drawn 0) s
    else readReg s r
  else readReg s r

/-- The configuration registers after a write, none for another register (R33 to R40). -/
def writeBuf (r : RegName) (v : Word) (b : BufRegs) : Option BufRegs :=
  match r with
  | .srcBase => some { b with srcBase := v }
  | .srcLen => some { b with srcLen := v }
  | .treeBase => some { b with treeBase := v }
  | .treeLen => some { b with treeLen := v }
  | .dstBase => some { b with dstBase := v }
  | .dstCap => some { b with dstCap := v }
  | .toutBase => some { b with toutBase := v }
  | .toutCap => some { b with toutCap := v }
  | _ => none

/-- A write of a register that an idle engine takes and a busy one ignores: `CMD`, the configuration
registers and the selectors (R28, R33 to R40, R44 to R46). Other registers are read-only: ignored. -/
def writeWhenIdle (r : RegName) (v : Word) (s : State) : State :=
  if s.isBusy then s
  else match r with
    | .cmd => launch v s
    | .codeSel => { s with regs := { s.regs with codeSel := v.setWidth 8 } }
    | .nodeSel => { s with regs := { s.regs with nodeSel := v.setWidth 9 } }
    | _ =>
      match writeBuf r v s.regs.bufs with
      | some b => { s with regs := { s.regs with bufs := b } }
      | none => s

/-- A host write to a register (R22 to R46): `CTRL`, `IRQ_EN` and `IRQ_STAT` at any time, the others only
while idle. -/
def writeReg (r : RegName) (v : Word) (s : State) : Host.Outcome State Fault Refusal :=
  match r with
  | .ctrl => if v.getLsbD 0 then resetNow s else .next s
  | .irqEn => .next { s with regs := s.regs.writeIrqEn v }
  | .irqStat => .next { s with regs := s.regs.ackIrq v }
  | _ => .next (writeWhenIdle r v s)

end Sys2Proof.Machine
end

