-- ==== Sys2Proof/Machine/HostPort.lean ====
section
/-! DEFINITION. The host's steps (spec/20_memory.md R80, R81): one access to the register block, one access to
a byte of memory, or the acceptance of the interrupt. What a read returns is recorded in `seen`. -/

namespace Sys2Proof.Machine

/-- A host read returned `v`; every read takes one draw, used or not. -/
def sawWord (v : Word) (s : State) : State := { s with seen := v :: s.seen, drawn := s.drawn + 1 }

/-- Why the spec gives a host access no meaning, if it gives none (R22, R23). -/
def accessRefusal (base : Nat) (a : RegAccess) : Option Refusal :=
  if !a.inBlock base then some .outsideBlock
  else if !(a.isWord && a.aligned base) then some .badRegAccess
  else none

/-- What a host read of a register returns: while a completion is unobserved, the registers that are free
while busy stay free (R220 item 3; log 25). A `STATUS` read while idle observes, and is exact (R81 item 2). -/
def hostValue (s : State) (r : RegName) : Word :=
  if !s.unseen.isEmpty && freeWhileBusy r then Config.freeWord s.drawn 0 else regValue s r

/-- The host observes that the engine is idle: no completion is unobserved any more (R81 item 2). -/
def observe (s : State) : State := { s with unseen := [] }

/-- A `STATUS` read that returns `BUSY` = 0 observes every completion before it (R81 item 2). -/
def observedBy (r : RegName) (s : State) : State :=
  if r = .status ∧ s.isBusy = false then observe s else s

/-- A host read of the block; a reserved offset reads 0 (R23). -/
def hostRegRead (a : RegAccess) (s : State) : Host.Outcome State Fault Refusal :=
  match accessRefusal s.platform.regBase a with
  | some r => .refused r
  | none =>
    match regAt (a.offset s.platform.regBase) with
    | some r => .next (sawWord (hostValue s r) (observedBy r s))
    | none => .next (sawWord 0 s)

/-- A host write to the block; a write to a reserved offset is ignored (R23). -/
def hostRegWrite (a : RegAccess) (v : Word) (s : State) : Host.Outcome State Fault Refusal :=
  match accessRefusal s.platform.regBase a with
  | some r => .refused r
  | none =>
    match regAt (a.offset s.platform.regBase) with
    | some r => writeReg r v s
    | none => .next s

/-- A host read of one byte of memory; a byte of a write range of a command that runs or is unobserved reads
as any value (R81 item 3, R220 item 2). -/
def hostMemRead (a : Word) (s : State) : Host.Outcome State Fault Refusal :=
  if inRanges (openWrites s) a.toNat then
    .next (sawWord ((Config.freeByte s.drawn a.toNat).setWidth 32) s)
  else .next (sawWord ((s.mem.read a.toNat).setWidth 32) s)

/-- A host write of one byte of memory; a byte of a range of a command that runs or is unobserved gives the
run no meaning (R81 item 4, R220 item 1). -/
def hostMemWrite (a : Word) (v : Byte) (s : State) : Host.Outcome State Fault Refusal :=
  if inRanges (openRanges s) a.toNat then .refused .hostWroteBusyRange
  else .next { s with mem := s.mem.write a.toNat v }

/-- The host accepts the completion interrupt, which observes every completion before it (R81 item 2); with
the line low there is none to accept (R192). -/
def hostIrqAccept (s : State) : Host.Outcome State Fault Refusal :=
  .next (if irqLine s then observe s else s)

end Sys2Proof.Machine
end

