-- ==== Sys2Proof/Machine/Step.lean ====
section
/-! DEFINITION. One step of the world (spec/20_memory.md R80): the agent that `events` names next moves;
when it names none, the engine completes the running command, or, idle, does nothing (spec/60_exceptions.md
R201). -/

namespace Sys2Proof.Machine

/-- The completion step of the engine (R80): the running command's meaning, or `E_ILLEGAL` for a word that
is none (R93); an idle engine has nothing to complete. -/
def completeRunning (s : State) : Host.Outcome State Fault Refusal :=
  match s.engine with
  | .idle => .next s
  | .busy c =>
    match decode c.cmd with
    | .ok i => exec i s
    | .error _ => .next (raiseIllegal c.cmd s)

/-- One step (R80). -/
def step (s : State) : Host.Outcome State Fault Refusal :=
  match s.events with
  | [] => completeRunning s
  | .complete :: es => completeRunning { s with events := es }
  | .regRead a :: es => hostRegRead a { s with events := es }
  | .regWrite a v :: es => hostRegWrite a v { s with events := es }
  | .memRead a :: es => hostMemRead a { s with events := es }
  | .memWrite a v :: es => hostMemWrite a v { s with events := es }
  | .irqAccept :: es => hostIrqAccept { s with events := es }
  | .hwReset :: es => resetNow { s with events := es }

/-- The state whose very next step runs the command of word `w`: the word launched (R91) and the completion
next (log 4). -/
def State.withFetchWord (s : State) (nbits w : Nat) : State :=
  { launch (BitVec.ofNat 32 (w % 2 ^ nbits)) s with events := .complete :: s.events }

end Sys2Proof.Machine
end

