-- ==== Sys2Proof/Safety.lean ====
section
/-! DEFINITION. What counts as a safe run, in the terms the claims use: the invariant every step keeps, the
conditions under which a command runs normally, how a command ends, and what it leaves unchanged. -/

namespace Sys2Proof.Machine

/-! The invariant. Each part is a Bool, so that a concrete state can be checked. -/

/-- `ERR` is 1 exactly when `ERRCODE` is not 0 (R29); idle after a success, `ERRINFO` is 0 (R30); busy, the
error is cleared and the engine holds the copy of `CMD` and the configuration registers, which nothing has
changed since (R46, R91); outside a command's run the queue is empty and no position is held (R57, R58). -/
def regsOk (s : State) : Bool :=
  (s.regs.err == (s.regs.errcode != 0)) && decide (s.work = Work.rest)
    && (match s.engine with
        | .idle => s.regs.err || s.regs.errinfo == 0
        | .busy c => !s.regs.err && decide (c = ⟨s.regs.cmd, s.regs.bufs⟩))

/-- The sum of the counters. -/
def freqTotal (f : Table Word 256) : Nat := (f.cells.map BitVec.toNat).sum

/-- A valid frequency table adds up to `total`, and `nsym` counts its positive counters (R50, R51, R101). -/
def freqOk (t : Tables) : Bool :=
  !t.freqV || (freqTotal t.freq == t.total.toNat && t.nsym.toNat == countSymbols t.freq)

/-- No code is longer than `MAX_CODE_LEN` (R6, R56). -/
def codeOk (t : Tables) : Bool := t.code.cells.all fun c => decide (c.length ≤ Config.maxCodeLen)

/-- A child is `NIL` or a node in use. -/
def childOk (m : Nat) (c : NodeIdx) : Bool := c == Config.nil || decide (c.toNat < m)

/-- The form of a node of a tree of `m` nodes (R53). -/
def nodeOk (m : Nat) (d : Node) : Bool :=
  if d.internal then d.sym == 0 && childOk m d.left && childOk m d.right
  else d.left == Config.nil && d.right == Config.nil

/-- A valid tree has its nodes and its root in the store, and every node in use has its form (R53 to R55). -/
def storeOk (t : Tables) : Bool :=
  !t.treeV || (decide (1 ≤ t.nnodes.toNat ∧ t.nnodes.toNat ≤ Config.nodeCap ∧ t.root.toNat < t.nnodes.toNat)
    && (List.range t.nnodes.toNat).all fun k => nodeOk t.nnodes.toNat (t.node.read k))

/-- A valid tree's walk from the root ends within `MAX_CODE_LEN` levels (R114, R149). -/
def treeOk (t : Tables) : Bool := !t.treeV || (treeLeaves t.node t.root).isSome

/-- The invariant of the machine. -/
def inv (s : State) : Bool :=
  s.mem.wf && regsOk s && freqOk s.tabs && codeOk s.tabs && storeOk s.tabs && treeOk s.tabs

/-! When a command runs. -/

/-- The spec gives the command a meaning here (R79, R86) and no upfront check fails (R182). -/
abbrev Ready (i : Instr) (s : State) : Prop := noMeaning i s = none ∧ upfront i s = none

/-- No address of the command's ranges answers with a bus error (R186). -/
abbrev Quiet (i : Instr) (s : State) : Prop := failing s (readRanges i s.cfg ++ writeRanges i s.cfg) = []

/-! How a command ends, and what it leaves. -/

/-- The platform, the host's further steps and what the host has read are as before. -/
def HostSame (s t : State) : Prop := t.platform = s.platform ∧ t.events = s.events ∧ t.seen = s.seen

/-- The registers only the host writes are as before. -/
def HostRegsSame (s t : State) : Prop :=
  t.regs.cmd = s.regs.cmd ∧ t.regs.bufs = s.regs.bufs ∧ t.regs.doneIe = s.regs.doneIe
    ∧ t.regs.errIe = s.regs.errIe ∧ t.regs.codeSel = s.regs.codeSel ∧ t.regs.nodeSel = s.regs.nodeSel

/-- The three result registers are as before. -/
def ResultsSame (s t : State) : Prop :=
  t.regs.dstLen = s.regs.dstLen ∧ t.regs.toutLen = s.regs.toutLen ∧ t.regs.ratio = s.regs.ratio

/-- The frequency table, its summary and its flag are as before. -/
def FreqSame (s t : State) : Prop :=
  t.tabs.freq = s.tabs.freq ∧ t.tabs.nsym = s.tabs.nsym ∧ t.tabs.total = s.tabs.total
    ∧ t.tabs.freqV = s.tabs.freqV

/-- The node store, its size, its root and its flag are as before. -/
def TreeSame (s t : State) : Prop :=
  t.tabs.node = s.tabs.node ∧ t.tabs.nnodes = s.tabs.nnodes ∧ t.tabs.root = s.tabs.root
    ∧ t.tabs.treeV = s.tabs.treeV

/-- The code table and its flag are as before. -/
def CodeSame (s t : State) : Prop := t.tabs.code = s.tabs.code ∧ t.tabs.codeV = s.tabs.codeV

/-- Every byte of memory outside the ranges reads as before. -/
def MemSameOutside (rs : List Range) (s t : State) : Prop :=
  ∀ a, inRanges rs a = false → t.mem.read a = s.mem.read a

/-- Successful completion (R189), everything it does not write as before. -/
def EndsWell (s t : State) : Prop :=
  t.engine = .idle ∧ t.work = Work.rest ∧ HostSame s t ∧ HostRegsSame s t ∧ t.regs.err = false
    ∧ t.regs.errcode = 0 ∧ t.regs.errinfo = 0 ∧ t.regs.doneIp = true ∧ t.regs.errIp = s.regs.errIp

/-- Error completion with code number `c` and information `x` (R190), everything it does not write as
before. The result registers and memory are said apart. -/
def EndsInError (c : BitVec 4) (x : Word) (s t : State) : Prop :=
  t.engine = .idle ∧ t.work = Work.rest ∧ HostSame s t ∧ HostRegsSame s t ∧ t.regs.err = true
    ∧ t.regs.errcode = c ∧ t.regs.errinfo = x ∧ t.regs.doneIp = true ∧ t.regs.errIp = true

/-- The bytes a successful command has written: the result's bytes in each write range (R78). -/
def writtenRanges (i : Instr) (c : LaunchCopy) (r : Regs) : List Range :=
  match i with
  | .count _ => []
  | .build _ => []
  | .gencode _ => []
  | .encode f => [⟨c.bufs.dstBase.toNat, streamBytes f r.dstLen.toNat⟩]
  | .serialize _ => [⟨c.bufs.toutBase.toNat, r.toutLen.toNat⟩]
  | .deserialize _ => []
  | .decode _ => [⟨c.bufs.dstBase.toNat, r.dstLen.toNat⟩]
  | .compress f => [⟨c.bufs.dstBase.toNat, streamBytes f r.dstLen.toNat⟩, ⟨c.bufs.toutBase.toNat, r.toutLen.toNat⟩]
  | .decompress _ => [⟨c.bufs.dstBase.toNat, r.dstLen.toNat⟩]

/-! Streams, trees and texts as the claims speak of them. -/

/-- The stream of a text under a code table: the bytes' codes in order (R125). -/
def streamOf (code : Table BitString 256) (bs : List Byte) : BitString := bs.flatMap fun b => code.read b.toNat

/-- The stream that visits the given Leaves in order. -/
def pathsOf (xs : List (BitString × Byte)) : BitString := xs.flatMap fun l => l.1

/-- The bits SRC holds, as the decode step reads them (R89). -/
def srcBits (f : BitFmt) (s : State) : List (Option Bool) :=
  readBits s.mem s.cfg.bufs.srcBase.toNat s.cfg.bufs.srcLen.toNat f

/-- The bits `p` lead from node `k` to a Leaf of symbol `b`, left on 0 and right on 1, never to `NIL`
(R120, R140). -/
def leadsToLeaf (ns : Table Node 511) : NodeIdx → BitString → Byte → Bool
  | k, [], b => !(nodeAt ns k).internal && (nodeAt ns k).sym == b
  | k, false :: p, b =>
    (nodeAt ns k).internal && (nodeAt ns k).left != Config.nil && leadsToLeaf ns (nodeAt ns k).left p b
  | k, true :: p, b =>
    (nodeAt ns k).internal && (nodeAt ns k).right != Config.nil && leadsToLeaf ns (nodeAt ns k).right p b

/-- `ls` is the depth-first, left-before-right list of the tree's (path, symbol) pairs: the pairs of the
paths that lead to a Leaf, and where two paths part the earlier goes left (R120, R140); for a single-Leaf
tree the path is `0` (R121, R142). -/
def IsWalk (ns : Table Node 511) (root : NodeIdx) (ls : List (BitString × Byte)) : Prop :=
  ((nodeAt ns root).internal = false → ls = [([false], (nodeAt ns root).sym)])
  ∧ ((nodeAt ns root).internal = true →
      (∀ (p : BitString) (b : Byte), (p, b) ∈ ls ↔ leadsToLeaf ns root p b = true)
      ∧ ls.Pairwise fun l m => ∃ r p q, l.1 = r ++ false :: p ∧ m.1 = r ++ true :: q)

/-- The bits `p` lead from Internal node `k` down to Internal node `k'`, each step to a child (R161). -/
def descends (ns : Table Node 511) : NodeIdx → BitString → NodeIdx → Bool
  | k, [], k' => (nodeAt ns k).internal && k == k'
  | k, b :: p, k' =>
    (nodeAt ns k).internal && childOf (nodeAt ns k) b != Config.nil
      && descends ns (childOf (nodeAt ns k) b) p k'

/-- How many nodes below the root a trie of these paths has: their distinct non-empty prefixes (R145). -/
def prefixCount (ls : List (BitString × Byte)) : Nat :=
  ((ls.flatMap fun l => (List.range l.1.length).map fun j => l.1.take (j + 1)).dedup).length

/-- A tree text DESERIALIZE accepts (R147 to R149): at least one line, every path of 1 to 255 bits, no path
a prefix of another line's, and room in the node store. -/
def acceptable (ls : List (BitString × Byte)) : Bool :=
  !ls.isEmpty && ls.all (fun l => decide (1 ≤ l.1.length ∧ l.1.length ≤ Config.maxCodeLen))
    && decide (ls.Pairwise fun l m => ¬ l.1 <+: m.1 ∧ ¬ m.1 <+: l.1)
    && decide (prefixCount ls + 1 ≤ Config.nodeCap)

end Sys2Proof.Machine
end

