-- ==== Sys2Proof/Certificates/Slice0/Obligations.lean ====
section
/-! DEFINITION. The statements for the provers, from the spec's numbered rules. -/

open Sys2Proof Sys2Proof.Machine

/-! ## Encoding and the running of commands -/

/-- R90, R92, R93: words written out bit by bit from the format of R90 decode to the commands of R92, and
the reserved ones to a rejection by name. A sanity statement. -/
def Obligations.WrittenWordsDecode : Prop :=
  decode 0b00000000000000000000000000000001 = .ok (.count .ascii)
  ∧ decode 0b00000000000000000000000100000010 = .ok (.build .packed)
  ∧ decode 0b00000000000000000000000000000011 = .ok (.gencode .ascii)
  ∧ decode 0b00000000000000000000000100000100 = .ok (.encode .packed)
  ∧ decode 0b00000000000000000000000000000101 = .ok (.serialize .ascii)
  ∧ decode 0b00000000000000000000000100000110 = .ok (.deserialize .packed)
  ∧ decode 0b00000000000000000000000000000111 = .ok (.decode .ascii)
  ∧ decode 0b00000000000000000000000100001000 = .ok (.compress .packed)
  ∧ decode 0b00000000000000000000000000001001 = .ok (.decompress .ascii)
  ∧ decode 0x0000000F = .error .reservedOp
  ∧ decode 0x00000011 = .error .reservedLow
  ∧ decode 0x80000004 = .error .reservedHigh

/-- R90, R92: decoding an encoded command gives it back, a word that decodes is the encoding of what it
decodes to, and a word decodes exactly when clearing bit 8 leaves an opcode of 1 to 9 and nothing else. -/
def Obligations.DecodeAndEncodeAgree : Prop :=
  (∀ i : Instr, decode (encode i) = .ok i)
  ∧ (∀ (w : Word) (i : Instr), decode w = .ok i → encode i = w)
  ∧ (∀ w : Word, (∃ i, decode w = .ok i) ↔ 1 ≤ (w &&& 0xFFFFFEFF).toNat ∧ (w &&& 0xFFFFFEFF).toNat ≤ 9)

/-- R93: a word is illegal exactly when its `OP` is 0x0 or 0xA..0xF or a reserved bit is set, and the
completion of a running illegal word reports `E_ILLEGAL` with the word and changes nothing else. -/
def Obligations.IllegalWordsEndInError : Prop :=
  ∀ (s : State) (c : LaunchCopy), s.engine = .busy c →
    ((c.cmd.extractLsb' 0 4 = 0 ∨ 0xA ≤ (c.cmd.extractLsb' 0 4).toNat ∨ c.cmd.extractLsb' 4 4 ≠ 0
        ∨ c.cmd.extractLsb' 9 23 ≠ 0) →
      ∃ t, completeRunning s = .next t ∧ EndsInError 10 c.cmd s t ∧ ResultsSame s t
        ∧ t.tabs = s.tabs ∧ t.mem = s.mem)
    ∧ (¬ (c.cmd.extractLsb' 0 4 = 0 ∨ 0xA ≤ (c.cmd.extractLsb' 0 4).toNat ∨ c.cmd.extractLsb' 4 4 ≠ 0
        ∨ c.cmd.extractLsb' 9 23 ≠ 0) → ∃ i, decode c.cmd = .ok i)

/-- R80, R91: a step in which the engine moves runs the command whose word the engine holds, with the events
after it left; and the word that `withFetchWord` places runs at the very next step, on the state its launch
leaves. How a program comes to run is log 4, the order of the agents log 5. -/
def Obligations.StepRunsTheDecodedCommand : Prop :=
  (∀ (s : State) (c : LaunchCopy) (i : Instr) (es : List Event),
    s.engine = .busy c → decode c.cmd = .ok i →
      (s.events = [] → step s = exec i s)
      ∧ (s.events = .complete :: es → step s = exec i { s with events := es }))
  ∧ (∀ (s : State) (i : Instr),
      step (s.withFetchWord 32 (encode i).toNat) = exec i (launch (encode i) s))

/-- R91: a write of `CMD` while idle stores the word, makes the engine busy, clears `ERR` and `ERRCODE` and
copies `CMD` and the configuration registers; the command then runs on that copy; a write while busy is
ignored. An illegal word launches like any other and completes with an error. -/
def Obligations.LaunchTakesACopy : Prop :=
  ∀ (s : State) (w : Word) (es : List Event),
    s.events = .regWrite (accessTo s.platform.regBase .cmd) w :: es →
      (s.engine = .idle →
        ∃ t, step s = .next t ∧ t.engine = .busy ⟨w, s.regs.bufs⟩ ∧ t.cfg = ⟨w, s.regs.bufs⟩
          ∧ t.work = Work.rest
          ∧ t.regs = { s.regs with cmd := w, err := false, errcode := 0 }
          ∧ t.tabs = s.tabs ∧ t.mem = s.mem ∧ t.platform = s.platform ∧ t.events = es ∧ t.seen = s.seen
          ∧ (∀ i, decode w = .ok i → completeRunning t = exec i t)
          ∧ (∀ e, decode w = .error e → ∃ u, completeRunning t = .next u ∧ EndsInError 10 w t u))
      ∧ (∀ c, s.engine = .busy c → step s = .next { s with events := es })

/-- R46: while busy, a write of `CMD`, a configuration register or a selector changes nothing, and writes of
`CTRL`, `IRQ_EN` and `IRQ_STAT` take effect. -/
def Obligations.BusyWritesAreIgnored : Prop :=
  ∀ (s : State) (c : LaunchCopy) (r : RegName) (v : Word) (es : List Event),
    s.engine = .busy c → s.events = .regWrite (accessTo s.platform.regBase r) v :: es →
      (r ∈ [.cmd, .srcBase, .srcLen, .treeBase, .treeLen, .dstBase, .dstCap, .toutBase, .toutCap,
          .codeSel, .nodeSel] → step s = .next { s with events := es })
      ∧ (r = .irqEn → step s = .next { s with
          events := es, regs := { s.regs with doneIe := v.getLsbD 0, errIe := v.getLsbD 1 } })
      ∧ (r = .irqStat → step s = .next { s with
          events := es
          regs := { s.regs with
            doneIp := s.regs.doneIp && !v.getLsbD 0, errIp := s.regs.errIp && !v.getLsbD 1 } })
      ∧ (r = .ctrl → v.getLsbD 0 = true → step s = resetNow { s with events := es })

/-! ## The register block -/

/-- R22, R23, R24, R44, R45: the register map in numbers, with no register at a reserved offset; what a write
to each register but `CTRL`, `CMD` and the interrupt registers does: an idle core stores the word in a
configuration register, bits 7:0 of it in `CODE_SEL`, bits 8:0 in `NODE_SEL`, and changes nothing else; a write
of a read-only register or a reserved offset is ignored, busy or idle; and a write that is narrow or not
aligned is refused. Alignment is judged on the offset in the block (log 12). -/
def Obligations.RegisterMapIsTheTable : Prop :=
  (∀ x ∈ [(RegName.id, 0x000), (.version, 0x004), (.ctrl, 0x008), (.cmd, 0x00C), (.status, 0x010),
      (.errinfo, 0x014), (.irqEn, 0x018), (.irqStat, 0x01C), (.srcBase, 0x020), (.srcLen, 0x024),
      (.treeBase, 0x028), (.treeLen, 0x02C), (.dstBase, 0x030), (.dstCap, 0x034), (.toutBase, 0x038),
      (.toutCap, 0x03C), (.dstLen, 0x040), (.toutLen, 0x044), (.ratio, 0x048), (.nsym, 0x04C), (.total, 0x050),
      (.nnodes, 0x054), (.root, 0x058), (.codeSel, 0x060), (.nodeSel, 0x084), (.nodeW, 0x088),
      (.nodeInfo, 0x08C)], x.1.offset = x.2)
  ∧ (∀ k : Fin 8, (RegName.codeBits k).offset = 0x064 + 4 * k.val)
  ∧ (∀ b : Byte, (RegName.freqW b).offset = 0x400 + 4 * b.toNat ∧ (RegName.codeLenW b).offset = 0x800 + 4 * b.toNat)
  ∧ (∀ r : RegName, regAt r.offset = some r ∧ r.offset % 4 = 0 ∧ r.offset < 4096)
  ∧ (∀ (off : Nat) (r : RegName), off % 4 = 0 → regAt off = some r → r.offset = off)
  ∧ (∀ off : Nat, off % 4 = 0 → (off = 0x05C ∨ (0x090 ≤ off ∧ off < 0x400) ∨ 0xC00 ≤ off) → regAt off = none)
  ∧ (∀ (s : State) (r : RegName) (v : Word) (es : List Event),
      s.events = .regWrite (accessTo s.platform.regBase r) v :: es →
        (s.engine = .idle →
          (∀ x ∈ [(RegName.srcBase, { s.regs.bufs with srcBase := v }), (.srcLen, { s.regs.bufs with srcLen := v }),
              (.treeBase, { s.regs.bufs with treeBase := v }), (.treeLen, { s.regs.bufs with treeLen := v }),
              (.dstBase, { s.regs.bufs with dstBase := v }), (.dstCap, { s.regs.bufs with dstCap := v }),
              (.toutBase, { s.regs.bufs with toutBase := v }), (.toutCap, { s.regs.bufs with toutCap := v })],
            r = x.1 → step s = .next { s with events := es, regs := { s.regs with bufs := x.2 } })
          ∧ (r = .codeSel →
              step s = .next { s with events := es, regs := { s.regs with codeSel := v.extractLsb' 0 8 } })
          ∧ (r = .nodeSel →
              step s = .next { s with events := es, regs := { s.regs with nodeSel := v.extractLsb' 0 9 } }))
        ∧ ((r ∈ [.id, .version, .status, .errinfo, .dstLen, .toutLen, .ratio, .nsym, .total, .nnodes, .root,
              .nodeW, .nodeInfo] ∨ (∃ k, r = .codeBits k) ∨ (∃ b, r = .freqW b) ∨ ∃ b, r = .codeLenW b) →
            step s = .next { s with events := es }))
  ∧ (∀ (s : State) (a : RegAccess) (v : Word) (es : List Event), s.events = .regWrite a v :: es →
      s.platform.regBase ≤ a.addr → a.addr < s.platform.regBase + 4096 →
        (a.bytes = 4 → (a.addr - s.platform.regBase) % 4 = 0 → regAt (a.addr - s.platform.regBase) = none →
          step s = .next { s with events := es })
        ∧ (a.bytes ≠ 4 ∨ (a.addr - s.platform.regBase) % 4 ≠ 0 → step s = .refused .badRegAccess))

/-- R23, R27, R28, R30 to R45, R69, R81, R220: a host read of a register changes nothing but the host's own record: the word read,
and, for a `STATUS` read while idle, that every completion is observed. While idle with every completion
observed it returns the register's value; while busy or before the completion is observed the registers of
R69's second sentence still do, and so do `STATUS` bits 7:0, and all of `STATUS` while idle. A read of a
reserved offset returns 0. An access of another width or not aligned is refused. And the values: each stored
register reads what it stores, `CTRL` 0, the interrupt registers and selectors their fields and 0 in every
reserved bit; the values of the views, of `ID`, `VERSION` and `STATUS` are those of the statements after this
one, which while idle speak of the same value. Where the window ends is log 25; alignment is judged on the
offset in the block (log 12). -/
def Obligations.HostReadsHaveNoSideEffects : Prop :=
  (∀ (s : State) (r : RegName) (es : List Event),
    s.events = .regRead (accessTo s.platform.regBase r) :: es →
      ∃ v, step s = .next { s with
          events := es, seen := v :: s.seen, drawn := s.drawn + 1
          unseen := if r = .status ∧ s.engine = .idle then [] else s.unseen }
        ∧ (s.engine = .idle → s.unseen = [] → v = readReg s r)
        ∧ (r ∈ [.id, .version, .ctrl, .cmd, .irqEn, .irqStat, .srcBase, .srcLen, .treeBase, .treeLen, .dstBase,
            .dstCap, .toutBase, .toutCap, .codeSel, .nodeSel] → v = readReg s r)
        ∧ (r = .status → v.extractLsb' 0 8 = (readReg s r).extractLsb' 0 8)
        ∧ (r = .status → s.engine = .idle → v = readReg s r))
  ∧ (∀ (s : State) (a : RegAccess) (es : List Event), s.events = .regRead a :: es →
      s.platform.regBase ≤ a.addr → a.addr < s.platform.regBase + 4096 →
        (a.bytes = 4 → (a.addr - s.platform.regBase) % 4 = 0 →
          regAt (a.addr - s.platform.regBase) = none →
            step s = .next { s with events := es, seen := 0 :: s.seen, drawn := s.drawn + 1 })
        ∧ (a.bytes ≠ 4 ∨ (a.addr - s.platform.regBase) % 4 ≠ 0 → step s = .refused .badRegAccess))
  ∧ (∀ s : State,
      readReg s .ctrl = 0 ∧ readReg s .cmd = s.regs.cmd ∧ readReg s .errinfo = s.regs.errinfo
      ∧ readReg s .srcBase = s.regs.bufs.srcBase ∧ readReg s .srcLen = s.regs.bufs.srcLen
      ∧ readReg s .treeBase = s.regs.bufs.treeBase ∧ readReg s .treeLen = s.regs.bufs.treeLen
      ∧ readReg s .dstBase = s.regs.bufs.dstBase ∧ readReg s .dstCap = s.regs.bufs.dstCap
      ∧ readReg s .toutBase = s.regs.bufs.toutBase ∧ readReg s .toutCap = s.regs.bufs.toutCap
      ∧ readReg s .dstLen = s.regs.dstLen ∧ readReg s .toutLen = s.regs.toutLen ∧ readReg s .ratio = s.regs.ratio
      ∧ (readReg s .codeSel).toNat = s.regs.codeSel.toNat ∧ (readReg s .nodeSel).toNat = s.regs.nodeSel.toNat
      ∧ (readReg s .irqEn).getLsbD 0 = s.regs.doneIe ∧ (readReg s .irqEn).getLsbD 1 = s.regs.errIe
      ∧ (readReg s .irqEn).extractLsb' 2 30 = 0
      ∧ (readReg s .irqStat).getLsbD 0 = s.regs.doneIp ∧ (readReg s .irqStat).getLsbD 1 = s.regs.errIp
      ∧ (readReg s .irqStat).extractLsb' 2 30 = 0
      ∧ (s.engine = .idle → ∀ r : RegName, regValue s r = readReg s r))

/-- R25, R26, R60 to R63, R65, R67, R68: `ID` and `VERSION` read the same at all times; each view reads its
structure while idle and valid, and 0 while it is not valid (or the node is past the tree). -/
def Obligations.ViewsAndIdentity : Prop :=
  (∀ s : State, regValue s .id = 0x48554646 ∧ regValue s .version = 0x00010000)
  ∧ ∀ s : State, s.engine = .idle → codeOk s.tabs = true →
    (regValue s .nsym).toNat = (if s.tabs.freqV then s.tabs.nsym.toNat else 0)
    ∧ regValue s .total = (if s.tabs.freqV then s.tabs.total else 0)
    ∧ (regValue s .nnodes).toNat = (if s.tabs.treeV then s.tabs.nnodes.toNat else 0)
    ∧ (regValue s .root).toNat = (if s.tabs.treeV then s.tabs.root.toNat else 0)
    ∧ regValue s .nodeW = (if s.tabs.treeV = true ∧ s.regs.nodeSel.toNat < s.tabs.nnodes.toNat
        then (s.tabs.node.read s.regs.nodeSel.toNat).weight else 0)
    ∧ (∀ b : Byte, regValue s (.freqW b) = (if s.tabs.freqV then s.tabs.freq.read b.toNat else 0))
    ∧ (∀ b : Byte, (regValue s (.codeLenW b)).toNat
        = (if s.tabs.codeV then (s.tabs.code.read b.toNat).length else 0))

/-- R29, R69: the fields of `STATUS`: `BUSY`, `ERR`, `ERRCODE`, the valid flags while idle, and 0 in every
reserved bit, busy or idle. -/
def Obligations.StatusShowsItsFields : Prop :=
  ∀ s : State,
    (regValue s .status).getLsbD 0 = s.isBusy
    ∧ (regValue s .status).getLsbD 1 = s.regs.err
    ∧ (regValue s .status).extractLsb' 2 2 = 0
    ∧ (regValue s .status).extractLsb' 4 4 = s.regs.errcode
    ∧ (regValue s .status).extractLsb' 11 21 = 0
    ∧ (s.engine = .idle →
        (regValue s .status).getLsbD 8 = s.tabs.freqV
        ∧ (regValue s .status).getLsbD 9 = s.tabs.treeV
        ∧ (regValue s .status).getLsbD 10 = s.tabs.codeV)

/-- R66: `NODE_INFO` lays out the selected node's fields when `TREE_V` = 1 and the index is inside the tree,
and reads 0 otherwise. -/
def Obligations.NodeInfoShowsTheNode : Prop :=
  ∀ s : State, s.engine = .idle →
    ((s.tabs.treeV = true ∧ s.regs.nodeSel.toNat < s.tabs.nnodes.toNat) →
      (regValue s .nodeInfo).extractLsb' 0 9 = (s.tabs.node.read s.regs.nodeSel.toNat).left
      ∧ (regValue s .nodeInfo).extractLsb' 9 9 = (s.tabs.node.read s.regs.nodeSel.toNat).right
      ∧ (regValue s .nodeInfo).extractLsb' 18 8 = (s.tabs.node.read s.regs.nodeSel.toNat).sym
      ∧ (regValue s .nodeInfo).getLsbD 26 = (s.tabs.node.read s.regs.nodeSel.toNat).internal
      ∧ (regValue s .nodeInfo).extractLsb' 27 5 = 0)
    ∧ (¬ (s.tabs.treeV = true ∧ s.regs.nodeSel.toNat < s.tabs.nnodes.toNat) → regValue s .nodeInfo = 0)

/-- R64: bit `31 - j` of `CODEBITSk` is bit `32k + j` of the selected symbol's code, 0 past its end, and all
eight read 0 while `CODE_V` = 0. -/
def Obligations.CodeBitsShowTheCode : Prop :=
  ∀ (s : State) (k : Fin 8), s.engine = .idle →
    (s.tabs.codeV = true → ∀ j, j < 32 →
      (regValue s (.codeBits k)).getLsbD (31 - j)
        = (if h : 32 * k.val + j < (s.tabs.code.read s.regs.codeSel.toNat).length
           then (s.tabs.code.read s.regs.codeSel.toNat)[32 * k.val + j] else false))
    ∧ (s.tabs.codeV = false → regValue s (.codeBits k) = 0)

/-- R192, R193: the interrupt line is high exactly when an enabled source is pending, and low at reset; a
completion sets `DONE_IP`, and one with an error `ERR_IP`, masked or not; a write of `IRQ_STAT` clears the
pending bits where it has a 1, a write of `IRQ_EN` sets the mask and leaves the pending bits, both at any
time and changing nothing else. -/
def Obligations.InterruptLineAndAcknowledge : Prop :=
  (∀ s : State, irqLine s = true ↔
    (s.regs.doneIp = true ∧ s.regs.doneIe = true) ∨ (s.regs.errIp = true ∧ s.regs.errIe = true))
  ∧ irqLine State.reset = false
  ∧ (∀ (i : Instr) (s t : State), exec i s = .next t →
      t.regs.doneIp = true ∧ (t.regs.err = true → t.regs.errIp = true)
      ∧ t.regs.doneIe = s.regs.doneIe ∧ t.regs.errIe = s.regs.errIe)
  ∧ (∀ (s : State) (v : Word) (es : List Event),
      s.events = .regWrite (accessTo s.platform.regBase .irqStat) v :: es →
        step s = .next { s with
          events := es
          regs := { s.regs with
            doneIp := s.regs.doneIp && !v.getLsbD 0, errIp := s.regs.errIp && !v.getLsbD 1 } })
  ∧ (∀ (s : State) (v : Word) (es : List Event),
      s.events = .regWrite (accessTo s.platform.regBase .irqEn) v :: es →
        step s = .next { s with
          events := es, regs := { s.regs with doneIe := v.getLsbD 0, errIe := v.getLsbD 1 } })

/-! ## Completion, errors and reset -/

/-- R189: a command that ends with no error leaves the engine idle, the error fields 0 and `DONE_IP` set,
and nothing of the host's changed. -/
def Obligations.SuccessfulCompletion : Prop :=
  ∀ (i : Instr) (s t : State), exec i s = .next t → t.regs.err = false → EndsWell s t

/-- R184, with the registers of R190: a command that ends with an error leaves the engine idle, a nonzero
error code, both pending bits set, every result register the command writes 0 (R41 to R43) and the others as
they were. -/
def Obligations.ErrorsReportNoOutput : Prop :=
  ∀ (i : Instr) (s t : State), exec i s = .next t → t.regs.err = true →
    (∃ c x, c ≠ 0 ∧ EndsInError c x s t)
    ∧ (t.regs.dstLen = match i with
        | .encode _ | .decode _ | .compress _ | .decompress _ => 0
        | .count _ | .build _ | .gencode _ | .serialize _ | .deserialize _ => s.regs.dstLen)
    ∧ (t.regs.toutLen = match i with
        | .serialize _ | .compress _ => 0
        | .count _ | .build _ | .gencode _ | .encode _ | .deserialize _ | .decode _ | .decompress _ =>
          s.regs.toutLen)
    ∧ (t.regs.ratio = match i with
        | .encode _ | .compress _ => 0
        | .count _ | .build _ | .gencode _ | .serialize _ | .deserialize _ | .decode _ | .decompress _ =>
          s.regs.ratio)

/-- R78: whatever a command ends with, every byte outside its write ranges reads as before; on success every
byte outside the result's own bytes does; COUNT, BUILD, GENCODE and DESERIALIZE leave memory as it is. -/
def Obligations.WritesStayInTheirRanges : Prop :=
  ∀ (i : Instr) (s t : State), exec i s = .next t →
    MemSameOutside (writeRanges i s.cfg) s t
    ∧ (t.regs.err = false → MemSameOutside (writtenRanges i s.cfg t.regs) s t)
    ∧ (writeRanges i s.cfg = [] → t.mem = s.mem)

/-- R186: a command ends with `E_BUS` only at an address of its ranges that the platform fails, which is its
error information; a command that passes its upfront checks with a failing address among the bytes it reads
does not succeed; and none succeeds with a failing address among the bytes it reads or has written. Which outcome is taken is the model's free choice (log 7, log 9). -/
def Obligations.BusErrorsNameAFailingAddress : Prop :=
  ∀ (i : Instr) (s t : State), exec i s = .next t →
    (t.regs.errcode = 12 → ∃ a, a ∈ failing s (readRanges i s.cfg ++ writeRanges i s.cfg)
      ∧ t.regs.errinfo = BitVec.ofNat 32 a)
    ∧ (upfront i s = none → failing s (readRanges i s.cfg) ≠ [] → t.regs.err = true)
    ∧ (t.regs.err = false → failing s (readRanges i s.cfg ++ writtenRanges i s.cfg t.regs) = [])

/-- R182: the upfront errors and their order, for each command that the spec gives a meaning at the state:
the needed structure (information 0, 1, 2), then empty input (SRC before TREE), then ranges (SRC, TREE, DST,
TOUT), the first that fails being the one reported, with the internal state and all memory outside the
write ranges as before. -/
def Obligations.UpfrontChecksInOrder : Prop :=
  ∀ (f : BitFmt) (s : State),
    let fails (i : Instr) (c : BitVec 4) (x : Word) : Prop :=
      noMeaning i s = none → ∃ t, exec i s = .next t ∧ EndsInError c x s t ∧ t.tabs = s.tabs
        ∧ MemSameOutside (writeRanges i s.cfg) s t
    let b := s.cfg.bufs
    let bad (base n : Nat) : Prop := n ≠ 0 ∧ 2 ^ 32 < base + n
    let badSrc : Prop := bad b.srcBase.toNat b.srcLen.toNat
    let badBits : Prop := bad b.srcBase.toNat (match f with | .ascii => b.srcLen.toNat | .packed => (b.srcLen.toNat + 7) / 8)
    let badTree : Prop := bad b.treeBase.toNat b.treeLen.toNat
    let badDst : Prop := bad b.dstBase.toNat b.dstCap.toNat
    let badTout : Prop := bad b.toutBase.toNat b.toutCap.toNat
    (badSrc → fails (.count f) 11 0)
    ∧ (s.tabs.freqV = false → fails (.build f) 9 0)
    ∧ (s.tabs.freqV = true → s.tabs.nsym = 0 → fails (.build f) 1 0)
    ∧ (s.tabs.treeV = false → fails (.gencode f) 9 1)
    ∧ (s.tabs.codeV = false → fails (.encode f) 9 2)
    ∧ (s.tabs.codeV = true → b.srcLen = 0 → fails (.encode f) 1 0)
    ∧ (s.tabs.codeV = true → badSrc → fails (.encode f) 11 0)
    ∧ (s.tabs.codeV = true → b.srcLen ≠ 0 → ¬ badSrc → badDst → fails (.encode f) 11 2)
    ∧ (s.tabs.treeV = false → fails (.serialize f) 9 1)
    ∧ (s.tabs.treeV = true → badTout → fails (.serialize f) 11 3)
    ∧ (b.treeLen = 0 → fails (.deserialize f) 1 1)
    ∧ (badTree → fails (.deserialize f) 11 1)
    ∧ (s.tabs.treeV = false → fails (.decode f) 9 1)
    ∧ (s.tabs.treeV = true → b.srcLen = 0 → fails (.decode f) 1 0)
    ∧ (s.tabs.treeV = true → badBits → fails (.decode f) 11 0)
    ∧ (s.tabs.treeV = true → b.srcLen ≠ 0 → ¬ badBits → badDst → fails (.decode f) 11 2)
    ∧ (b.srcLen = 0 → fails (.compress f) 1 0)
    ∧ (badSrc → fails (.compress f) 11 0)
    ∧ (b.srcLen ≠ 0 → ¬ badSrc → badDst → fails (.compress f) 11 2)
    ∧ (b.srcLen ≠ 0 → ¬ badSrc → ¬ badDst → badTout → fails (.compress f) 11 3)
    ∧ (b.srcLen = 0 → fails (.decompress f) 1 0)
    ∧ (b.srcLen ≠ 0 → b.treeLen = 0 → fails (.decompress f) 1 1)
    ∧ (b.treeLen ≠ 0 → badBits → fails (.decompress f) 11 0)
    ∧ (b.srcLen ≠ 0 → ¬ badBits → badTree → fails (.decompress f) 11 1)
    ∧ (b.srcLen ≠ 0 → b.treeLen ≠ 0 → ¬ badBits → ¬ badTree → badDst → fails (.decompress f) 11 2)

/-- R79, R86: a command is refused for overlap exactly when a write range shares a byte with a read range, or
COMPRESS's two write ranges share one: two read ranges may overlap, and a range of length 0 overlaps
nothing. And one with a buffer in memory whose reads have side effects or do not repeat is refused. That both
hold where an upfront check would fail too, and that a write buffer counts, is the model's reading (log 11). -/
def Obligations.NoMeaningIsRefused : Prop :=
  ∀ (i : Instr) (s : State),
    (exec i s = .refused .overlap ↔
      ((∃ a w r, w ∈ writeRanges i s.cfg ∧ r ∈ readRanges i s.cfg ∧ w.has a = true ∧ r.has a = true)
        ∨ (∃ a f, i = .compress f ∧ (dstRange s.cfg).has a = true ∧ (toutRange s.cfg).has a = true)))
    ∧ ((∃ a, a ∈ s.platform.volatile ∧ inRanges (readRanges i s.cfg ++ writeRanges i s.cfg) a = true) →
        ∃ r, exec i s = .refused r)

/-- R22, R210: after reset every register but `ID` and `VERSION` reads 0, every structure is at its reset
value with its flag 0, the engine is idle and the interrupt line low; and the platform's reset brings any
state there, idle or busy, an idle core's memory untouched. A busy core's command is abandoned as by a soft
reset: no byte outside its write ranges changes, and a reset of a command that has no meaning is refused, so it
is left out (log 13). The platform, the host's steps and what it has read are not the core's and stay (log
13); that a reset ends the wait for every unobserved completion, R220's window, is the model's choice (log
25). -/
def Obligations.ResetLeavesTheResetValues : Prop :=
  (∀ r : RegName, readReg State.reset r
      = if r = .id then 0x48554646 else if r = .version then 0x00010000 else 0)
  ∧ (∀ (s : State) (es : List Event), s.events = .hwReset :: es →
      (∀ c i, s.engine = .busy c → decode c.cmd = .ok i → noMeaning i s = none) →
      ∃ t, step s = .next t ∧ t.engine = .idle ∧ t.work = Work.rest
        ∧ t.events = es ∧ t.platform = s.platform ∧ t.seen = s.seen ∧ t.unseen = [] ∧ irqLine t = false
        ∧ (∀ r : RegName, readReg t r = readReg State.reset r)
        ∧ (∀ b : Byte, t.tabs.freq.read b.toNat = 0 ∧ t.tabs.code.read b.toNat = [])
        ∧ t.tabs.nsym = 0 ∧ t.tabs.total = 0 ∧ t.tabs.nnodes = 0 ∧ t.tabs.root = 0
        ∧ t.tabs.freqV = false ∧ t.tabs.treeV = false ∧ t.tabs.codeV = false
        ∧ MemSameOutside (runningWrites s) s t
        ∧ (s.engine = .idle → t.mem = s.mem))

/-- R211: a write of `CTRL` with bit 0 = 1 resets the core at once, idle or busy. A running command is
abandoned: it sets no pending bit and writes no result register, and no byte outside its write ranges changes.
A write with bit 0 = 0 has no effect. A reset of a command that has no meaning is refused (log 13), so it is
left out. -/
def Obligations.SoftResetAbandonsTheCommand : Prop :=
  ∀ (s : State) (v : Word) (es : List Event),
    s.events = .regWrite (accessTo s.platform.regBase .ctrl) v :: es →
      (v.getLsbD 0 = false → step s = .next { s with events := es })
      ∧ (v.getLsbD 0 = true →
          (∀ c i, s.engine = .busy c → decode c.cmd = .ok i → noMeaning i s = none) →
          ∃ t, step s = .next t ∧ t.engine = .idle ∧ t.work = Work.rest
            ∧ t.events = es ∧ t.platform = s.platform ∧ t.seen = s.seen ∧ irqLine t = false
            ∧ (∀ r : RegName, readReg t r = readReg State.reset r)
            ∧ (∀ b : Byte, t.tabs.freq.read b.toNat = 0 ∧ t.tabs.code.read b.toNat = [])
            ∧ t.tabs.nsym = 0 ∧ t.tabs.total = 0 ∧ t.tabs.nnodes = 0 ∧ t.tabs.root = 0
            ∧ t.tabs.freqV = false ∧ t.tabs.treeV = false ∧ t.tabs.codeV = false
            ∧ MemSameOutside (runningWrites s) s t
            ∧ (s.engine = .idle → t.mem = s.mem))

/-! ## COUNT -/

/-- R100: COUNT of a legal SRC completes, counts every byte's occurrences, and changes nothing else. -/
def Obligations.CountCountsEveryByte : Prop :=
  ∀ (f : BitFmt) (s : State), Ready (.count f) s → Quiet (.count f) s →
    ∃ t, exec (.count f) s = .next t ∧ EndsWell s t ∧ ResultsSame s t ∧ t.mem = s.mem
      ∧ TreeSame s t ∧ CodeSame s t
      ∧ t.tabs.freqV = true ∧ t.tabs.total = s.cfg.bufs.srcLen
      ∧ (∀ b : Byte, (t.tabs.freq.read b.toNat).toNat = (srcBytes s).count b)
      ∧ t.tabs.nsym.toNat = (srcBytes s).dedup.length

/-- R101: after a successful COUNT the counters add up to `total`, which is `SRC_LEN`, a counter is positive
exactly for the bytes that occur, and the table depends on the multiset of bytes only. The exactness of the
counters is the spec's own inference in R101. -/
def Obligations.CountTableSumsToTheLength : Prop :=
  (∀ (f : BitFmt) (s : State), Ready (.count f) s → Quiet (.count f) s →
    ∃ t, exec (.count f) s = .next t
      ∧ ((List.range 256).map fun b => (t.tabs.freq.read b).toNat).sum = t.tabs.total.toNat
      ∧ t.tabs.total = s.cfg.bufs.srcLen
      ∧ ∀ b : Byte, 0 < (t.tabs.freq.read b.toNat).toNat ↔ b ∈ srcBytes s)
  ∧ (∀ (f f' : BitFmt) (s s' : State), Ready (.count f) s → Quiet (.count f) s →
      Ready (.count f') s' → Quiet (.count f') s' → (srcBytes s).Perm (srcBytes s') →
      ∃ t t', exec (.count f) s = .next t ∧ exec (.count f') s' = .next t' ∧ t.tabs.freq = t'.tabs.freq)

/-- R102: a bus error in SRC ends COUNT with `FREQ_V` = 0 and no other state changed, and the same holds for
the count step of COMPRESS (no address of its write ranges failing, so that the step is the count step). -/
def Obligations.CountBusErrorLosesTheTable : Prop :=
  (∀ (f : BitFmt) (s : State), Ready (.count f) s → failing s (readRanges (.count f) s.cfg) ≠ [] →
    ∃ t x, exec (.count f) s = .next t ∧ EndsInError 12 x s t ∧ t.tabs.freqV = false
      ∧ TreeSame s t ∧ CodeSame s t ∧ ResultsSame s t ∧ t.mem = s.mem)
  ∧ (∀ (f : BitFmt) (s t : State), Ready (.compress f) s → failing s (readRanges (.compress f) s.cfg) ≠ [] →
      failing s (writeRanges (.compress f) s.cfg) = [] → exec (.compress f) s = .next t →
      t.regs.errcode = 12 → t.tabs.freqV = false ∧ TreeSame s t ∧ CodeSame s t)

/-! ## BUILD -/

/-- R110, R114: BUILD of a table with N symbols completes and leaves N Leaves in increasing symbol value with
their counters as weights, then N - 1 Internal nodes whose children come before them, `NNODES` = 2N - 1 and
`ROOT` = 2N - 2; every node but the root has one parent, the walk finds N Leaves at most N - 1 deep (1 for a
single Leaf), and the rest of the store is as before. The shape is the spec's own inference in R114. -/
def Obligations.BuiltTreeShape : Prop :=
  ∀ (f : BitFmt) (s : State), s.tabs.freqV = true → s.tabs.nsym ≠ 0 → freqOk s.tabs = true →
    let n := s.tabs.nsym.toNat
    ∃ t, exec (.build f) s = .next t ∧ EndsWell s t ∧ ResultsSame s t ∧ t.mem = s.mem
      ∧ FreqSame s t ∧ t.tabs.code = s.tabs.code ∧ t.tabs.codeV = false ∧ t.tabs.treeV = true
      ∧ t.tabs.nnodes.toNat = 2 * n - 1 ∧ t.tabs.root.toNat = 2 * n - 2
      ∧ (∀ k, k < n → (t.tabs.node.read k).internal = false
          ∧ (t.tabs.node.read k).left = 0x1FF ∧ (t.tabs.node.read k).right = 0x1FF
          ∧ (t.tabs.node.read k).weight = s.tabs.freq.read (t.tabs.node.read k).sym.toNat
          ∧ (t.tabs.node.read k).weight ≠ 0)
      ∧ (∀ j k, j < k → k < n → (t.tabs.node.read j).sym.toNat < (t.tabs.node.read k).sym.toNat)
      ∧ (∀ k, n ≤ k → k < 2 * n - 1 → (t.tabs.node.read k).internal = true ∧ (t.tabs.node.read k).sym = 0
          ∧ (t.tabs.node.read k).left.toNat < k ∧ (t.tabs.node.read k).right.toNat < k
          ∧ (t.tabs.node.read k).left ≠ (t.tabs.node.read k).right)
      ∧ (∀ c, c < 2 * n - 2 → ∃ k, n ≤ k ∧ k < 2 * n - 1
          ∧ ((t.tabs.node.read k).left.toNat = c ∨ (t.tabs.node.read k).right.toNat = c)
          ∧ ∀ j, n ≤ j → j < 2 * n - 1 →
              ((t.tabs.node.read j).left.toNat = c ∨ (t.tabs.node.read j).right.toNat = c) → j = k)
      ∧ (∀ k, 2 * n - 1 ≤ k → k < 511 → t.tabs.node.read k = s.tabs.node.read k)
      ∧ ∃ ls, treeLeaves t.tabs.node t.tabs.root = some ls ∧ ls.length = n
          ∧ ∀ l ∈ ls, 1 ≤ l.1.length ∧ l.1.length ≤ max 1 (n - 1)

/-- R112: after BUILD every Internal node's weight is the sum of its children's, with no overflow, the root's
is the total input length, and no weight exceeds it. That no sum overflows is the spec's own inference in
R112. -/
def Obligations.BuiltWeightsAdd : Prop :=
  ∀ (f : BitFmt) (s : State), s.tabs.freqV = true → s.tabs.nsym ≠ 0 → freqOk s.tabs = true →
    ∃ t, exec (.build f) s = .next t
      ∧ (∀ k, k < t.tabs.nnodes.toNat → (t.tabs.node.read k).internal = true →
          (t.tabs.node.read k).weight.toNat
            = (t.tabs.node.read (t.tabs.node.read k).left.toNat).weight.toNat
              + (t.tabs.node.read (t.tabs.node.read k).right.toNat).weight.toNat)
      ∧ (t.tabs.node.read t.tabs.root.toNat).weight = t.tabs.total
      ∧ (∀ k, k < t.tabs.nnodes.toNat → (t.tabs.node.read k).weight.toNat ≤ t.tabs.total.toNat)

/-- R110, R111: `extract_min` returns the queued node of least key, lower weight first and lower index among
equal weights, and leaves the others; the tree BUILD produces is a function of the frequency table alone; and
each Internal node of it has for its left child the node of least key and for its right child the next, among
the nodes created before it that no earlier Internal node has for a child. -/
def Obligations.QueueGivesTheLeastKey : Prop :=
  (∀ (ns : Table Node 511) (q q' : List NodeIdx) (m : NodeIdx), extractMin ns q = some (m, q') →
    q.Perm (m :: q')
    ∧ ∀ k ∈ q, k ≠ m →
        (nodeAt ns m).weight.toNat < (nodeAt ns k).weight.toNat
        ∨ ((nodeAt ns m).weight = (nodeAt ns k).weight ∧ m.toNat < k.toNat))
  ∧ (∀ (f f' : BitFmt) (s s' : State), s.tabs.freqV = true → s.tabs.nsym ≠ 0 → freqOk s.tabs = true →
      s'.tabs.freqV = true → s'.tabs.nsym ≠ 0 → freqOk s'.tabs = true → s.tabs.freq = s'.tabs.freq →
      ∃ t t', exec (.build f) s = .next t ∧ exec (.build f') s' = .next t'
        ∧ t.tabs.nnodes = t'.tabs.nnodes ∧ t.tabs.root = t'.tabs.root
        ∧ ∀ k, k < t.tabs.nnodes.toNat → t.tabs.node.read k = t'.tabs.node.read k)
  ∧ (∀ (f : BitFmt) (s : State), s.tabs.freqV = true → s.tabs.nsym ≠ 0 → freqOk s.tabs = true →
      ∃ t, exec (.build f) s = .next t
        ∧ let weight (k : Nat) : Nat := (t.tabs.node.read k).weight.toNat
          let less (a b : Nat) : Prop := weight a < weight b ∨ (weight a = weight b ∧ a < b)
          let childOfOne (c k : Nat) : Prop :=
            (t.tabs.node.read k).left.toNat = c ∨ (t.tabs.node.read k).right.toNat = c
          ∀ k, k < t.tabs.nnodes.toNat → (t.tabs.node.read k).internal = true →
            less (t.tabs.node.read k).left.toNat (t.tabs.node.read k).right.toNat
            ∧ ∀ j, j < k → ¬ childOfOne j k →
                (∀ m, m < k → (t.tabs.node.read m).internal = true → ¬ childOfOne j m) →
                less (t.tabs.node.read k).right.toNat j)

/-! ## GENCODE -/

/-- R120, R121, R122: the walk of a tree lists the path of every Leaf, 0 for left and 1 for right, depth first
and left before right; GENCODE of a tree completes and gives each symbol the path of the last Leaf visited that
holds it, no code to a symbol with no Leaf, and changes nothing else. -/
def Obligations.GencodeAssignsLeafPaths : Prop :=
  ∀ (f : BitFmt) (s : State) (ls : List (BitString × Byte)), s.tabs.treeV = true →
    treeLeaves s.tabs.node s.tabs.root = some ls →
    IsWalk s.tabs.node s.tabs.root ls
    ∧ ∃ t, exec (.gencode f) s = .next t ∧ EndsWell s t ∧ ResultsSame s t ∧ t.mem = s.mem
      ∧ FreqSame s t ∧ TreeSame s t ∧ t.tabs.codeV = true
      ∧ ∀ b : Byte, t.tabs.code.read b.toNat = ((ls.reverse.find? fun l => l.2 == b).map fun l => l.1).getD []

/-- R113, R121: with one distinct symbol BUILD creates one Leaf and no Internal node, and when the root is a
Leaf GENCODE gives its symbol the one-bit code `0` and no other symbol a code. -/
def Obligations.SingleSymbolHasCodeZero : Prop :=
  (∀ (f : BitFmt) (s : State), s.tabs.freqV = true → s.tabs.nsym = 1 → freqOk s.tabs = true →
    ∃ t b, exec (.build f) s = .next t ∧ t.tabs.nnodes = 1 ∧ t.tabs.root = 0
      ∧ s.tabs.freq.read b ≠ 0 ∧ (∀ c, c < 256 → c ≠ b → s.tabs.freq.read c = 0) ∧ b < 256
      ∧ t.tabs.node.read 0 = ⟨false, BitVec.ofNat 8 b, 0x1FF, 0x1FF, s.tabs.freq.read b⟩)
  ∧ (∀ (f : BitFmt) (s : State), s.tabs.treeV = true → (s.tabs.node.read s.tabs.root.toNat).internal = false →
    ∃ t, exec (.gencode f) s = .next t
      ∧ ∀ b : Byte, t.tabs.code.read b.toNat
          = if b = (s.tabs.node.read s.tabs.root.toNat).sym then [false] else [])

/-- R123: GENCODE after BUILD gives every symbol of the table a code of 1 to 255 bits, the other symbols none,
and no code is a prefix of another symbol's. The bound of 255 bits is the spec's own inference in R123. -/
def Obligations.BuiltCodesArePrefixFree : Prop :=
  ∀ (f f' : BitFmt) (s : State), s.tabs.freqV = true → s.tabs.nsym ≠ 0 → freqOk s.tabs = true →
    ∃ t u, exec (.build f) s = .next t ∧ exec (.gencode f') t = .next u
      ∧ (∀ b : Byte, 0 < (s.tabs.freq.read b.toNat).toNat ↔ 1 ≤ (u.tabs.code.read b.toNat).length)
      ∧ (∀ b : Byte, (u.tabs.code.read b.toNat).length ≤ 255)
      ∧ (∀ b c : Byte, b ≠ c → 1 ≤ (u.tabs.code.read b.toNat).length → 1 ≤ (u.tabs.code.read c.toNat).length →
          ¬ (u.tabs.code.read b.toNat <+: u.tabs.code.read c.toNat))

/-! ## ENCODE -/

/-- R125, R127, R128: ENCODE of a text whose bytes all have codes completes when the stream fits: DST holds
the codes in order in the format of the command, the unused low bits of the last byte 0 (`streamImage`, whose
layout StreamLayout states), `DST_LEN` is their number of bits, `RATIO` the rounded ratio, and nothing else changes; when it does not fit it ends with `E_CAPACITY`. No code is over 255 bits
(R6), which NodeStoreStaysATree says every step keeps. -/
def Obligations.EncodeWritesTheCodes : Prop :=
  ∀ (f : BitFmt) (s : State), Ready (.encode f) s → Quiet (.encode f) s → codeOk s.tabs = true →
    (∀ b ∈ srcBytes s, s.tabs.code.read b.toNat ≠ []) →
    let e := (streamOf s.tabs.code (srcBytes s)).length
    let need := match f with | .ascii => e | .packed => (e + 7) / 8
    (e ≤ 0xFFFFFFFF → need ≤ s.cfg.bufs.dstCap.toNat →
      ∃ t, exec (.encode f) s = .next t ∧ EndsWell s t ∧ t.tabs = s.tabs
        ∧ t.regs.toutLen = s.regs.toutLen
        ∧ t.regs.dstLen.toNat = e
        ∧ t.regs.ratio.toNat = rhe (e * 1250) s.cfg.bufs.srcLen.toNat
        ∧ readBits t.mem s.cfg.bufs.dstBase.toNat e f = (streamOf s.tabs.code (srcBytes s)).map some
        ∧ readBytes t.mem s.cfg.bufs.dstBase.toNat need = streamImage f (streamOf s.tabs.code (srcBytes s))
        ∧ MemSameOutside [⟨s.cfg.bufs.dstBase.toNat, need⟩] s t)
    ∧ ((0xFFFFFFFF < e ∨ s.cfg.bufs.dstCap.toNat < need) →
      ∃ t, exec (.encode f) s = .next t ∧ EndsInError 8 2 s t ∧ t.tabs = s.tabs)

/-- R126: ENCODE ends with `E_LOOKUP` at the lowest offset whose byte has no code, whatever DST can hold. -/
def Obligations.LookupErrorAtTheFirstMissingByte : Prop :=
  ∀ (f : BitFmt) (s : State) (pre post : List Byte) (b : Byte), Ready (.encode f) s → Quiet (.encode f) s →
    srcBytes s = pre ++ b :: post → (∀ c ∈ pre, s.tabs.code.read c.toNat ≠ []) →
    s.tabs.code.read b.toNat = [] →
    ∃ t, exec (.encode f) s = .next t ∧ EndsInError 6 (BitVec.ofNat 32 pre.length) s t ∧ t.tabs = s.tabs

/-- R76, R77: where the bits of a written stream stand. Packed: bit `i` is bit `7 - (i mod 8)` of byte
`floor(i / 8)`, the unused low bits of the last byte are 0, and on read they are not examined. ASCII: bit `i`
is the byte `0x30` or `0x31`, and any other byte reads as no bit. -/
def Obligations.StreamLayout : Prop :=
  (∀ (m : Memory) (base : Nat) (bits : BitString),
    let m' := writeBytes m base (streamImage .packed bits)
    (streamImage .packed bits).length = (bits.length + 7) / 8
    ∧ (∀ (i : Nat) (h : i < bits.length), (m'.read (base + i / 8)).getLsbD (7 - i % 8) = bits[i])
    ∧ (∀ i, bits.length ≤ i → i < 8 * ((bits.length + 7) / 8) →
        (m'.read (base + i / 8)).getLsbD (7 - i % 8) = false))
  ∧ (∀ (m m' : Memory) (base n : Nat),
      (∀ i, i < n → (m.read (base + i / 8)).getLsbD (7 - i % 8) = (m'.read (base + i / 8)).getLsbD (7 - i % 8)) →
      readBits m base n .packed = readBits m' base n .packed)
  ∧ (∀ (m : Memory) (base : Nat) (bits : BitString),
      let m' := writeBytes m base (streamImage .ascii bits)
      (streamImage .ascii bits).length = bits.length
      ∧ ∀ (i : Nat) (h : i < bits.length), m'.read (base + i) = if bits[i] then 0x31 else 0x30)
  ∧ (∀ (m : Memory) (base i : Nat), readBit m base i .ascii = none ↔
      m.read (base + i) ≠ 0x30 ∧ m.read (base + i) ≠ 0x31)

/-- R12, R127: `rhe(n, d)` is a nearest integer to `n / d`, the even one of two equally near, and the two
forms of the ratio are the same. -/
def Obligations.RatioRoundsHalfToEven : Prop :=
  (∀ n d : Nat, 0 < d →
    2 * (rhe n d * d) ≤ 2 * n + d ∧ 2 * n ≤ 2 * (rhe n d * d) + d
    ∧ ((2 * (rhe n d * d) = 2 * n + d ∨ 2 * n = 2 * (rhe n d * d) + d) → rhe n d % 2 = 0))
  ∧ (∀ e l : Nat, 0 < l → rhe (e * 10000) (8 * l) = rhe (e * 1250) l)

/-! ## SERIALIZE and DESERIALIZE -/

/-- R140, R141, R143: SERIALIZE of a tree completes when its text fits: TOUT holds one line a Leaf, depth first
and left before right, the path with 0 for left and 1 for right, separator, quoted symbol, `0x0A` between
lines; `TOUT_LEN` is the sum over the Leaves of depth and 8, less 1; nothing else changes. When it does not fit
it ends with `E_CAPACITY`. -/
def Obligations.SerializeWritesOneLineALeaf : Prop :=
  ∀ (f : BitFmt) (s : State) (ls : List (BitString × Byte)), Ready (.serialize f) s → Quiet (.serialize f) s →
    treeLeaves s.tabs.node s.tabs.root = some ls →
    let text := List.intercalate [0x0A] (ls.map fun l =>
      (l.1.map fun b => if b then (0x31 : Byte) else 0x30) ++ [0x20, 0x2D, 0x3E, 0x20, 0x27, l.2, 0x27])
    IsWalk s.tabs.node s.tabs.root ls
    ∧ text.length = (ls.map fun l => l.1.length + 8).sum - 1
    ∧ (text.length ≤ s.cfg.bufs.toutCap.toNat →
      ∃ t, exec (.serialize f) s = .next t ∧ EndsWell s t ∧ t.tabs = s.tabs
        ∧ t.regs.dstLen = s.regs.dstLen ∧ t.regs.ratio = s.regs.ratio
        ∧ t.regs.toutLen.toNat = text.length
        ∧ readBytes t.mem s.cfg.bufs.toutBase.toNat text.length = text
        ∧ MemSameOutside [⟨s.cfg.bufs.toutBase.toNat, text.length⟩] s t)
    ∧ (s.cfg.bufs.toutCap.toNat < text.length →
      ∃ t, exec (.serialize f) s = .next t ∧ EndsInError 8 3 s t ∧ t.tabs = s.tabs)

/-- R142: the single-Leaf tree is serialized with the path `0`, and every line SERIALIZE writes has a path of
at least one bit. -/
def Obligations.SerializedPathsAreNotEmpty : Prop :=
  (∀ (f : BitFmt) (s : State), Ready (.serialize f) s → Quiet (.serialize f) s →
    (s.tabs.node.read s.tabs.root.toNat).internal = false → 8 ≤ s.cfg.bufs.toutCap.toNat →
    ∃ t, exec (.serialize f) s = .next t ∧ t.regs.toutLen = 8
      ∧ readBytes t.mem s.cfg.bufs.toutBase.toNat 8
          = [0x30, 0x20, 0x2D, 0x3E, 0x20, 0x27, (s.tabs.node.read s.tabs.root.toNat).sym, 0x27])
  ∧ (∀ (ns : Table Node 511) (root : NodeIdx) (ls : List (BitString × Byte)),
      treeLeaves ns root = some ls → ∀ l ∈ ls, 1 ≤ l.1.length)

/-- R145, R147, R149: DESERIALIZE of a text of acceptable lines, in any order and with or without one
trailing `0x0A`, completes and leaves a tree whose Leaves are exactly the text's pairs, rooted at 0, with one
node for the root and one for each distinct prefix; nothing else changes. -/
def Obligations.DeserializeAcceptsPrefixCodes : Prop :=
  ∀ (f : BitFmt) (s : State) (ls : List (BitString × Byte)), Ready (.deserialize f) s → Quiet (.deserialize f) s →
    acceptable ls = true → (treeBytes s = treeText ls ∨ treeBytes s = treeText ls ++ [0x0A]) →
    ∃ t ls', exec (.deserialize f) s = .next t ∧ EndsWell s t ∧ ResultsSame s t ∧ t.mem = s.mem
      ∧ FreqSame s t ∧ t.tabs.code = s.tabs.code ∧ t.tabs.codeV = false ∧ t.tabs.treeV = true
      ∧ t.tabs.root = 0 ∧ t.tabs.nnodes.toNat = prefixCount ls + 1
      ∧ treeLeaves t.tabs.node 0 = some ls' ∧ ls'.Perm ls
      ∧ (∀ k, k < t.tabs.nnodes.toNat → (t.tabs.node.read k).weight = 0)

/-- R147, R149: a line is the longest run of `0` and `1` bytes, the separator, a quote, exactly one symbol byte
and a quote, then the end of the text or one `0x0A`. After acceptable lines, or as the first, a line of another
form ends DESERIALIZE with `E_PARSE` at its index; a path over 255 bits, or one whose nodes the store of 511
cannot hold, ends it with `E_CAPACITY` at its line, whatever lines follow. -/
def Obligations.LinesAreParsedByPosition : Prop :=
  (∀ (text rest : List Byte) (p : BitString) (sym : Byte),
    parseLine text = some (p, sym, rest) ↔
      (text = (p.map fun b => if b then (0x31 : Byte) else 0x30) ++ [0x20, 0x2D, 0x3E, 0x20, 0x27, sym, 0x27]
          ∧ rest = [])
      ∨ text = (p.map fun b => if b then (0x31 : Byte) else 0x30) ++ [0x20, 0x2D, 0x3E, 0x20, 0x27, sym, 0x27]
          ++ 0x0A :: rest)
  ∧ (∀ (f : BitFmt) (s : State) (ls : List (BitString × Byte)) (bad : List Byte),
      Ready (.deserialize f) s → Quiet (.deserialize f) s → parseLine bad = none →
      ((ls = [] ∧ treeBytes s = bad)
        ∨ (acceptable ls = true ∧ bad ≠ [] ∧ treeBytes s = treeText ls ++ 0x0A :: bad)) →
      ∃ t, exec (.deserialize f) s = .next t ∧ EndsInError 2 (BitVec.ofNat 32 ls.length) s t
        ∧ t.tabs.treeV = false)
  ∧ (∀ (f : BitFmt) (s : State) (ls : List (BitString × Byte)) (q : BitString) (b : Byte) (rest : List Byte),
      Ready (.deserialize f) s → Quiet (.deserialize f) s → (ls = [] ∨ acceptable ls = true) →
      (rest = [] ∨ ∃ more, rest = 0x0A :: more) → treeBytes s = treeText (ls ++ [(q, b)]) ++ rest →
      (255 < q.length
        ∨ (1 ≤ q.length ∧ (∀ l ∈ ls, ¬ l.1 <+: q ∧ ¬ q <+: l.1) ∧ 511 < prefixCount (ls ++ [(q, b)]) + 1)) →
      ∃ t, exec (.deserialize f) s = .next t ∧ EndsInError 8 (BitVec.ofNat 32 ls.length) s t
        ∧ t.tabs.treeV = false)

/-- R148: after acceptable lines, or as the first, a line whose path is empty, or equal to the path of an
earlier line, a prefix of one or an extension of one, ends DESERIALIZE with `E_STRUCT` at that line, whatever
lines follow. (A path over 255 bits is `E_CAPACITY` first, R145.) -/
def Obligations.ConflictingPathsAreStructural : Prop :=
  ∀ (f : BitFmt) (s : State) (ls : List (BitString × Byte)) (q : BitString) (b : Byte) (rest : List Byte),
    Ready (.deserialize f) s → Quiet (.deserialize f) s → (ls = [] ∨ acceptable ls = true) →
    (rest = [] ∨ ∃ more, rest = 0x0A :: more) → treeBytes s = treeText (ls ++ [(q, b)]) ++ rest →
    q.length ≤ 255 → (q = [] ∨ ∃ l ∈ ls, l.1 <+: q ∨ q <+: l.1) →
    ∃ t, exec (.deserialize f) s = .next t ∧ EndsInError 3 (BitVec.ofNat 32 ls.length) s t
      ∧ t.tabs.treeV = false

/-- R146: a DESERIALIZE error after the upfront checks leaves `TREE_V` = 0 and `CODE_V` = 0, an upfront error
changes no internal state, and the same holds for the deserialize step of DECOMPRESS (for `E_BUS`: no address
of SRC or DST failing, so that the step is the deserialize step). A text the deserialize step refuses ends
DECOMPRESS as it ends DESERIALIZE, with the same error and information (R174, R181). -/
def Obligations.DeserializeErrorLosesTheTree : Prop :=
  ∀ (f : BitFmt) (s t : State),
    (exec (.deserialize f) s = .next t → t.regs.err = true →
      (upfront (.deserialize f) s = none → t.tabs.treeV = false ∧ t.tabs.codeV = false ∧ FreqSame s t
        ∧ readReg t .nnodes = 0 ∧ readReg t .root = 0 ∧ readReg t .nodeW = 0 ∧ readReg t .nodeInfo = 0)
      ∧ (upfront (.deserialize f) s ≠ none → t.tabs = s.tabs))
    ∧ (exec (.decompress f) s = .next t →
      (upfront (.decompress f) s = none →
        ((∃ e, deserializeText s.tabs.node (treeBytes s) = .error e)
          ∨ (t.regs.errcode = 12 ∧ failing s [srcStream f s.cfg, dstRange s.cfg] = [])) →
        t.regs.err = true ∧ t.tabs.treeV = false ∧ t.tabs.codeV = false ∧ FreqSame s t)
      ∧ (upfront (.decompress f) s ≠ none → t.tabs = s.tabs))
    ∧ (∀ e, Ready (.decompress f) s → Quiet (.decompress f) s →
      deserializeText s.tabs.node (treeBytes s) = .error e →
      ∃ u d, exec (.decompress f) s = .next u ∧ exec (.deserialize f) s = .next d
        ∧ EndsInError e.code.num e.info s u ∧ EndsInError e.code.num e.info s d ∧ u.regs.dstLen = 0)

/-- R149: every text SERIALIZE writes for a tree from BUILD is accepted, whatever the store held, and rebuilds
a tree with the same (path, symbol) pairs: 2N - 1 nodes for N ≥ 2 symbols and 2 for one. This is the spec's
own inference in R149. -/
def Obligations.SerializedTreeReadsBack : Prop :=
  ∀ (f : BitFmt) (s : State) (ns : Table Node 511), s.tabs.freqV = true → s.tabs.nsym ≠ 0 →
    freqOk s.tabs = true →
    ∃ t ls trie, exec (.build f) s = .next t ∧ treeLeaves t.tabs.node t.tabs.root = some ls
      ∧ deserializeText ns (treeText ls) = .ok trie
      ∧ treeLeaves trie.nodes 0 = some ls
      ∧ trie.cnt = (if s.tabs.nsym = 1 then 2 else 2 * s.tabs.nsym.toNat - 1)

/-! ## DECODE -/

/-- R160, R161: DECODE of a stream that visits Leaves of the tree, one after another, completes with their
symbols in DST in order and `DST_LEN` their number, and changes nothing else. -/
def Obligations.DecodeEmitsTheLeafSymbols : Prop :=
  ∀ (f : BitFmt) (s : State) (ls xs : List (BitString × Byte)), Ready (.decode f) s → Quiet (.decode f) s →
    storeOk s.tabs = true → treeLeaves s.tabs.node s.tabs.root = some ls → (∀ x ∈ xs, x ∈ ls) →
    srcBits f s = (pathsOf xs).map some → xs.length ≤ s.cfg.bufs.dstCap.toNat →
    ∃ t, exec (.decode f) s = .next t ∧ EndsWell s t ∧ t.tabs = s.tabs
      ∧ t.regs.toutLen = s.regs.toutLen ∧ t.regs.ratio = s.regs.ratio
      ∧ t.regs.dstLen.toNat = xs.length
      ∧ readBytes t.mem s.cfg.bufs.dstBase.toNat xs.length = xs.map (fun x => x.2)
      ∧ MemSameOutside [⟨s.cfg.bufs.dstBase.toNat, xs.length⟩] s t

/-- R162: a stream whose last bit leaves the walk at an Internal node below the root ends DECODE with
`E_TRUNC`, `ERRINFO` = `SRC_LEN`, and the symbols decoded before the cut are not reported. -/
def Obligations.TruncatedStreamIsReported : Prop :=
  ∀ (f : BitFmt) (s : State) (ls xs : List (BitString × Byte)) (cut : BitString) (k : NodeIdx),
    Ready (.decode f) s → Quiet (.decode f) s →
    treeLeaves s.tabs.node s.tabs.root = some ls → (∀ x ∈ xs, x ∈ ls) →
    cut ≠ [] → descends s.tabs.node s.tabs.root cut k = true →
    srcBits f s = (pathsOf xs ++ cut).map some → xs.length ≤ s.cfg.bufs.dstCap.toNat →
    ∃ t, exec (.decode f) s = .next t ∧ EndsInError 5 s.cfg.bufs.srcLen s t ∧ t.regs.dstLen = 0
      ∧ t.tabs = s.tabs

/-- R163, R164, R166: after whole Leaves and `cut` bits more down the tree, a bad character ends DECODE with
`E_BADBIT`, a bit with no child with `E_MALFORMED`, and a bit that reaches a Leaf when DST is full with
`E_CAPACITY`, each at that bit's index, whatever follows. -/
def Obligations.DecodeReportsTheFirstBadBit : Prop :=
  ∀ (f : BitFmt) (s : State) (ls xs : List (BitString × Byte)) (cut : BitString) (k : NodeIdx)
    (rest : List (Option Bool)), Ready (.decode f) s → Quiet (.decode f) s →
    treeLeaves s.tabs.node s.tabs.root = some ls → (∀ x ∈ xs, x ∈ ls) →
    descends s.tabs.node s.tabs.root cut k = true →
    let at' := BitVec.ofNat 32 (pathsOf xs ++ cut).length
    let ends (c : BitVec 4) : Prop :=
      ∃ t, exec (.decode f) s = .next t ∧ EndsInError c at' s t ∧ t.regs.dstLen = 0 ∧ t.tabs = s.tabs
    (srcBits f s = (pathsOf xs ++ cut).map some ++ none :: rest → xs.length ≤ s.cfg.bufs.dstCap.toNat → ends 7)
    ∧ (∀ b, srcBits f s = (pathsOf xs ++ cut).map some ++ some b :: rest →
        xs.length ≤ s.cfg.bufs.dstCap.toNat → childOf (nodeAt s.tabs.node k) b = 0x1FF → ends 4)
    ∧ (∀ b, srcBits f s = (pathsOf xs ++ cut).map some ++ some b :: rest →
        xs.length = s.cfg.bufs.dstCap.toNat → childOf (nodeAt s.tabs.node k) b ≠ 0x1FF →
        (nodeAt s.tabs.node (childOf (nodeAt s.tabs.node k) b)).internal = false → ends 8)

/-- R164, R165, R166: with a single-Leaf tree bit 0 emits the Leaf's symbol, bit 1 is `E_MALFORMED`, a bad
character `E_BADBIT` and a bit 0 when DST is full `E_CAPACITY`, each at that bit's index, whatever follows.
What the bits 0 and 1 do is the spec's own inference in R165. -/
def Obligations.SingleLeafDecodes : Prop :=
  ∀ (f : BitFmt) (s : State) (n : Nat) (rest : List (Option Bool)), Ready (.decode f) s → Quiet (.decode f) s →
    storeOk s.tabs = true → (s.tabs.node.read s.tabs.root.toNat).internal = false →
    n ≤ s.cfg.bufs.dstCap.toNat →
    (srcBits f s = List.replicate n (some false) →
      ∃ t, exec (.decode f) s = .next t ∧ t.regs.err = false ∧ t.regs.dstLen.toNat = n
        ∧ readBytes t.mem s.cfg.bufs.dstBase.toNat n
            = List.replicate n (s.tabs.node.read s.tabs.root.toNat).sym)
    ∧ (srcBits f s = List.replicate n (some false) ++ some true :: rest →
      ∃ t, exec (.decode f) s = .next t ∧ EndsInError 4 (BitVec.ofNat 32 n) s t)
    ∧ (srcBits f s = List.replicate n (some false) ++ none :: rest →
      ∃ t, exec (.decode f) s = .next t ∧ EndsInError 7 (BitVec.ofNat 32 n) s t)
    ∧ (srcBits f s = List.replicate n (some false) ++ some false :: rest → n = s.cfg.bufs.dstCap.toNat →
      ∃ t, exec (.decode f) s = .next t ∧ EndsInError 8 (BitVec.ofNat 32 n) s t)

/-! ## COMPRESS and DECOMPRESS -/

/-- R170: COMPRESS completes when DST holds 255 bits a byte of text and TOUT the longest text of a built tree
(34942 bytes, R143): all three structures are valid, the counters count the text, DST holds the codes of the
text in order, TOUT the tree's text, each Leaf's path is its symbol's code, the three result registers hold
the lengths and the ratio, and nothing outside the written bytes changes. Whatever DST and TOUT hold it
completes with the three structures valid and new: a DST too small (or a stream of over 2^32 - 1 bits) is
`E_CAPACITY` 2, else a TOUT too small `E_CAPACITY` 3, else it succeeds with those results, the unused low bits
of DST's last byte 0 (`streamImage`, whose layout StreamLayout states). Never does COMPRESS end with
`E_LOOKUP` or `E_SEQUENCE`, or stop with a fault. That the text fits 34942 bytes is the spec's own inference
in R143, and that no E_LOOKUP occurs is that of R172. -/
def Obligations.CompressDeliversItsResults : Prop :=
  (∀ (f : BitFmt) (s : State), Ready (.compress f) s → Quiet (.compress f) s →
    255 * s.cfg.bufs.srcLen.toNat ≤ s.cfg.bufs.dstCap.toNat → 34942 ≤ s.cfg.bufs.toutCap.toNat →
    ∃ t ls, exec (.compress f) s = .next t ∧ EndsWell s t
      ∧ t.tabs.freqV = true ∧ t.tabs.treeV = true ∧ t.tabs.codeV = true
      ∧ (∀ b : Byte, (t.tabs.freq.read b.toNat).toNat = (srcBytes s).count b)
      ∧ t.tabs.total = s.cfg.bufs.srcLen ∧ t.tabs.nsym.toNat = (srcBytes s).dedup.length
      ∧ treeLeaves t.tabs.node t.tabs.root = some ls
      ∧ (∀ l ∈ ls, t.tabs.code.read l.2.toNat = l.1)
      ∧ t.regs.dstLen.toNat = (streamOf t.tabs.code (srcBytes s)).length
      ∧ readBits t.mem s.cfg.bufs.dstBase.toNat t.regs.dstLen.toNat f
          = (streamOf t.tabs.code (srcBytes s)).map some
      ∧ readBytes t.mem s.cfg.bufs.dstBase.toNat
          (match f with | .ascii => t.regs.dstLen.toNat | .packed => (t.regs.dstLen.toNat + 7) / 8)
          = streamImage f (streamOf t.tabs.code (srcBytes s))
      ∧ t.regs.ratio.toNat = rhe (t.regs.dstLen.toNat * 1250) s.cfg.bufs.srcLen.toNat
      ∧ t.regs.toutLen.toNat = (treeText ls).length
      ∧ readBytes t.mem s.cfg.bufs.toutBase.toNat t.regs.toutLen.toNat = treeText ls
      ∧ MemSameOutside (writtenRanges (.compress f) s.cfg t.regs) s t)
  ∧ (∀ (f : BitFmt) (s : State), Ready (.compress f) s → Quiet (.compress f) s →
    ∃ t ls, exec (.compress f) s = .next t
      ∧ t.tabs.freqV = true ∧ t.tabs.treeV = true ∧ t.tabs.codeV = true
      ∧ (∀ b : Byte, (t.tabs.freq.read b.toNat).toNat = (srcBytes s).count b)
      ∧ t.tabs.total = s.cfg.bufs.srcLen ∧ t.tabs.nsym.toNat = (srcBytes s).dedup.length
      ∧ treeLeaves t.tabs.node t.tabs.root = some ls
      ∧ (∀ l ∈ ls, t.tabs.code.read l.2.toNat = l.1)
      ∧ let e := (streamOf t.tabs.code (srcBytes s)).length
        let need := match f with | .ascii => e | .packed => (e + 7) / 8
        let fits := e ≤ 0xFFFFFFFF ∧ need ≤ s.cfg.bufs.dstCap.toNat
        (¬ fits → EndsInError 8 2 s t)
        ∧ (fits → s.cfg.bufs.toutCap.toNat < (treeText ls).length → EndsInError 8 3 s t)
        ∧ (fits → (treeText ls).length ≤ s.cfg.bufs.toutCap.toNat →
          EndsWell s t ∧ t.regs.dstLen.toNat = e ∧ t.regs.toutLen.toNat = (treeText ls).length
            ∧ t.regs.ratio.toNat = rhe (e * 1250) s.cfg.bufs.srcLen.toNat
            ∧ readBytes t.mem s.cfg.bufs.dstBase.toNat need = streamImage f (streamOf t.tabs.code (srcBytes s))
            ∧ readBytes t.mem s.cfg.bufs.toutBase.toNat (treeText ls).length = treeText ls
            ∧ MemSameOutside (writtenRanges (.compress f) s.cfg t.regs) s t))
  ∧ (∀ (f : BitFmt) (s t : State), exec (.compress f) s = .next t → t.regs.errcode ≠ 6 ∧ t.regs.errcode ≠ 9)
  ∧ (∀ (f : BitFmt) (s : State) (r : Fault), exec (.compress f) s ≠ .fault r)

/-- R172, R176: where COUNT, BUILD, GENCODE, ENCODE and SERIALIZE all succeed one after another from an idle
core and COMPRESS's ranges do not overlap, COMPRESS succeeds and leaves the same internal state, memory and
results; and so does DECOMPRESS where DESERIALIZE and then DECODE succeed. Both are the spec's own inferences
in R172 and R176. -/
def Obligations.CompositesEqualTheirSequences : Prop :=
  (∀ (f : BitFmt) (s a b c d e : State), s.engine = .idle → noMeaning (.compress f) s = none →
    exec (.count f) s = .next a → a.regs.err = false →
    exec (.build f) a = .next b → b.regs.err = false →
    exec (.gencode f) b = .next c → c.regs.err = false →
    exec (.encode f) c = .next d → d.regs.err = false →
    exec (.serialize f) d = .next e → e.regs.err = false →
    ∃ t, exec (.compress f) s = .next t ∧ t.regs.err = false ∧ t.tabs = e.tabs ∧ t.mem = e.mem
      ∧ t.regs.dstLen = e.regs.dstLen ∧ t.regs.ratio = e.regs.ratio ∧ t.regs.toutLen = e.regs.toutLen)
  ∧ (∀ (f : BitFmt) (s a b : State), s.engine = .idle → noMeaning (.decompress f) s = none →
    exec (.deserialize f) s = .next a → a.regs.err = false →
    exec (.decode f) a = .next b → b.regs.err = false →
    ∃ t, exec (.decompress f) s = .next t ∧ t.regs.err = false ∧ t.tabs = b.tabs ∧ t.mem = b.mem
      ∧ t.regs.dstLen = b.regs.dstLen)

/-- R174: DECOMPRESS of an acceptable tree text and a stream that visits its Leaves completes with their
symbols in DST, `DST_LEN` their number, the tree of the text valid and the code table not, and changes
nothing else. Whatever the stream, the tree of an acceptable text is left valid and the code table not, and the
command ends as DECODE over that tree does: with its error or with none. -/
def Obligations.DecompressDecodesTheText : Prop :=
  (∀ (f : BitFmt) (s : State) (ls xs : List (BitString × Byte)), Ready (.decompress f) s → Quiet (.decompress f) s →
    acceptable ls = true → treeBytes s = treeText ls → (∀ x ∈ xs, x ∈ ls) →
    srcBits f s = (pathsOf xs).map some → xs.length ≤ s.cfg.bufs.dstCap.toNat →
    ∃ t ls', exec (.decompress f) s = .next t ∧ EndsWell s t
      ∧ t.regs.dstLen.toNat = xs.length ∧ t.regs.toutLen = s.regs.toutLen ∧ t.regs.ratio = s.regs.ratio
      ∧ readBytes t.mem s.cfg.bufs.dstBase.toNat xs.length = xs.map (fun x => x.2)
      ∧ MemSameOutside [⟨s.cfg.bufs.dstBase.toNat, xs.length⟩] s t
      ∧ FreqSame s t ∧ t.tabs.code = s.tabs.code ∧ t.tabs.codeV = false ∧ t.tabs.treeV = true
      ∧ treeLeaves t.tabs.node t.tabs.root = some ls' ∧ ls'.Perm ls)
  ∧ (∀ (f : BitFmt) (s : State) (ls : List (BitString × Byte)), Ready (.decompress f) s → Quiet (.decompress f) s →
    acceptable ls = true → (treeBytes s = treeText ls ∨ treeBytes s = treeText ls ++ [0x0A]) →
    ∃ t ls' d, exec (.decompress f) s = .next t
      ∧ FreqSame s t ∧ t.tabs.code = s.tabs.code ∧ t.tabs.codeV = false ∧ t.tabs.treeV = true
      ∧ treeLeaves t.tabs.node t.tabs.root = some ls' ∧ ls'.Perm ls
      ∧ exec (.decode f) { s with tabs := t.tabs } = .next d
      ∧ t.regs.err = d.regs.err ∧ t.regs.errcode = d.regs.errcode ∧ t.regs.errinfo = d.regs.errinfo
      ∧ t.regs.dstLen = d.regs.dstLen)

/-- R173: the round trip. After a COMPRESS that succeeds, DECOMPRESS with the same format, SRC its DST with
its `DST_LEN` bits, TREE its TOUT with its `TOUT_LEN` bytes and a DST of at least the text's length succeeds
and writes the text back. This is the spec's own inference in R173. -/
def Obligations.DecompressInvertsCompress : Prop :=
  ∀ (f : BitFmt) (s t u : State), exec (.compress f) s = .next t → t.regs.err = false →
    u.mem = t.mem →
    u.cfg.bufs.srcBase = s.cfg.bufs.dstBase → u.cfg.bufs.srcLen = t.regs.dstLen →
    u.cfg.bufs.treeBase = s.cfg.bufs.toutBase → u.cfg.bufs.treeLen = t.regs.toutLen →
    s.cfg.bufs.srcLen.toNat ≤ u.cfg.bufs.dstCap.toNat →
    u.cfg.bufs.dstBase.toNat + u.cfg.bufs.dstCap.toNat ≤ 2 ^ 32 →
    noMeaning (.decompress f) u = none → Quiet (.decompress f) u →
    ∃ v, exec (.decompress f) u = .next v ∧ v.regs.err = false ∧ v.regs.dstLen = s.cfg.bufs.srcLen
      ∧ readBytes v.mem u.cfg.bufs.dstBase.toNat s.cfg.bufs.srcLen.toNat = srcBytes s

/-! ## Whole-machine rules -/

/-- R52, R95: which commands change which structure. COUNT changes the frequency table alone; BUILD and
DESERIALIZE and DECOMPRESS leave the frequency table and the codes' contents; GENCODE changes the code table
alone; ENCODE, SERIALIZE and DECODE change none; and a host step that is not a reset changes none. -/
def Obligations.StructuresChangeOnlyByTheirCommands : Prop :=
  (∀ (f : BitFmt) (s t : State),
    (exec (.count f) s = .next t → TreeSame s t ∧ CodeSame s t)
    ∧ (exec (.build f) s = .next t → FreqSame s t ∧ t.tabs.code = s.tabs.code)
    ∧ (exec (.gencode f) s = .next t → FreqSame s t ∧ TreeSame s t)
    ∧ (exec (.encode f) s = .next t → t.tabs = s.tabs)
    ∧ (exec (.serialize f) s = .next t → t.tabs = s.tabs)
    ∧ (exec (.decode f) s = .next t → t.tabs = s.tabs)
    ∧ (exec (.deserialize f) s = .next t → FreqSame s t ∧ t.tabs.code = s.tabs.code)
    ∧ (exec (.decompress f) s = .next t → FreqSame s t ∧ t.tabs.code = s.tabs.code))
  ∧ (∀ (s t : State) (a : RegAccess) (w v : Word) (x : Byte) (r : RegName) (es : List Event), step s = .next t →
      (s.events = .regRead a :: es ∨ s.events = .memRead w :: es ∨ s.events = .memWrite w x :: es
        ∨ s.events = .irqAccept :: es
        ∨ (r ≠ .ctrl ∧ s.events = .regWrite (accessTo s.platform.regBase r) v :: es)) → t.tabs = s.tabs)

/-- R85, R220: while a command runs, no host access but a reset can change which command runs, the copy it
runs on, the internal state or the result registers; and a host write to a byte of its ranges is refused. -/
def Obligations.RunningCommandIsFixed : Prop :=
  ∀ (s : State) (c : LaunchCopy) (ev : Event) (es : List Event), s.engine = .busy c → s.events = ev :: es →
    (∀ t, ev ≠ .complete → ev ≠ .hwReset →
      (∀ v : Word, v.getLsbD 0 = true → ev ≠ .regWrite (accessTo s.platform.regBase .ctrl) v) →
      step s = .next t →
      t.engine = .busy c ∧ t.work = s.work ∧ t.tabs = s.tabs ∧ t.regs.cmd = s.regs.cmd ∧ t.regs.bufs = s.regs.bufs
        ∧ ResultsSame s t ∧ t.regs.errinfo = s.regs.errinfo ∧ t.platform = s.platform)
    ∧ (∀ (i : Instr) (a : Word) (x : Byte), decode c.cmd = .ok i → ev = .memWrite a x →
        inRanges (readRanges i c ++ writeRanges i c) a.toNat = true → step s = .refused .hostWroteBusyRange)

/-- R81, R220: from a command's launch until the host observes its completion a host read of a byte of its
write ranges may return anything, and a host write to a byte of any of its ranges is refused; every other byte
the host reads as it is, or writes alone, and nothing else of the core changes. A completion is unobserved
until a `STATUS` read while idle (HostReadsHaveNoSideEffects) or an accepted interrupt. That the window lasts
past `BUSY` = 1 is the model's choice between R81 and R220 (log 25). A bus error is the core's, never the
host's (log 17). -/
def Obligations.HostMemoryAccessesAreBytewise : Prop :=
  (∀ (s : State) (a : Word) (x : Byte) (es : List Event),
    (s.events = .memRead a :: es →
      ∃ v, step s = .next { s with events := es, seen := v :: s.seen, drawn := s.drawn + 1 }
        ∧ (inRanges (openWrites s) a.toNat = false → v.toNat = (s.mem.read a.toNat).toNat)
        ∧ v.toNat < 256)
    ∧ (s.events = .memWrite a x :: es → inRanges (openRanges s) a.toNat = false →
      ∃ m, step s = .next { s with events := es, mem := m } ∧ m.read a.toNat = x
        ∧ ∀ b, b ≠ a.toNat → m.read b = s.mem.read b)
    ∧ (s.events = .memWrite a x :: es → inRanges (openRanges s) a.toNat = true →
      step s = .refused .hostWroteBusyRange)
    ∧ (s.events = .irqAccept :: es →
      step s = .next { s with events := es, unseen := if irqLine s then [] else s.unseen }))
  ∧ (∀ (s : State) (a : Nat),
    (inRanges (openWrites s) a = true ↔ ∃ c i, (s.engine = .busy c ∨ c ∈ s.unseen) ∧ decode c.cmd = .ok i
      ∧ inRanges (writeRanges i c) a = true)
    ∧ (inRanges (openRanges s) a = true ↔ ∃ c i, (s.engine = .busy c ∨ c ∈ s.unseen) ∧ decode c.cmd = .ok i
      ∧ inRanges (readRanges i c ++ writeRanges i c) a = true))
  ∧ (∀ (i : Instr) (s t : State), exec i s = .next t → t.unseen = s.cfg :: s.unseen)

/-- R185: what a command ends with is a function of its configuration copy, the internal state at its start
and the bytes of its read ranges (with the platform and the draw the model's free values take): two states
that agree on these end alike, in the internal state, the error, the result registers the command writes and
the result's bytes. This is the spec's own inference in R185; the draw is the model's (log 5, log 6). And
COUNT, BUILD, GENCODE, SERIALIZE and DESERIALIZE run alike whatever `BITFMT` is (R94). -/
def Obligations.OutcomeDependsOnInputsOnly : Prop :=
  (∀ (i : Instr) (s s' t : State), s.cfg = s'.cfg → s.tabs = s'.tabs → s.platform = s'.platform →
    s.drawn = s'.drawn → (∀ a, inRanges (readRanges i s.cfg) a = true → s.mem.read a = s'.mem.read a) →
    exec i s = .next t →
    ∃ t', exec i s' = .next t' ∧ t'.tabs = t.tabs ∧ t'.regs.err = t.regs.err
      ∧ t'.regs.errcode = t.regs.errcode ∧ t'.regs.errinfo = t.regs.errinfo
      ∧ ((resultsOf i).dstLen = true → t'.regs.dstLen = t.regs.dstLen)
      ∧ ((resultsOf i).toutLen = true → t'.regs.toutLen = t.regs.toutLen)
      ∧ ((resultsOf i).ratio = true → t'.regs.ratio = t.regs.ratio)
      ∧ (t.regs.err = false → ∀ a, inRanges (writtenRanges i s.cfg t.regs) a = true →
          t'.mem.read a = t.mem.read a))
  ∧ (∀ s : State,
    exec (.count .ascii) s = exec (.count .packed) s
    ∧ exec (.build .ascii) s = exec (.build .packed) s
    ∧ exec (.gencode .ascii) s = exec (.gencode .packed) s
    ∧ exec (.serialize .ascii) s = exec (.serialize .packed) s
    ∧ exec (.deserialize .ascii) s = exec (.deserialize .packed) s)

/-! ## Invariants -/

/-- The state after reset meets the invariant (R210). -/
def Obligations.ResetMeetsTheInvariant : Prop := inv State.reset = true

/-- Every step keeps memory in its canonical form (the model's, log 1). -/
def Obligations.MemoryStaysCanonical : Prop :=
  ∀ s t : State, s.mem.wf = true → step s = .next t → t.mem.wf = true

/-- R29, R30, R46, R57, R91: every step keeps `ERR` = 1 exactly when `ERRCODE` is not 0, `ERRINFO` = 0 after a
success, the busy engine's copy equal to the registers, and the queue and positions empty outside a run. That
the queue and positions rest between steps is the model's choice (log 15). -/
def Obligations.RegistersStayConsistent : Prop :=
  ∀ s t : State, regsOk s = true → step s = .next t → regsOk t = true

/-- R50, R51, R101: every step keeps a valid frequency table adding up to `total` and `nsym` counting its
positive counters. -/
def Obligations.FrequencyTableStaysConsistent : Prop :=
  ∀ s t : State, freqOk s.tabs = true → step s = .next t → freqOk t.tabs = true

/-- R53 to R56: every step keeps a valid tree's nodes in their form, its root and children in the store, its
walk within 255 levels, and every code within 255 bits. The form is the model's reading of what the commands
leave (log 8). -/
def Obligations.NodeStoreStaysATree : Prop :=
  ∀ s t : State, step s = .next t →
    (storeOk s.tabs = true → storeOk t.tabs = true)
    ∧ (treeOk s.tabs = true → treeOk t.tabs = true)
    ∧ (codeOk s.tabs = true → codeOk t.tabs = true)

/-- From a state that meets the invariant no step faults. The fault is the model's (log 8). -/
def Obligations.NoFaultUnderTheInvariant : Prop :=
  ∀ (s : State) (r : Fault), inv s = true → step s ≠ .fault r

/-- R80, R225: with no host step left, a running command that the spec gives a meaning completes in one step,
from every state that meets the invariant, and leaves the core idle with `DONE_IP` set. With no host step left
the completion moves (log 5). -/
def Obligations.LaunchedCommandsComplete : Prop :=
  ∀ (s : State) (c : LaunchCopy), inv s = true → s.engine = .busy c → s.events = [] →
    (∀ i, decode c.cmd = .ok i → noMeaning i s = none) →
    ∃ t, step s = .next t ∧ t.engine = .idle ∧ t.regs.doneIp = true
end

