-- ==== Sys2Proof/Laws/Memory.lean ====
section
/-! SUPPORT. The laws of memory: a read after a write, that every memory operation leaves every other byte
alone, and that it keeps the canonical form. -/

namespace Sys2Proof.Machine

/-! Reads after writes (R74). -/

theorem Memory.read_erase (m : Memory) (x y : Nat) :
    (m.erase x).read y = if x = y then Memory.unlisted else m.read y := by
  induction m with
  | nil => simp [Memory.erase, Memory.read]
  | cons c m ih =>
    obtain ⟨a, w⟩ := c
    by_cases hax : a = x
    · subst hax
      simp only [Memory.erase, List.filter_cons, bne_self_eq_false, Bool.false_eq_true, if_false, Memory.read]
      simp only [Memory.erase] at ih
      rw [ih]
      split <;> rfl
    · have : (a != x) = true := by simpa using hax
      simp only [Memory.erase, List.filter_cons, this, if_true, Memory.read]
      simp only [Memory.erase] at ih
      rw [ih]
      by_cases hay : a = y
      · subst hay; simp [Ne.symm hax]
      · simp [hay]

theorem Memory.erase_has_not (m : Memory) (x : Nat) : ∀ c ∈ m.erase x, c.1 ≠ x := by
  intro c hc
  simpa using (List.mem_filter.mp hc).2

theorem Memory.read_insert (m : Memory) (x y : Nat) (v : Byte) (h : ∀ c ∈ m, c.1 ≠ x) :
    (m.insert x v).read y = if x = y then v else m.read y := by
  induction m with
  | nil => simp [Memory.insert, Memory.read]
  | cons c m ih =>
    obtain ⟨a, w⟩ := c
    have hax : a ≠ x := h (a, w) (by simp)
    have ih := ih fun c hc => h c (by simp [hc])
    simp only [Memory.insert]
    split
    · simp only [Memory.read]
    · simp only [Memory.read, ih]
      by_cases hay : a = y
      · subst hay; simp [Ne.symm hax]
      · simp [hay]

/-- A read after a write gives the value written, or at another address what it gave before. -/
theorem Memory.read_write (m : Memory) (x y : Nat) (v : Byte) :
    (m.write x v).read y = if x = y then v else m.read y := by
  unfold Memory.write
  split
  · subst_vars; exact m.read_erase x y
  · rw [Memory.read_insert _ _ _ _ (m.erase_has_not x), Memory.read_erase]
    split <;> simp_all

@[simp] theorem Memory.read_write_same (m : Memory) (x : Nat) (v : Byte) : (m.write x v).read x = v := by
  simp [Memory.read_write]

theorem Memory.read_write_ne (m : Memory) {x y : Nat} (v : Byte) (h : x ≠ y) :
    (m.write x v).read y = m.read y := by
  simp [Memory.read_write, h]

/-- `WriteText` leaves every byte outside the written ones alone. -/
theorem read_writeBytes_outside (bs : List Byte) :
    ∀ (m : Memory) (base a : Nat), a < base ∨ base + bs.length ≤ a → (writeBytes m base bs).read a = m.read a := by
  induction bs with
  | nil => intro m base a _; rfl
  | cons b bs ih =>
    intro m base a h
    simp only [List.length_cons] at h
    rw [writeBytes, ih _ _ _ (by omega), Memory.read_write_ne _ _ (by omega)]

/-- `WriteText` puts byte `j` at `base + j`. -/
theorem read_writeBytes_inside (bs : List Byte) :
    ∀ (m : Memory) (base j : Nat) (h : j < bs.length), (writeBytes m base bs).read (base + j) = bs[j] := by
  induction bs with
  | nil => intro m base j h; simp at h
  | cons b bs ih =>
    intro m base j h
    cases j with
    | zero =>
      rw [writeBytes, read_writeBytes_outside _ _ _ _ (by omega)]
      simp
    | succ j =>
      have := ih (m.write base b) (base + 1) j (by simpa using h)
      rw [writeBytes, show base + (j + 1) = base + 1 + j by omega, this]
      simp

/-- What `WriteText` wrote reads back. -/
theorem readBytes_writeBytes (m : Memory) (base : Nat) (bs : List Byte) :
    readBytes (writeBytes m base bs) base bs.length = bs := by
  refine List.ext_getElem (by simp [readBytes]) fun i h1 h2 => ?_
  simp [readBytes, read_writeBytes_inside bs m base i h2]

/-- A fold of writes at addresses of a list leaves the others alone. -/
theorem read_foldl_write (f : Nat → Byte) (g : Nat → Nat) (a : Nat) :
    ∀ (js : List Nat) (m : Memory), (∀ j ∈ js, g j ≠ a) →
      (js.foldl (fun m j => m.write (g j) (f (g j))) m).read a = m.read a := by
  intro js
  induction js with
  | nil => intro m _; rfl
  | cons j js ih =>
    intro m h
    rw [List.foldl_cons, ih _ fun k hk => h k (by simp [hk]), Memory.read_write_ne _ _ (h j (by simp))]

/-- Scribbling a range leaves every byte outside it alone. -/
theorem read_scribbleRange_outside (n : Nat) (m : Memory) (r : Range) (a : Nat) (h : r.has a = false) :
    (scribbleRange n m r).read a = m.read a := by
  refine read_foldl_write (Config.freeByte n) (r.base + ·) a _ m fun j hj => ?_
  simp only [List.mem_range] at hj
  simp only [Range.has, decide_eq_false_iff_not] at h
  omega

/-- Scribbling leaves every byte outside the ranges alone (R78). -/
theorem read_scribble_outside (n : Nat) (a : Nat) :
    ∀ (rs : List Range) (m : Memory), inRanges rs a = false → (scribble n m rs).read a = m.read a := by
  intro rs
  induction rs with
  | nil => intro m _; rfl
  | cons r rs ih =>
    intro m h
    simp only [inRanges, List.any_cons, Bool.or_eq_false_iff] at h
    rw [scribble, List.foldl_cons]
    exact (ih _ h.2).trans (read_scribbleRange_outside n m r a h.1)

@[simp] theorem scribble_nil (n : Nat) (m : Memory) : scribble n m [] = m := rfl

/-! The canonical form. -/

theorem Memory.wfFrom_mono {m : Memory} {lo lo' : Nat} (h : Memory.wfFrom lo m = true) (hl : lo' ≤ lo) :
    Memory.wfFrom lo' m = true := by
  cases m with
  | nil => rfl
  | cons c m =>
    obtain ⟨a, v⟩ := c
    simp only [Memory.wfFrom, Bool.and_eq_true, decide_eq_true_eq] at h ⊢
    exact ⟨⟨⟨by omega, h.1.1.2⟩, h.1.2⟩, h.2⟩

theorem Memory.wfFrom_erase (x : Nat) : ∀ {m : Memory} {lo : Nat}, Memory.wfFrom lo m = true →
    Memory.wfFrom lo (m.erase x) = true := by
  intro m
  induction m with
  | nil => intro lo _; rfl
  | cons c m ih =>
    intro lo h
    obtain ⟨a, v⟩ := c
    simp only [Memory.wfFrom, Bool.and_eq_true, decide_eq_true_eq] at h
    have ih' := ih h.2
    simp only [Memory.erase] at ih' ⊢
    rw [List.filter_cons]
    split
    · simp only [Memory.wfFrom, Bool.and_eq_true, decide_eq_true_eq]
      exact ⟨⟨⟨h.1.1.1, h.1.1.2⟩, h.1.2⟩, ih'⟩
    · exact Memory.wfFrom_mono ih' (by omega)

theorem Memory.wfFrom_insert {x : Nat} {v : Byte} (hx : x < Config.memSize) (hv : v ≠ Memory.unlisted) :
    ∀ {m : Memory} {lo : Nat}, lo ≤ x → Memory.wfFrom lo m = true → (∀ c ∈ m, c.1 ≠ x) →
      Memory.wfFrom lo (m.insert x v) = true := by
  intro m
  induction m with
  | nil => intro lo hlo _ _; simp [Memory.insert, Memory.wfFrom, hlo, hx, hv]
  | cons c m ih =>
    intro lo hlo h hne
    obtain ⟨a, w⟩ := c
    have hax : a ≠ x := hne (a, w) (by simp)
    simp only [Memory.wfFrom, Bool.and_eq_true, decide_eq_true_eq] at h
    simp only [Memory.insert]
    split
    · rename_i hxa
      simp only [Memory.wfFrom, Bool.and_eq_true, decide_eq_true_eq]
      exact ⟨⟨⟨hlo, hx⟩, hv⟩, ⟨⟨⟨by omega, h.1.1.2⟩, h.1.2⟩, h.2⟩⟩
    · simp only [Memory.wfFrom, Bool.and_eq_true, decide_eq_true_eq]
      exact ⟨⟨⟨h.1.1.1, h.1.1.2⟩, h.1.2⟩, ih (by omega) h.2 fun c hc => hne c (by simp [hc])⟩

/-- A write keeps the canonical form. -/
theorem Memory.wf_write {m : Memory} (x : Nat) (v : Byte) (hx : x < Config.memSize) (h : m.wf = true) :
    (m.write x v).wf = true := by
  unfold Memory.write
  split
  · exact Memory.wfFrom_erase x h
  · rename_i hv
    exact Memory.wfFrom_insert hx hv (Nat.zero_le x) (Memory.wfFrom_erase x h) (m.erase_has_not x)

/-- `WriteText` keeps the canonical form. -/
theorem wf_writeBytes (bs : List Byte) : ∀ {m : Memory} (base : Nat),
    bs.length = 0 ∨ base + bs.length ≤ Config.memSize → m.wf = true → (writeBytes m base bs).wf = true := by
  induction bs with
  | nil => intro m base _ h; exact h
  | cons b bs ih =>
    intro m base hb h
    simp only [List.length_cons] at hb
    exact ih (base + 1) (by omega) (Memory.wf_write base b (by omega) h)

theorem wf_foldl_write (f : Nat → Byte) (g : Nat → Nat) :
    ∀ (js : List Nat) {m : Memory}, (∀ j ∈ js, g j < Config.memSize) → m.wf = true →
      Memory.wf (js.foldl (fun m j => m.write (g j) (f (g j))) m) = true := by
  intro js
  induction js with
  | nil => intro m _ h; exact h
  | cons j js ih =>
    intro m hj h
    exact ih (fun k hk => hj k (by simp [hk])) (Memory.wf_write _ _ (hj j (by simp)) h)

/-- Scribbling keeps the canonical form. -/
theorem wf_scribble (n : Nat) : ∀ (rs : List Range) {m : Memory}, m.wf = true → (scribble n m rs).wf = true := by
  intro rs
  induction rs with
  | nil => intro m h; exact h
  | cons r rs ih =>
    intro m h
    refine ih (wf_foldl_write (Config.freeByte n) (r.base + ·) _ (fun j hj => ?_) h)
    simp only [List.mem_range] at hj
    omega

end Sys2Proof.Machine
end

