-- ==== Sys2Proof/Laws/State.lean ====
section
/-! SUPPORT. One lemma for each field of each named update of the state, the registers and the tables, true
by rfl, so that no later proof unfolds a record update. -/

namespace Sys2Proof.Machine

/-! Successful completion (R189). -/

@[simp] theorem complete_engine (s : State) : (complete s).engine = .idle := rfl
@[simp] theorem complete_work (s : State) : (complete s).work = Work.rest := rfl
@[simp] theorem complete_regs (s : State) : (complete s).regs = s.regs.succeed := rfl
@[simp] theorem complete_tabs (s : State) : (complete s).tabs = s.tabs := rfl
@[simp] theorem complete_mem (s : State) : (complete s).mem = s.mem := rfl
@[simp] theorem complete_platform (s : State) : (complete s).platform = s.platform := rfl
@[simp] theorem complete_unseen (s : State) : (complete s).unseen = s.cfg :: s.unseen := rfl
@[simp] theorem complete_events (s : State) : (complete s).events = s.events := rfl
@[simp] theorem complete_seen (s : State) : (complete s).seen = s.seen := rfl
@[simp] theorem complete_drawn (s : State) : (complete s).drawn = s.drawn := rfl

/-! Error completion (R190). -/

@[simp] theorem raise_engine (ws : List Range) (c : Results) (e : Err) (s : State) :
    (raise ws c e s).engine = .idle := rfl
@[simp] theorem raise_work (ws : List Range) (c : Results) (e : Err) (s : State) :
    (raise ws c e s).work = Work.rest := rfl
@[simp] theorem raise_regs (ws : List Range) (c : Results) (e : Err) (s : State) :
    (raise ws c e s).regs = s.regs.fail c e := rfl
@[simp] theorem raise_tabs (ws : List Range) (c : Results) (e : Err) (s : State) :
    (raise ws c e s).tabs = s.tabs := rfl
@[simp] theorem raise_mem (ws : List Range) (c : Results) (e : Err) (s : State) :
    (raise ws c e s).mem = scribble s.drawn s.mem ws := rfl
@[simp] theorem raise_platform (ws : List Range) (c : Results) (e : Err) (s : State) :
    (raise ws c e s).platform = s.platform := rfl
@[simp] theorem raise_unseen (ws : List Range) (c : Results) (e : Err) (s : State) :
    (raise ws c e s).unseen = s.cfg :: s.unseen := rfl
@[simp] theorem raise_events (ws : List Range) (c : Results) (e : Err) (s : State) :
    (raise ws c e s).events = s.events := rfl
@[simp] theorem raise_seen (ws : List Range) (c : Results) (e : Err) (s : State) :
    (raise ws c e s).seen = s.seen := rfl
@[simp] theorem raise_drawn (ws : List Range) (c : Results) (e : Err) (s : State) :
    (raise ws c e s).drawn = s.drawn + 1 := rfl

/-! Error completion of a command (R190). -/

@[simp] theorem raiseFor_engine (i : Instr) (e : Err) (s : State) : (raiseFor i e s).engine = .idle := rfl
@[simp] theorem raiseFor_work (i : Instr) (e : Err) (s : State) : (raiseFor i e s).work = Work.rest := rfl
@[simp] theorem raiseFor_regs (i : Instr) (e : Err) (s : State) :
    (raiseFor i e s).regs = s.regs.fail (resultsOf i) e := rfl
@[simp] theorem raiseFor_tabs (i : Instr) (e : Err) (s : State) : (raiseFor i e s).tabs = s.tabs := rfl
@[simp] theorem raiseFor_mem (i : Instr) (e : Err) (s : State) :
    (raiseFor i e s).mem = scribble s.drawn s.mem (writeRanges i s.cfg) := rfl
@[simp] theorem raiseFor_platform (i : Instr) (e : Err) (s : State) : (raiseFor i e s).platform = s.platform := rfl
@[simp] theorem raiseFor_unseen (i : Instr) (e : Err) (s : State) : (raiseFor i e s).unseen = s.cfg :: s.unseen := rfl
@[simp] theorem raiseFor_events (i : Instr) (e : Err) (s : State) : (raiseFor i e s).events = s.events := rfl
@[simp] theorem raiseFor_seen (i : Instr) (e : Err) (s : State) : (raiseFor i e s).seen = s.seen := rfl
@[simp] theorem raiseFor_drawn (i : Instr) (e : Err) (s : State) : (raiseFor i e s).drawn = s.drawn + 1 := rfl

/-! Completion of an illegal word (R93). -/

@[simp] theorem raiseIllegal_engine (w : Word) (s : State) : (raiseIllegal w s).engine = .idle := rfl
@[simp] theorem raiseIllegal_work (w : Word) (s : State) : (raiseIllegal w s).work = Work.rest := rfl
@[simp] theorem raiseIllegal_regs (w : Word) (s : State) :
    (raiseIllegal w s).regs = s.regs.fail ⟨false, false, false⟩ ⟨.illegal, w⟩ := rfl
@[simp] theorem raiseIllegal_tabs (w : Word) (s : State) : (raiseIllegal w s).tabs = s.tabs := rfl
@[simp] theorem raiseIllegal_mem (w : Word) (s : State) : (raiseIllegal w s).mem = s.mem := rfl
@[simp] theorem raiseIllegal_platform (w : Word) (s : State) : (raiseIllegal w s).platform = s.platform := rfl
@[simp] theorem raiseIllegal_unseen (w : Word) (s : State) : (raiseIllegal w s).unseen = s.cfg :: s.unseen := rfl
@[simp] theorem raiseIllegal_events (w : Word) (s : State) : (raiseIllegal w s).events = s.events := rfl
@[simp] theorem raiseIllegal_seen (w : Word) (s : State) : (raiseIllegal w s).seen = s.seen := rfl
@[simp] theorem raiseIllegal_drawn (w : Word) (s : State) : (raiseIllegal w s).drawn = s.drawn + 1 := rfl

/-! A launch (R91). -/

@[simp] theorem launch_engine (w : Word) (s : State) : (launch w s).engine = .busy ⟨w, s.regs.bufs⟩ := rfl
@[simp] theorem launch_work (w : Word) (s : State) : (launch w s).work = Work.rest := rfl
@[simp] theorem launch_regs (w : Word) (s : State) :
    (launch w s).regs = { s.regs with cmd := w, err := false, errcode := 0 } := rfl
@[simp] theorem launch_tabs (w : Word) (s : State) : (launch w s).tabs = s.tabs := rfl
@[simp] theorem launch_mem (w : Word) (s : State) : (launch w s).mem = s.mem := rfl
@[simp] theorem launch_platform (w : Word) (s : State) : (launch w s).platform = s.platform := rfl
@[simp] theorem launch_unseen (w : Word) (s : State) : (launch w s).unseen = s.unseen := rfl
@[simp] theorem launch_events (w : Word) (s : State) : (launch w s).events = s.events := rfl
@[simp] theorem launch_seen (w : Word) (s : State) : (launch w s).seen = s.seen := rfl
@[simp] theorem launch_drawn (w : Word) (s : State) : (launch w s).drawn = s.drawn := rfl

/-! A reset (R210, R211). -/

@[simp] theorem resetCore_engine (m : Memory) (s : State) : (resetCore m s).engine = .idle := rfl
@[simp] theorem resetCore_work (m : Memory) (s : State) : (resetCore m s).work = Work.rest := rfl
@[simp] theorem resetCore_regs (m : Memory) (s : State) : (resetCore m s).regs = Regs.reset := rfl
@[simp] theorem resetCore_tabs (m : Memory) (s : State) :
    (resetCore m s).tabs = { Tables.reset with node := Table.ofFn 511 (Config.freeNode s.drawn) } := rfl
@[simp] theorem resetCore_mem (m : Memory) (s : State) : (resetCore m s).mem = m := rfl
@[simp] theorem resetCore_platform (m : Memory) (s : State) : (resetCore m s).platform = s.platform := rfl
@[simp] theorem resetCore_unseen (m : Memory) (s : State) : (resetCore m s).unseen = [] := rfl
@[simp] theorem resetCore_events (m : Memory) (s : State) : (resetCore m s).events = s.events := rfl
@[simp] theorem resetCore_seen (m : Memory) (s : State) : (resetCore m s).seen = s.seen := rfl
@[simp] theorem resetCore_drawn (m : Memory) (s : State) : (resetCore m s).drawn = s.drawn + 1 := rfl

/-! A host read. -/

@[simp] theorem sawWord_engine (v : Word) (s : State) : (sawWord v s).engine = s.engine := rfl
@[simp] theorem sawWord_work (v : Word) (s : State) : (sawWord v s).work = s.work := rfl
@[simp] theorem sawWord_regs (v : Word) (s : State) : (sawWord v s).regs = s.regs := rfl
@[simp] theorem sawWord_tabs (v : Word) (s : State) : (sawWord v s).tabs = s.tabs := rfl
@[simp] theorem sawWord_mem (v : Word) (s : State) : (sawWord v s).mem = s.mem := rfl
@[simp] theorem sawWord_platform (v : Word) (s : State) : (sawWord v s).platform = s.platform := rfl
@[simp] theorem sawWord_unseen (v : Word) (s : State) : (sawWord v s).unseen = s.unseen := rfl
@[simp] theorem sawWord_events (v : Word) (s : State) : (sawWord v s).events = s.events := rfl
@[simp] theorem sawWord_seen (v : Word) (s : State) : (sawWord v s).seen = v :: s.seen := rfl
@[simp] theorem sawWord_drawn (v : Word) (s : State) : (sawWord v s).drawn = s.drawn + 1 := rfl

/-! What the host observes (R81). -/

@[simp] theorem observe_engine (s : State) : (observe s).engine = s.engine := rfl
@[simp] theorem observe_work (s : State) : (observe s).work = s.work := rfl
@[simp] theorem observe_regs (s : State) : (observe s).regs = s.regs := rfl
@[simp] theorem observe_tabs (s : State) : (observe s).tabs = s.tabs := rfl
@[simp] theorem observe_mem (s : State) : (observe s).mem = s.mem := rfl
@[simp] theorem observe_platform (s : State) : (observe s).platform = s.platform := rfl
@[simp] theorem observe_unseen (s : State) : (observe s).unseen = [] := rfl
@[simp] theorem observe_events (s : State) : (observe s).events = s.events := rfl
@[simp] theorem observe_seen (s : State) : (observe s).seen = s.seen := rfl
@[simp] theorem observe_drawn (s : State) : (observe s).drawn = s.drawn := rfl

/-! A program placed to run next. -/

@[simp] theorem withFetchWord_engine (s : State) (nbits w : Nat) :
    (s.withFetchWord nbits w).engine = .busy ⟨BitVec.ofNat 32 (w % 2 ^ nbits), s.regs.bufs⟩ := rfl
@[simp] theorem withFetchWord_work (s : State) (nbits w : Nat) : (s.withFetchWord nbits w).work = Work.rest := rfl
@[simp] theorem withFetchWord_regs (s : State) (nbits w : Nat) :
    (s.withFetchWord nbits w).regs = { s.regs with cmd := BitVec.ofNat 32 (w % 2 ^ nbits), err := false, errcode := 0 } := rfl
@[simp] theorem withFetchWord_tabs (s : State) (nbits w : Nat) : (s.withFetchWord nbits w).tabs = s.tabs := rfl
@[simp] theorem withFetchWord_mem (s : State) (nbits w : Nat) : (s.withFetchWord nbits w).mem = s.mem := rfl
@[simp] theorem withFetchWord_platform (s : State) (nbits w : Nat) :
    (s.withFetchWord nbits w).platform = s.platform := rfl
@[simp] theorem withFetchWord_unseen (s : State) (nbits w : Nat) : (s.withFetchWord nbits w).unseen = s.unseen := rfl
@[simp] theorem withFetchWord_events (s : State) (nbits w : Nat) :
    (s.withFetchWord nbits w).events = .complete :: s.events := rfl
@[simp] theorem withFetchWord_seen (s : State) (nbits w : Nat) : (s.withFetchWord nbits w).seen = s.seen := rfl
@[simp] theorem withFetchWord_drawn (s : State) (nbits w : Nat) : (s.withFetchWord nbits w).drawn = s.drawn := rfl

/-! The registers of a successful completion (R189). -/

@[simp] theorem Regs.succeed_cmd (r : Regs) : (r.succeed).cmd = r.cmd := rfl
@[simp] theorem Regs.succeed_err (r : Regs) : (r.succeed).err = false := rfl
@[simp] theorem Regs.succeed_errcode (r : Regs) : (r.succeed).errcode = 0 := rfl
@[simp] theorem Regs.succeed_errinfo (r : Regs) : (r.succeed).errinfo = 0 := rfl
@[simp] theorem Regs.succeed_doneIe (r : Regs) : (r.succeed).doneIe = r.doneIe := rfl
@[simp] theorem Regs.succeed_errIe (r : Regs) : (r.succeed).errIe = r.errIe := rfl
@[simp] theorem Regs.succeed_doneIp (r : Regs) : (r.succeed).doneIp = true := rfl
@[simp] theorem Regs.succeed_errIp (r : Regs) : (r.succeed).errIp = r.errIp := rfl
@[simp] theorem Regs.succeed_bufs (r : Regs) : (r.succeed).bufs = r.bufs := rfl
@[simp] theorem Regs.succeed_dstLen (r : Regs) : (r.succeed).dstLen = r.dstLen := rfl
@[simp] theorem Regs.succeed_toutLen (r : Regs) : (r.succeed).toutLen = r.toutLen := rfl
@[simp] theorem Regs.succeed_ratio (r : Regs) : (r.succeed).ratio = r.ratio := rfl
@[simp] theorem Regs.succeed_codeSel (r : Regs) : (r.succeed).codeSel = r.codeSel := rfl
@[simp] theorem Regs.succeed_nodeSel (r : Regs) : (r.succeed).nodeSel = r.nodeSel := rfl

/-! The registers of an error completion (R190). -/

@[simp] theorem Regs.fail_cmd (c : Results) (e : Err) (r : Regs) : (r.fail c e).cmd = r.cmd := rfl
@[simp] theorem Regs.fail_err (c : Results) (e : Err) (r : Regs) : (r.fail c e).err = true := rfl
@[simp] theorem Regs.fail_errcode (c : Results) (e : Err) (r : Regs) : (r.fail c e).errcode = e.code.num := rfl
@[simp] theorem Regs.fail_errinfo (c : Results) (e : Err) (r : Regs) : (r.fail c e).errinfo = e.info := rfl
@[simp] theorem Regs.fail_doneIe (c : Results) (e : Err) (r : Regs) : (r.fail c e).doneIe = r.doneIe := rfl
@[simp] theorem Regs.fail_errIe (c : Results) (e : Err) (r : Regs) : (r.fail c e).errIe = r.errIe := rfl
@[simp] theorem Regs.fail_doneIp (c : Results) (e : Err) (r : Regs) : (r.fail c e).doneIp = true := rfl
@[simp] theorem Regs.fail_errIp (c : Results) (e : Err) (r : Regs) : (r.fail c e).errIp = true := rfl
@[simp] theorem Regs.fail_bufs (c : Results) (e : Err) (r : Regs) : (r.fail c e).bufs = r.bufs := rfl
@[simp] theorem Regs.fail_dstLen (c : Results) (e : Err) (r : Regs) :
    (r.fail c e).dstLen = if c.dstLen then 0 else r.dstLen := rfl
@[simp] theorem Regs.fail_toutLen (c : Results) (e : Err) (r : Regs) :
    (r.fail c e).toutLen = if c.toutLen then 0 else r.toutLen := rfl
@[simp] theorem Regs.fail_ratio (c : Results) (e : Err) (r : Regs) :
    (r.fail c e).ratio = if c.ratio then 0 else r.ratio := rfl
@[simp] theorem Regs.fail_codeSel (c : Results) (e : Err) (r : Regs) : (r.fail c e).codeSel = r.codeSel := rfl
@[simp] theorem Regs.fail_nodeSel (c : Results) (e : Err) (r : Regs) : (r.fail c e).nodeSel = r.nodeSel := rfl

/-! The results of the encode step (R125). -/

@[simp] theorem Regs.encoded_cmd (e l : Nat) (r : Regs) : (r.encoded e l).cmd = r.cmd := rfl
@[simp] theorem Regs.encoded_err (e l : Nat) (r : Regs) : (r.encoded e l).err = r.err := rfl
@[simp] theorem Regs.encoded_errcode (e l : Nat) (r : Regs) : (r.encoded e l).errcode = r.errcode := rfl
@[simp] theorem Regs.encoded_errinfo (e l : Nat) (r : Regs) : (r.encoded e l).errinfo = r.errinfo := rfl
@[simp] theorem Regs.encoded_doneIe (e l : Nat) (r : Regs) : (r.encoded e l).doneIe = r.doneIe := rfl
@[simp] theorem Regs.encoded_errIe (e l : Nat) (r : Regs) : (r.encoded e l).errIe = r.errIe := rfl
@[simp] theorem Regs.encoded_doneIp (e l : Nat) (r : Regs) : (r.encoded e l).doneIp = r.doneIp := rfl
@[simp] theorem Regs.encoded_errIp (e l : Nat) (r : Regs) : (r.encoded e l).errIp = r.errIp := rfl
@[simp] theorem Regs.encoded_bufs (e l : Nat) (r : Regs) : (r.encoded e l).bufs = r.bufs := rfl
@[simp] theorem Regs.encoded_dstLen (e l : Nat) (r : Regs) : (r.encoded e l).dstLen = BitVec.ofNat 32 e := rfl
@[simp] theorem Regs.encoded_toutLen (e l : Nat) (r : Regs) : (r.encoded e l).toutLen = r.toutLen := rfl
@[simp] theorem Regs.encoded_ratio (e l : Nat) (r : Regs) : (r.encoded e l).ratio = ratioOf e l := rfl
@[simp] theorem Regs.encoded_codeSel (e l : Nat) (r : Regs) : (r.encoded e l).codeSel = r.codeSel := rfl
@[simp] theorem Regs.encoded_nodeSel (e l : Nat) (r : Regs) : (r.encoded e l).nodeSel = r.nodeSel := rfl

/-! The result of the serialize step (R140). -/

@[simp] theorem Regs.serialized_cmd (n : Nat) (r : Regs) : (r.serialized n).cmd = r.cmd := rfl
@[simp] theorem Regs.serialized_err (n : Nat) (r : Regs) : (r.serialized n).err = r.err := rfl
@[simp] theorem Regs.serialized_errcode (n : Nat) (r : Regs) : (r.serialized n).errcode = r.errcode := rfl
@[simp] theorem Regs.serialized_errinfo (n : Nat) (r : Regs) : (r.serialized n).errinfo = r.errinfo := rfl
@[simp] theorem Regs.serialized_doneIe (n : Nat) (r : Regs) : (r.serialized n).doneIe = r.doneIe := rfl
@[simp] theorem Regs.serialized_errIe (n : Nat) (r : Regs) : (r.serialized n).errIe = r.errIe := rfl
@[simp] theorem Regs.serialized_doneIp (n : Nat) (r : Regs) : (r.serialized n).doneIp = r.doneIp := rfl
@[simp] theorem Regs.serialized_errIp (n : Nat) (r : Regs) : (r.serialized n).errIp = r.errIp := rfl
@[simp] theorem Regs.serialized_bufs (n : Nat) (r : Regs) : (r.serialized n).bufs = r.bufs := rfl
@[simp] theorem Regs.serialized_dstLen (n : Nat) (r : Regs) : (r.serialized n).dstLen = r.dstLen := rfl
@[simp] theorem Regs.serialized_toutLen (n : Nat) (r : Regs) : (r.serialized n).toutLen = BitVec.ofNat 32 n := rfl
@[simp] theorem Regs.serialized_ratio (n : Nat) (r : Regs) : (r.serialized n).ratio = r.ratio := rfl
@[simp] theorem Regs.serialized_codeSel (n : Nat) (r : Regs) : (r.serialized n).codeSel = r.codeSel := rfl
@[simp] theorem Regs.serialized_nodeSel (n : Nat) (r : Regs) : (r.serialized n).nodeSel = r.nodeSel := rfl

/-! The result of the decode step (R160). -/

@[simp] theorem Regs.decoded_cmd (n : Nat) (r : Regs) : (r.decoded n).cmd = r.cmd := rfl
@[simp] theorem Regs.decoded_err (n : Nat) (r : Regs) : (r.decoded n).err = r.err := rfl
@[simp] theorem Regs.decoded_errcode (n : Nat) (r : Regs) : (r.decoded n).errcode = r.errcode := rfl
@[simp] theorem Regs.decoded_errinfo (n : Nat) (r : Regs) : (r.decoded n).errinfo = r.errinfo := rfl
@[simp] theorem Regs.decoded_doneIe (n : Nat) (r : Regs) : (r.decoded n).doneIe = r.doneIe := rfl
@[simp] theorem Regs.decoded_errIe (n : Nat) (r : Regs) : (r.decoded n).errIe = r.errIe := rfl
@[simp] theorem Regs.decoded_doneIp (n : Nat) (r : Regs) : (r.decoded n).doneIp = r.doneIp := rfl
@[simp] theorem Regs.decoded_errIp (n : Nat) (r : Regs) : (r.decoded n).errIp = r.errIp := rfl
@[simp] theorem Regs.decoded_bufs (n : Nat) (r : Regs) : (r.decoded n).bufs = r.bufs := rfl
@[simp] theorem Regs.decoded_dstLen (n : Nat) (r : Regs) : (r.decoded n).dstLen = BitVec.ofNat 32 n := rfl
@[simp] theorem Regs.decoded_toutLen (n : Nat) (r : Regs) : (r.decoded n).toutLen = r.toutLen := rfl
@[simp] theorem Regs.decoded_ratio (n : Nat) (r : Regs) : (r.decoded n).ratio = r.ratio := rfl
@[simp] theorem Regs.decoded_codeSel (n : Nat) (r : Regs) : (r.decoded n).codeSel = r.codeSel := rfl
@[simp] theorem Regs.decoded_nodeSel (n : Nat) (r : Regs) : (r.decoded n).nodeSel = r.nodeSel := rfl

/-! A write of IRQ_EN (R31). -/

@[simp] theorem Regs.writeIrqEn_cmd (v : Word) (r : Regs) : (r.writeIrqEn v).cmd = r.cmd := rfl
@[simp] theorem Regs.writeIrqEn_err (v : Word) (r : Regs) : (r.writeIrqEn v).err = r.err := rfl
@[simp] theorem Regs.writeIrqEn_errcode (v : Word) (r : Regs) : (r.writeIrqEn v).errcode = r.errcode := rfl
@[simp] theorem Regs.writeIrqEn_errinfo (v : Word) (r : Regs) : (r.writeIrqEn v).errinfo = r.errinfo := rfl
@[simp] theorem Regs.writeIrqEn_doneIe (v : Word) (r : Regs) : (r.writeIrqEn v).doneIe = v.getLsbD 0 := rfl
@[simp] theorem Regs.writeIrqEn_errIe (v : Word) (r : Regs) : (r.writeIrqEn v).errIe = v.getLsbD 1 := rfl
@[simp] theorem Regs.writeIrqEn_doneIp (v : Word) (r : Regs) : (r.writeIrqEn v).doneIp = r.doneIp := rfl
@[simp] theorem Regs.writeIrqEn_errIp (v : Word) (r : Regs) : (r.writeIrqEn v).errIp = r.errIp := rfl
@[simp] theorem Regs.writeIrqEn_bufs (v : Word) (r : Regs) : (r.writeIrqEn v).bufs = r.bufs := rfl
@[simp] theorem Regs.writeIrqEn_dstLen (v : Word) (r : Regs) : (r.writeIrqEn v).dstLen = r.dstLen := rfl
@[simp] theorem Regs.writeIrqEn_toutLen (v : Word) (r : Regs) : (r.writeIrqEn v).toutLen = r.toutLen := rfl
@[simp] theorem Regs.writeIrqEn_ratio (v : Word) (r : Regs) : (r.writeIrqEn v).ratio = r.ratio := rfl
@[simp] theorem Regs.writeIrqEn_codeSel (v : Word) (r : Regs) : (r.writeIrqEn v).codeSel = r.codeSel := rfl
@[simp] theorem Regs.writeIrqEn_nodeSel (v : Word) (r : Regs) : (r.writeIrqEn v).nodeSel = r.nodeSel := rfl

/-! A write of IRQ_STAT (R32). -/

@[simp] theorem Regs.ackIrq_cmd (v : Word) (r : Regs) : (r.ackIrq v).cmd = r.cmd := rfl
@[simp] theorem Regs.ackIrq_err (v : Word) (r : Regs) : (r.ackIrq v).err = r.err := rfl
@[simp] theorem Regs.ackIrq_errcode (v : Word) (r : Regs) : (r.ackIrq v).errcode = r.errcode := rfl
@[simp] theorem Regs.ackIrq_errinfo (v : Word) (r : Regs) : (r.ackIrq v).errinfo = r.errinfo := rfl
@[simp] theorem Regs.ackIrq_doneIe (v : Word) (r : Regs) : (r.ackIrq v).doneIe = r.doneIe := rfl
@[simp] theorem Regs.ackIrq_errIe (v : Word) (r : Regs) : (r.ackIrq v).errIe = r.errIe := rfl
@[simp] theorem Regs.ackIrq_doneIp (v : Word) (r : Regs) : (r.ackIrq v).doneIp = (r.doneIp && !v.getLsbD 0) := rfl
@[simp] theorem Regs.ackIrq_errIp (v : Word) (r : Regs) : (r.ackIrq v).errIp = (r.errIp && !v.getLsbD 1) := rfl
@[simp] theorem Regs.ackIrq_bufs (v : Word) (r : Regs) : (r.ackIrq v).bufs = r.bufs := rfl
@[simp] theorem Regs.ackIrq_dstLen (v : Word) (r : Regs) : (r.ackIrq v).dstLen = r.dstLen := rfl
@[simp] theorem Regs.ackIrq_toutLen (v : Word) (r : Regs) : (r.ackIrq v).toutLen = r.toutLen := rfl
@[simp] theorem Regs.ackIrq_ratio (v : Word) (r : Regs) : (r.ackIrq v).ratio = r.ratio := rfl
@[simp] theorem Regs.ackIrq_codeSel (v : Word) (r : Regs) : (r.ackIrq v).codeSel = r.codeSel := rfl
@[simp] theorem Regs.ackIrq_nodeSel (v : Word) (r : Regs) : (r.ackIrq v).nodeSel = r.nodeSel := rfl

/-! The tables of a count step (R100). -/

@[simp] theorem Tables.counted_freq (bs : List Byte) (t : Tables) : (t.counted bs).freq = countBytes bs := rfl
@[simp] theorem Tables.counted_nsym (bs : List Byte) (t : Tables) :
    (t.counted bs).nsym = BitVec.ofNat 9 (countSymbols (countBytes bs)) := rfl
@[simp] theorem Tables.counted_total (bs : List Byte) (t : Tables) :
    (t.counted bs).total = BitVec.ofNat 32 bs.length := rfl
@[simp] theorem Tables.counted_freqV (bs : List Byte) (t : Tables) : (t.counted bs).freqV = true := rfl
@[simp] theorem Tables.counted_node (bs : List Byte) (t : Tables) : (t.counted bs).node = t.node := rfl
@[simp] theorem Tables.counted_nnodes (bs : List Byte) (t : Tables) : (t.counted bs).nnodes = t.nnodes := rfl
@[simp] theorem Tables.counted_root (bs : List Byte) (t : Tables) : (t.counted bs).root = t.root := rfl
@[simp] theorem Tables.counted_treeV (bs : List Byte) (t : Tables) : (t.counted bs).treeV = t.treeV := rfl
@[simp] theorem Tables.counted_code (bs : List Byte) (t : Tables) : (t.counted bs).code = t.code := rfl
@[simp] theorem Tables.counted_codeV (bs : List Byte) (t : Tables) : (t.counted bs).codeV = t.codeV := rfl

/-! The tables of a count step that fails (R102). -/

@[simp] theorem Tables.countLost_freq (n : Nat) (t : Tables) :
    (t.countLost n).freq = Table.ofFn 256 (Config.freeWord n) := by cases t; rfl
@[simp] theorem Tables.countLost_nsym (n : Nat) (t : Tables) :
    (t.countLost n).nsym = (Config.freeWord n 256).setWidth 9 := by cases t; rfl
@[simp] theorem Tables.countLost_total (n : Nat) (t : Tables) :
    (t.countLost n).total = Config.freeWord n 257 := by cases t; rfl
@[simp] theorem Tables.countLost_freqV (n : Nat) (t : Tables) : (t.countLost n).freqV = false := by cases t; rfl
@[simp] theorem Tables.countLost_node (n : Nat) (t : Tables) : (t.countLost n).node = t.node := by cases t; rfl
@[simp] theorem Tables.countLost_nnodes (n : Nat) (t : Tables) : (t.countLost n).nnodes = t.nnodes := by cases t; rfl
@[simp] theorem Tables.countLost_root (n : Nat) (t : Tables) : (t.countLost n).root = t.root := by cases t; rfl
@[simp] theorem Tables.countLost_treeV (n : Nat) (t : Tables) : (t.countLost n).treeV = t.treeV := by cases t; rfl
@[simp] theorem Tables.countLost_code (n : Nat) (t : Tables) : (t.countLost n).code = t.code := by cases t; rfl
@[simp] theorem Tables.countLost_codeV (n : Nat) (t : Tables) : (t.countLost n).codeV = t.codeV := by cases t; rfl

/-! The tables of a code step (R120). -/

@[simp] theorem Tables.coded_freq (ls : List (BitString × Byte)) (t : Tables) : (t.coded ls).freq = t.freq := rfl
@[simp] theorem Tables.coded_nsym (ls : List (BitString × Byte)) (t : Tables) : (t.coded ls).nsym = t.nsym := rfl
@[simp] theorem Tables.coded_total (ls : List (BitString × Byte)) (t : Tables) : (t.coded ls).total = t.total := rfl
@[simp] theorem Tables.coded_freqV (ls : List (BitString × Byte)) (t : Tables) : (t.coded ls).freqV = t.freqV := rfl
@[simp] theorem Tables.coded_node (ls : List (BitString × Byte)) (t : Tables) : (t.coded ls).node = t.node := rfl
@[simp] theorem Tables.coded_nnodes (ls : List (BitString × Byte)) (t : Tables) :
    (t.coded ls).nnodes = t.nnodes := rfl
@[simp] theorem Tables.coded_root (ls : List (BitString × Byte)) (t : Tables) : (t.coded ls).root = t.root := rfl
@[simp] theorem Tables.coded_treeV (ls : List (BitString × Byte)) (t : Tables) : (t.coded ls).treeV = t.treeV := rfl
@[simp] theorem Tables.coded_code (ls : List (BitString × Byte)) (t : Tables) :
    (t.coded ls).code = codeTable ls := rfl
@[simp] theorem Tables.coded_codeV (ls : List (BitString × Byte)) (t : Tables) : (t.coded ls).codeV = true := rfl

/-! The tables of a deserialize step (R145). -/

@[simp] theorem Tables.deserialized_freq (x : Trie) (t : Tables) : (t.deserialized x).freq = t.freq := rfl
@[simp] theorem Tables.deserialized_nsym (x : Trie) (t : Tables) : (t.deserialized x).nsym = t.nsym := rfl
@[simp] theorem Tables.deserialized_total (x : Trie) (t : Tables) : (t.deserialized x).total = t.total := rfl
@[simp] theorem Tables.deserialized_freqV (x : Trie) (t : Tables) : (t.deserialized x).freqV = t.freqV := rfl
@[simp] theorem Tables.deserialized_node (x : Trie) (t : Tables) : (t.deserialized x).node = x.nodes := rfl
@[simp] theorem Tables.deserialized_nnodes (x : Trie) (t : Tables) :
    (t.deserialized x).nnodes = BitVec.ofNat 10 x.cnt := rfl
@[simp] theorem Tables.deserialized_root (x : Trie) (t : Tables) : (t.deserialized x).root = 0 := rfl
@[simp] theorem Tables.deserialized_treeV (x : Trie) (t : Tables) : (t.deserialized x).treeV = true := rfl
@[simp] theorem Tables.deserialized_code (x : Trie) (t : Tables) : (t.deserialized x).code = t.code := rfl
@[simp] theorem Tables.deserialized_codeV (x : Trie) (t : Tables) : (t.deserialized x).codeV = false := rfl

/-! The tables of a deserialize step that fails (R146). -/

@[simp] theorem Tables.treeLost_freq (n : Nat) (t : Tables) : (t.treeLost n).freq = t.freq := by cases t; rfl
@[simp] theorem Tables.treeLost_nsym (n : Nat) (t : Tables) : (t.treeLost n).nsym = t.nsym := by cases t; rfl
@[simp] theorem Tables.treeLost_total (n : Nat) (t : Tables) : (t.treeLost n).total = t.total := by cases t; rfl
@[simp] theorem Tables.treeLost_freqV (n : Nat) (t : Tables) : (t.treeLost n).freqV = t.freqV := by cases t; rfl
@[simp] theorem Tables.treeLost_node (n : Nat) (t : Tables) :
    (t.treeLost n).node = Table.ofFn 511 (Config.freeNode n) := by cases t; rfl
@[simp] theorem Tables.treeLost_nnodes (n : Nat) (t : Tables) :
    (t.treeLost n).nnodes = (Config.freeWord n 258).setWidth 10 := by cases t; rfl
@[simp] theorem Tables.treeLost_root (n : Nat) (t : Tables) :
    (t.treeLost n).root = (Config.freeWord n 259).setWidth 9 := by cases t; rfl
@[simp] theorem Tables.treeLost_treeV (n : Nat) (t : Tables) : (t.treeLost n).treeV = false := by cases t; rfl
@[simp] theorem Tables.treeLost_code (n : Nat) (t : Tables) : (t.treeLost n).code = t.code := by cases t; rfl
@[simp] theorem Tables.treeLost_codeV (n : Nat) (t : Tables) : (t.treeLost n).codeV = false := by cases t; rfl

end Sys2Proof.Machine
end

