-- ==== Sys2Proof/Laws/Table.lean ====
section
/-! SUPPORT. Reads of a table after each way of making one. -/

namespace Sys2Proof.Machine

@[simp] theorem Table.read_write_same {α : Type} {n : Nat} [Inhabited α] (t : Table α n) (i : Nat) (v : α)
    (h : i < n) : (t.write i v).read i = v := by
  simp [Table.read, Table.write, List.getD_eq_getElem?_getD, t.size, h]

@[simp] theorem Table.read_write_ne {α : Type} {n : Nat} [Inhabited α] (t : Table α n) {i j : Nat} (v : α)
    (h : i ≠ j) : (t.write i v).read j = t.read j := by
  simp [Table.read, Table.write, List.getD_eq_getElem?_getD, List.getElem?_set_ne h]

theorem Table.read_write {α : Type} {n : Nat} [Inhabited α] (t : Table α n) (i j : Nat) (v : α) (h : i < n) :
    (t.write i v).read j = if i = j then v else t.read j := by
  split
  · subst_vars; simp [h]
  · simp [*]

@[simp] theorem Table.read_fill {α : Type} [Inhabited α] (n : Nat) (v : α) (i : Nat) (h : i < n) :
    (Table.fill n v).read i = v := by
  simp [Table.read, Table.fill, List.getD_eq_getElem?_getD, h]

@[simp] theorem Table.read_ofFn {α : Type} [Inhabited α] (n : Nat) (f : Nat → α) (i : Nat) (h : i < n) :
    (Table.ofFn n f).read i = f i := by
  simp [Table.read, Table.ofFn, List.getD_eq_getElem?_getD, h]

/-- Two tables that read alike are equal. -/
theorem Table.ext_read {α : Type} {n : Nat} [Inhabited α] {t u : Table α n}
    (h : ∀ i, i < n → t.read i = u.read i) : t = u := by
  obtain ⟨a, ha⟩ := t
  obtain ⟨b, hb⟩ := u
  have : a = b := by
    refine List.ext_getElem (ha.trans hb.symm) fun i h1 h2 => ?_
    have := h i (ha ▸ h1)
    simpa [Table.read, List.getD_eq_getElem?_getD, h1, h2] using this
  subst this
  rfl

end Sys2Proof.Machine
end

