-- ==== Sys2Proof/Laws/Operations.lean ====
section
/-! SUPPORT. What each shared operation can do, said once: the checks every command makes first, the outcome
of a data phase, the host's steps, and one step of the world. Later proofs cite these and do not unfold the
operations. -/

namespace Sys2Proof.Machine

/-! The checks (R79, R86, R182). -/

/-- What a checked command can do: refuse, end with its upfront error, or run its body. -/
theorem checked_cases (i : Instr) (s : State) (body : Host.Outcome State Fault Refusal) :
    (∃ r, noMeaning i s = some r ∧ checked i s body = .refused r)
    ∨ (∃ e, noMeaning i s = none ∧ upfront i s = some e ∧ checked i s body = .next (raiseFor i e s))
    ∨ (noMeaning i s = none ∧ upfront i s = none ∧ checked i s body = body) := by
  unfold checked
  cases hn : noMeaning i s with
  | some r => exact .inl ⟨r, rfl, rfl⟩
  | none =>
    cases hu : upfront i s with
    | some e => exact .inr (.inl ⟨e, rfl, rfl, rfl⟩)
    | none => exact .inr (.inr ⟨rfl, rfl, rfl⟩)

theorem checked_body {i : Instr} {s : State} (body : Host.Outcome State Fault Refusal)
    (hn : noMeaning i s = none) (hu : upfront i s = none) : checked i s body = body := by
  simp [checked, hn, hu]

theorem checked_upfront {i : Instr} {s : State} {e : Err} (body : Host.Outcome State Fault Refusal)
    (hn : noMeaning i s = none) (hu : upfront i s = some e) : checked i s body = .next (raiseFor i e s) := by
  simp [checked, hn, hu]

theorem checked_refused {i : Instr} {s : State} {r : Refusal} (body : Host.Outcome State Fault Refusal)
    (hn : noMeaning i s = some r) : checked i s body = .refused r := by
  simp [checked, hn]

/-- The first check fails, or it does not and the rest decide (R182). -/
@[simp] theorem firstFailure_cons (b : Bool) (e : Err) (cs : List (Bool × Err)) :
    firstFailure ((b, e) :: cs) = if b then some e else firstFailure cs := rfl

@[simp] theorem firstFailure_nil : firstFailure [] = none := rfl

theorem firstFailure_eq_none : ∀ {cs : List (Bool × Err)}, firstFailure cs = none ↔ ∀ c ∈ cs, c.1 = false := by
  intro cs
  induction cs with
  | nil => simp
  | cons c cs ih =>
    obtain ⟨b, e⟩ := c
    cases b <;> simp [ih]

/-! The outcome of a data phase (R186). -/

theorem pick_mem {α : Type} (n : Nat) (x : α) (xs : List α) : pick n x xs ∈ x :: xs := by
  cases xs with
  | nil => simp [pick]
  | cons y ys =>
    have h : Config.freeChoice n % (ys.length + 2) < (x :: y :: ys).length :=
      Nat.mod_lt _ (Nat.succ_pos _)
    rw [pick, List.getD_eq_getElem?_getD, List.getElem?_eq_getElem h]
    exact List.getElem_mem h

/-- With no failing address the outcome is the data-check error's, if there is one. -/
theorem outcomeOf_quiet {s : State} {rs : List Range} (h : failing s rs = []) (d : Option Err) :
    outcomeOf s rs d = d := by
  simp [outcomeOf, h]

/-- What a data phase can end with: its own error with no failing address, or, with failing addresses, its
own error or a bus error at one of them. -/
theorem outcomeOf_cases (s : State) (rs : List Range) (d : Option Err) :
    (failing s rs = [] ∧ outcomeOf s rs d = d)
    ∨ (failing s rs ≠ [] ∧ d ≠ none ∧ outcomeOf s rs d = d)
    ∨ (∃ a ∈ failing s rs, outcomeOf s rs d = some (errAt .bus a)) := by
  cases hf : failing s rs with
  | nil => exact .inl ⟨rfl, outcomeOf_quiet hf d⟩
  | cons a as =>
    cases d with
    | none =>
      have hm := pick_mem s.drawn (errAt .bus a) (as.map (errAt .bus))
      rw [← List.map_cons] at hm
      obtain ⟨b, hb, he⟩ := List.mem_map.mp hm
      exact .inr (.inr ⟨b, hb, by simp [outcomeOf, hf, he]⟩)
    | some e =>
      have hm := pick_mem s.drawn e (errAt .bus a :: as.map (errAt .bus))
      rcases List.mem_cons.mp hm with he | hm
      · exact .inr (.inl ⟨by simp, by simp, by simp [outcomeOf, hf, he]⟩)
      · rw [← List.map_cons] at hm
        obtain ⟨b, hb, he⟩ := List.mem_map.mp hm
        exact .inr (.inr ⟨b, hb, by simp [outcomeOf, hf, he]⟩)

/-- A data phase ends well only with no failing address and no error of its own. -/
theorem outcomeOf_eq_none {s : State} {rs : List Range} {d : Option Err} :
    outcomeOf s rs d = none ↔ failing s rs = [] ∧ d = none := by
  constructor
  · intro h
    rcases outcomeOf_cases s rs d with ⟨hf, ho⟩ | ⟨_, hd, ho⟩ | ⟨a, _, ho⟩
    · exact ⟨hf, ho.symm.trans h⟩
    · exact absurd (ho.symm.trans h) hd
    · simp [ho] at h
  · rintro ⟨hf, rfl⟩
    exact outcomeOf_quiet hf none

theorem mem_failing {s : State} {rs : List Range} {a : Nat} :
    a ∈ failing s rs ↔ a ∈ s.platform.busError ∧ inRanges rs a = true := by
  simp [failing]

/-! The launch copy (R91). -/

@[simp] theorem cfg_of_busy {s : State} {c : LaunchCopy} (h : s.engine = .busy c) : s.cfg = c := by
  simp [State.cfg, h]

theorem cfg_of_idle {s : State} (h : s.engine = .idle) : s.cfg = ⟨s.regs.cmd, s.regs.bufs⟩ := by
  simp [State.cfg, h]

@[simp] theorem cfg_launch (w : Word) (s : State) : (launch w s).cfg = ⟨w, s.regs.bufs⟩ := rfl

@[simp] theorem cfg_complete (s : State) : (complete s).cfg = ⟨s.regs.cmd, s.regs.bufs⟩ := rfl

/-! The windows of the commands that run or are unobserved (R81, R220). -/

theorem runningWrites_of_idle {s : State} (h : s.engine = .idle) : runningWrites s = [] := by
  simp [runningWrites, runningCopies, h]

theorem runningWrites_of_busy {s : State} {c : LaunchCopy} (h : s.engine = .busy c) :
    runningWrites s = copyWrites c := by
  simp [runningWrites, runningCopies, h]

/-- While idle with every completion observed no window is open. -/
theorem openCopies_eq_nil {s : State} : openCopies s = [] ↔ s.engine = .idle ∧ s.unseen = [] := by
  cases h : s.engine <;> simp [openCopies, runningCopies, h]

/-- The bytes a command that runs or is unobserved may write. -/
theorem inRanges_openWrites {s : State} {a : Nat} :
    inRanges (openWrites s) a = true ↔ ∃ c ∈ openCopies s, inRanges (copyWrites c) a = true := by
  simp only [openWrites, inRanges, List.any_eq_true, List.mem_flatMap]
  exact ⟨fun ⟨r, ⟨c, hc, hr⟩, ha⟩ => ⟨c, hc, r, hr, ha⟩, fun ⟨c, hc, r, hr, ha⟩ => ⟨r, ⟨c, hc, hr⟩, ha⟩⟩

/-- The bytes a command that runs or is unobserved may read or write. -/
theorem inRanges_openRanges {s : State} {a : Nat} :
    inRanges (openRanges s) a = true ↔ ∃ c ∈ openCopies s, inRanges (copyRanges c) a = true := by
  simp only [openRanges, inRanges, List.any_eq_true, List.mem_flatMap]
  exact ⟨fun ⟨r, ⟨c, hc, hr⟩, ha⟩ => ⟨c, hc, r, hr, ha⟩, fun ⟨c, hc, r, hr, ha⟩ => ⟨r, ⟨c, hc, hr⟩, ha⟩⟩

/-! Reset (R210, R211). -/

/-- What a reset can do: refuse when the running command had no meaning, or reset, memory changing only in
the abandoned command's write ranges. -/
theorem resetNow_cases (s : State) :
    (∃ r, resetNow s = .refused r) ∨ resetNow s = .next (resetCore (scribble s.drawn s.mem (runningWrites s)) s) := by
  unfold resetNow
  cases he : s.engine with
  | idle => exact .inr (by simp [runningWrites_of_idle he, scribble])
  | busy c =>
    cases hd : decode c.cmd with
    | error x => simp [hd, runningWrites_of_busy he, copyWrites, scribble]
    | ok i =>
      simp only [hd, runningWrites_of_busy he, copyWrites]
      cases noMeaning i s with
      | some r => exact .inl ⟨r, rfl⟩
      | none => exact .inr rfl

/-! The host's steps. -/

/-- What a host read of a register leaves: the state, its completions observed or not. -/
theorem observedBy_cases (r : RegName) (s : State) :
    (r = .status ∧ s.engine = .idle ∧ observedBy r s = observe s)
    ∨ (¬ (r = .status ∧ s.engine = .idle) ∧ observedBy r s = s) := by
  cases he : s.engine <;> by_cases hr : r = .status <;> simp [observedBy, State.isBusy, he, hr]

/-- An accepted interrupt observes every completion; with the line low nothing happens. -/
theorem hostIrqAccept_cases (s : State) :
    (irqLine s = true ∧ hostIrqAccept s = .next (observe s))
    ∨ (irqLine s = false ∧ hostIrqAccept s = .next s) := by
  cases h : irqLine s <;> simp [hostIrqAccept, h]

/-- With every completion observed, a host read returns the register's value. -/
theorem hostValue_observed {s : State} (r : RegName) (h : s.unseen = []) : hostValue s r = regValue s r := by
  simp [hostValue, h]

/-- A register that is not free while busy reads as it is, observed or not. -/
theorem hostValue_fixed {s : State} {r : RegName} (h : freeWhileBusy r = false) : hostValue s r = regValue s r := by
  simp [hostValue, h]

/-- A host read of the block refuses, or records a word, of a register or 0 at a reserved offset. -/
theorem hostRegRead_cases (a : RegAccess) (s : State) :
    (∃ r, accessRefusal s.platform.regBase a = some r ∧ hostRegRead a s = .refused r)
    ∨ (accessRefusal s.platform.regBase a = none ∧ regAt (a.offset s.platform.regBase) = none
        ∧ hostRegRead a s = .next (sawWord 0 s))
    ∨ (∃ r, accessRefusal s.platform.regBase a = none ∧ regAt (a.offset s.platform.regBase) = some r
        ∧ hostRegRead a s = .next (sawWord (hostValue s r) (observedBy r s))) := by
  unfold hostRegRead
  cases accessRefusal s.platform.regBase a with
  | some r => exact .inl ⟨r, rfl, rfl⟩
  | none =>
    cases regAt (a.offset s.platform.regBase) with
    | none => exact .inr (.inl ⟨rfl, rfl, rfl⟩)
    | some r => exact .inr (.inr ⟨r, rfl, rfl, rfl⟩)

/-- A host read of memory records a word. -/
theorem hostMemRead_cases (a : Word) (s : State) : ∃ v, hostMemRead a s = .next (sawWord v s) := by
  unfold hostMemRead
  split <;> exact ⟨_, rfl⟩

/-- A host write of memory refuses inside the ranges of a command that runs or is unobserved, and else writes the byte. -/
theorem hostMemWrite_cases (a : Word) (v : Byte) (s : State) :
    (inRanges (openRanges s) a.toNat = true ∧ hostMemWrite a v s = .refused .hostWroteBusyRange)
    ∨ (inRanges (openRanges s) a.toNat = false
        ∧ hostMemWrite a v s = .next { s with mem := s.mem.write a.toNat v }) := by
  unfold hostMemWrite
  split
  · exact .inl ⟨‹_›, rfl⟩
  · rename_i h
    exact .inr ⟨by simpa using h, rfl⟩

/-- A register write an idle engine takes: nothing, a launch, or new registers of the same result, status
and interrupt fields. -/
theorem writeWhenIdle_cases (r : RegName) (v : Word) (s : State) :
    writeWhenIdle r v s = s
    ∨ (s.engine = .idle ∧ r = .cmd ∧ writeWhenIdle r v s = launch v s)
    ∨ (s.engine = .idle ∧ r = .codeSel
        ∧ writeWhenIdle r v s = { s with regs := { s.regs with codeSel := v.setWidth 8 } })
    ∨ (s.engine = .idle ∧ r = .nodeSel
        ∧ writeWhenIdle r v s = { s with regs := { s.regs with nodeSel := v.setWidth 9 } })
    ∨ (∃ b, s.engine = .idle ∧ writeBuf r v s.regs.bufs = some b
        ∧ writeWhenIdle r v s = { s with regs := { s.regs with bufs := b } }) := by
  cases he : s.engine with
  | busy c => exact .inl (by simp [writeWhenIdle, State.isBusy, he])
  | idle =>
    cases r <;> simp [writeWhenIdle, State.isBusy, he, writeBuf]

/-- A host register write: a reset, a write of the interrupt registers, or a write an idle engine takes. -/
theorem writeReg_cases (r : RegName) (v : Word) (s : State) :
    (r = .ctrl ∧ v.getLsbD 0 = true ∧ writeReg r v s = resetNow s)
    ∨ (r = .ctrl ∧ v.getLsbD 0 = false ∧ writeReg r v s = .next s)
    ∨ (r = .irqEn ∧ writeReg r v s = .next { s with regs := s.regs.writeIrqEn v })
    ∨ (r = .irqStat ∧ writeReg r v s = .next { s with regs := s.regs.ackIrq v })
    ∨ (r ≠ .ctrl ∧ r ≠ .irqEn ∧ r ≠ .irqStat ∧ writeReg r v s = .next (writeWhenIdle r v s)) := by
  cases r <;> simp [writeReg]
  by_cases h : v.getLsbD 0 = true <;> simp_all

/-- A host write to the block refuses, does nothing at a reserved offset, or writes the register there. -/
theorem hostRegWrite_cases (a : RegAccess) (v : Word) (s : State) :
    (∃ r, accessRefusal s.platform.regBase a = some r ∧ hostRegWrite a v s = .refused r)
    ∨ (accessRefusal s.platform.regBase a = none ∧ regAt (a.offset s.platform.regBase) = none
        ∧ hostRegWrite a v s = .next s)
    ∨ (∃ r, accessRefusal s.platform.regBase a = none ∧ regAt (a.offset s.platform.regBase) = some r
        ∧ hostRegWrite a v s = writeReg r v s) := by
  unfold hostRegWrite
  cases accessRefusal s.platform.regBase a with
  | some r => exact .inl ⟨r, rfl, rfl⟩
  | none =>
    cases regAt (a.offset s.platform.regBase) with
    | none => exact .inr (.inl ⟨rfl, rfl, rfl⟩)
    | some r => exact .inr (.inr ⟨r, rfl, rfl, rfl⟩)

/-! One step of the world (R80). -/

/-- What the completion step can do: nothing while idle, the running command's meaning, or the completion of
an illegal word. -/
theorem completeRunning_cases (s : State) :
    (s.engine = .idle ∧ completeRunning s = .next s)
    ∨ (∃ c i, s.engine = .busy c ∧ decode c.cmd = .ok i ∧ completeRunning s = exec i s)
    ∨ (∃ c x, s.engine = .busy c ∧ decode c.cmd = .error x
        ∧ completeRunning s = .next (raiseIllegal c.cmd s)) := by
  unfold completeRunning
  cases he : s.engine with
  | idle => exact .inl ⟨rfl, rfl⟩
  | busy c =>
    cases hd : decode c.cmd with
    | ok i => exact .inr (.inl ⟨c, i, rfl, hd, by simp [hd]⟩)
    | error x => exact .inr (.inr ⟨c, x, rfl, hd, by simp [hd]⟩)

@[simp] theorem step_no_event {s : State} (h : s.events = []) : step s = completeRunning s := by
  simp [step, h]

/-- With an event at the head of the list, the agent it names moves. -/
theorem step_event {s : State} {ev : Event} {es : List Event} (h : s.events = ev :: es) :
    step s = match ev with
      | .complete => completeRunning { s with events := es }
      | .regRead a => hostRegRead a { s with events := es }
      | .regWrite a v => hostRegWrite a v { s with events := es }
      | .memRead a => hostMemRead a { s with events := es }
      | .memWrite a v => hostMemWrite a v { s with events := es }
      | .irqAccept => hostIrqAccept { s with events := es }
      | .hwReset => resetNow { s with events := es } := by
  cases ev <;> simp [step, h]

/-! BUILD's Leaves (R110). -/

theorem leavesOf_eq (ws : List Word) : ∀ s : Nat,
    leavesOf s ws = (List.range ws.length).filterMap fun k =>
      if ws.getD k default = 0 then none else some (leafNode (BitVec.ofNat 8 (s + k)) (ws.getD k default)) := by
  induction ws with
  | nil => intro s; rfl
  | cons w ws ih =>
    intro s
    rw [leavesOf, ih, List.length_cons, List.range_succ_eq_map, List.filterMap_cons, List.filterMap_map]
    have hf : ((fun k => if (w :: ws).getD k default = 0 then none
          else some (leafNode (BitVec.ofNat 8 (s + k)) ((w :: ws).getD k default))) ∘ Nat.succ)
        = fun k => if ws.getD k default = 0 then none
          else some (leafNode (BitVec.ofNat 8 (s + 1 + k)) (ws.getD k default)) := by
      funext k
      simp [Nat.add_comm, Nat.add_left_comm]
    rw [hf]
    by_cases hw : w = 0
    · simp [hw]
    · simp only [hw, if_false, List.getD_cons_zero, Nat.add_zero]

/-- BUILD's Leaves, symbol by symbol through the table's reads. -/
theorem leafNodes_eq (f : Table Word 256) :
    leafNodes f = (List.range Config.nsyms).filterMap fun s =>
      if f.read s = 0 then none else some (leafNode (BitVec.ofNat 8 s) (f.read s)) := by
  rw [leafNodes, leavesOf_eq, f.size]
  simp [Table.read, Config.nsyms]

end Sys2Proof.Machine
end

