-- ==== Sys2Proof/Laws/PerInstr.lean ====
section
/-! SUPPORT. Family EncodesLegally: the word of every command is legal (spec/30_encoding.md R90, R93) and
carries its format in bit 8 alone (R92). One lemma a constructor. -/

namespace Sys2Proof.Laws.EncodesLegally

/-- The word is legal, and its bit 8 is set exactly for the packed format. -/
def Statement (i : Instr) : Prop :=
  i.wellFormed = true ∧ cmdWordLegal (encode i) = true ∧ fmtField (encode i) = i.fmt

theorem count (f : BitFmt) : Statement (.count f) := by cases f <;> (unfold Statement; decide)
theorem build (f : BitFmt) : Statement (.build f) := by cases f <;> (unfold Statement; decide)
theorem gencode (f : BitFmt) : Statement (.gencode f) := by cases f <;> (unfold Statement; decide)
theorem encode (f : BitFmt) : Statement (.encode f) := by cases f <;> (unfold Statement; decide)
theorem serialize (f : BitFmt) : Statement (.serialize f) := by cases f <;> (unfold Statement; decide)
theorem deserialize (f : BitFmt) : Statement (.deserialize f) := by cases f <;> (unfold Statement; decide)
theorem decode (f : BitFmt) : Statement (.decode f) := by cases f <;> (unfold Statement; decide)
theorem compress (f : BitFmt) : Statement (.compress f) := by cases f <;> (unfold Statement; decide)
theorem decompress (f : BitFmt) : Statement (.decompress f) := by cases f <;> (unfold Statement; decide)

end Sys2Proof.Laws.EncodesLegally
end

