-- ==== Sys2Proof/Tests/Slice0.lean ====
section
/-! SUPPORT. The model's own tests: words written out from the spec's encodings, ill-formed terms the checks
refuse, two small tests at most for each command with values from spec/95_test_vectors.md, and for every
obligation with hypotheses a concrete state that meets them. -/

namespace Sys2Proof.Tests

open Sys2Proof Sys2Proof.Machine

-- one theorem at a time: every thread reserves a stack, and many at once run out of memory
set_option Elab.async false

/-! Small states. -/

/-- The next state of an outcome, or the state after reset. -/
def after (o : Host.Outcome State Fault Refusal) : State :=
  match o with
  | .next t => t
  | .fault _ => State.reset
  | .refused _ => State.reset

/-- The outcome is a next state with the property. -/
def nextAnd (o : Host.Outcome State Fault Refusal) (p : State → Bool) : Bool :=
  match o with
  | .next t => p t
  | .fault _ => false
  | .refused _ => false

theorem exists_of_nextAnd {o : Host.Outcome State Fault Refusal} {p : State → Bool} (h : nextAnd o p = true) :
    ∃ t, o = .next t ∧ p t = true := by
  cases o with
  | next t => exact ⟨t, rfl, h⟩
  | fault _ => cases h
  | refused _ => cases h

theorem eq_next_of_nextAnd {o : Host.Outcome State Fault Refusal} {p : State → Bool} (h : nextAnd o p = true) :
    o = .next (after o) := by
  cases o with
  | next t => rfl
  | fault _ => cases h
  | refused _ => cases h

/-- The outcome is the refusal `r`. -/
def refusedBy (o : Host.Outcome State Fault Refusal) (r : Refusal) : Bool :=
  match o with
  | .next _ => false
  | .fault _ => false
  | .refused r' => r' == r

/-- The text "aabbbcc". -/
def abc : List Byte := [0x61, 0x61, 0x62, 0x62, 0x62, 0x63, 0x63]

/-- Its stream in the packed format (V-N-3). -/
def abcPacked : List Byte := [0xA1, 0xE0]

/-- Its tree text: "0 -> 'b'" LF "10 -> 'a'" LF "11 -> 'c'" (V-S-1). -/
def abcText : List Byte :=
  [0x30, 0x20, 0x2D, 0x3E, 0x20, 0x27, 0x62, 0x27, 0x0A]
  ++ [0x31, 0x30, 0x20, 0x2D, 0x3E, 0x20, 0x27, 0x61, 0x27, 0x0A]
  ++ [0x31, 0x31, 0x20, 0x2D, 0x3E, 0x20, 0x27, 0x63, 0x27]

/-- Its tree's (path, symbol) pairs in walk order (V-G-1). -/
def abcLeaves : List (BitString × Byte) :=
  [([false], 0x62), ([true, false], 0x61), ([true, true], 0x63)]

/-- The pairs of its stream `10100001111`: a, a, b, b, b, c, c. -/
def abcWalk : List (BitString × Byte) :=
  [([true, false], 0x61), ([true, false], 0x61), ([false], 0x62), ([false], 0x62), ([false], 0x62),
   ([true, true], 0x63), ([true, true], 0x63)]

/-- The frequency table of "aabbbcc" (V-C-1). -/
def abcFreq : Tables :=
  { Tables.reset with
    freq := (((Table.fill 256 (0 : Word)).write 0x61 2).write 0x62 3).write 0x63 2
    nsym := 3
    total := 7
    freqV := true }

/-- And its tree (V-B-1). -/
def abcTree : Tables :=
  { abcFreq with
    node := (((((Table.fill 511 (⟨false, 0, 0, 0, 0⟩ : Node)).write 0 ⟨false, 0x61, 0x1FF, 0x1FF, 2⟩).write 1
      ⟨false, 0x62, 0x1FF, 0x1FF, 3⟩).write 2 ⟨false, 0x63, 0x1FF, 0x1FF, 2⟩).write 3
      ⟨true, 0, 0, 2, 4⟩).write 4 ⟨true, 0, 1, 3, 7⟩
    nnodes := 5
    root := 4
    treeV := true }

/-- And its codes (V-G-1). -/
def abcCodes : Tables :=
  { abcTree with
    code := (((Table.fill 256 ([] : BitString)).write 0x61 [true, false]).write 0x62 [false]).write 0x63 [true, true]
    codeV := true }

/-- A tree with one Leaf of symbol `a` (V-B-5). -/
def oneLeaf : Tables :=
  { Tables.reset with
    freq := (Table.fill 256 (0 : Word)).write 0x61 4
    nsym := 1
    total := 4
    freqV := true
    node := (Table.fill 511 (⟨false, 0, 0, 0, 0⟩ : Node)).write 0 ⟨false, 0x61, 0x1FF, 0x1FF, 4⟩
    nnodes := 1
    root := 0
    treeV := true }

/-- The tree of "0 -> 'a'", whose root lacks its right child (V-D-19). -/
def halfTree : Tables :=
  { Tables.reset with
    node := ((Table.fill 511 (⟨false, 0, 0, 0, 0⟩ : Node)).write 0 ⟨true, 0, 1, 0x1FF, 0⟩).write 1
      ⟨false, 0x61, 0x1FF, 0x1FF, 0⟩
    nnodes := 2
    root := 0
    treeV := true }

/-- The tree of "0 -> 'a'" LF "1 -> 'a'" (V-D-18). -/
def twiceTree : Tables :=
  { Tables.reset with
    node := (((Table.fill 511 (⟨false, 0, 0, 0, 0⟩ : Node)).write 0 ⟨true, 0, 1, 2, 0⟩).write 1
      ⟨false, 0x61, 0x1FF, 0x1FF, 0⟩).write 2 ⟨false, 0x61, 0x1FF, 0x1FF, 0⟩
    nnodes := 3
    root := 0
    treeV := true }

/-- Buffers at the bases of the vectors, with these lengths and capacities. -/
def bufs (srcLen treeLen dstCap toutCap : Word) : BufRegs :=
  ⟨0x1000, srcLen, 0x7000, treeLen, 0x2000, dstCap, 0x3000, toutCap⟩

/-- A core with command word `w` launched on buffers `b`, tables `t` and memory `m`. -/
def busy (w : Word) (b : BufRegs) (t : Tables) (m : Memory) : State :=
  { State.reset with
    engine := .busy ⟨w, b⟩
    regs := { Regs.reset with cmd := w, bufs := b }
    tabs := t
    mem := m }

/-- An idle core with those. -/
def idle (b : BufRegs) (t : Tables) (m : Memory) : State :=
  { State.reset with regs := { Regs.reset with bufs := b }, tabs := t, mem := m }

/-- Memory with SRC and TREE in place. -/
def mem (src tree : List Byte) : Memory := writeBytes (writeBytes [] 0x1000 src) 0x7000 tree

/-- The same state with the host's next step. -/
def doing (e : Event) (s : State) : State := { s with events := [e] }

/-- The same state on a platform where address `a` fails. -/
def failingAt (a : Nat) (s : State) : State := { s with platform := ⟨[a], [], 0⟩ }

/-- The same state with a completion of `COMPRESS` on `bufs 7 0 2 28` that the host has not observed. -/
def unobserved (s : State) : State := { s with unseen := [⟨0x108, bufs 7 0 2 28⟩] }

/-- A host write of a register of the block at 0. -/
def put (r : RegName) (v : Word) : Event := .regWrite (accessTo 0 r) v

def sCount : State := busy (encode (.count .ascii)) (bufs 7 0 0 0) Tables.reset (mem abc [])
def sBuild : State := busy (encode (.build .ascii)) (bufs 0 0 0 0) abcFreq []
def sGencode : State := busy (encode (.gencode .ascii)) (bufs 0 0 0 0) abcTree []
def sEncode : State := busy (encode (.encode .packed)) (bufs 7 0 2 0) abcCodes (mem abc [])
def sSerialize : State := busy (encode (.serialize .ascii)) (bufs 0 0 0 28) abcTree []
def sDeserialize : State := busy (encode (.deserialize .ascii)) (bufs 0 28 0 0) abcCodes (mem [] abcText)
def sDecode : State := busy (encode (.decode .packed)) (bufs 11 0 7 0) abcTree (mem abcPacked [])
def sCompress : State := busy (encode (.compress .packed)) (bufs 7 0 2 28) Tables.reset (mem abc [])
def sDecompress : State :=
  busy (encode (.decompress .packed)) (bufs 11 28 7 0) Tables.reset (mem abcPacked abcText)

/-! Decoding: words written out bit by bit from the format of R90 and the map of R92. -/

theorem test_decode_count : decode 0b00000000000000000000000100000001 = .ok (.count .packed) := by decide
theorem test_decode_build : decode 0b00000000000000000000000000000010 = .ok (.build .ascii) := by decide
theorem test_decode_gencode : decode 0b00000000000000000000000100000011 = .ok (.gencode .packed) := by decide
theorem test_decode_encode : decode 0b00000000000000000000000000000100 = .ok (.encode .ascii) := by decide
theorem test_decode_serialize : decode 0b00000000000000000000000100000101 = .ok (.serialize .packed) := by decide
theorem test_decode_deserialize : decode 0b00000000000000000000000000000110 = .ok (.deserialize .ascii) := by decide
theorem test_decode_decode : decode 0b00000000000000000000000100000111 = .ok (.decode .packed) := by decide
theorem test_decode_compress : decode 0b00000000000000000000000000001000 = .ok (.compress .ascii) := by decide
theorem test_decode_decompress : decode 0b00000000000000000000000100001001 = .ok (.decompress .packed) := by decide

/-- R96: a suffix, and none. -/
theorem test_mnemonic_suffix :
    parseMnemonic "COMPRESS.P" = some (.compress .packed) ∧ parseMnemonic "COUNT" = some (.count .ascii) := by
  decide

/-- R97: the steps of `WAIT` and `ACK`. -/
theorem test_host_program :
    hostProgram 0x100 [.wait 1, .ack]
      = [.regRead ⟨0x110, 4⟩, .complete, .regRead ⟨0x110, 4⟩, .regWrite ⟨0x11C, 4⟩ 3] := by decide

/-! Smoke: terms each check refuses (V-E-4 to V-E-9, R22, R23). -/

theorem test_opLegal_refuses : opLegal 0x0 = false ∧ opLegal 0xA = false ∧ opLegal 0xF = false := by decide
theorem test_lowReserved_refuses : lowReservedZero 0x11 = false := by decide
theorem test_highReserved_refuses : highReservedZero 0x201 = false ∧ highReservedZero 0x80000004 = false := by
  decide
theorem test_cmdWordLegal_refuses :
    cmdWordLegal 0xA = false ∧ cmdWordLegal 0x11 = false ∧ cmdWordLegal 0x201 = false := by decide
theorem test_inBlock_refuses :
    RegAccess.wellFormed 0x100 ⟨0xFC, 4⟩ = false ∧ RegAccess.wellFormed 0x100 ⟨0x1100, 4⟩ = false := by decide
theorem test_isWord_refuses : RegAccess.wellFormed 0x100 ⟨0x104, 2⟩ = false := by decide
theorem test_aligned_refuses : RegAccess.wellFormed 0x100 ⟨0x106, 4⟩ = false := by decide
theorem test_decode_refuses :
    decode 0x0 = .error .reservedOp ∧ decode 0xA = .error .reservedOp ∧ decode 0x11 = .error .reservedLow
      ∧ decode 0x201 = .error .reservedHigh := by decide

/-! Commands: one step each, values from the vectors. -/

/-- V-C-1. -/
theorem test_count :
    nextAnd (step sCount) (fun t => readReg t (.freqW 0x61) == 2 && readReg t (.freqW 0x62) == 3
      && readReg t (.freqW 0x63) == 2 && readReg t (.freqW 0x64) == 0 && readReg t .nsym == 3
      && readReg t .total == 7 && readReg t .status == 0x100) = true := by decide +kernel

/-- V-C-5: a range past the top of memory. -/
theorem test_count_range :
    nextAnd (step (busy 0x1 { bufs 2 0 0 0 with srcBase := 0xFFFFFFFF } abcFreq []))
      (fun t => readReg t .status == 0x1B2 && readReg t .errinfo == 0 && readReg t (.freqW 0x62) == 3) = true := by
  decide +kernel

/-- V-B-1: the views of nodes 3 and 4. -/
theorem test_build :
    nextAnd (step sBuild) (fun t => readReg t .nnodes == 5 && readReg t .root == 4
      && viewNodeInfo t.tabs 0 == 0x0187FFFF && viewNodeInfo t.tabs 3 == 0x04000400
      && viewNodeInfo t.tabs 4 == 0x04000601 && viewNodeW t.tabs 4 == 7 && viewNodeInfo t.tabs 5 == 0) = true := by
  decide +kernel

/-- V-B-7: BUILD after reset. -/
theorem test_build_sequence :
    nextAnd (step (busy 0x2 (bufs 0 0 0 0) Tables.reset []))
      (fun t => readReg t .status == 0x92 && readReg t .errinfo == 0) = true := by decide +kernel

/-- V-G-1. -/
theorem test_gencode :
    nextAnd (step sGencode) (fun t => viewCodeBits t.tabs 0x61 0 == 0x80000000
      && readReg t (.codeLenW 0x61) == 2 && viewCodeBits t.tabs 0x62 0 == 0 && readReg t (.codeLenW 0x62) == 1
      && viewCodeBits t.tabs 0x63 0 == 0xC0000000 && readReg t (.codeLenW 0x64) == 0) = true := by decide +kernel

/-- V-G-8: the Leaf visited last wins. -/
theorem test_gencode_repeated :
    nextAnd (step (busy 0x3 (bufs 0 0 0 0) twiceTree []))
      (fun t => viewCodeBits t.tabs 0x61 0 == 0x80000000 && readReg t (.codeLenW 0x61) == 1) = true := by
  decide +kernel

/-- V-N-3. -/
theorem test_encode :
    nextAnd (step sEncode) (fun t => readBytes t.mem 0x2000 3 == [0xA1, 0xE0, 0] && readReg t .dstLen == 11
      && readReg t .ratio == 1964 && readReg t .status == 0x700) = true := by decide +kernel

/-- V-N-6: the lookup comes before the capacity. -/
theorem test_encode_lookup :
    nextAnd (step (busy 0x4 (bufs 3 0 0 0) abcCodes (mem [0x78, 0x61, 0x62] [])))
      (fun t => readReg t .status == 0x762 && readReg t .errinfo == 0 && readReg t .ratio == 0) = true := by
  decide +kernel

/-- V-S-1. -/
theorem test_serialize :
    nextAnd (step sSerialize) (fun t => readBytes t.mem 0x3000 28 == abcText && readReg t .toutLen == 28) = true := by
  decide +kernel

/-- V-S-2: one byte too few. -/
theorem test_serialize_capacity :
    nextAnd (step (busy 0x5 (bufs 0 0 0 27) abcTree []))
      (fun t => readReg t .status == 0x382 && readReg t .errinfo == 3 && readReg t .irqStat == 3) = true := by
  decide +kernel

/-- V-D-1. -/
theorem test_deserialize :
    nextAnd (step sDeserialize) (fun t => readReg t .nnodes == 5 && readReg t .root == 0
      && viewNodeInfo t.tabs 0 == 0x04000401 && viewNodeInfo t.tabs 1 == 0x018BFFFF
      && viewNodeInfo t.tabs 2 == 0x04000803 && viewNodeW t.tabs 0 == 0 && readReg t .status == 0x300) = true := by
  decide +kernel

/-- V-D-4: "0 -> 'a'" LF "00 -> 'b'". -/
theorem test_deserialize_struct :
    nextAnd (step (busy 0x6 (bufs 0 18 0 0) Tables.reset (mem []
        [0x30, 0x20, 0x2D, 0x3E, 0x20, 0x27, 0x61, 0x27, 0x0A, 0x30, 0x30, 0x20, 0x2D, 0x3E, 0x20, 0x27, 0x62, 0x27])))
      (fun t => readReg t .status == 0x32 && readReg t .errinfo == 1 && readReg t .nnodes == 0) = true := by
  decide +kernel

/-- V-K-2. -/
theorem test_decode :
    nextAnd (step sDecode) (fun t => readBytes t.mem 0x2000 8 == abc ++ [0] && readReg t .dstLen == 7) = true := by
  decide +kernel

/-- V-K-4: the stream "1" in the ASCII format. -/
theorem test_decode_trunc :
    nextAnd (step (busy 0x7 (bufs 1 0 256 0) abcTree (mem [0x31] [])))
      (fun t => readReg t .status == 0x352 && readReg t .errinfo == 1 && readReg t .dstLen == 0) = true := by
  decide +kernel

/-- The example of R170 in the packed format. -/
theorem test_compress :
    nextAnd (step sCompress) (fun t => readBytes t.mem 0x2000 2 == [0xA1, 0xE0]
      && readBytes t.mem 0x3000 28 == abcText && readReg t .dstLen == 11 && readReg t .ratio == 1964
      && readReg t .toutLen == 28 && readReg t .status == 0x700) = true := by decide +kernel

/-- R170: a TOUT too small leaves the new structures valid and the lengths 0. -/
theorem test_compress_capacity :
    nextAnd (step (busy 0x108 (bufs 7 0 2 27) Tables.reset (mem abc [])))
      (fun t => readReg t .status == 0x782 && readReg t .errinfo == 3 && readReg t .dstLen == 0
        && readReg t .nnodes == 5) = true := by decide +kernel

/-- The example of R174 in the packed format. -/
theorem test_decompress :
    nextAnd (step sDecompress) (fun t => readBytes t.mem 0x2000 7 == abc && readReg t .dstLen == 7
      && readReg t .status == 0x200) = true := by decide +kernel

/-- R174: an error of the decode step leaves the deserialized tree valid (the stream cut to 10 bits). -/
theorem test_decompress_trunc :
    nextAnd (step (busy 0x109 (bufs 10 28 7 0) abcCodes (mem abcPacked abcText)))
      (fun t => readReg t .status == 0x352 && readReg t .errinfo == 10 && readReg t .dstLen == 0) = true := by
  decide +kernel

/-- R186, R102: one failing address in SRC. -/
theorem test_count_bus :
    nextAnd (step (failingAt 0x1003 sCount))
      (fun t => readReg t .status == 0xC2 && readReg t .errinfo == 0x1003) = true := by decide +kernel

/-- R220, R81: with COMPRESS's completion unobserved a host write into its SRC is refused, and a `STATUS` read
ends that. -/
theorem test_window :
    refusedBy (step (doing (.memWrite 0x1006 0) (unobserved State.reset))) .hostWroteBusyRange = true
      ∧ nextAnd (step (doing (.regRead ⟨0x010, 4⟩) (unobserved State.reset)))
          (fun t => t.unseen == [] && t.seen == [0]) = true := by decide +kernel

/-! Witnesses: for every obligation with hypotheses, a concrete state and operands that meet them all. -/

theorem witness_DecodeAndEncodeAgree : decode 0x00000105 = .ok (.serialize .packed) := by decide

/-- Each kind of illegal word at its boundary, running; and a legal word. -/
theorem witness_IllegalWordsEndInError :
    (∀ n ∈ [0x0, 0xA, 0xF, 0x11, 0x81, 0x201, 0x80000004],
      let w : Word := BitVec.ofNat 32 n
      w.extractLsb' 0 4 = 0 ∨ 0xA ≤ (w.extractLsb' 0 4).toNat ∨ w.extractLsb' 4 4 ≠ 0 ∨ w.extractLsb' 9 23 ≠ 0)
    ∧ ¬ ((0x109 : Word).extractLsb' 0 4 = 0 ∨ 0xA ≤ ((0x109 : Word).extractLsb' 0 4).toNat
        ∨ (0x109 : Word).extractLsb' 4 4 ≠ 0 ∨ (0x109 : Word).extractLsb' 9 23 ≠ 0)
    ∧ (busy 0xF (bufs 0 0 0 0) abcCodes []).engine = .busy ⟨0xF, bufs 0 0 0 0⟩ := by decide +kernel

theorem witness_StepRunsTheDecodedCommand :
    sCount.engine = .busy ⟨0x1, bufs 7 0 0 0⟩ ∧ decode 0x1 = .ok (.count .ascii) ∧ sCount.events = []
      ∧ (doing .complete sCount).events = .complete :: [] := by decide +kernel

theorem witness_LaunchTakesACopy :
    (doing (put .cmd 0x108) (idle (bufs 7 0 2 28) abcCodes [])).events
        = .regWrite (accessTo (idle (bufs 7 0 2 28) abcCodes []).platform.regBase .cmd) 0x108 :: []
      ∧ (idle (bufs 7 0 2 28) abcCodes []).engine = .idle
      ∧ decode 0x108 = .ok (.compress .packed) ∧ decode 0xF = .error .reservedOp
      ∧ (doing (put .cmd 0x1) sCompress).engine = .busy ⟨0x108, bufs 7 0 2 28⟩
      ∧ (doing (put .cmd 0x1) sCompress).events = .regWrite (accessTo sCompress.platform.regBase .cmd) 0x1 :: [] := by
  decide +kernel

/-- Every register of each clause, written while COMPRESS runs. -/
theorem witness_BusyWritesAreIgnored :
    sCompress.engine = .busy ⟨0x108, bufs 7 0 2 28⟩
      ∧ ∀ r ∈ [RegName.cmd, .srcBase, .srcLen, .treeBase, .treeLen, .dstBase, .dstCap, .toutBase, .toutCap,
          .codeSel, .nodeSel, .irqEn, .irqStat, .ctrl],
        (doing (put r 0x3) sCompress).events = .regWrite (accessTo sCompress.platform.regBase r) 0x3 :: []
          ∧ (0x3 : Word).getLsbD 0 = true := by decide +kernel

/-- The ends of the windows, and of the reserved offsets; a write of every register by an idle core and of
the read-only ones by a busy one; a write of reserved offsets, narrow and not aligned. -/
theorem witness_RegisterMapIsTheTable :
    (∀ r ∈ [RegName.srcBase, .srcLen, .treeBase, .treeLen, .dstBase, .dstCap, .toutBase, .toutCap, .codeSel,
        .nodeSel, .id, .ratio, .codeBits 0, .codeBits 7, .freqW 0, .codeLenW 255],
      (doing (put r 0xFFFFFFFF) (idle (bufs 0 0 0 0) abcCodes [])).events
          = .regWrite (accessTo (idle (bufs 0 0 0 0) abcCodes []).platform.regBase r) 0xFFFFFFFF :: []
        ∧ (doing (put r 0xFFFFFFFF) sCompress).events
          = .regWrite (accessTo sCompress.platform.regBase r) 0xFFFFFFFF :: [])
      ∧ (idle (bufs 0 0 0 0) abcCodes []).engine = .idle
      ∧ (∀ a ∈ [(⟨0x05C, 4⟩ : RegAccess), ⟨0x090, 4⟩, ⟨0x3FC, 4⟩, ⟨0xC00, 4⟩, ⟨0xFFC, 4⟩],
          a.addr < 0 + 4096 ∧ a.bytes = 4 ∧ (a.addr - 0) % 4 = 0 ∧ regAt (a.addr - 0) = none)
      ∧ (∀ a ∈ [(⟨0x020, 2⟩ : RegAccess), ⟨0xFFE, 4⟩, ⟨0x001, 1⟩],
          a.addr < 0 + 4096 ∧ (a.bytes ≠ 4 ∨ (a.addr - 0) % 4 ≠ 0))
      ∧ regAt 0x3FC = none ∧ regAt 0x400 = some (.freqW 0) ∧ regAt 0x7FC = some (.freqW 255)
      ∧ regAt 0x800 = some (.codeLenW 0) ∧ regAt 0xBFC = some (.codeLenW 255) ∧ regAt 0xC00 = none
      ∧ regAt 0xFFC = none ∧ regAt 0x058 = some .root ∧ regAt 0x05C = none ∧ regAt 0x060 = some .codeSel
      ∧ regAt 0x080 = some (.codeBits 7) ∧ regAt 0x08C = some .nodeInfo ∧ regAt 0x090 = none := by decide

theorem witness_HostReadsHaveNoSideEffects :
    (doing (.regRead ⟨0x0BFC, 4⟩) sCompress).events = .regRead (accessTo sCompress.platform.regBase (.codeLenW 255)) :: []
      ∧ ((doing (.regRead ⟨0x010, 4⟩) (unobserved (idle (bufs 0 0 0 0) abcCodes []))).events
            = .regRead (accessTo sCompress.platform.regBase .status) :: []
        ∧ (unobserved (idle (bufs 0 0 0 0) abcCodes [])).engine = .idle)
      ∧ (idle (bufs 0 0 0 0) abcCodes []).engine = .idle ∧ (idle (bufs 0 0 0 0) abcCodes []).unseen = []
      ∧ (∀ a ∈ [(⟨0x05C, 4⟩ : RegAccess), ⟨0x090, 4⟩, ⟨0xFFC, 4⟩],
          a.addr < 0 + 4096 ∧ a.bytes = 4 ∧ (a.addr - 0) % 4 = 0 ∧ regAt (a.addr - 0) = none)
      ∧ (∀ a ∈ [(⟨0x000, 2⟩ : RegAccess), ⟨0xFFE, 4⟩, ⟨0x001, 1⟩],
          a.addr < 0 + 4096 ∧ (a.bytes ≠ 4 ∨ (a.addr - 0) % 4 ≠ 0)) := by decide +kernel

theorem witness_ViewsAndIdentity :
    (idle (bufs 0 0 0 0) abcCodes []).engine = .idle ∧ codeOk abcCodes = true ∧ codeOk Tables.reset = true := by
  decide +kernel

theorem witness_StatusShowsItsFields : (idle (bufs 0 0 0 0) abcCodes []).engine = .idle := by decide

/-- The last node of a tree of five, and the first index past it. -/
theorem witness_NodeInfoShowsTheNode :
    (abcTree.treeV = true ∧ (4 : BitVec 9).toNat < abcTree.nnodes.toNat)
      ∧ ¬ (abcTree.treeV = true ∧ (5 : BitVec 9).toNat < abcTree.nnodes.toNat)
      ∧ ¬ (abcFreq.treeV = true ∧ (0 : BitVec 9).toNat < abcFreq.nnodes.toNat)
      ∧ (idle (bufs 0 0 0 0) abcTree []).engine = .idle := by decide +kernel

theorem witness_CodeBitsShowTheCode :
    (idle (bufs 0 0 0 0) abcCodes []).engine = .idle ∧ abcCodes.codeV = true ∧ abcTree.codeV = false
      ∧ 32 * (0 : Fin 8).val + 1 < (abcCodes.code.read (0x61 : Byte).toNat).length
      ∧ ¬ 32 * (0 : Fin 8).val + 2 < (abcCodes.code.read (0x61 : Byte).toNat).length := by decide +kernel

theorem witness_InterruptLineAndAcknowledge :
    (doing (put .irqStat 0x3) sCompress).events = .regWrite (accessTo sCompress.platform.regBase .irqStat) 0x3 :: []
      ∧ (doing (put .irqEn 0x3) sCompress).events = .regWrite (accessTo sCompress.platform.regBase .irqEn) 0x3 :: []
      ∧ (∃ t, exec (.build .ascii) State.reset = .next t ∧ t.regs.err = true) :=
  ⟨rfl, rfl, exists_of_nextAnd (by decide +kernel)⟩

theorem witness_SuccessfulCompletion :
    ∃ t, exec (.compress .packed) sCompress = .next t ∧ (!t.regs.err) = true :=
  exists_of_nextAnd (by decide +kernel)

/-- An error of a command that writes all three result registers, and of one that writes none. -/
theorem witness_ErrorsReportNoOutput :
    (∃ t, exec (.compress .packed) (busy 0x108 (bufs 7 0 1 28) Tables.reset (mem abc [])) = .next t
        ∧ t.regs.err = true)
      ∧ (∃ t, exec (.build .ascii) State.reset = .next t ∧ t.regs.err = true) :=
  ⟨exists_of_nextAnd (by decide +kernel), exists_of_nextAnd (by decide +kernel)⟩

theorem witness_WritesStayInTheirRanges :
    (∃ t, exec (.encode .packed) sEncode = .next t ∧ (!t.regs.err) = true)
      ∧ (∃ t, exec (.count .ascii) sCount = .next t ∧ (writeRanges (.count .ascii) sCount.cfg == []) = true) :=
  ⟨exists_of_nextAnd (by decide +kernel), exists_of_nextAnd (by decide +kernel)⟩

theorem witness_BusErrorsNameAFailingAddress :
    (∃ t, exec (.count .ascii) (failingAt 0x1006 sCount) = .next t ∧ (t.regs.errcode == 12) = true)
      ∧ (∃ t, exec (.encode .packed) (failingAt 0x2002 sEncode) = .next t ∧ (!t.regs.err) = true)
      ∧ upfront (.count .ascii) (failingAt 0x1006 sCount) = none
      ∧ failing (failingAt 0x1006 sCount) (readRanges (.count .ascii) sCount.cfg) ≠ [] :=
  ⟨exists_of_nextAnd (by decide +kernel), exists_of_nextAnd (by decide +kernel), by decide +kernel⟩

/-- Buffers that run one byte past the top of memory. -/
def badSrc : BufRegs := ⟨0xFFFFFFFF, 2, 0, 1, 0x2000, 1, 0x3000, 1⟩
def badDst : BufRegs := ⟨0x1000, 1, 0x7000, 1, 0xFFFFFFFF, 2, 0x3000, 1⟩
def badTout : BufRegs := ⟨0x1000, 1, 0x7000, 1, 0x2000, 1, 0xFFFFFFFF, 2⟩
def badTree : BufRegs := ⟨0x1000, 1, 0xFFFFFFFF, 2, 0x2000, 1, 0x3000, 1⟩

/-- The conditions of every clause, with the command given a meaning at the state. -/
theorem witness_UpfrontChecksInOrder :
    (noMeaning (.count .ascii) (idle badSrc abcCodes []) = none
        ∧ badSrc.srcLen.toNat ≠ 0 ∧ 2 ^ 32 < badSrc.srcBase.toNat + badSrc.srcLen.toNat)
    ∧ (Tables.reset.freqV = false ∧ abcCodes.freqV = true
        ∧ noMeaning (.build .ascii) (idle badSrc Tables.reset []) = none)
    ∧ ({ Tables.reset with freqV := true } : Tables).nsym = 0
    ∧ Tables.reset.treeV = false ∧ Tables.reset.codeV = false ∧ abcCodes.treeV = true ∧ abcCodes.codeV = true
    ∧ (∀ i ∈ [Instr.encode .ascii, .decode .packed, .compress .ascii, .decompress .packed],
        noMeaning i (idle (bufs 0 0 0 0) abcCodes []) = none)
    ∧ (∀ i ∈ [Instr.encode .ascii, .decode .ascii, .compress .ascii, .decompress .ascii],
        noMeaning i (idle badSrc abcCodes []) = none)
    ∧ (∀ i ∈ [Instr.decode .packed, .decompress .packed],
        noMeaning i (idle { badSrc with srcLen := 9 } abcCodes []) = none)
    ∧ 2 ^ 32 < badSrc.srcBase.toNat + (9 + 7) / 8
    ∧ (∀ i ∈ [Instr.encode .ascii, .decode .ascii, .compress .ascii, .decompress .ascii],
        noMeaning i (idle badDst abcCodes []) = none)
    ∧ (badDst.srcLen ≠ 0 ∧ badDst.dstCap.toNat ≠ 0 ∧ 2 ^ 32 < badDst.dstBase.toNat + badDst.dstCap.toNat)
    ∧ (∀ i ∈ [Instr.serialize .ascii, .compress .packed], noMeaning i (idle badTout abcCodes []) = none)
    ∧ (badTout.toutCap.toNat ≠ 0 ∧ 2 ^ 32 < badTout.toutBase.toNat + badTout.toutCap.toNat)
    ∧ (∀ i ∈ [Instr.deserialize .ascii, .decompress .packed], noMeaning i (idle badTree abcCodes []) = none)
    ∧ (badTree.srcLen ≠ 0 ∧ badTree.treeLen.toNat ≠ 0 ∧ 2 ^ 32 < badTree.treeBase.toNat + badTree.treeLen.toNat)
    ∧ (noMeaning (.decompress .ascii) (idle (bufs 1 0 0 0) abcCodes []) = none ∧ (bufs 1 0 0 0).treeLen = 0) := by
  decide +kernel

/-- DST starting at the last byte of SRC; TOUT at the last byte of DST; a side effect in the
first byte of COUNT's SRC and in the last of SERIALIZE's TOUT. -/
theorem witness_NoMeaningIsRefused :
    ((dstRange ⟨0x4, { bufs 7 0 1 0 with dstBase := 0x1006 }⟩).has 0x1006 = true
      ∧ (srcText ⟨0x4, { bufs 7 0 1 0 with dstBase := 0x1006 }⟩).has 0x1006 = true)
    ∧ ((dstRange ⟨0x8, { bufs 7 0 2 1 with toutBase := 0x2001 }⟩).has 0x2001 = true
      ∧ (toutRange ⟨0x8, { bufs 7 0 2 1 with toutBase := 0x2001 }⟩).has 0x2001 = true)
    ∧ (0x1000 ∈ [0x1000]
      ∧ inRanges (readRanges (.count .ascii) sCount.cfg ++ writeRanges (.count .ascii) sCount.cfg) 0x1000 = true)
    ∧ (0x301B ∈ [0x301B]
      ∧ inRanges (readRanges (.serialize .ascii) sSerialize.cfg ++ writeRanges (.serialize .ascii) sSerialize.cfg)
          0x301B = true) := by decide +kernel

/-- The premise on a running command, of a state whose command has a meaning. -/
theorem runs_with_meaning {s : State} {c : LaunchCopy} {i : Instr} (he : s.engine = .busy c)
    (hd : decode c.cmd = .ok i) (hm : noMeaning i s = none) :
    ∀ c' i', s.engine = .busy c' → decode c'.cmd = .ok i' → noMeaning i' s = none := by
  intro c' i' he' hd'
  rw [he] at he'
  injection he' with hc
  subst hc
  rw [hd] at hd'
  injection hd' with hi
  subst hi
  exact hm

/-- An idle core, with a completion unobserved, and a busy one. -/
theorem witness_ResetLeavesTheResetValues :
    (let s := doing .hwReset (unobserved (idle (bufs 7 0 2 28) abcCodes (mem abc [])))
     s.events = .hwReset :: [] ∧ s.engine = .idle
      ∧ (∀ c i, s.engine = .busy c → decode c.cmd = .ok i → noMeaning i s = none))
    ∧ (doing .hwReset sCompress).events = .hwReset :: []
    ∧ (∀ c i, (doing .hwReset sCompress).engine = .busy c → decode c.cmd = .ok i →
        noMeaning i (doing .hwReset sCompress) = none) :=
  ⟨⟨rfl, rfl, fun _ _ h _ => by cases h⟩, rfl,
    runs_with_meaning (c := ⟨0x108, bufs 7 0 2 28⟩) (i := .compress .packed) rfl (by decide) (by decide +kernel)⟩

theorem witness_SoftResetAbandonsTheCommand :
    (doing (put .ctrl 0x1) sCompress).events = .regWrite (accessTo sCompress.platform.regBase .ctrl) 0x1 :: []
      ∧ (0x1 : Word).getLsbD 0 = true ∧ (0xFFFFFFFE : Word).getLsbD 0 = false
      ∧ (∀ c i, sCompress.engine = .busy c → decode c.cmd = .ok i → noMeaning i sCompress = none)
      ∧ (idle (bufs 0 0 0 0) abcCodes []).engine = .idle :=
  ⟨rfl, by decide, by decide,
    runs_with_meaning (c := ⟨0x108, bufs 7 0 2 28⟩) (i := .compress .packed) rfl (by decide) (by decide +kernel), rfl⟩

theorem witness_CountCountsEveryByte :
    Ready (.count .ascii) sCount ∧ Quiet (.count .ascii) sCount := by decide +kernel

/-- The same text in another order, in the other format. -/
theorem witness_CountTableSumsToTheLength :
    let s' := busy 0x101 (bufs 7 0 0 0) abcCodes (mem abc.reverse [])
    Ready (.count .ascii) sCount ∧ Quiet (.count .ascii) sCount ∧ Ready (.count .packed) s'
      ∧ Quiet (.count .packed) s' ∧ (srcBytes sCount).Perm (srcBytes s') := by decide +kernel

theorem witness_CountBusErrorLosesTheTable :
    (Ready (.count .ascii) (failingAt 0x1000 sCount)
        ∧ failing (failingAt 0x1000 sCount) (readRanges (.count .ascii) sCount.cfg) ≠ [])
      ∧ (Ready (.compress .packed) (failingAt 0x1006 sCompress)
        ∧ failing (failingAt 0x1006 sCompress) (readRanges (.compress .packed) sCompress.cfg) ≠ []
        ∧ failing (failingAt 0x1006 sCompress) (writeRanges (.compress .packed) sCompress.cfg) = [])
      ∧ (∃ t, exec (.compress .packed) (failingAt 0x1006 sCompress) = .next t ∧ (t.regs.errcode == 12) = true) :=
  ⟨by decide +kernel, by decide +kernel, exists_of_nextAnd (by decide +kernel)⟩

/-- A table of three symbols, and one of one symbol. -/
theorem witness_BuiltTreeShape :
    (abcFreq.freqV = true ∧ abcFreq.nsym ≠ 0 ∧ freqOk abcFreq = true)
      ∧ (oneLeaf.freqV = true ∧ oneLeaf.nsym ≠ 0 ∧ freqOk oneLeaf = true) := by decide +kernel

theorem witness_BuiltWeightsAdd :
    abcFreq.freqV = true ∧ abcFreq.nsym ≠ 0 ∧ freqOk abcFreq = true := by decide +kernel

/-- And node 3 of the tree of "aabbbcc", whose round leaves node 1 in the queue. -/
theorem witness_QueueGivesTheLeastKey :
    extractMin abcTree.node [1, 2, 0] = some (0, [1, 2])
      ∧ (nextAnd (exec (.build .ascii) sBuild) fun t =>
          decide (3 < t.tabs.nnodes.toNat) && (t.tabs.node.read 3).internal
            && (t.tabs.node.read 3).left.toNat != 1 && (t.tabs.node.read 3).right.toNat != 1
            && !(t.tabs.node.read 0).internal && !(t.tabs.node.read 1).internal
            && !(t.tabs.node.read 2).internal) = true
      ∧ abcFreq.freqV = true ∧ abcFreq.nsym ≠ 0 ∧ freqOk abcFreq = true
      ∧ abcCodes.freqV = true ∧ abcCodes.nsym ≠ 0 ∧ freqOk abcCodes = true ∧ abcFreq.freq = abcCodes.freq := by
  decide +kernel

theorem witness_SingleSymbolHasCodeZero :
    (oneLeaf.freqV = true ∧ oneLeaf.nsym = 1 ∧ freqOk oneLeaf = true)
      ∧ (oneLeaf.treeV = true ∧ (oneLeaf.node.read oneLeaf.root.toNat).internal = false) := by decide +kernel

theorem witness_GencodeAssignsLeafPaths :
    abcTree.treeV = true ∧ treeLeaves abcTree.node abcTree.root = some abcLeaves
      ∧ twiceTree.treeV = true ∧ treeLeaves twiceTree.node twiceTree.root = some [([false], 0x61), ([true], 0x61)] := by
  decide +kernel

theorem witness_BuiltCodesArePrefixFree :
    abcFreq.freqV = true ∧ abcFreq.nsym ≠ 0 ∧ freqOk abcFreq = true := by decide +kernel

/-- DST of exactly the needed bytes, and of one byte less, in both formats. -/
theorem witness_EncodeWritesTheCodes :
    (∀ x ∈ [(BitFmt.packed, (2 : Word)), (.packed, 1), (.ascii, 11), (.ascii, 10)],
      let s := busy (encode (.encode x.1)) (bufs 7 0 x.2 0) abcCodes (mem abc [])
      Ready (.encode x.1) s ∧ Quiet (.encode x.1) s ∧ codeOk s.tabs = true ∧ (∀ b ∈ srcBytes s, s.tabs.code.read b.toNat ≠ []))
    ∧ (streamOf abcCodes.code abc).length = 11 := by decide +kernel

theorem witness_LookupErrorAtTheFirstMissingByte :
    let s := busy 0x4 (bufs 3 0 0 0) abcCodes (mem [0x61, 0x62, 0x78] [])
    Ready (.encode .ascii) s ∧ Quiet (.encode .ascii) s ∧ srcBytes s = [0x61, 0x62] ++ 0x78 :: []
      ∧ (∀ c ∈ [(0x61 : Byte), 0x62], s.tabs.code.read c.toNat ≠ []) ∧ s.tabs.code.read (0x78 : Byte).toNat = [] := by
  decide +kernel

/-- Eleven bits: bits 0 and 10, and the first unused bit. -/
theorem witness_StreamLayout :
    0 < (streamOf abcCodes.code abc).length ∧ 10 < (streamOf abcCodes.code abc).length
      ∧ (streamOf abcCodes.code abc).length ≤ 11
      ∧ 11 < 8 * (((streamOf abcCodes.code abc).length + 7) / 8)
      ∧ readBits [(0x1000, 0xA1), (0x1001, 0xE0)] 0x1000 11 .packed
          = readBits [(0x1000, 0xA1), (0x1001, 0xFF)] 0x1000 11 .packed := by decide +kernel

theorem witness_RatioRoundsHalfToEven :
    0 < 2 ∧ 2 * 625 = 2 * (rhe 625 2 * 2) + 2 ∧ 2 * (rhe 627 2 * 2) = 2 * 627 + 2 := by decide

theorem witness_SerializeWritesOneLineALeaf :
    (∀ cap ∈ [28, 27],
      let s := busy 0x5 (bufs 0 0 0 (BitVec.ofNat 32 cap)) abcTree []
      Ready (.serialize .ascii) s ∧ Quiet (.serialize .ascii) s
        ∧ treeLeaves s.tabs.node s.tabs.root = some abcLeaves) := by decide +kernel

theorem witness_SerializedPathsAreNotEmpty :
    let s := busy 0x5 (bufs 0 0 0 8) oneLeaf []
    Ready (.serialize .ascii) s ∧ Quiet (.serialize .ascii) s
      ∧ (s.tabs.node.read s.tabs.root.toNat).internal = false ∧ 8 ≤ s.cfg.bufs.toutCap.toNat
      ∧ treeLeaves s.tabs.node s.tabs.root = some [([false], 0x61)] := by decide +kernel

/-- With and without the trailing line feed. -/
theorem witness_DeserializeAcceptsPrefixCodes :
    acceptable abcLeaves = true
      ∧ (Ready (.deserialize .ascii) sDeserialize ∧ Quiet (.deserialize .ascii) sDeserialize
          ∧ treeBytes sDeserialize = treeText abcLeaves)
      ∧ (let s := busy 0x6 (bufs 0 29 0 0) Tables.reset (mem [] (abcText ++ [0x0A]))
         Ready (.deserialize .ascii) s ∧ Quiet (.deserialize .ascii) s
          ∧ treeBytes s = treeText abcLeaves ++ [0x0A]) := by decide +kernel

/-- DESERIALIZE of a text. -/
def reading (text : List Byte) : State :=
  busy 0x6 ⟨0, 0, 0x7000, BitVec.ofNat 32 text.length, 0, 0, 0, 0⟩ Tables.reset (mem [] text)

theorem reading_meets (text : List Byte) (h : 0 < text.length) (h' : text.length ≤ 0x1000) :
    Ready (.deserialize .ascii) (reading text) ∧ Quiet (.deserialize .ascii) (reading text)
      ∧ treeBytes (reading text) = text := by
  have hl : (BitVec.ofNat 32 text.length).toNat = text.length := by
    rw [BitVec.toNat_ofNat]; exact Nat.mod_eq_of_lt (by omega)
  refine ⟨⟨rfl, firstFailure_eq_none.mpr ?_⟩, rfl, ?_⟩
  · have h0 : ¬ BitVec.ofNat 32 text.length = 0 := fun e => by
      rw [e] at hl
      exact absurd hl.symm (Nat.pos_iff_ne_zero.mp h)
    have hr : (treeRange (reading text).cfg).legal = true :=
      decide_eq_true (Or.inr (by show 0x7000 + (BitVec.ofNat 32 text.length).toNat ≤ 2 ^ 32; omega))
    simp [upfrontChecks, emptyCheck, rangeCheck, hr]
    exact h0
  · show readBytes (writeBytes _ 0x7000 text) 0x7000 (BitVec.ofNat 32 text.length).toNat = text
    rw [hl, readBytes_writeBytes]

/-- Two paths of `n` bits, which at 255 bits fill the node store, so that the path `01` does not fit. -/
def forks (n : Nat) : List (BitString × Byte) := [(List.replicate n false, 0x61), (List.replicate n true, 0x62)]

theorem forks_distinct (n : Nat) : ((List.range n).map (fun j => List.replicate (j + 1) false)
    ++ ((List.range n).map (fun j => List.replicate (j + 1) true) ++ [[false, true]])).Nodup := by
  have h (b : Bool) : ((List.range n).map fun j => List.replicate (j + 1) b).Nodup :=
    List.nodup_range.map fun i j e => by simpa using congrArg List.length e
  refine List.nodup_append'.mpr ⟨h false, List.nodup_append'.mpr ⟨h true, by simp, ?_⟩, ?_⟩
  · intro x hx hy
    obtain ⟨j, _, rfl⟩ := List.mem_map.mp hx
    simp [List.replicate_succ] at hy
  · intro x hx hy
    obtain ⟨i, _, rfl⟩ := List.mem_map.mp hx
    rcases List.mem_append.mp hy with hy | hy
    · obtain ⟨j, _, e⟩ := List.mem_map.mp hy
      simp [List.replicate_succ] at e
    · have e := List.mem_singleton.mp hy
      rcases i with _ | i <;> simp [List.replicate_succ] at e

theorem forks_overflow (n : Nat)  : 2 * n + 1 ≤ prefixCount (forks n ++ [([false, true], 0x63)]) := by
  refine le_trans ?_ (List.Subperm.length_le (List.subperm_of_subset (forks_distinct n) ?_))
  · simp; omega
  · intro x hx
    simp only [List.mem_append, List.mem_map, List.mem_range, List.mem_singleton] at hx
    simp only [List.mem_dedup, List.mem_flatMap, List.mem_map, List.mem_range]
    rcases hx with ⟨j, hj, rfl⟩ | ⟨j, hj, rfl⟩ | rfl
    · exact ⟨(List.replicate n false, 0x61), by simp [forks], j, by simpa using hj, by
        simp only [List.take_replicate]; congr 1; omega⟩
    · exact ⟨(List.replicate n true, 0x62), by simp [forks], j, by simpa using hj, by
        simp only [List.take_replicate]; congr 1; omega⟩
    · exact ⟨([false, true], 0x63), by simp, 1, by simp, rfl⟩

theorem forks_fit (n : Nat) : prefixCount (forks n) ≤ 2 * n :=
  le_trans (List.dedup_sublist _).length_le (by simp [forks]; omega)

theorem full_overflows : 511 < prefixCount (forks 255 ++ [([false, true], 0x63)]) + 1 := by
  have h := forks_overflow 255
  omega

theorem full_acceptable : acceptable (forks 255) = true := by
  simp only [acceptable, Bool.and_eq_true, decide_eq_true_eq]
  refine ⟨⟨by decide +kernel, by decide +kernel⟩, ?_⟩
  have h := forks_fit 255
  show prefixCount (forks 255) + 1 ≤ 511
  omega

/-- V-D-10, "0->'a'", as the first line and after the three lines of V-S-1; a path of 256 bits as the first
line, and after another and before another; and a path for which the store has no node left. -/
theorem witness_LinesAreParsedByPosition :
    let bad : List Byte := [0x30, 0x2D, 0x3E, 0x27, 0x61, 0x27]
    let long : BitString × Byte := (List.replicate 256 true, 0x62)
    let more := ([false, true], (0x63 : Byte))
    parseLine (treeText [([true], 0x27)]) = some ([true], 0x27, [])
      ∧ parseLine bad = none ∧ bad ≠ [] ∧ acceptable abcLeaves = true
      ∧ 255 < long.1.length ∧ acceptable [([false], 0x61)] = true
      ∧ acceptable (forks 255) = true ∧ 1 ≤ more.1.length
      ∧ (∀ l ∈ forks 255, ¬ l.1 <+: more.1 ∧ ¬ more.1 <+: l.1) ∧ 511 < prefixCount (forks 255 ++ [more]) + 1
      ∧ (∀ text ∈ [bad, treeText abcLeaves ++ 0x0A :: bad, treeText ([] ++ [long]) ++ [],
            treeText ([([false], 0x61)] ++ [long]) ++ 0x0A :: [0x78], treeText (forks 255 ++ [more]) ++ []],
          Ready (.deserialize .ascii) (reading text) ∧ Quiet (.deserialize .ascii) (reading text)
            ∧ treeBytes (reading text) = text) := by
  refine ⟨by decide +kernel, by decide +kernel, by decide, by decide +kernel, by decide +kernel, by decide +kernel,
    full_acceptable, by decide, by decide +kernel, full_overflows, fun text h => ?_⟩
  refine reading_meets text ?_ ?_
  · revert text
    decide +kernel
  · revert text
    decide +kernel

/-- V-D-4 to V-D-6 with a line after them, and V-D-8 as the first line and after another. -/
theorem witness_ConflictingPathsAreStructural :
    (∀ x ∈ [(([false] : BitString), ([false, false] : BitString)), ([false, false], [false]), ([false], [false]),
        ([false], [])],
      let text := treeText ([(x.1, 0x61)] ++ [(x.2, 0x62)]) ++ 0x0A :: [0x78]
      acceptable [(x.1, 0x61)] = true ∧ x.2.length ≤ 255 ∧ (x.2 = [] ∨ x.1 <+: x.2 ∨ x.2 <+: x.1)
        ∧ 0 < text.length ∧ text.length ≤ 0x1000)
    ∧ (let text := treeText ([] ++ [([], 0x61)]) ++ []
       0 < text.length ∧ text.length ≤ 0x1000)
    ∧ (∀ text : List Byte, 0 < text.length → text.length ≤ 0x1000 →
        Ready (.deserialize .ascii) (reading text) ∧ Quiet (.deserialize .ascii) (reading text)
          ∧ treeBytes (reading text) = text) :=
  ⟨by decide +kernel, by decide +kernel, reading_meets⟩

/-- A parse error, an upfront error, and the first of them in DECOMPRESS. -/
theorem witness_DeserializeErrorLosesTheTree :
    let bad := mem [0x30] [0x32]
    (∃ t, exec (.deserialize .ascii) (busy 0x6 (bufs 1 1 0 0) abcCodes bad) = .next t ∧ t.regs.err = true)
      ∧ upfront (.deserialize .ascii) (busy 0x6 (bufs 1 1 0 0) abcCodes bad) = none
      ∧ (∃ t, exec (.deserialize .ascii) (busy 0x6 (bufs 1 0 0 0) abcCodes bad) = .next t ∧ t.regs.err = true)
      ∧ upfront (.deserialize .ascii) (busy 0x6 (bufs 1 0 0 0) abcCodes bad) ≠ none
      ∧ (∃ t, exec (.decompress .ascii) (busy 0x9 (bufs 1 1 0 0) abcCodes bad) = .next t ∧ t.regs.err = true)
      ∧ Ready (.decompress .ascii) (busy 0x9 (bufs 1 1 0 0) abcCodes bad)
      ∧ Quiet (.decompress .ascii) (busy 0x9 (bufs 1 1 0 0) abcCodes bad)
      ∧ deserializeText abcCodes.node (treeBytes (busy 0x9 (bufs 1 1 0 0) abcCodes bad)) = .error (errAt .parse 0)
      ∧ (∃ t, exec (.decompress .packed) (failingAt 0x701B sDecompress) = .next t ∧ (t.regs.errcode == 12) = true)
      ∧ upfront (.decompress .packed) (failingAt 0x701B sDecompress) = none
      ∧ failing (failingAt 0x701B sDecompress) [srcStream .packed sDecompress.cfg, dstRange sDecompress.cfg] = [] :=
  ⟨exists_of_nextAnd (by decide +kernel), by decide +kernel, exists_of_nextAnd (by decide +kernel),
    by decide +kernel, exists_of_nextAnd (by decide +kernel), by decide +kernel, by decide +kernel, by rfl,
    exists_of_nextAnd (by decide +kernel), by decide +kernel, by decide +kernel⟩

theorem witness_SerializedTreeReadsBack :
    (abcFreq.freqV = true ∧ abcFreq.nsym ≠ 0 ∧ freqOk abcFreq = true)
      ∧ (oneLeaf.freqV = true ∧ oneLeaf.nsym = 1 ∧ freqOk oneLeaf = true) := by decide +kernel

theorem witness_DecodeEmitsTheLeafSymbols :
    Ready (.decode .packed) sDecode ∧ Quiet (.decode .packed) sDecode ∧ storeOk sDecode.tabs = true
      ∧ treeLeaves sDecode.tabs.node sDecode.tabs.root = some abcLeaves ∧ (∀ x ∈ abcWalk, x ∈ abcLeaves)
      ∧ srcBits .packed sDecode = (pathsOf abcWalk).map some
      ∧ abcWalk.length ≤ sDecode.cfg.bufs.dstCap.toNat := by decide +kernel

/-- V-K-3 in the packed format: ten bits, the last of which stops at node 3. -/
theorem witness_TruncatedStreamIsReported :
    let s := busy 0x107 (bufs 10 0 6 0) abcTree (mem abcPacked [])
    Ready (.decode .packed) s ∧ Quiet (.decode .packed) s
      ∧ treeLeaves s.tabs.node s.tabs.root = some abcLeaves ∧ (∀ x ∈ abcWalk.take 6, x ∈ abcLeaves)
      ∧ ([true] : BitString) ≠ [] ∧ descends s.tabs.node s.tabs.root [true] 3 = true
      ∧ srcBits .packed s = (pathsOf (abcWalk.take 6) ++ [true]).map some
      ∧ (abcWalk.take 6).length ≤ s.cfg.bufs.dstCap.toNat := by decide +kernel

/-- A bad character at a node below the root, a missing child, and a full DST. -/
theorem witness_DecodeReportsTheFirstBadBit :
    (let s := busy 0x7 (bufs 2 0 1 0) abcTree (mem [0x31, 0x78] [])
     Ready (.decode .ascii) s ∧ Quiet (.decode .ascii) s
      ∧ treeLeaves s.tabs.node s.tabs.root = some abcLeaves ∧ descends s.tabs.node s.tabs.root [true] 3 = true
      ∧ srcBits .ascii s = (pathsOf [] ++ [true]).map some ++ none :: [])
    ∧ (let s := busy 0x7 (bufs 2 0 1 0) halfTree (mem [0x30, 0x31] [])
       Ready (.decode .ascii) s ∧ Quiet (.decode .ascii) s
        ∧ treeLeaves s.tabs.node s.tabs.root = some [([false], 0x61)]
        ∧ descends s.tabs.node s.tabs.root [] 0 = true
        ∧ srcBits .ascii s = (pathsOf [([false], 0x61)] ++ []).map some ++ some true :: []
        ∧ [(([false] : BitString), (0x61 : Byte))].length ≤ s.cfg.bufs.dstCap.toNat
        ∧ childOf (nodeAt s.tabs.node 0) true = 0x1FF)
    ∧ (let s := busy 0x107 (bufs 2 0 0 0) abcTree (mem [0x80] [])
       Ready (.decode .packed) s ∧ Quiet (.decode .packed) s
        ∧ treeLeaves s.tabs.node s.tabs.root = some abcLeaves ∧ descends s.tabs.node s.tabs.root [true] 3 = true
        ∧ srcBits .packed s = (pathsOf [] ++ [true]).map some ++ some false :: []
        ∧ ([] : List (BitString × Byte)).length = s.cfg.bufs.dstCap.toNat
        ∧ childOf (nodeAt s.tabs.node 3) false ≠ 0x1FF
        ∧ (nodeAt s.tabs.node (childOf (nodeAt s.tabs.node 3) false)).internal = false) := by decide +kernel

/-- The stream `00`, the stream `01`, a bad character after one 0, and a third 0, each on a DST of exactly the
bytes decoded before. -/
theorem witness_SingleLeafDecodes :
    (let s := busy 0x107 (bufs 2 0 2 0) oneLeaf (mem [] [])
     Ready (.decode .packed) s ∧ Quiet (.decode .packed) s ∧ storeOk s.tabs = true
      ∧ (s.tabs.node.read s.tabs.root.toNat).internal = false ∧ 2 ≤ s.cfg.bufs.dstCap.toNat
      ∧ srcBits .packed s = List.replicate 2 (some false))
    ∧ (let s := busy 0x107 (bufs 2 0 1 0) oneLeaf (mem [0x40] [])
       Ready (.decode .packed) s ∧ Quiet (.decode .packed) s ∧ storeOk s.tabs = true
        ∧ (s.tabs.node.read s.tabs.root.toNat).internal = false ∧ 1 ≤ s.cfg.bufs.dstCap.toNat
        ∧ srcBits .packed s = List.replicate 1 (some false) ++ some true :: [])
    ∧ (let s := busy 0x7 (bufs 2 0 1 0) oneLeaf (mem [0x30, 0x78] [])
       Ready (.decode .ascii) s ∧ Quiet (.decode .ascii) s ∧ storeOk s.tabs = true
        ∧ (s.tabs.node.read s.tabs.root.toNat).internal = false ∧ 1 ≤ s.cfg.bufs.dstCap.toNat
        ∧ srcBits .ascii s = List.replicate 1 (some false) ++ none :: [])
    ∧ (let s := busy 0x107 (bufs 3 0 2 0) oneLeaf (mem [] [])
       Ready (.decode .packed) s ∧ Quiet (.decode .packed) s ∧ storeOk s.tabs = true
        ∧ (s.tabs.node.read s.tabs.root.toNat).internal = false ∧ 2 = s.cfg.bufs.dstCap.toNat
        ∧ srcBits .packed s = List.replicate 2 (some false) ++ some false :: []) := by decide +kernel

/-- The widest buffers; and the buffers of the example of R170, with DST and then TOUT a byte too small. -/
theorem witness_CompressDeliversItsResults :
    (let s := busy 0x108 { bufs 7 0 1785 34942 with dstBase := 0x20000 } Tables.reset (mem abc [])
     Ready (.compress .packed) s ∧ Quiet (.compress .packed) s
      ∧ 255 * s.cfg.bufs.srcLen.toNat ≤ s.cfg.bufs.dstCap.toNat ∧ 34942 ≤ s.cfg.bufs.toutCap.toNat)
    ∧ (∀ x ∈ [(2, 28, 0), (1, 28, 2), (2, 27, 3)],
        let s := busy 0x108 (bufs 7 0 (BitVec.ofNat 32 x.1) (BitVec.ofNat 32 x.2.1)) Tables.reset (mem abc [])
        Ready (.compress .packed) s ∧ Quiet (.compress .packed) s
          ∧ nextAnd (exec (.compress .packed) s) (fun t => t.regs.errinfo == BitVec.ofNat 32 x.2.2
              && (streamOf t.tabs.code (srcBytes s)).length == 11) = true) := by
  decide +kernel

/-- The commands of the sequences, one after another from an idle core. -/
def seq0 : State := idle (bufs 7 0 2 28) Tables.reset (mem abc [])
def seqA : State := after (exec (.count .packed) seq0)
def seqB : State := after (exec (.build .packed) seqA)
def seqC : State := after (exec (.gencode .packed) seqB)
def seqD : State := after (exec (.encode .packed) seqC)
def back0 : State := idle (bufs 11 28 7 0) Tables.reset (mem abcPacked abcText)
def backA : State := after (exec (.deserialize .packed) back0)

theorem witness_CompositesEqualTheirSequences :
    (seq0.engine = .idle ∧ noMeaning (.compress .packed) seq0 = none
      ∧ (exec (.count .packed) seq0 = .next seqA ∧ seqA.regs.err = false)
      ∧ (exec (.build .packed) seqA = .next seqB ∧ seqB.regs.err = false)
      ∧ (exec (.gencode .packed) seqB = .next seqC ∧ seqC.regs.err = false)
      ∧ (exec (.encode .packed) seqC = .next seqD ∧ seqD.regs.err = false)
      ∧ (∃ e, exec (.serialize .packed) seqD = .next e ∧ (!e.regs.err) = true))
    ∧ (back0.engine = .idle ∧ noMeaning (.decompress .packed) back0 = none
      ∧ (exec (.deserialize .packed) back0 = .next backA ∧ backA.regs.err = false)
      ∧ (∃ b, exec (.decode .packed) backA = .next b ∧ (!b.regs.err) = true)) :=
  ⟨⟨rfl, by decide +kernel,
      ⟨eq_next_of_nextAnd (p := fun _ => true) (by decide +kernel), by decide +kernel⟩,
      ⟨eq_next_of_nextAnd (p := fun _ => true) (by decide +kernel), by decide +kernel⟩,
      ⟨eq_next_of_nextAnd (p := fun _ => true) (by decide +kernel), by decide +kernel⟩,
      ⟨eq_next_of_nextAnd (p := fun _ => true) (by decide +kernel), by decide +kernel⟩,
      exists_of_nextAnd (by decide +kernel)⟩,
    ⟨rfl, by decide +kernel,
      ⟨eq_next_of_nextAnd (p := fun _ => true) (by decide +kernel), by decide +kernel⟩,
      exists_of_nextAnd (by decide +kernel)⟩⟩

theorem witness_DecompressDecodesTheText :
    Ready (.decompress .packed) sDecompress ∧ Quiet (.decompress .packed) sDecompress
      ∧ acceptable abcLeaves = true ∧ treeBytes sDecompress = treeText abcLeaves ∧ (∀ x ∈ abcWalk, x ∈ abcLeaves)
      ∧ srcBits .packed sDecompress = (pathsOf abcWalk).map some
      ∧ abcWalk.length ≤ sDecompress.cfg.bufs.dstCap.toNat
      ∧ (let s := busy 0x109 (bufs 10 29 7 0) abcCodes (mem abcPacked (abcText ++ [0x0A]))
         Ready (.decompress .packed) s ∧ Quiet (.decompress .packed) s
          ∧ treeBytes s = treeText abcLeaves ++ [0x0A]) := by decide +kernel

/-- The state after COMPRESS, and DECOMPRESS launched on its results. -/
def tripT : State := after (exec (.compress .packed) sCompress)
def tripU : State := busy 0x109 ⟨0x2000, tripT.regs.dstLen, 0x3000, tripT.regs.toutLen, 0x5000, 7, 0, 0⟩ tripT.tabs tripT.mem

theorem witness_DecompressInvertsCompress :
    exec (.compress .packed) sCompress = .next tripT ∧ tripT.regs.err = false ∧ tripU.mem = tripT.mem
      ∧ tripU.cfg.bufs.srcBase = sCompress.cfg.bufs.dstBase ∧ tripU.cfg.bufs.srcLen = tripT.regs.dstLen
      ∧ tripU.cfg.bufs.treeBase = sCompress.cfg.bufs.toutBase ∧ tripU.cfg.bufs.treeLen = tripT.regs.toutLen
      ∧ sCompress.cfg.bufs.srcLen.toNat ≤ tripU.cfg.bufs.dstCap.toNat
      ∧ tripU.cfg.bufs.dstBase.toNat + tripU.cfg.bufs.dstCap.toNat ≤ 2 ^ 32
      ∧ noMeaning (.decompress .packed) tripU = none ∧ Quiet (.decompress .packed) tripU :=
  ⟨eq_next_of_nextAnd (p := fun _ => true) (by decide +kernel), by decide +kernel, rfl, rfl, rfl, rfl, rfl,
    by decide +kernel, by decide +kernel, by decide +kernel, by decide +kernel⟩

/-- A next state of every command named, and of each kind of host step. -/
theorem witness_StructuresChangeOnlyByTheirCommands :
    (∃ t, exec (.count .ascii) sCount = .next t ∧ true = true)
      ∧ (∃ t, exec (.build .ascii) sBuild = .next t ∧ true = true)
      ∧ (∃ t, exec (.gencode .ascii) sGencode = .next t ∧ true = true)
      ∧ (∃ t, exec (.encode .packed) sEncode = .next t ∧ true = true)
      ∧ (∃ t, exec (.serialize .ascii) sSerialize = .next t ∧ true = true)
      ∧ (∃ t, exec (.decode .packed) sDecode = .next t ∧ true = true)
      ∧ (∃ t, exec (.deserialize .ascii) sDeserialize = .next t ∧ true = true)
      ∧ (∃ t, exec (.decompress .packed) sDecompress = .next t ∧ true = true)
      ∧ (∃ t, step (doing (put .cmd 0x1) (idle (bufs 0 0 0 0) abcCodes [])) = .next t ∧ true = true)
      ∧ (∃ t, step (doing (.regRead ⟨0x10, 4⟩) sCount) = .next t ∧ true = true)
      ∧ (∃ t, step (doing (.memRead 0xFFFFFFFF) sCount) = .next t ∧ true = true)
      ∧ (∃ t, step (doing (.memWrite 0xFFFFFFFF 1) sCount) = .next t ∧ true = true)
      ∧ (∃ t, step (doing .irqAccept sCount) = .next t ∧ true = true) :=
  ⟨exists_of_nextAnd (p := fun _ => true) (by decide +kernel), exists_of_nextAnd (p := fun _ => true) (by decide +kernel),
    exists_of_nextAnd (p := fun _ => true) (by decide +kernel), exists_of_nextAnd (p := fun _ => true) (by decide +kernel),
    exists_of_nextAnd (p := fun _ => true) (by decide +kernel), exists_of_nextAnd (p := fun _ => true) (by decide +kernel),
    exists_of_nextAnd (p := fun _ => true) (by decide +kernel), exists_of_nextAnd (p := fun _ => true) (by decide +kernel),
    exists_of_nextAnd (p := fun _ => true) (by decide +kernel), exists_of_nextAnd (p := fun _ => true) (by decide +kernel),
    exists_of_nextAnd (p := fun _ => true) (by decide +kernel), exists_of_nextAnd (p := fun _ => true) (by decide +kernel),
    exists_of_nextAnd (p := fun _ => true) (by decide +kernel)⟩

/-- A register write while busy, and host writes to the first byte of SRC and the last of TOUT. -/
theorem witness_RunningCommandIsFixed :
    sCompress.engine = .busy ⟨0x108, bufs 7 0 2 28⟩ ∧ decode 0x108 = .ok (.compress .packed)
      ∧ (∀ v : Word, v.getLsbD 0 = true →
          put .srcBase 0x5 ≠ .regWrite (accessTo sCompress.platform.regBase .ctrl) v)
      ∧ (∃ t, step (doing (put .srcBase 0x5) sCompress) = .next t ∧ true = true)
      ∧ inRanges (readRanges (.compress .packed) ⟨0x108, bufs 7 0 2 28⟩
          ++ writeRanges (.compress .packed) ⟨0x108, bufs 7 0 2 28⟩) (0x1000 : Word).toNat = true
      ∧ inRanges (readRanges (.compress .packed) ⟨0x108, bufs 7 0 2 28⟩
          ++ writeRanges (.compress .packed) ⟨0x108, bufs 7 0 2 28⟩) (0x301B : Word).toNat = true :=
  ⟨rfl, by decide, fun v _ h => by injection h with h1; exact absurd h1 (by decide),
    exists_of_nextAnd (p := fun _ => true) (by decide +kernel), by decide +kernel, by decide +kernel⟩

/-- The byte after COMPRESS's SRC, the bytes at the ends of the address space, and the ends of its ranges,
while it runs and while its completion is unobserved. -/
theorem witness_HostMemoryAccessesAreBytewise :
    (doing (.memRead 0x1007) sCompress).events = .memRead 0x1007 :: []
      ∧ (doing .irqAccept sCompress).events = .irqAccept :: []
      ∧ (∀ s ∈ [sCompress, unobserved (idle (bufs 0 0 0 0) abcCodes [])],
          inRanges (openWrites s) 0x1007 = false ∧ inRanges (openWrites s) 0x2001 = true
            ∧ (∀ n ∈ [0x0, 0xFFFFFFFF, 0x1007], inRanges (openRanges s) n = false)
            ∧ (∀ n ∈ [0x1000, 0x1006, 0x2000, 0x301B], inRanges (openRanges s) n = true))
      ∧ (∃ t, exec (.compress .packed) sCompress = .next t ∧ true = true) :=
  ⟨rfl, rfl, by decide +kernel, exists_of_nextAnd (p := fun _ => true) (by decide +kernel)⟩

/-- Two states that differ in a byte outside SRC and in the results of an earlier command. -/
theorem witness_OutcomeDependsOnInputsOnly :
    let s' : State := { sEncode with mem := sEncode.mem.write 0x9000 0x5, regs := { sEncode.regs with toutLen := 4 } }
    sEncode.cfg = s'.cfg ∧ sEncode.tabs = s'.tabs ∧ sEncode.platform = s'.platform ∧ sEncode.drawn = s'.drawn
      ∧ (∀ a, inRanges (readRanges (.encode .packed) sEncode.cfg) a = true → sEncode.mem.read a = s'.mem.read a)
      ∧ (∃ t, exec (.encode .packed) sEncode = .next t ∧ true = true) :=
  ⟨rfl, rfl, rfl, rfl, fun a h => by
      have h9 : a ≠ 0x9000 := fun e => by
        subst e
        exact absurd h (by decide +kernel)
      exact (Memory.read_write_ne sEncode.mem 0x5 (Ne.symm h9)).symm,
    exists_of_nextAnd (p := fun _ => true) (by decide +kernel)⟩

/-- One state that meets every invariant and takes a next step, for the invariants every step keeps. -/
theorem witness_invariants :
    inv sCompress = true ∧ sCompress.mem.wf = true ∧ regsOk sCompress = true ∧ freqOk sCompress.tabs = true
      ∧ storeOk sDecode.tabs = true ∧ treeOk sDecode.tabs = true ∧ codeOk abcCodes = true
      ∧ inv sDecode = true ∧ inv sEncode = true
      ∧ (∃ t, step sCompress = .next t ∧ inv t = true) ∧ (∃ t, step sDecode = .next t ∧ inv t = true) :=
  ⟨by decide +kernel, by decide +kernel, by decide +kernel, by decide +kernel, by decide +kernel, by decide +kernel,
    by decide +kernel, by decide +kernel, by decide +kernel, exists_of_nextAnd (by decide +kernel),
    exists_of_nextAnd (by decide +kernel)⟩

theorem witness_NoFaultUnderTheInvariant : inv sCompress = true := by decide +kernel

theorem witness_LaunchedCommandsComplete :
    inv sCompress = true ∧ sCompress.engine = .busy ⟨0x108, bufs 7 0 2 28⟩ ∧ sCompress.events = []
      ∧ (∀ i, decode (0x108 : Word) = .ok i → noMeaning i sCompress = none) :=
  ⟨by decide +kernel, rfl, rfl, fun i h =>
    runs_with_meaning (c := ⟨0x108, bufs 7 0 2 28⟩) (i := .compress .packed) rfl (by decide) (by decide +kernel)
      ⟨0x108, bufs 7 0 2 28⟩ i rfl h⟩

end Sys2Proof.Tests
end

section
/-!
PROOF. The rounded quotient `rhe` (R12): which of its two candidates it is, its distance from `n / d`, and that a
common factor of `n` and `d` does not matter (R127).
-/
namespace Sys2Proof.Machine

/-- `rhe` is one of the two integers around `n / d`, and the remainder says which one: rounded down the
remainder is at most half of `d`, rounded up at least half; an exact half picks by the parity of `n / d`. -/
theorem rhe_eq_div_or_div_add_one (n d : Nat) :
    (rhe n d = n / d ∧ 2 * (n % d) ≤ d ∧ (2 * (n % d) = d → n / d % 2 = 0))
    ∨ (rhe n d = n / d + 1 ∧ d ≤ 2 * (n % d) ∧ (2 * (n % d) = d → n / d % 2 = 1)) := by
  unfold rhe
  split
  next hbelow => exact .inl ⟨rfl, by omega, by omega⟩
  next =>
    split
    next habove => exact .inr ⟨rfl, by omega, by omega⟩
    next =>
      split
      next heven => exact .inl ⟨rfl, by omega, fun _ => heven⟩
      next hodd => exact .inr ⟨rfl, by omega, by omega⟩

/-- No integer is nearer to `n / d` than `rhe n d`: the two differ by at most one half. -/
theorem rhe_nearest (n : Nat) {d : Nat} (hd : 0 < d) :
    2 * (rhe n d * d) ≤ 2 * n + d ∧ 2 * n ≤ 2 * (rhe n d * d) + d := by
  have hdiv : n / d * d + n % d = n := Nat.div_add_mod' n d
  have hlt : n % d < d := Nat.mod_lt n hd
  obtain ⟨hr, hhalf, -⟩ | ⟨hr, hhalf, -⟩ := rhe_eq_div_or_div_add_one n d
  · rw [hr]
    omega
  · rw [hr, Nat.add_one_mul (n / d)]
    omega

/-- At a distance of exactly one half the remainder is half of `d`, so the parity of `n / d` has decided. -/
theorem rhe_even_of_tie {n d : Nat} (hd : 0 < d)
    (htie : 2 * (rhe n d * d) = 2 * n + d ∨ 2 * n = 2 * (rhe n d * d) + d) : rhe n d % 2 = 0 := by
  have hdiv : n / d * d + n % d = n := Nat.div_add_mod' n d
  have hlt : n % d < d := Nat.mod_lt n hd
  obtain ⟨hr, -, heven⟩ | ⟨hr, -, hodd⟩ := rhe_eq_div_or_div_add_one n d
  · rw [hr] at htie ⊢
    exact heven (by omega)
  · rw [hr, Nat.add_one_mul (n / d)] at htie
    have hq : n / d % 2 = 1 := hodd (by omega)
    omega

/-- A common factor of `n` and `d` cancels: the quotient stays and the remainder scales with `d`. -/
theorem rhe_mul_left {k : Nat} (hk : 0 < k) (n d : Nat) : rhe (k * n) (k * d) = rhe n d := by
  have hrem : 2 * (k * n % (k * d)) = k * (2 * (n % d)) := by
    rw [Nat.mul_mod_mul_left, Nat.mul_left_comm]
  unfold rhe
  simp only [hrem, Nat.mul_div_mul_left n d hk, Nat.mul_lt_mul_left hk]

/-- Settles O34: the distance and the tie from the remainder's four cases, the two ratios by cancelling 8. -/
theorem ratioRoundsHalfToEven : Obligations.RatioRoundsHalfToEven := by
  refine ⟨fun n d hd => ?_, fun e l _ => ?_⟩
  · obtain ⟨hle, hge⟩ := rhe_nearest n hd
    exact ⟨hle, hge, rhe_even_of_tie hd⟩
  · have hfactor : e * 10000 = 8 * (e * 1250) := by omega
    rw [hfactor, rhe_mul_left (by decide)]

end Sys2Proof.Machine
end

section
/-!
PROOF. The register map (R22, R23): every register is at its offset and nowhere else, and an aligned word access
to it is one access to that register.
-/
namespace Sys2Proof.Machine

/-! Registers and offsets (R22). -/

/-- The lookup of a register's offset finds it: in the two windows by arithmetic, below them in the list. -/
theorem regAt_offset (r : RegName) : regAt r.offset = some r := by
  cases r with
  | codeBits k => revert k; decide
  | freqW b =>
    have hb : b.toNat < 256 := b.isLt
    have hk : (0x400 + 4 * b.toNat - 0x400) / 4 = b.toNat := by omega
    rw [regAt, RegName.offset, if_pos (by omega), hk, BitVec.ofNat_toNat, BitVec.setWidth_eq]
  | codeLenW b =>
    have hb : b.toNat < 256 := b.isLt
    have hk : (0x800 + 4 * b.toNat - 0x800) / 4 = b.toNat := by omega
    rw [regAt, RegName.offset, if_neg (by omega), if_pos (by omega), hk, BitVec.ofNat_toNat, BitVec.setWidth_eq]
  | _ => rfl

theorem offset_mod_four (r : RegName) : r.offset % 4 = 0 := by
  cases r with
  | codeBits k => simp only [RegName.offset]; omega
  | freqW b => simp only [RegName.offset]; omega
  | codeLenW b => simp only [RegName.offset]; omega
  | _ => rfl

theorem offset_lt (r : RegName) : r.offset < 4096 := by
  cases r with
  | codeBits k => simp only [RegName.offset]; omega
  | freqW b => have hb := b.isLt; simp only [RegName.offset]; omega
  | codeLenW b => have hb := b.isLt; simp only [RegName.offset]; omega
  | _ => decide

/-- No fixed register stands at or past `0x090`, where the reserved offsets below the windows begin. -/
theorem offset_lt_of_mem_fixedRegs : ∀ r ∈ fixedRegs, r.offset < 0x090 ∧ r.offset ≠ 0x05C := by
  decide

/-- Outside the windows the register at an offset is the fixed register with that offset. -/
theorem regAt_eq_find {off : Nat} (h : off < 0x400 ∨ 0xC00 ≤ off) :
    regAt off = fixedRegs.find? fun r => r.offset == off := by
  rw [regAt, if_neg (by omega), if_neg (by omega)]

/-- The register found at an aligned offset has that offset. -/
theorem offset_of_regAt {off : Nat} {r : RegName} (hoff : off % 4 = 0) (h : regAt off = some r) : r.offset = off := by
  by_cases hwin : off < 0x400 ∨ 0xC00 ≤ off
  · rw [regAt_eq_find hwin] at h
    simpa using List.find?_some h
  · by_cases hfreq : off < 0x800
    · rw [regAt, if_pos (by omega)] at h
      cases h
      simp only [RegName.offset, BitVec.toNat_ofNat]
      omega
    · rw [regAt, if_neg (by omega), if_pos (by omega)] at h
      cases h
      simp only [RegName.offset, BitVec.toNat_ofNat]
      omega

/-- A reserved offset has no register. -/
theorem regAt_reserved {off : Nat} (h : off = 0x05C ∨ (0x090 ≤ off ∧ off < 0x400) ∨ 0xC00 ≤ off) :
    regAt off = none := by
  rw [regAt_eq_find (by omega), List.find?_eq_none]
  intro r hr
  have hlt := offset_lt_of_mem_fixedRegs r hr
  simp only [beq_iff_eq]
  omega

/-! Accesses (R23). -/

/-- An access inside the block has a meaning exactly when it is 32 bits wide and aligned (R23). -/
theorem accessRefusal_of_inBlock {base : Nat} {a : RegAccess} (hlo : base ≤ a.addr) (hhi : a.addr < base + 4096) :
    accessRefusal base a = if a.bytes = 4 ∧ (a.addr - base) % 4 = 0 then none else some .badRegAccess := by
  have hin : a.inBlock base = true := by simp [RegAccess.inBlock, Config.regBlock, hlo, hhi]
  simp only [accessRefusal, hin, RegAccess.isWord, RegAccess.aligned, RegAccess.offset]
  by_cases hw : a.bytes = 4 <;> by_cases ha : (a.addr - base) % 4 = 0 <;> simp [hw, ha]

theorem offset_accessTo (base : Nat) (r : RegName) : (accessTo base r).offset base = r.offset := by
  simp [accessTo, RegAccess.offset]

theorem accessRefusal_accessTo (base : Nat) (r : RegName) : accessRefusal base (accessTo base r) = none := by
  have hlt := offset_lt r
  rw [accessRefusal_of_inBlock (Nat.le_add_right _ _) (by simp only [accessTo]; omega), if_pos]
  exact ⟨rfl, by simpa [accessTo] using offset_mod_four r⟩

/-- A host write to a register is `writeReg` of it. -/
theorem step_regWrite {s : State} {r : RegName} {v : Word} {es : List Event}
    (h : s.events = .regWrite (accessTo s.platform.regBase r) v :: es) :
    step s = writeReg r v { s with events := es } := by
  simp only [step_event h, hostRegWrite, accessRefusal_accessTo, offset_accessTo, regAt_offset]

/-- A host read of a register records what the host is given of it, and observes where it does (R81). -/
theorem step_regRead {s : State} {r : RegName} {es : List Event}
    (h : s.events = .regRead (accessTo s.platform.regBase r) :: es) :
    step s = .next (sawWord (hostValue { s with events := es } r) (observedBy r { s with events := es })) := by
  simp only [step_event h, hostRegRead, accessRefusal_accessTo, offset_accessTo, regAt_offset]

/-! Writes (R24, R44 to R46). -/

theorem isBusy_idle {s : State} (h : s.engine = .idle) : s.isBusy = false := by
  simp [State.isBusy, h]

theorem isBusy_busy {s : State} {c : LaunchCopy} (h : s.engine = .busy c) : s.isBusy = true := by
  simp [State.isBusy, h]

/-- The registers with a write of their own, at any time: `CTRL`, `IRQ_EN` and `IRQ_STAT` (R46). -/
theorem writeReg_whenIdle {r : RegName} (v : Word) (s : State) (h : r ≠ .ctrl ∧ r ≠ .irqEn ∧ r ≠ .irqStat) :
    writeReg r v s = .next (writeWhenIdle r v s) := by
  cases r <;> simp_all [writeReg]

/-- A busy engine ignores a write of every other register (R46). -/
theorem writeReg_busy {r : RegName} (v : Word) {s : State} {c : LaunchCopy} (hbusy : s.engine = .busy c)
    (h : r ≠ .ctrl ∧ r ≠ .irqEn ∧ r ≠ .irqStat) : writeReg r v s = .next s := by
  rw [writeReg_whenIdle v s h]
  simp [writeWhenIdle, isBusy_busy hbusy]

/-- An idle engine stores the word written to a configuration register and changes nothing else (R33 to R40). -/
theorem writeReg_buf {r : RegName} {v : Word} {s : State} {b : BufRegs} (hidle : s.engine = .idle)
    (hb : writeBuf r v s.regs.bufs = some b) :
    writeReg r v s = .next { s with regs := { s.regs with bufs := b } } := by
  cases r <;> simp_all [writeBuf, writeReg, writeWhenIdle, isBusy_idle hidle]

/-- The registers no host write changes: those R22 marks read-only (R24). -/
def RegName.isReadOnly : RegName → Bool
  | .id | .version | .status | .errinfo | .dstLen | .toutLen | .ratio | .nsym | .total | .nnodes | .root
  | .codeBits _ | .nodeW | .nodeInfo | .freqW _ | .codeLenW _ => true
  | _ => false

/-- A write of a read-only register is ignored, busy or idle (R24). -/
theorem writeReg_readOnly {r : RegName} (v : Word) (s : State) (h : r.isReadOnly = true) :
    writeReg r v s = .next s := by
  cases r <;> simp_all [RegName.isReadOnly, writeReg, writeWhenIdle, writeBuf]

/-- Settles O6: the ignored registers by `writeReg_busy`, the other three by their own writes. -/
theorem busyWritesAreIgnored : Obligations.BusyWritesAreIgnored := by
  intro s c r v es hbusy hev
  rw [step_regWrite hev]
  refine ⟨fun hr => writeReg_busy v hbusy ?_, ?_, ?_, ?_⟩
  · refine ⟨?_, ?_, ?_⟩ <;> rintro rfl <;> exact absurd hr (by decide)
  · rintro rfl
    rfl
  · rintro rfl
    rfl
  · rintro rfl hv
    exact if_pos hv

theorem isReadOnly_of_mem : ∀ r ∈ [RegName.id, .version, .status, .errinfo, .dstLen, .toutLen, .ratio, .nsym, .total,
    .nnodes, .root, .nodeW, .nodeInfo], r.isReadOnly = true := by
  decide

/-- Settles O7: the map by `regAt_offset` and its converse, the writes by the register's kind. -/
theorem registerMapIsTheTable : Obligations.RegisterMapIsTheTable := by
  refine ⟨by decide, fun k => rfl, fun b => ⟨rfl, rfl⟩, fun r => ⟨regAt_offset r, offset_mod_four r, offset_lt r⟩,
    fun off r => offset_of_regAt, fun off _ => regAt_reserved, fun s r v es hev => ?_, fun s a v es hev hlo hhi => ?_⟩
  · rw [step_regWrite hev]
    refine ⟨fun hidle => ⟨fun x hx hr => ?_, ?_, ?_⟩, fun hr => writeReg_readOnly v _ ?_⟩
    · refine writeReg_buf (s := { s with events := es }) hidle ?_
      subst hr
      simp only [List.mem_cons, List.not_mem_nil, or_false] at hx
      obtain rfl | rfl | rfl | rfl | rfl | rfl | rfl | rfl := hx <;> rfl
    · rintro rfl
      simp [writeReg, writeWhenIdle, State.isBusy, hidle, BitVec.setWidth_eq_extractLsb']
    · rintro rfl
      simp [writeReg, writeWhenIdle, State.isBusy, hidle, BitVec.setWidth_eq_extractLsb']
    · obtain hr | ⟨k, rfl⟩ | ⟨b, rfl⟩ | ⟨b, rfl⟩ := hr
      · exact isReadOnly_of_mem r hr
      all_goals rfl
  · simp only [step_event hev, hostRegWrite, accessRefusal_of_inBlock hlo hhi]
    refine ⟨fun hw ha hnone => ?_, fun hbad => ?_⟩
    · rw [if_pos ⟨hw, ha⟩]
      simp only [RegAccess.offset, hnone]
    · rw [if_neg (by omega)]

end Sys2Proof.Machine
end

section
/-!
PROOF. What the registers read as (R25 to R45, R60 to R69): the words bit by bit, and the statements about them.
-/
namespace Sys2Proof.Machine

/-! Words bit by bit. -/

theorem getLsbD_bitWord (b : Bool) (i : Nat) {j : Nat} (hj : j < 32) :
    (bitWord b i).getLsbD j = (decide (i = j) && b) := by
  cases b with
  | false => simp [bitWord]
  | true => rw [bitWord, BitVec.getLsbD_ofNat, Bool.toNat_true, Nat.one_mul, Nat.testBit_two_pow]; simp [hj]

/-- A register shifted into its place in a word. -/
theorem getLsbD_setWidth_shiftLeft {n : Nat} (x : BitVec n) (i : Nat) {j : Nat} (hj : j < 32) :
    (x.setWidth 32 <<< i).getLsbD j = (decide (i ≤ j) && x.getLsbD (j - i)) := by
  by_cases h : i ≤ j
  · simp [hj, h, Nat.not_lt.mpr h]
  · simp [hj, h, Nat.lt_of_not_le h]

theorem getLsbD_statusLow (s : State) {j : Nat} (hj : j < 32) :
    (statusLow s).getLsbD j
      = ((decide (0 = j) && s.isBusy) || (decide (1 = j) && s.regs.err)
          || (decide (4 ≤ j) && s.regs.errcode.getLsbD (j - 4))) := by
  rw [statusLow, BitVec.getLsbD_or, BitVec.getLsbD_or, getLsbD_bitWord _ _ hj, getLsbD_bitWord _ _ hj,
    getLsbD_setWidth_shiftLeft _ _ hj]

theorem getLsbD_validBits (f t c : Bool) {j : Nat} (hj : j < 32) :
    (validBits f t c).getLsbD j = ((decide (8 = j) && f) || (decide (9 = j) && t) || (decide (10 = j) && c)) := by
  rw [validBits, BitVec.getLsbD_or, BitVec.getLsbD_or, getLsbD_bitWord _ _ hj, getLsbD_bitWord _ _ hj,
    getLsbD_bitWord _ _ hj]

/-- The form of `IRQ_EN` and `IRQ_STAT`: one-bit fields 0 and 1, and 0 in bits 31:2 (R31, R32). -/
theorem bitWords_fields : ∀ a b : Bool,
    (bitWord a 0 ||| bitWord b 1).getLsbD 0 = a ∧ (bitWord a 0 ||| bitWord b 1).getLsbD 1 = b
      ∧ (bitWord a 0 ||| bitWord b 1).extractLsb' 2 30 = 0 := by
  decide

/-- The bits of `STATUS` that are fixed while busy (R69). -/
theorem getLsbD_freeMask : ∀ j < 32, (j < 8 ∨ 10 < j) → (0x700 : Word).getLsbD j = false := by
  decide

/-! `STATUS` (R29, R69). -/

theorem regValue_idle {s : State} (h : s.engine = .idle) (r : RegName) : regValue s r = readReg s r := by
  simp [regValue, isBusy_idle h]

theorem regValue_status (s : State) :
    regValue s .status = if s.isBusy then statusBusy (Config.freeWord s.drawn 0) s else statusWord s := rfl

theorem getLsbD_statusWord (s : State) {j : Nat} (hj : j < 32) (hout : j < 8 ∨ 10 < j) :
    (statusWord s).getLsbD j = (statusLow s).getLsbD j := by
  rw [statusWord, BitVec.getLsbD_or, getLsbD_validBits _ _ _ hj, decide_eq_false (by omega),
    decide_eq_false (by omega), decide_eq_false (by omega)]
  simp

/-- Busy or idle, `STATUS` outside bits 10:8 reads `BUSY`, `ERR` and `ERRCODE` (R69). -/
theorem getLsbD_regValue_status (s : State) {j : Nat} (hj : j < 32) (hout : j < 8 ∨ 10 < j) :
    (regValue s .status).getLsbD j = (statusLow s).getLsbD j := by
  rw [regValue_status]
  split
  · rw [statusBusy, BitVec.getLsbD_or, BitVec.getLsbD_and, getLsbD_freeMask j hj hout, Bool.and_false, Bool.or_false]
  · exact getLsbD_statusWord s hj hout

/-- The flag bits of `STATUS` as read while idle (R29): `ERRCODE` ends at bit 7. -/
theorem getLsbD_statusWord_flags (s : State) {j : Nat} (hj : j < 32) (hin : 8 ≤ j) :
    (statusWord s).getLsbD j = ((decide (8 = j) && s.tabs.freqV) || (decide (9 = j) && s.tabs.treeV)
      || (decide (10 = j) && s.tabs.codeV)) := by
  rw [statusWord, BitVec.getLsbD_or, getLsbD_validBits _ _ _ hj, getLsbD_statusLow s hj, decide_eq_false (by omega),
    decide_eq_false (by omega), BitVec.getLsbD_of_ge _ _ (by omega)]
  simp

/-- Settles O10: each field by its bits. -/
theorem statusShowsItsFields : Obligations.StatusShowsItsFields := by
  intro s
  refine ⟨?_, ?_, BitVec.eq_of_getLsbD_eq fun j hj => ?_, BitVec.eq_of_getLsbD_eq fun j hj => ?_,
    BitVec.eq_of_getLsbD_eq fun j hj => ?_, fun hidle => ?_⟩
  · rw [getLsbD_regValue_status s (by decide) (by decide), getLsbD_statusLow s (by decide)]
    simp
  · rw [getLsbD_regValue_status s (by decide) (by decide), getLsbD_statusLow s (by decide)]
    simp
  · rw [BitVec.getLsbD_extractLsb', getLsbD_regValue_status s (by omega) (by omega), getLsbD_statusLow s (by omega),
      decide_eq_false (p := 0 = _) (by omega), decide_eq_false (p := 1 = _) (by omega),
      decide_eq_false (p := 4 ≤ _) (by omega)]
    simp
  · rw [BitVec.getLsbD_extractLsb', getLsbD_regValue_status s (by omega) (by omega), getLsbD_statusLow s (by omega),
      decide_eq_false (p := 0 = _) (by omega), decide_eq_false (p := 1 = _) (by omega)]
    simp [hj]
  · rw [BitVec.getLsbD_extractLsb', getLsbD_regValue_status s (by omega) (by omega), getLsbD_statusLow s (by omega),
      decide_eq_false (p := 0 = _) (by omega), decide_eq_false (p := 1 = _) (by omega),
      BitVec.getLsbD_of_ge _ _ (by omega)]
    simp
  · rw [regValue_idle hidle, readReg]
    refine ⟨?_, ?_, ?_⟩ <;> rw [getLsbD_statusWord_flags s (by decide) (by decide)] <;> simp

/-! `NODE_INFO` (R66). -/

theorem getLsbD_nodeInfoWord (d : Node) {j : Nat} (hj : j < 32) :
    (nodeInfoWord d).getLsbD j
      = (d.left.getLsbD j || (decide (9 ≤ j) && d.right.getLsbD (j - 9)) || (decide (18 ≤ j) && d.sym.getLsbD (j - 18))
          || (decide (26 = j) && d.internal)) := by
  rw [nodeInfoWord, BitVec.getLsbD_or, BitVec.getLsbD_or, BitVec.getLsbD_or, getLsbD_bitWord _ _ hj,
    getLsbD_setWidth_shiftLeft _ _ hj, getLsbD_setWidth_shiftLeft _ _ hj, BitVec.getLsbD_setWidth, decide_eq_true hj,
    Bool.true_and]

/-- The fields of `NODE_INFO` are those of the node, and bits 31:27 are 0 (R66). -/
theorem nodeInfoWord_fields (d : Node) :
    (nodeInfoWord d).extractLsb' 0 9 = d.left ∧ (nodeInfoWord d).extractLsb' 9 9 = d.right
      ∧ (nodeInfoWord d).extractLsb' 18 8 = d.sym ∧ (nodeInfoWord d).getLsbD 26 = d.internal
      ∧ (nodeInfoWord d).extractLsb' 27 5 = 0 := by
  refine ⟨BitVec.eq_of_getLsbD_eq fun j hj => ?_, BitVec.eq_of_getLsbD_eq fun j hj => ?_,
    BitVec.eq_of_getLsbD_eq fun j hj => ?_, ?_, BitVec.eq_of_getLsbD_eq fun j hj => ?_⟩
  · rw [BitVec.getLsbD_extractLsb', getLsbD_nodeInfoWord d (by omega), decide_eq_false (p := 9 ≤ _) (by omega),
      decide_eq_false (p := 18 ≤ _) (by omega), decide_eq_false (p := 26 = _) (by omega)]
    simp [hj]
  · rw [BitVec.getLsbD_extractLsb', getLsbD_nodeInfoWord d (by omega), decide_eq_false (p := 18 ≤ _) (by omega),
      decide_eq_false (p := 26 = _) (by omega), BitVec.getLsbD_of_ge d.left _ (by omega)]
    simp [hj]
  · rw [BitVec.getLsbD_extractLsb', getLsbD_nodeInfoWord d (by omega), decide_eq_false (p := 26 = _) (by omega),
      BitVec.getLsbD_of_ge d.left _ (by omega), BitVec.getLsbD_of_ge d.right _ (by omega)]
    simp [hj]
  · rw [getLsbD_nodeInfoWord d (by decide), BitVec.getLsbD_of_ge d.left _ (by decide),
      BitVec.getLsbD_of_ge d.right _ (by decide), BitVec.getLsbD_of_ge d.sym _ (by decide)]
    simp
  · rw [BitVec.getLsbD_extractLsb', getLsbD_nodeInfoWord d (by omega), decide_eq_false (p := 26 = _) (by omega),
      BitVec.getLsbD_of_ge d.left _ (by omega), BitVec.getLsbD_of_ge d.right _ (by omega),
      BitVec.getLsbD_of_ge d.sym _ (by omega)]
    simp

theorem nodeShown_iff {t : Tables} {k : BitVec 9} :
    nodeShown t k = true ↔ t.treeV = true ∧ k.toNat < t.nnodes.toNat := by
  simp [nodeShown]

/-- Settles O11: shown, the word's fields are the node's; not shown, the view is 0. -/
theorem nodeInfoShowsTheNode : Obligations.NodeInfoShowsTheNode := by
  intro s hidle
  rw [regValue_idle hidle, readReg, viewNodeInfo, ← nodeShown_iff]
  refine ⟨fun hshown => ?_, fun hnot => if_neg hnot⟩
  rw [if_pos hshown]
  exact nodeInfoWord_fields _

/-! `CODEBITS` (R64). -/

/-- The number whose `n` binary digits are `f 0`, `f 1` and so on, most significant first; the sum in which
`viewCodeBits` lays out a code. -/
def msbFirst (n : Nat) (f : Nat → Bool) : Nat :=
  ((List.range n).map fun j => if f j then 2 ^ (n - 1 - j) else 0).sum

theorem msbFirst_succ (n : Nat) (f : Nat → Bool) :
    msbFirst (n + 1) f = 2 ^ n * (f 0).toNat + msbFirst n fun j => f (j + 1) := by
  have hexp : ∀ j, n + 1 - 1 - (j + 1) = n - 1 - j := by omega
  rw [msbFirst, List.range_succ_eq_map, List.map_cons, List.map_map, List.sum_cons, msbFirst]
  simp only [Function.comp_def, Nat.succ_eq_add_one, hexp]
  cases f 0 <;> simp

theorem msbFirst_lt (n : Nat) (f : Nat → Bool) : msbFirst n f < 2 ^ n := by
  induction n generalizing f with
  | zero => exact Nat.one_pos
  | succ n ih =>
    have hbit : 2 ^ n * (f 0).toNat ≤ 2 ^ n * 1 := Nat.mul_le_mul_left _ (Bool.toNat_le _)
    have hrest := ih fun j => f (j + 1)
    rw [msbFirst_succ, Nat.pow_succ]
    omega

theorem testBit_msbFirst (n : Nat) (f : Nat → Bool) {j : Nat} (hj : j < n) :
    (msbFirst n f).testBit (n - 1 - j) = f j := by
  induction n generalizing f j with
  | zero => exact absurd hj (Nat.not_lt_zero j)
  | succ n ih =>
    rw [msbFirst_succ, Nat.testBit_two_pow_mul_add _ (msbFirst_lt n _)]
    cases j with
    | zero => cases f 0 <;> simp
    | succ j =>
      have hexp : n + 1 - 1 - (j + 1) = n - 1 - j := by omega
      rw [if_pos (by omega), hexp, ih _ (by omega)]

theorem viewCodeBits_valid {t : Tables} (sel : Byte) (k : Nat) (h : t.codeV = true) :
    viewCodeBits t sel k = BitVec.ofNat 32 (msbFirst 32 fun j => (t.code.read sel.toNat).getD (32 * k + j) false) :=
  if_pos h

/-- Settles O12: bit `31 - j` of the sum is its `j`-th digit, and a list read past its end gives the default. -/
theorem codeBitsShowTheCode : Obligations.CodeBitsShowTheCode := by
  intro s k hidle
  rw [regValue_idle hidle, readReg]
  refine ⟨fun hv j hj => ?_, fun hv => if_neg (by simp [hv])⟩
  rw [viewCodeBits_valid _ _ hv, BitVec.getLsbD_ofNat, decide_eq_true (by omega), Bool.true_and]
  refine (testBit_msbFirst 32 _ hj).trans ?_
  split
  next hin => exact List.getD_eq_getElem _ _ hin
  next hout => exact List.getD_eq_default _ _ (Nat.le_of_not_lt hout)

/-! Identity, the other views, and the stored registers (R25 to R45, R60 to R68). -/

/-- Under the invariant a code's length fits the 8-bit `len` (R56). -/
theorem length_code_le {t : Tables} (h : codeOk t = true) (b : Byte) : (t.code.read b.toNat).length ≤ 255 := by
  have hb : b.toNat < t.code.cells.length := by rw [t.code.size]; exact b.isLt
  have hmem : t.code.read b.toNat ∈ t.code.cells := by
    simp [Table.read, List.getD_eq_getElem?_getD, hb]
  exact of_decide_eq_true (List.all_eq_true.mp h _ hmem)

/-- A view reads the field, or 0 while its structure is not valid. -/
theorem toNat_view {n : Nat} (c : Bool) (x : BitVec n) (hn : n ≤ 32) :
    (if c then x.setWidth 32 else (0 : Word)).toNat = if c then x.toNat else 0 := by
  cases c
  · rfl
  · exact BitVec.toNat_setWidth_of_le hn

/-- Settles O9: while idle each view is its field or 0; the code's length fits its 8 bits under `codeOk`. -/
theorem viewsAndIdentity : Obligations.ViewsAndIdentity := by
  refine ⟨fun s => ?_, fun s hidle hcode => ?_⟩
  · cases hb : s.isBusy <;> simp [regValue, hb, freeWhileBusy, readReg, Config.idValue, Config.versionValue]
  · simp only [regValue_idle hidle, readReg]
    refine ⟨toNat_view _ _ (by decide), rfl, toNat_view _ _ (by decide), toNat_view _ _ (by decide), ?_, fun b => rfl,
      fun b => ?_⟩
    · rw [viewNodeW]
      simp only [nodeShown_iff]
      rfl
    · have hlen := length_code_le hcode b
      rw [viewCodeLen, toNat_view _ _ (by decide), BitVec.toNat_ofNat, Nat.mod_eq_of_lt (by omega)]

/-- The registers R69's second sentence names read as they are while busy. -/
theorem regValue_fixed {r : RegName} (s : State) (hfree : freeWhileBusy r = false) (hr : r ≠ .status) :
    regValue s r = readReg s r := by
  simp [regValue, hfree, hr]

theorem fixed_of_mem : ∀ r ∈ [RegName.id, .version, .ctrl, .cmd, .irqEn, .irqStat, .srcBase, .srcLen, .treeBase,
    .treeLen, .dstBase, .dstCap, .toutBase, .toutCap, .codeSel, .nodeSel],
    freeWhileBusy r = false ∧ r ≠ .status := by
  decide

/-- Settles O8: what a read records, what it returns by the register's kind, and each stored register's value. -/
theorem hostReadsHaveNoSideEffects : Obligations.HostReadsHaveNoSideEffects := by
  refine ⟨fun s r es hev => ⟨hostValue { s with events := es } r, ?state, ?observed, ?fixed, ?low, ?idle⟩,
    fun s a es hev hlo hhi => ?access, fun s => ?values⟩
  case state =>
    rw [step_regRead hev]
    obtain ⟨rfl, hidle, ho⟩ | ⟨hnot, ho⟩ := observedBy_cases r { s with events := es }
    · rw [ho, if_pos ⟨rfl, hidle⟩]
      rfl
    · rw [ho, if_neg hnot]
      rfl
  case observed =>
    intro hidle hunseen
    exact (hostValue_observed (s := { s with events := es }) r hunseen).trans
      (regValue_idle (s := { s with events := es }) hidle r)
  case fixed =>
    intro hr
    obtain ⟨hfree, hstatus⟩ := fixed_of_mem r hr
    exact (hostValue_fixed hfree).trans (regValue_fixed { s with events := es } hfree hstatus)
  case low =>
    rintro rfl
    rw [hostValue_fixed rfl]
    refine BitVec.eq_of_getLsbD_eq fun j hj => ?_
    rw [BitVec.getLsbD_extractLsb', BitVec.getLsbD_extractLsb', getLsbD_regValue_status _ (by omega) (by omega)]
    exact congrArg _ (getLsbD_statusWord s (by omega) (by omega)).symm
  case idle =>
    rintro rfl hidle
    exact (hostValue_fixed rfl).trans (regValue_idle (s := { s with events := es }) hidle .status)
  case access =>
    simp only [step_event hev, hostRegRead, accessRefusal_of_inBlock hlo hhi]
    refine ⟨fun hw ha hnone => ?_, fun hbad => ?_⟩
    · rw [if_pos ⟨hw, ha⟩]
      simp only [RegAccess.offset, hnone]
      rfl
    · rw [if_neg (by omega)]
  case values =>
    obtain ⟨hdoneIe, herrIe, hen⟩ := bitWords_fields s.regs.doneIe s.regs.errIe
    obtain ⟨hdoneIp, herrIp, hstat⟩ := bitWords_fields s.regs.doneIp s.regs.errIp
    exact ⟨rfl, rfl, rfl, rfl, rfl, rfl, rfl, rfl, rfl, rfl, rfl, rfl, rfl, rfl,
      BitVec.toNat_setWidth_of_le (by decide), BitVec.toNat_setWidth_of_le (by decide), hdoneIe, herrIe, hen, hdoneIp, herrIp, hstat, regValue_idle⟩

end Sys2Proof.Machine
end

section
/-!
PROOF. Reset (R22, R210): the state a reset leaves reads as the state after reset does.
-/
namespace Sys2Proof.Machine

/-- With every stored register at its reset value and no structure valid, the registers read as after reset,
whatever the node store holds (R22, R53). -/
theorem readReg_resetValues {s : State} (hidle : s.engine = .idle) (hregs : s.regs = Regs.reset)
    (hf : s.tabs.freqV = false) (ht : s.tabs.treeV = false) (hc : s.tabs.codeV = false) (r : RegName) :
    readReg s r = if r = .id then 0x48554646 else if r = .version then 0x00010000 else 0 := by
  cases r with
  | status =>
    simp [readReg, statusWord, statusLow, validBits, bitWord, isBusy_idle hidle, hregs, hf, ht, hc, Regs.reset]
  | irqEn => simp [readReg, irqEnWord, bitWord, hregs, Regs.reset]
  | irqStat => simp [readReg, irqStatWord, bitWord, hregs, Regs.reset]
  | nsym => simp [readReg, viewNsym, hf]
  | total => simp [readReg, viewTotal, hf]
  | freqW b => simp [readReg, viewFreq, hf]
  | nnodes => simp [readReg, viewNnodes, ht]
  | root => simp [readReg, viewRoot, ht]
  | nodeW => simp [readReg, viewNodeW, nodeShown, ht]
  | nodeInfo => simp [readReg, viewNodeInfo, nodeShown, ht]
  | codeBits k => simp [readReg, viewCodeBits, hc]
  | codeLenW b => simp [readReg, viewCodeLen, hc]
  | _ => simp only [readReg, hregs]; rfl

theorem readReg_reset (r : RegName) :
    readReg State.reset r = if r = .id then 0x48554646 else if r = .version then 0x00010000 else 0 :=
  readReg_resetValues rfl rfl rfl rfl rfl r

theorem readReg_resetCore (m : Memory) (s : State) (r : RegName) :
    readReg (resetCore m s) r = readReg State.reset r :=
  (readReg_resetValues rfl rfl rfl rfl rfl r).trans (readReg_reset r).symm

/-- A reset that abandons no command without meaning takes place (R210, R211; log 13). -/
theorem resetNow_next {s : State} (h : ∀ c i, s.engine = .busy c → decode c.cmd = .ok i → noMeaning i s = none) :
    resetNow s = .next (resetCore (scribble s.drawn s.mem (runningWrites s)) s) := by
  unfold resetNow
  cases he : s.engine with
  | idle => simp [runningWrites_of_idle he]
  | busy c =>
    cases hd : decode c.cmd with
    | error x => simp [hd, runningWrites_of_busy he, copyWrites]
    | ok i => simp [hd, runningWrites_of_busy he, copyWrites, h c i he hd]

/-- Settles O20: a reset with a meaning is `resetCore`, whose every field is at its reset value and which changes
memory only in the abandoned command's write ranges. -/
theorem resetLeavesTheResetValues : Obligations.ResetLeavesTheResetValues := by
  refine ⟨readReg_reset, fun s es hev hmeaning => ?_⟩
  have hstep : step s = resetNow { s with events := es } := step_event hev
  refine ⟨_, hstep.trans (resetNow_next hmeaning), rfl, rfl, rfl, rfl, rfl, rfl, rfl, fun r => readReg_resetCore ..,
    fun b => ⟨?_, ?_⟩, rfl, rfl, rfl, rfl, rfl, rfl, rfl, fun a ha => ?_, fun hidle => ?_⟩
  · exact Table.read_fill 256 0 b.toNat b.isLt
  · exact Table.read_fill 256 [] b.toNat b.isLt
  · exact read_scribble_outside s.drawn a (runningWrites s) s.mem ha
  · simp [runningWrites, runningCopies, hidle]

end Sys2Proof.Machine
end

section
/-!
PROOF. How each command and each step of the world can end, said once: the tables a command may leave, the two
completions it ends with (R189, R190), and the moves a step is made of (R80).
-/
namespace Sys2Proof.Machine

/-! The tables a command may leave (R95). -/

/-- `Leaves s i tb`: command `i`, run from `s`, may end with the tables `tb`. Every command keeps them where it
ends before its work; the other cases are the results of its steps (R100, R102, R110, R120, R145, R146, R170,
R174). -/
inductive Leaves (s : State) : Instr → Tables → Prop
  | kept (i : Instr) : Leaves s i s.tabs
  | counted (f : BitFmt) : Leaves s (.count f) (s.tabs.counted (srcBytes s))
  | countLost (f : BitFmt) : Leaves s (.count f) (s.tabs.countLost s.drawn)
  | built (f : BitFmt) {tb : Tables} : s.tabs.built = some tb → Leaves s (.build f) tb
  | coded (f : BitFmt) {ls : List (BitString × Byte)} :
      treeLeaves s.tabs.node s.tabs.root = some ls → Leaves s (.gencode f) (s.tabs.coded ls)
  | deserialized (f : BitFmt) {x : Trie} :
      deserializeText s.tabs.node (treeBytes s) = .ok x → Leaves s (.deserialize f) (s.tabs.deserialized x)
  | treeLost (f : BitFmt) : Leaves s (.deserialize f) (s.tabs.treeLost s.drawn)
  | compressed (f : BitFmt) {tb : Tables} {ls : List (BitString × Byte)} :
      (s.tabs.counted (srcBytes s)).built = some tb → treeLeaves tb.node tb.root = some ls →
      Leaves s (.compress f) (tb.coded ls)
  | compressLost (f : BitFmt) : Leaves s (.compress f) (s.tabs.countLost s.drawn)
  | decompressed (f : BitFmt) {x : Trie} :
      deserializeText s.tabs.node (treeBytes s) = .ok x → Leaves s (.decompress f) (s.tabs.deserialized x)
  | decompressLost (f : BitFmt) : Leaves s (.decompress f) (s.tabs.treeLost s.drawn)

/-- `t` is a completion of command `i` run from `s` that leaves the tables `tb`: a success, with new result
registers and memory, or an error (R189, R190). -/
def EndsWith (i : Instr) (tb : Tables) (s t : State) : Prop :=
  (∃ (d o q : Word) (m : Memory),
    t = complete { s with tabs := tb, regs := { s.regs with dstLen := d, toutLen := o, ratio := q }, mem := m })
  ∨ ∃ e, t = raiseFor i e { s with tabs := tb }

theorem EndsWith.tabs_eq {i : Instr} {tb : Tables} {s t : State} (h : EndsWith i tb s t) : t.tabs = tb := by
  obtain ⟨_, _, _, _, rfl⟩ | ⟨_, rfl⟩ := h <;> rfl

theorem endsWith_complete (i : Instr) (tb : Tables) (s : State) :
    EndsWith i tb s (complete { s with tabs := tb }) := .inl ⟨_, _, _, _, rfl⟩

theorem endsWith_raiseFor (i : Instr) (e : Err) (tb : Tables) (s : State) :
    EndsWith i tb s (raiseFor i e { s with tabs := tb }) := .inr ⟨e, rfl⟩

/-- A command that answers a next state has raised its upfront error, or its body has answered it (R182). -/
theorem checked_next {i : Instr} {s t : State} {body : Host.Outcome State Fault Refusal}
    (h : checked i s body = .next t) : (∃ e, t = raiseFor i e s) ∨ body = .next t := by
  obtain ⟨r, -, hc⟩ | ⟨e, -, -, hc⟩ | ⟨-, -, hc⟩ := checked_cases i s body
  · simp [hc] at h
  · exact .inl ⟨e, (Host.Outcome.next.inj (hc.symm.trans h)).symm⟩
  · exact .inr (hc.symm.trans h)

/-- `t` is an ending of command `i` run from `s`. -/
def Ends (i : Instr) (s t : State) : Prop := ∃ tb, Leaves s i tb ∧ EndsWith i tb s t

theorem ends_raiseFor (i : Instr) (e : Err) (s : State) : Ends i s (raiseFor i e s) :=
  ⟨s.tabs, .kept i, .inr ⟨e, rfl⟩⟩

theorem countBody_ends {f : BitFmt} {s t : State} (h : countBody (.count f) s = .next t) :
    Ends (.count f) s t := by
  unfold countBody at h
  split at h <;> cases h
  · exact ⟨_, .countLost f, endsWith_raiseFor ..⟩
  · exact ⟨_, .counted f, endsWith_complete ..⟩

theorem buildBody_ends {f : BitFmt} {s t : State} (h : buildBody s = .next t) : Ends (.build f) s t := by
  unfold buildBody at h
  split at h <;> cases h
  exact ⟨_, .built f ‹_›, endsWith_complete ..⟩

theorem gencodeBody_ends {f : BitFmt} {s t : State} (h : gencodeBody s = .next t) : Ends (.gencode f) s t := by
  unfold gencodeBody at h
  split at h <;> cases h
  exact ⟨_, .coded f ‹_›, endsWith_complete ..⟩

theorem encodeBody_ends {i : Instr} {s t : State} (h : encodeBody i s = .next t) : Ends i s t := by
  simp only [encodeBody] at h
  split at h <;> cases h
  · exact ⟨_, .kept i, .inl ⟨_, _, _, _, rfl⟩⟩
  · exact ends_raiseFor ..
  · exact ends_raiseFor ..

theorem serializeBody_ends {i : Instr} {s t : State} (h : serializeBody i s = .next t) : Ends i s t := by
  unfold serializeBody at h
  split at h
  · cases h
  · split at h <;> cases h
    · exact ends_raiseFor ..
    · exact ⟨_, .kept i, .inl ⟨_, _, _, _, rfl⟩⟩

theorem decodeBody_ends {i : Instr} {s t : State} (h : decodeBody i s = .next t) : Ends i s t := by
  simp only [decodeBody] at h
  split at h <;> cases h
  · exact ends_raiseFor ..
  · exact ⟨_, .kept i, .inl ⟨_, _, _, _, rfl⟩⟩

theorem deserializeBody_ends {f : BitFmt} {s t : State} (h : deserializeBody (.deserialize f) s = .next t) :
    Ends (.deserialize f) s t := by
  simp only [deserializeBody] at h
  split at h <;> cases h
  · exact ⟨_, .deserialized f ‹_›, endsWith_complete ..⟩
  · exact ⟨_, .treeLost f, endsWith_raiseFor ..⟩
  · exact ⟨_, .treeLost f, endsWith_raiseFor ..⟩

theorem compressBody_ends {f : BitFmt} {s t : State} (h : compressBody (.compress f) s = .next t) :
    Ends (.compress f) s t := by
  unfold compressBody at h
  split at h
  · cases h
  next tb hb =>
    split at h <;> cases h
    next ls hl =>
      have hleft : Leaves s (.compress f) (tb.coded ls) := .compressed f hb hl
      simp only [compressEnd]
      split
      · exact ⟨_, hleft, .inl ⟨_, _, _, _, rfl⟩⟩
      · split
        · exact ⟨_, .compressLost f, endsWith_raiseFor ..⟩
        · exact ⟨_, hleft, endsWith_raiseFor ..⟩
      · exact ⟨_, hleft, endsWith_raiseFor ..⟩

theorem decompressBody_ends {f : BitFmt} {s t : State} (h : decompressBody (.decompress f) s = .next t) :
    Ends (.decompress f) s t := by
  unfold decompressBody at h
  split at h <;> cases h
  · unfold Machine.decompressLost
    split <;> exact ⟨_, .decompressLost f, endsWith_raiseFor ..⟩
  next x hx =>
    have hleft : Leaves s (.decompress f) (s.tabs.deserialized x) := .decompressed f hx
    simp only [decompressEnd]
    split
    · split
      · exact ⟨_, .decompressLost f, endsWith_raiseFor ..⟩
      · exact ⟨_, hleft, endsWith_raiseFor ..⟩
    · exact ⟨_, hleft, .inl ⟨_, _, _, _, rfl⟩⟩

/-- Every next state of a command is one of its completions, over tables it may leave. -/
theorem exec_ends {i : Instr} {s t : State} (h : exec i s = .next t) : Ends i s t := by
  cases i <;> obtain ⟨e, rfl⟩ | h := checked_next h
  case count.inr => exact countBody_ends h
  case build.inr => exact buildBody_ends h
  case gencode.inr => exact gencodeBody_ends h
  case encode.inr => exact encodeBody_ends h
  case serialize.inr => exact serializeBody_ends h
  case deserialize.inr => exact deserializeBody_ends h
  case decode.inr => exact decodeBody_ends h
  case compress.inr => exact compressBody_ends h
  case decompress.inr => exact decompressBody_ends h
  all_goals exact ends_raiseFor ..

/-- The tables of a command's next state are tables it may leave. -/
theorem exec_leaves {i : Instr} {s t : State} (h : exec i s = .next t) : Leaves s i t.tabs := by
  obtain ⟨tb, hleft, hend⟩ := exec_ends h
  rwa [hend.tabs_eq]

/-! The host's steps (R80, R81). -/

/-- A host step that neither resets nor launches: the tables, the engine, its working state and the error are
as before, and so are `CMD` and, unless the engine is idle, the configuration registers (R46). -/
structure CoreKept (s t : State) : Prop where
  tabs : t.tabs = s.tabs
  engine : t.engine = s.engine
  work : t.work = s.work
  err : t.regs.err = s.regs.err
  errcode : t.regs.errcode = s.regs.errcode
  errinfo : t.regs.errinfo = s.regs.errinfo
  cmd : t.regs.cmd = s.regs.cmd
  bufs : s.engine = .idle ∨ t.regs.bufs = s.regs.bufs

theorem CoreKept.refl (s : State) : CoreKept s s := ⟨rfl, rfl, rfl, rfl, rfl, rfl, rfl, .inr rfl⟩

theorem hostRegRead_kept {a : RegAccess} {s t : State} (h : hostRegRead a s = .next t) : CoreKept s t := by
  obtain ⟨r, -, hc⟩ | ⟨-, -, hc⟩ | ⟨r, -, -, hc⟩ := hostRegRead_cases a s <;> rw [hc] at h <;> cases h
  · exact ⟨rfl, rfl, rfl, rfl, rfl, rfl, rfl, .inr rfl⟩
  · obtain ⟨-, -, ho⟩ | ⟨-, ho⟩ := observedBy_cases r s <;> rw [ho] <;>
      exact ⟨rfl, rfl, rfl, rfl, rfl, rfl, rfl, .inr rfl⟩

theorem hostMemRead_kept {a : Word} {s t : State} (h : hostMemRead a s = .next t) : CoreKept s t := by
  obtain ⟨v, hc⟩ := hostMemRead_cases a s
  rw [hc] at h
  cases h
  exact ⟨rfl, rfl, rfl, rfl, rfl, rfl, rfl, .inr rfl⟩

theorem hostMemWrite_kept {a : Word} {v : Byte} {s t : State} (h : hostMemWrite a v s = .next t) :
    CoreKept s t := by
  obtain ⟨-, hc⟩ | ⟨-, hc⟩ := hostMemWrite_cases a v s <;> rw [hc] at h <;> cases h
  exact ⟨rfl, rfl, rfl, rfl, rfl, rfl, rfl, .inr rfl⟩

theorem hostIrqAccept_kept {s t : State} (h : hostIrqAccept s = .next t) : CoreKept s t := by
  obtain ⟨-, hc⟩ | ⟨-, hc⟩ := hostIrqAccept_cases s <;> rw [hc] at h <;> cases h
  · exact ⟨rfl, rfl, rfl, rfl, rfl, rfl, rfl, .inr rfl⟩
  · exact .refl _

/-- A write of a register other than `CTRL` launches or leaves the core's command and structures. -/
theorem writeReg_kept {r : RegName} {v : Word} {s t : State} (hr : r ≠ .ctrl) (h : writeReg r v s = .next t) :
    t = launch v s ∨ CoreKept s t := by
  obtain ⟨hctrl, -⟩ | ⟨hctrl, -⟩ | ⟨-, hc⟩ | ⟨-, hc⟩ | ⟨-, -, -, hc⟩ := writeReg_cases r v s
  · exact absurd hctrl hr
  · exact absurd hctrl hr
  all_goals rw [hc] at h; cases h
  · exact .inr ⟨rfl, rfl, rfl, rfl, rfl, rfl, rfl, .inr rfl⟩
  · exact .inr ⟨rfl, rfl, rfl, rfl, rfl, rfl, rfl, .inr rfl⟩
  · obtain hw | ⟨-, -, hw⟩ | ⟨-, -, hw⟩ | ⟨-, -, hw⟩ | ⟨b, hi, -, hw⟩ := writeWhenIdle_cases r v s <;> rw [hw]
    · exact .inr (.refl _)
    · exact .inl rfl
    · exact .inr ⟨rfl, rfl, rfl, rfl, rfl, rfl, rfl, .inr rfl⟩
    · exact .inr ⟨rfl, rfl, rfl, rfl, rfl, rfl, rfl, .inr rfl⟩
    · exact .inr ⟨rfl, rfl, rfl, rfl, rfl, rfl, rfl, .inl hi⟩

/-! One step of the world (R80). -/

/-- `Moves s t`: what one step can make of `s`, the event it takes from the list apart. -/
inductive Moves (s : State) : State → Prop
  | command {i : Instr} {t : State} : exec i s = .next t → Moves s t
  | illegal (w : Word) : Moves s (raiseIllegal w s)
  | reset (m : Memory) : Moves s (resetCore m s)
  | launched (w : Word) : Moves s (launch w s)
  | host {t : State} : CoreKept s t → Moves s t

theorem completeRunning_moves {s t : State} (h : completeRunning s = .next t) : Moves s t := by
  obtain ⟨-, hc⟩ | ⟨c, i, -, -, hc⟩ | ⟨c, x, -, -, hc⟩ := completeRunning_cases s <;> rw [hc] at h
  · cases h
    exact .host (.refl _)
  · exact .command h
  · cases h
    exact .illegal _

theorem resetNow_moves {s t : State} (h : resetNow s = .next t) : Moves s t := by
  obtain ⟨r, hc⟩ | hc := resetNow_cases s <;> rw [hc] at h <;> cases h
  exact .reset _

theorem writeReg_moves {r : RegName} {v : Word} {s t : State} (h : writeReg r v s = .next t) : Moves s t := by
  by_cases hr : r = .ctrl
  · subst hr
    simp only [writeReg] at h
    split at h
    · exact resetNow_moves h
    · cases h
      exact .host (.refl _)
  · obtain rfl | hk := writeReg_kept hr h
    · exact .launched v
    · exact .host hk

theorem hostRegWrite_moves {a : RegAccess} {v : Word} {s t : State} (h : hostRegWrite a v s = .next t) :
    Moves s t := by
  obtain ⟨r, -, hc⟩ | ⟨-, -, hc⟩ | ⟨r, -, -, hc⟩ := hostRegWrite_cases a v s <;> rw [hc] at h
  · cases h
  · cases h
    exact .host (.refl _)
  · exact writeReg_moves h

/-- Every next state is a move, from the state with the event taken from the list. -/
theorem step_moves {s t : State} (h : step s = .next t) : ∃ es, Moves { s with events := es } t := by
  cases hev : s.events with
  | nil =>
    rw [step_no_event hev] at h
    exact ⟨s.events, completeRunning_moves h⟩
  | cons ev es =>
    rw [step_event hev] at h
    refine ⟨es, ?_⟩
    cases ev with
    | regRead a => exact .host (hostRegRead_kept h)
    | regWrite a v => exact hostRegWrite_moves h
    | memRead a => exact .host (hostMemRead_kept h)
    | memWrite a v => exact .host (hostMemWrite_kept h)
    | irqAccept => exact .host (hostIrqAccept_kept h)
    | complete => exact completeRunning_moves h
    | hwReset => exact resetNow_moves h

end Sys2Proof.Machine
end

section
/-!
PROOF. The invariant's register part (R29, R30, R46, R57, R58, R91): an ending puts it in place, and the host's
steps keep what it speaks of.
-/
namespace Sys2Proof.Machine

/-- No error kind has the number 0, which is "no error" (R180). -/
theorem ErrCode.num_ne_zero (c : ErrCode) : c.num ≠ 0 := by
  cases c <;> decide

theorem regsOk_complete (s : State) : regsOk (complete s) = true := by
  simp [regsOk]

theorem regsOk_raise (ws : List Range) (c : Results) (e : Err) (s : State) : regsOk (raise ws c e s) = true := by
  have hnum : (e.code.num != 0) = true := bne_iff_ne.mpr e.code.num_ne_zero
  simp only [regsOk, raise_regs, raise_work, raise_engine, Regs.fail_err, Regs.fail_errcode, hnum]
  rfl

theorem regsOk_launch (w : Word) (s : State) : regsOk (launch w s) = true := by
  simp [regsOk]

theorem regsOk_resetCore (m : Memory) (s : State) : regsOk (resetCore m s) = true := by
  simp [regsOk, Regs.reset]

theorem EndsWith.regsOk {i : Instr} {tb : Tables} {s t : State} (h : EndsWith i tb s t) : regsOk t = true := by
  obtain ⟨_, _, _, _, rfl⟩ | ⟨_, rfl⟩ := h
  · exact regsOk_complete _
  · exact regsOk_raise ..

theorem CoreKept.regsOk {s t : State} (h : CoreKept s t) (hs : regsOk s = true) : regsOk t = true := by
  unfold Machine.regsOk at hs ⊢
  rw [h.err, h.errcode, h.errinfo, h.work, h.engine, h.cmd]
  obtain hidle | hbufs := h.bufs
  · simpa only [hidle] using hs
  · rwa [hbufs]

/-- Settles O56: a completion, a launch and a reset each put the register part in place, whatever held before. -/
theorem registersStayConsistent : Obligations.RegistersStayConsistent := by
  intro s t hs h
  obtain ⟨es, hmove⟩ := step_moves h
  cases hmove with
  | command hexec =>
    obtain ⟨tb, -, hend⟩ := exec_ends hexec
    exact hend.regsOk
  | illegal w => exact regsOk_raise ..
  | reset m => exact regsOk_resetCore ..
  | launched w => exact regsOk_launch ..
  | host hkept => exact hkept.regsOk hs

end Sys2Proof.Machine
end

section
/-!
PROOF. Which command changes which structure (R52, R95), read off the tables each command may leave.
-/
namespace Sys2Proof.Machine

/-- The tables agree on the frequency table, its summary and its flag (`FreqSame`, said of tables). -/
def SameFreq (t u : Tables) : Prop :=
  u.freq = t.freq ∧ u.nsym = t.nsym ∧ u.total = t.total ∧ u.freqV = t.freqV

/-- The tables agree on the node store, its size, its root and its flag (`TreeSame`, said of tables). -/
def SameTree (t u : Tables) : Prop :=
  u.node = t.node ∧ u.nnodes = t.nnodes ∧ u.root = t.root ∧ u.treeV = t.treeV

/-- What the build step leaves: the tree of `buildTree`, the frequency table and the codes as before (R110). -/
theorem built_eq_some {t u : Tables} (h : t.built = some u) :
    ∃ b r, buildTree t.node t.freq = some (b, r)
      ∧ u = { t with
          node := b.nodes, nnodes := BitVec.ofNat 10 b.count, root := r, treeV := true, codeV := false } := by
  unfold Tables.built at h
  split at h <;> cases h
  exact ⟨_, _, ‹_›, rfl⟩

theorem sameFreq_built {t u : Tables} (h : t.built = some u) : SameFreq t u := by
  obtain ⟨b, r, -, rfl⟩ := built_eq_some h
  exact ⟨rfl, rfl, rfl, rfl⟩

theorem code_built {t u : Tables} (h : t.built = some u) : u.code = t.code := by
  obtain ⟨b, r, -, rfl⟩ := built_eq_some h
  rfl

theorem sameFreq_treeLost (n : Nat) (t : Tables) : SameFreq t (t.treeLost n) := by
  simp [SameFreq]

theorem sameTree_countLost (n : Nat) (t : Tables) : SameTree t (t.countLost n) := by
  simp [SameTree]

/-! What each command leaves as it was. -/

section
variable {s : State} {f : BitFmt} {tb : Tables}

theorem Leaves.frame_count (h : Leaves s (.count f) tb) :
    SameTree s.tabs tb ∧ tb.code = s.tabs.code ∧ tb.codeV = s.tabs.codeV := by
  cases h with
  | kept => exact ⟨⟨rfl, rfl, rfl, rfl⟩, rfl, rfl⟩
  | counted => exact ⟨⟨rfl, rfl, rfl, rfl⟩, rfl, rfl⟩
  | countLost => exact ⟨sameTree_countLost .., by simp, by simp⟩

theorem Leaves.frame_build (h : Leaves s (.build f) tb) : SameFreq s.tabs tb ∧ tb.code = s.tabs.code := by
  cases h with
  | kept => exact ⟨⟨rfl, rfl, rfl, rfl⟩, rfl⟩
  | built _ hb => exact ⟨sameFreq_built hb, code_built hb⟩

theorem Leaves.frame_gencode (h : Leaves s (.gencode f) tb) : SameFreq s.tabs tb ∧ SameTree s.tabs tb := by
  cases h with
  | kept => exact ⟨⟨rfl, rfl, rfl, rfl⟩, rfl, rfl, rfl, rfl⟩
  | coded => exact ⟨⟨rfl, rfl, rfl, rfl⟩, rfl, rfl, rfl, rfl⟩

theorem Leaves.frame_deserialize (h : Leaves s (.deserialize f) tb) :
    SameFreq s.tabs tb ∧ tb.code = s.tabs.code := by
  cases h with
  | kept => exact ⟨⟨rfl, rfl, rfl, rfl⟩, rfl⟩
  | deserialized => exact ⟨⟨rfl, rfl, rfl, rfl⟩, rfl⟩
  | treeLost => exact ⟨sameFreq_treeLost .., by simp⟩

theorem Leaves.frame_decompress (h : Leaves s (.decompress f) tb) :
    SameFreq s.tabs tb ∧ tb.code = s.tabs.code := by
  cases h with
  | kept => exact ⟨⟨rfl, rfl, rfl, rfl⟩, rfl⟩
  | decompressed => exact ⟨⟨rfl, rfl, rfl, rfl⟩, rfl⟩
  | decompressLost => exact ⟨sameFreq_treeLost .., by simp⟩

theorem Leaves.eq_encode (h : Leaves s (.encode f) tb) : tb = s.tabs := by
  cases h
  rfl

theorem Leaves.eq_serialize (h : Leaves s (.serialize f) tb) : tb = s.tabs := by
  cases h
  rfl

theorem Leaves.eq_decode (h : Leaves s (.decode f) tb) : tb = s.tabs := by
  cases h
  rfl

end

/-- Settles O50: each command's frame is that of the tables it may leave, each host step's that of `CoreKept` or
of a launch. -/
theorem structuresChangeOnlyByTheirCommands : Obligations.StructuresChangeOnlyByTheirCommands := by
  refine ⟨fun f s t => ⟨fun h => (exec_leaves h).frame_count, fun h => (exec_leaves h).frame_build,
    fun h => (exec_leaves h).frame_gencode, fun h => (exec_leaves h).eq_encode, fun h => (exec_leaves h).eq_serialize,
    fun h => (exec_leaves h).eq_decode, fun h => (exec_leaves h).frame_deserialize,
    fun h => (exec_leaves h).frame_decompress⟩, fun s t a w v x r es h hev => ?_⟩
  obtain hev | hev | hev | hev | ⟨hr, hev⟩ := hev
  · exact (hostRegRead_kept ((step_event hev).symm.trans h)).tabs
  · exact (hostMemRead_kept ((step_event hev).symm.trans h)).tabs
  · exact (hostMemWrite_kept ((step_event hev).symm.trans h)).tabs
  · exact (hostIrqAccept_kept ((step_event hev).symm.trans h)).tabs
  · obtain rfl | hkept := writeReg_kept hr ((step_regWrite hev).symm.trans h)
    · rfl
    · exact hkept.tabs

end Sys2Proof.Machine
end

section
/-!
PROOF. The invariant's frequency part (R50, R51, R100): the counters of a text add up to its length, and no other
step touches a valid table.
-/
namespace Sys2Proof.Machine

/-- Replacing one number of a list changes the sum by the difference of the two. -/
theorem sum_map_set_add (f : Word → Nat) (ws : List Word) {i : Nat} (hi : i < ws.length) (v : Word) :
    ((ws.set i v).map f).sum + f ws[i] = (ws.map f).sum + f v := by
  induction ws generalizing i with
  | nil => exact absurd hi (Nat.not_lt_zero i)
  | cons w ws ih =>
    cases i with
    | zero =>
      simp only [List.set_cons_zero, List.map_cons, List.sum_cons, List.getElem_cons_zero]
      omega
    | succ i =>
      have hrest := ih (Nat.lt_of_succ_lt_succ hi)
      simp only [List.set_cons_succ, List.map_cons, List.sum_cons, List.getElem_cons_succ]
      omega

/-- Counting one more occurrence adds 1 to the table's sum, as long as the sum stays below `2^32` (R100). -/
theorem freqTotal_increment (f : Table Word 256) {i : Nat} (hi : i < 256) (hsum : freqTotal f + 1 < 2 ^ 32) :
    freqTotal (f.write i (f.read i + 1)) = freqTotal f + 1 := by
  have hlen : i < f.cells.length := by rw [f.size]; exact hi
  have hread : f.read i = f.cells[i] := by simp [Table.read, List.getD_eq_getElem?_getD, hlen]
  have hle : f.cells[i].toNat ≤ freqTotal f :=
    List.le_sum_of_mem (List.mem_map_of_mem (List.getElem_mem hlen))
  have hadd : (f.cells[i] + 1).toNat = f.cells[i].toNat + 1 := by
    rw [BitVec.toNat_add]
    exact Nat.mod_eq_of_lt (Nat.lt_of_le_of_lt (Nat.add_le_add_right hle 1) hsum)
  have hset := sum_map_set_add BitVec.toNat f.cells hlen (f.cells[i] + 1)
  simp only [freqTotal, Table.write, hread, hadd] at hset ⊢
  omega

theorem freqTotal_fill_zero : freqTotal (Table.fill 256 0) = 0 := by
  simp only [freqTotal, Table.fill, List.map_replicate, List.sum_replicate]
  exact smul_zero 256

/-- The counters of a text add up to its length (R100). -/
theorem freqTotal_countBytes {bs : List Byte} (hlen : bs.length < 2 ^ 32) : freqTotal (countBytes bs) = bs.length := by
  have hfold : ∀ (bs : List Byte) (f : Table Word 256), freqTotal f + bs.length < 2 ^ 32 →
      freqTotal (bs.foldl (fun f b => f.write b.toNat (f.read b.toNat + 1)) f) = freqTotal f + bs.length := by
    intro bs
    induction bs with
    | nil => intro f _; rfl
    | cons b bs ih =>
      intro f hf
      rw [List.length_cons] at hf ⊢
      have hone := freqTotal_increment f b.isLt (by omega)
      rw [List.foldl_cons, ih _ (by omega), hone]
      omega
  have h := hfold bs (Table.fill 256 0) (by rw [freqTotal_fill_zero]; omega)
  rwa [freqTotal_fill_zero, Nat.zero_add] at h

theorem countSymbols_le (f : Table Word 256) : countSymbols f ≤ 256 := by
  have h := List.length_filter_le (fun w => w != 0) f.cells
  rwa [f.size] at h

theorem length_srcBytes_lt (s : State) : (srcBytes s).length < 2 ^ 32 := by
  simpa [srcBytes, readBytes, srcText] using s.cfg.bufs.srcLen.isLt

/-- The count step leaves a consistent table (R100). -/
theorem freqOk_counted {bs : List Byte} (hlen : bs.length < 2 ^ 32) (tb : Tables) :
    freqOk (tb.counted bs) = true := by
  have hsym := countSymbols_le (countBytes bs)
  have htotal : (BitVec.ofNat 32 bs.length).toNat = bs.length := Nat.mod_eq_of_lt hlen
  have hnsym : (BitVec.ofNat 9 (countSymbols (countBytes bs))).toNat = countSymbols (countBytes bs) :=
    Nat.mod_eq_of_lt (by omega)
  simp [-BitVec.toNat_ofNat, freqOk, freqTotal_countBytes hlen, htotal, hnsym]

theorem freqOk_of_invalid {tb : Tables} (h : tb.freqV = false) : freqOk tb = true := by
  simp [freqOk, h]

theorem freqOk_countLost (n : Nat) (tb : Tables) : freqOk (tb.countLost n) = true := by
  simp [freqOk]

theorem SameFreq.freqOk {t u : Tables} (h : SameFreq t u) (ht : freqOk t = true) : freqOk u = true := by
  obtain ⟨hf, hn, ht', hv⟩ := h
  unfold Machine.freqOk at ht ⊢
  rwa [hf, hn, ht', hv]

theorem Leaves.freqOk {s : State} {i : Instr} {tb : Tables} (h : Leaves s i tb) (hs : freqOk s.tabs = true) :
    freqOk tb = true := by
  cases h with
  | kept => exact hs
  | counted f => exact freqOk_counted (length_srcBytes_lt s) _
  | countLost f => exact freqOk_countLost ..
  | built f hb => exact (sameFreq_built hb).freqOk hs
  | coded f hl => exact hs
  | deserialized f hx => exact hs
  | treeLost f => exact (sameFreq_treeLost ..).freqOk hs
  | compressed f hb hl => exact (sameFreq_built hb).freqOk (freqOk_counted (length_srcBytes_lt s) _)
  | compressLost f => exact freqOk_countLost ..
  | decompressed f hx => exact hs
  | decompressLost f => exact (sameFreq_treeLost ..).freqOk hs

/-- Settles O57: a count step puts the frequency part in place, and every other step keeps the table or marks it
not valid. -/
theorem frequencyTableStaysConsistent : Obligations.FrequencyTableStaysConsistent := by
  intro s t hs h
  obtain ⟨es, hmove⟩ := step_moves h
  cases hmove with
  | command hexec => exact (exec_leaves hexec).freqOk hs
  | illegal w => exact hs
  | reset m => exact freqOk_of_invalid rfl
  | launched w => exact hs
  | host hkept => rwa [hkept.tabs]

end Sys2Proof.Machine
end

section
/-!
PROOF. The walk from a node (R120, R121): how deep it goes, and a certificate that it ends within `MAX_CODE_LEN`
levels.
-/
namespace Sys2Proof.Machine

/-! The walk, equation by equation. -/

/-- The Leaves in one branch of a node: none under `NIL`. -/
def leavesBelow (ns : Table Node 511) (fuel : Nat) (c : NodeIdx) (p : BitString) : Option (List (BitString × Byte)) :=
  if c = Config.nil then some [] else leavesFrom ns fuel c p

theorem leavesFrom_leaf {ns : Table Node 511} {k : NodeIdx} (h : (nodeAt ns k).internal = false) (fuel : Nat)
    (p : BitString) : leavesFrom ns fuel k p = some [(p, (nodeAt ns k).sym)] := by
  cases fuel <;> simp [leavesFrom, h]

theorem leavesFrom_zero_internal {ns : Table Node 511} {k : NodeIdx} (h : (nodeAt ns k).internal = true)
    (p : BitString) : leavesFrom ns 0 k p = none := by
  simp [leavesFrom, h]

theorem leavesFrom_succ_internal {ns : Table Node 511} {k : NodeIdx} (h : (nodeAt ns k).internal = true) (fuel : Nat)
    (p : BitString) :
    leavesFrom ns (fuel + 1) k p
      = (leavesBelow ns fuel (nodeAt ns k).left (p ++ [false])).bind fun l =>
          (leavesBelow ns fuel (nodeAt ns k).right (p ++ [true])).map (l ++ ·) := by
  simp only [leavesFrom, h, if_true, leavesBelow]
  generalize (if (nodeAt ns k).left = Config.nil then some []
    else leavesFrom ns fuel (nodeAt ns k).left (p ++ [false])) = l
  generalize (if (nodeAt ns k).right = Config.nil then some []
    else leavesFrom ns fuel (nodeAt ns k).right (p ++ [true])) = r
  cases l <;> cases r <;> rfl

theorem treeLeaves_internal {ns : Table Node 511} {root : NodeIdx} (h : (nodeAt ns root).internal = true) :
    treeLeaves ns root = leavesFrom ns Config.maxCodeLen root [] :=
  if_pos h

theorem treeLeaves_leaf {ns : Table Node 511} {root : NodeIdx} (h : (nodeAt ns root).internal = false) :
    treeLeaves ns root = some [([false], (nodeAt ns root).sym)] := by
  simp [treeLeaves, h]

/-! The codes' lengths (R6, R120). -/

/-- A walk of at most `fuel` levels finds paths at most `fuel` longer than where it starts. -/
theorem length_le_of_leavesFrom {ns : Table Node 511} {fuel : Nat} {k : NodeIdx} {p : BitString}
    {ls : List (BitString × Byte)} (h : leavesFrom ns fuel k p = some ls) :
    ∀ l ∈ ls, l.1.length ≤ p.length + fuel := by
  induction fuel generalizing k p ls with
  | zero =>
    cases hk : (nodeAt ns k).internal with
    | true => simp [leavesFrom_zero_internal hk] at h
    | false =>
      rw [leavesFrom_leaf hk] at h
      cases h
      simp
  | succ fuel ih =>
    cases hk : (nodeAt ns k).internal with
    | false =>
      rw [leavesFrom_leaf hk] at h
      cases h
      simp
    | true =>
      have hbelow : ∀ (c : NodeIdx) (b : Bool) (ls : List (BitString × Byte)),
          leavesBelow ns fuel c (p ++ [b]) = some ls → ∀ l ∈ ls, l.1.length ≤ p.length + (fuel + 1) := by
        intro c b ls hc l hl
        unfold leavesBelow at hc
        split at hc
        · cases hc
          simp at hl
        · have hlen := ih hc l hl
          simp only [List.length_append, List.length_singleton] at hlen
          omega
      rw [leavesFrom_succ_internal hk, Option.bind_eq_some_iff] at h
      obtain ⟨l, hl, hmap⟩ := h
      obtain ⟨r, hr, rfl⟩ := Option.map_eq_some_iff.mp hmap
      intro x hx
      obtain hx | hx := List.mem_append.mp hx
      · exact hbelow _ _ _ hl x hx
      · exact hbelow _ _ _ hr x hx

theorem length_le_of_treeLeaves {ns : Table Node 511} {root : NodeIdx} {ls : List (BitString × Byte)}
    (h : treeLeaves ns root = some ls) : ∀ l ∈ ls, l.1.length ≤ Config.maxCodeLen := by
  cases hroot : (nodeAt ns root).internal with
  | false =>
    rw [treeLeaves_leaf hroot] at h
    cases h
    simp [Config.maxCodeLen]
  | true =>
    rw [treeLeaves_internal hroot] at h
    simpa using length_le_of_leavesFrom h

theorem codeOk_iff {tb : Tables} : codeOk tb = true ↔ ∀ c ∈ tb.code.cells, c.length ≤ Config.maxCodeLen := by
  simp [codeOk]

/-- Writing codes that are short enough into a table of such codes leaves one. -/
theorem length_le_of_foldl_write {ls : List (BitString × Byte)} (hls : ∀ l ∈ ls, l.1.length ≤ Config.maxCodeLen)
    {t : Table BitString 256} (ht : ∀ c ∈ t.cells, c.length ≤ Config.maxCodeLen) :
    ∀ c ∈ (ls.foldl (fun t l => t.write l.2.toNat l.1) t).cells, c.length ≤ Config.maxCodeLen := by
  induction ls generalizing t with
  | nil => exact ht
  | cons l ls ih =>
    refine ih (fun x hx => hls x (List.mem_cons_of_mem _ hx)) fun c hc => ?_
    obtain hc | rfl := List.mem_or_eq_of_mem_set hc
    · exact ht c hc
    · exact hls l List.mem_cons_self

theorem codeOk_coded {ls : List (BitString × Byte)} (hls : ∀ l ∈ ls, l.1.length ≤ Config.maxCodeLen) (tb : Tables) :
    codeOk (tb.coded ls) = true := by
  refine codeOk_iff.mpr (length_le_of_foldl_write hls fun c hc => ?_)
  rw [List.eq_of_mem_replicate hc]
  exact Nat.zero_le _

/-! The form of a node (R53). -/

/-- Both forms at once: symbol 0 in an Internal node, and every child `NIL` or, in an Internal node, in use. -/
theorem nodeOk_iff {m : Nat} {d : Node} :
    nodeOk m d = true ↔ (d.internal = true → d.sym = 0)
      ∧ ∀ b, childOf d b = Config.nil ∨ (d.internal = true ∧ (childOf d b).toNat < m) := by
  cases hd : d.internal <;> simp [nodeOk, hd, childOk, childOf, Bool.forall_bool, and_assoc]

/-! The certificate (R114, R149). -/

/-- `rank` certifies the store's first `m` nodes: each has its form, ranks rise from a node to its children, and
an Internal node's rank is below `MAX_CODE_LEN`. No walk in such a store goes deeper than that. -/
structure Ranked (ns : Table Node 511) (m : Nat) (rank : Nat → Nat) : Prop where
  form : ∀ k < m, nodeOk m (ns.read k) = true
  below : ∀ k < m, (ns.read k).internal = true → rank k < Config.maxCodeLen
  rises : ∀ k < m, ∀ b, childOf (ns.read k) b ≠ Config.nil → rank k < rank (childOf (ns.read k) b).toNat

/-- The walk from a node ends within as many levels as its rank is below `MAX_CODE_LEN`. -/
theorem Ranked.leavesFrom_isSome {ns : Table Node 511} {m : Nat} {rank : Nat → Nat} (h : Ranked ns m rank)
    {fuel : Nat} {k : NodeIdx} (p : BitString) (hk : k.toNat < m) (hfuel : Config.maxCodeLen ≤ fuel + rank k.toNat) :
    (leavesFrom ns fuel k p).isSome = true := by
  induction fuel generalizing k p with
  | zero =>
    cases hint : (nodeAt ns k).internal with
    | false => rw [leavesFrom_leaf hint]; rfl
    | true =>
      have hlt := h.below k.toNat hk hint
      omega
  | succ fuel ih =>
    cases hint : (nodeAt ns k).internal with
    | false => rw [leavesFrom_leaf hint]; rfl
    | true =>
      have hchild : ∀ b, (leavesBelow ns fuel (childOf (nodeAt ns k) b) (p ++ [b])).isSome = true := by
        intro b
        obtain hnil | ⟨-, hlt⟩ := (nodeOk_iff.mp (h.form k.toNat hk)).2 b
        · rw [leavesBelow, nodeAt, if_pos hnil]
          rfl
        · rw [leavesBelow]
          split
          next => rfl
          next hne =>
            have hrise := h.rises k.toNat hk b hne
            exact ih _ hlt (by rw [nodeAt]; omega)
      obtain ⟨l, hl⟩ := Option.isSome_iff_exists.mp (hchild false)
      obtain ⟨r, hr⟩ := Option.isSome_iff_exists.mp (hchild true)
      rw [childOf, if_neg Bool.false_ne_true] at hl
      rw [childOf, if_pos rfl] at hr
      simp [leavesFrom_succ_internal hint, hl, hr]

section
variable {tb : Tables} {m : Nat} {rank : Nat → Nat}

theorem Ranked.treeOk (h : Ranked tb.node m rank) (hroot : tb.root.toNat < m) : treeOk tb = true := by
  have hsome : (treeLeaves tb.node tb.root).isSome = true := by
    cases hint : (nodeAt tb.node tb.root).internal with
    | false => rw [treeLeaves_leaf hint]; rfl
    | true =>
      rw [treeLeaves_internal hint]
      exact h.leavesFrom_isSome [] hroot (Nat.le_add_right _ _)
  simp [Machine.treeOk, hsome]

theorem Ranked.storeOk (h : Ranked tb.node m rank) (hm : tb.nnodes.toNat = m) (hcap : m ≤ Config.nodeCap)
    (hroot : tb.root.toNat < m) : storeOk tb = true := by
  have hpos : 1 ≤ m := by omega
  simp only [Machine.storeOk, hm, Bool.or_eq_true, Bool.and_eq_true, decide_eq_true_eq, List.all_eq_true,
    List.mem_range]
  exact .inr ⟨⟨hpos, hcap, hroot⟩, h.form⟩

end

end Sys2Proof.Machine
end

section
/-!
PROOF. BUILD leaves a tree (R110, R111, R114): every node merged stands above nodes of lower index, so the walk goes
down at most one level a merge.
-/
namespace Sys2Proof.Machine

theorem nodeOk_mono {m m' : Nat} (hm : m ≤ m') {d : Node} (h : nodeOk m d = true) : nodeOk m' d = true := by
  obtain ⟨hsym, hchild⟩ := nodeOk_iff.mp h
  exact nodeOk_iff.mpr ⟨hsym, fun b => (hchild b).imp_right fun ⟨hint, hlt⟩ => ⟨hint, hlt.trans_le hm⟩⟩

theorem nodeOk_leafNode (m : Nat) (sym : Byte) (w : Word) : nodeOk m (leafNode sym w) = true := by
  simp [nodeOk, leafNode]

/-! Steps 1 and 2: the Leaves in their places. -/

theorem mem_leafNodes {f : Table Word 256} {d : Node} (h : d ∈ leafNodes f) : ∃ sym w, d = leafNode sym w := by
  rw [leafNodes_eq] at h
  obtain ⟨s, -, hs⟩ := List.mem_filterMap.mp h
  split at hs <;> cases hs
  exact ⟨_, _, rfl⟩

theorem length_leafNodes_le (f : Table Word 256) : (leafNodes f).length ≤ 256 := by
  rw [leafNodes_eq]
  exact (List.length_filterMap_le _ _).trans_eq List.length_range

theorem read_placeNodes_lt (ds : List Node) {ns : Table Node 511} {n k : Nat} (hk : k < n) :
    (placeNodes ns n ds).read k = ns.read k := by
  induction ds generalizing ns n with
  | nil => rfl
  | cons d ds ih => rw [placeNodes, ih (Nat.lt_succ_of_lt hk), Table.read_write_ne _ _ (by omega)]

/-- Placing nodes puts each of them in the store. -/
theorem read_placeNodes_mem {ds : List Node} {ns : Table Node 511} {n k : Nat} (hn : n ≤ k) (hk : k < n + ds.length)
    (hcap : n + ds.length ≤ 511) : (placeNodes ns n ds).read k ∈ ds := by
  induction ds generalizing ns n with
  | nil => rw [List.length_nil] at hk; omega
  | cons d ds ih =>
    rw [List.length_cons] at hk hcap
    rw [placeNodes]
    obtain rfl | hlt := Nat.eq_or_lt_of_le hn
    · rw [read_placeNodes_lt ds (Nat.lt_succ_self n), Table.read_write_same _ _ _ (by omega)]
      exact List.mem_cons_self
    · exact List.mem_cons_of_mem _ (ih hlt (by omega) (by omega))

/-! `extract_min` (R111). -/

theorem leastKey_mem (ns : Table Node 511) (m : NodeIdx) (q : List NodeIdx) : leastKey ns m q ∈ m :: q := by
  induction q generalizing m with
  | nil => exact List.mem_cons_self
  | cons k q ih =>
    have h := ih (if keyLess ns k m then k else m)
    rw [leastKey, List.foldl_cons, ← leastKey]
    by_cases hless : keyLess ns k m = true
    · rw [if_pos hless] at h ⊢
      exact List.mem_cons_of_mem _ h
    · rw [if_neg hless] at h ⊢
      exact (List.mem_cons.mp h).elim (fun h => List.mem_cons.mpr (.inl h))
        fun h => List.mem_cons_of_mem _ (List.mem_cons_of_mem _ h)

/-- What is extracted was in the queue, the rest is the queue without it. -/
theorem extractMin_eq_some {ns : Table Node 511} {q q' : List NodeIdx} {x : NodeIdx}
    (h : extractMin ns q = some (x, q')) : x ∈ q ∧ q' = q.erase x := by
  cases q with
  | nil => cases h
  | cons k q =>
    cases h
    exact ⟨leastKey_mem ns k q, rfl⟩

/-! Step 3: the merges. -/

/-- The rank of a node of a tree built from `n` Leaves: a Leaf's is `MAX_CODE_LEN`, each merged node's one lower than
that of the one before. -/
def buildRank (n k : Nat) : Nat := if k < n then 255 else 254 + n - k

/-- The builder from `n` Leaves: each merge takes one entry from the queue and adds one node, the queue's entries are
nodes created, and the store is ranked. -/
structure BuilderOk (n : Nat) (b : Builder) : Prop where
  leaves : n ≤ 256
  created : n ≤ b.count
  balance : b.count + b.queue.length = 2 * n
  queued : ∀ k ∈ b.queue, k.toNat < b.count
  ranked : Ranked b.nodes b.count (buildRank n)

theorem startBuilder_ok (ns : Table Node 511) (f : Table Word 256) :
    BuilderOk (leafNodes f).length (startBuilder ns (leafNodes f)) := by
  have hlen := length_leafNodes_le f
  have hleaf : ∀ k < (leafNodes f).length, ∃ sym w, (placeNodes ns 0 (leafNodes f)).read k = leafNode sym w :=
    fun k hk => mem_leafNodes (read_placeNodes_mem (Nat.zero_le k) (by omega) (by omega))
  refine ⟨hlen, Nat.le_refl _, ?_, ?_, ?_, ?_, ?_⟩
  · simp only [startBuilder, List.length_map, List.length_range]
    omega
  · intro k hk
    obtain ⟨j, hj, rfl⟩ := List.mem_map.mp hk
    rw [List.mem_range] at hj
    exact (Nat.mod_le _ _).trans_lt hj
  · intro k hk
    obtain ⟨sym, w, hread⟩ := hleaf k hk
    simp only [startBuilder, hread]
    exact nodeOk_leafNode ..
  · intro k hk hint
    obtain ⟨sym, w, hread⟩ := hleaf k hk
    simp [startBuilder, hread, leafNode] at hint
  · intro k hk b hne
    obtain ⟨sym, w, hread⟩ := hleaf k hk
    cases b <;> simp [startBuilder, hread, leafNode, childOf] at hne

/-- A ranked store stays ranked when an Internal node over two of its nodes is added at its end. -/
theorem Ranked.push {ns : Table Node 511} {n m : Nat} (h : Ranked ns m (buildRank n)) (hn : n ≤ m)
    (hcap : m + 2 ≤ 2 * n) (hleaves : n ≤ 256) {x y : NodeIdx} (hx : x.toNat < m) (hy : y.toNat < m) (w : Word) :
    Ranked (ns.write m (internalNode x y w)) (m + 1) (buildRank n) := by
  have hlast : (ns.write m (internalNode x y w)).read m = internalNode x y w := Table.read_write_same _ _ _ (by omega)
  have hother : ∀ k < m, (ns.write m (internalNode x y w)).read k = ns.read k := fun k hk =>
    Table.read_write_ne _ _ (by omega)
  have hchild : ∀ b, (childOf (internalNode x y w) b).toNat < m := fun b => by cases b <;> assumption
  refine ⟨fun k hk => ?_, fun k hk hint => ?_, fun k hk b hne => ?_⟩ <;>
    obtain rfl | hk := Nat.eq_or_lt_of_le (Nat.le_of_lt_succ hk)
  · rw [hlast]
    exact nodeOk_iff.mpr ⟨fun _ => rfl, fun b => .inr ⟨rfl, Nat.lt_succ_of_lt (hchild b)⟩⟩
  · rw [hother k hk]
    exact nodeOk_mono (Nat.le_succ m) (h.form k hk)
  · simp only [buildRank, Config.maxCodeLen]
    split <;> omega
  · rw [hother k hk] at hint
    exact h.below k hk hint
  · have hlt := hchild b
    rw [hlast]
    simp only [buildRank]
    split <;> split <;> omega
  · rw [hother k hk] at hne ⊢
    exact h.rises k hk b hne

theorem mergeOnce_ok {n : Nat} {b : Builder} (h : BuilderOk n b) : BuilderOk n (mergeOnce b) := by
  unfold mergeOnce
  split
  next => exact h
  next x q hx =>
    split
    next => exact h
    next y q' hy =>
      obtain ⟨hxq, rfl⟩ := extractMin_eq_some hx
      obtain ⟨hyq, rfl⟩ := extractMin_eq_some hy
      have hyb : y ∈ b.queue := List.mem_of_mem_erase hyq
      have hlen : (b.queue.erase x).length + 1 = b.queue.length := by
        rw [List.length_erase_of_mem hxq]
        exact Nat.sub_add_cancel (List.length_pos_of_mem hxq)
      have hlen' : ((b.queue.erase x).erase y).length + 1 = (b.queue.erase x).length := by
        rw [List.length_erase_of_mem hyq]
        exact Nat.sub_add_cancel (List.length_pos_of_mem hyq)
      have hbalance := h.balance
      have hleaves := h.leaves
      have hcreated := h.created
      refine ⟨hleaves, Nat.le_succ_of_le hcreated, ?_, ?_,
        h.ranked.push hcreated (by omega) hleaves (h.queued x hxq) (h.queued y hyb) _⟩
      · simp only [List.length_append, List.length_singleton]
        omega
      · intro k hk
        obtain hk | hk := List.mem_append.mp hk
        · exact Nat.lt_succ_of_lt (h.queued k (List.mem_of_mem_erase (List.mem_of_mem_erase hk)))
        · rw [List.mem_singleton.mp hk, BitVec.toNat_ofNat]
          exact Nat.lt_succ_of_le (Nat.mod_le _ _)

theorem mergeAll_ok {n : Nat} (k : Nat) {b : Builder} (h : BuilderOk n b) : BuilderOk n (mergeAll k b) := by
  induction k generalizing b with
  | zero => exact h
  | succ k ih => exact ih (mergeOnce_ok h)

/-- What BUILD's steps leave: a ranked store of at most `NODE_CAP` nodes with the root among them (R114). -/
theorem buildTree_ok {ns : Table Node 511} {f : Table Word 256} {b : Builder} {r : NodeIdx}
    (h : buildTree ns f = some (b, r)) :
    BuilderOk (leafNodes f).length b ∧ r.toNat < b.count ∧ b.count ≤ Config.nodeCap := by
  have hok := mergeAll_ok ((leafNodes f).length - 1) (startBuilder_ok ns f)
  simp only [buildTree] at h
  split at h <;> cases h
  next hq =>
    have hbalance := hok.balance
    have hleaves := hok.leaves
    rw [hq, List.length_singleton] at hbalance
    exact ⟨hok, hok.queued r (by rw [hq]; exact List.mem_singleton_self r), by rw [Config.nodeCap]; omega⟩

theorem built_ok {t u : Tables} (h : t.built = some u) : storeOk u = true ∧ treeOk u = true := by
  obtain ⟨b, r, hbuild, rfl⟩ := built_eq_some h
  obtain ⟨hok, hroot, hcap⟩ := buildTree_ok hbuild
  have hcount : (BitVec.ofNat 10 b.count).toNat = b.count := Nat.mod_eq_of_lt (by rw [Config.nodeCap] at hcap; omega)
  exact ⟨hok.ranked.storeOk hcount hcap hroot, hok.ranked.treeOk hroot⟩

end Sys2Proof.Machine
end

section
/-!
PROOF. The deserialize step leaves a tree (R145, R148, R149): every node stands one level below its parent, and an
Internal node is allocated only where the path goes on.
-/
namespace Sys2Proof.Machine

/-- A node with child `b` set. -/
def withChild (d : Node) (b : Bool) (c : NodeIdx) : Node :=
  if b then { d with right := c } else { d with left := c }

theorem withChild_internal (d : Node) (b : Bool) (c : NodeIdx) : (withChild d b c).internal = d.internal := by
  cases b <;> rfl

theorem withChild_sym (d : Node) (b : Bool) (c : NodeIdx) : (withChild d b c).sym = d.sym := by
  cases b <;> rfl

theorem childOf_withChild (d : Node) (b b' : Bool) (c : NodeIdx) :
    childOf (withChild d b c) b' = if b' = b then c else childOf d b' := by
  cases b <;> cases b' <;> rfl

/-- The store after an allocation: the new node, its parent with the new child, every other node as before. -/
theorem read_allocChild {t : Trie} {k : NodeIdx} (hk : k.toNat < t.cnt) (hcnt : t.cnt < 511) (b : Bool) (d : Node)
    (j : Nat) :
    (allocChild t k b d).nodes.read j
      = if j = t.cnt then d
        else if j = k.toNat then withChild (t.nodes.read k.toNat) b (BitVec.ofNat 9 t.cnt) else t.nodes.read j := by
  have hparent : nodeAt (t.nodes.write t.cnt d) k = t.nodes.read k.toNat := Table.read_write_ne _ _ (by omega)
  have hset : (allocChild t k b d).nodes
      = (t.nodes.write t.cnt d).write k.toNat (withChild (t.nodes.read k.toNat) b (BitVec.ofNat 9 t.cnt)) := by
    rw [← hparent]
    rfl
  rw [hset, Table.read_write _ _ _ _ (by omega), Table.read_write _ _ _ _ hcnt]
  by_cases hnew : j = t.cnt
  · rw [if_neg (by omega), if_pos hnew.symm, if_pos hnew]
  · rw [if_neg hnew, if_neg (Ne.symm hnew)]
    simp only [eq_comm]

/-- The trie under construction: its nodes have their form, the root is at depth 0 and every node one below its
parent, and no Internal node is as deep as `MAX_CODE_LEN`. -/
structure TrieOk (t : Trie) (depth : Nat → Nat) : Prop where
  size : 1 ≤ t.cnt ∧ t.cnt ≤ 511
  root : depth 0 = 0
  form : ∀ k < t.cnt, nodeOk t.cnt (t.nodes.read k) = true
  below : ∀ k < t.cnt, (t.nodes.read k).internal = true → depth k < Config.maxCodeLen
  level : ∀ k < t.cnt, ∀ b, childOf (t.nodes.read k) b ≠ Config.nil →
    depth (childOf (t.nodes.read k) b).toNat = depth k + 1

theorem TrieOk.child_lt {t : Trie} {depth : Nat → Nat} (h : TrieOk t depth) (k : Nat) (hk : k < t.cnt) (b : Bool)
    (hne : childOf (t.nodes.read k) b ≠ Config.nil) : (childOf (t.nodes.read k) b).toNat < t.cnt :=
  (((nodeOk_iff.mp (h.form k hk)).2 b).resolve_left hne).2

theorem TrieOk.ranked {t : Trie} {depth : Nat → Nat} (h : TrieOk t depth) : Ranked t.nodes t.cnt depth :=
  ⟨h.form, h.below, fun k hk b hne => by rw [h.level k hk b hne]; exact Nat.lt_succ_self _⟩

theorem startTrie_ok (ns : Table Node 511) : TrieOk (startTrie ns) fun _ => 0 := by
  have hread : ∀ k < 1, (startTrie ns).nodes.read k = bareInternal := by
    intro k hk
    obtain rfl : k = 0 := by omega
    exact Table.read_write_same _ _ _ (by decide)
  refine ⟨⟨Nat.le_refl 1, show 1 ≤ 511 by decide⟩, rfl, fun k hk => ?_, fun k hk _ => by decide, fun k hk b hne => ?_⟩
  · rw [hread k hk]
    exact show nodeOk 1 bareInternal = true by decide
  · rw [hread k hk] at hne
    cases b <;> exact absurd rfl hne

/-- Allocating a childless node at a free child of an Internal node keeps the trie; the new node's depth is one more
than its parent's, which the path allows. -/
theorem allocChild_ok {t : Trie} {depth : Nat → Nat} (h : TrieOk t depth) {k : NodeIdx} (hk : k.toNat < t.cnt)
    (hcnt : t.cnt ≠ Config.nodeCap) (hint : (nodeAt t.nodes k).internal = true) (b : Bool) {d : Node}
    (hform : ∀ m, nodeOk m d = true) (hbare : ∀ b, childOf d b = Config.nil)
    (hdeep : d.internal = true → depth k.toNat + 1 < Config.maxCodeLen) :
    TrieOk (allocChild t k b d) (Function.update depth t.cnt (depth k.toNat + 1)) := by
  obtain ⟨hpos, hcap⟩ := h.size
  have hlt : t.cnt < 511 := Nat.lt_of_le_of_ne hcap hcnt
  have hidx : (BitVec.ofNat 9 t.cnt).toNat = t.cnt := Nat.mod_eq_of_lt (by omega)
  have hread := read_allocChild hk hlt b d
  have hold : ∀ j < t.cnt, Function.update depth t.cnt (depth k.toNat + 1) j = depth j := fun j hj =>
    Function.update_of_ne (by omega) _ _
  have hnew : Function.update depth t.cnt (depth k.toNat + 1) t.cnt = depth k.toNat + 1 := Function.update_self ..
  refine ⟨⟨Nat.le_add_left 1 _, hlt⟩, (hold 0 hpos).trans h.root, fun j hj => ?form, fun j hj hj' => ?below,
    fun j hj b' hne => ?level⟩ <;>
    obtain rfl | hj := Nat.eq_or_lt_of_le (Nat.le_of_lt_succ hj)
  case form.inl =>
    rw [hread, if_pos rfl]
    exact hform _
  case form.inr =>
    rw [hread, if_neg (by omega)]
    have hmono := nodeOk_mono (Nat.le_succ t.cnt) (h.form j hj)
    split
    next hjk =>
      subst hjk
      obtain ⟨hsym, hsub⟩ := nodeOk_iff.mp hmono
      refine nodeOk_iff.mpr ⟨?_, fun b' => ?_⟩
      · rwa [withChild_internal, withChild_sym]
      · rw [childOf_withChild, withChild_internal]
        split
        · exact .inr ⟨hint, by rw [hidx]; exact Nat.lt_succ_self _⟩
        · exact hsub b'
    next => exact hmono
  case below.inl =>
    rw [hread, if_pos rfl] at hj'
    rw [hnew]
    exact hdeep hj'
  case below.inr =>
    rw [hread, if_neg (by omega)] at hj'
    rw [hold j hj]
    split at hj'
    next hjk => exact h.below j hj (hjk ▸ hint)
    next => exact h.below j hj hj'
  case level.inl =>
    rw [hread, if_pos rfl] at hne
    exact absurd (hbare b') hne
  case level.inr =>
    rw [hread, if_neg (by omega)] at hne ⊢
    rw [hold j hj]
    split at hne
    next hjk =>
      subst hjk
      rw [if_pos rfl]
      rw [childOf_withChild] at hne ⊢
      split at hne
      next hb => rw [if_pos hb, hidx, hnew]
      next hb => rw [if_neg hb, hold _ (h.child_lt _ hj b' hne), h.level _ hj b' hne]
    next hjk => rw [if_neg hjk, hold _ (h.child_lt _ hj b' hne), h.level _ hj b' hne]

/-- Inserting a path that stays within `MAX_CODE_LEN` levels keeps the trie (R145, R148, R149). -/
theorem insertFrom_ok {sym : Byte} {p : BitString} {k : NodeIdx} {t t' : Trie} {depth : Nat → Nat}
    (h : TrieOk t depth) (hk : k.toNat < t.cnt) (hp : depth k.toNat + p.length ≤ Config.maxCodeLen)
    (hins : insertFrom sym p k t = .ok t') : ∃ depth', TrieOk t' depth' := by
  induction p generalizing k t depth with
  | nil => cases hins
  | cons b p ih =>
    cases p with
    | nil =>
      simp only [insertFrom] at hins
      split at hins
      · cases hins
      next hint =>
        split at hins
        · cases hins
        split at hins <;> cases hins
        next hcnt =>
          exact ⟨_, allocChild_ok h hk hcnt (Bool.eq_true_of_not_eq_false hint) b (fun m => nodeOk_leafNode m sym 0)
            (fun b => by cases b <;> rfl) nofun⟩
    | cons b' p =>
      rw [List.length_cons, List.length_cons] at hp
      simp only [insertFrom] at hins
      split at hins
      · cases hins
      next hint =>
        split at hins
        · split at hins
          · cases hins
          next hcnt =>
            have hidx : (BitVec.ofNat 9 t.cnt).toNat = t.cnt := Nat.mod_eq_of_lt (Nat.lt_succ_of_le h.size.2)
            have halloc := allocChild_ok h hk hcnt (Bool.eq_true_of_not_eq_false hint) b (d := bareInternal)
              (fun m => nodeOk_iff.mpr ⟨fun _ => rfl, fun b => .inl (by cases b <;> rfl)⟩)
              (fun b => by cases b <;> rfl) (fun _ => by omega)
            refine ih halloc ?_ ?_ hins
            · rw [hidx]
              exact Nat.lt_succ_self _
            · rw [hidx, Function.update_self, List.length_cons]
              omega
        next hne =>
          refine ih h (h.child_lt _ hk b hne) ?_ hins
          rw [h.level _ hk b hne, List.length_cons]
          omega

theorem insertLine_ok {t t' : Trie} {depth : Nat → Nat} (h : TrieOk t depth) {path : BitString} {sym : Byte}
    (hins : insertLine t path sym = .ok t') : ∃ depth', TrieOk t' depth' := by
  unfold insertLine at hins
  split at hins
  · cases hins
  split at hins
  · cases hins
  next hlen =>
    have hroot : depth (0 : NodeIdx).toNat = 0 := h.root
    exact insertFrom_ok (k := 0) h h.size.1 (by omega) hins

theorem deserializeLines_ok {fuel : Nat} {text : List Byte} {line : Nat} {t t' : Trie} {depth : Nat → Nat}
    (h : TrieOk t depth) (hrun : deserializeLines fuel text line t = .ok t') : ∃ depth', TrieOk t' depth' := by
  induction fuel generalizing text line t depth with
  | zero => cases hrun
  | succ fuel ih =>
    rw [deserializeLines] at hrun
    split at hrun
    · cases hrun
    split at hrun
    · cases hrun
    next hins =>
      obtain ⟨depth', h'⟩ := insertLine_ok h hins
      split at hrun
      · cases hrun
        exact ⟨depth', h'⟩
      · exact ih h' hrun

theorem deserialized_ok {ns : Table Node 511} {text : List Byte} {x : Trie} (h : deserializeText ns text = .ok x)
    (tb : Tables) : storeOk (tb.deserialized x) = true ∧ treeOk (tb.deserialized x) = true := by
  obtain ⟨depth, hx⟩ := deserializeLines_ok (startTrie_ok ns) h
  obtain ⟨hpos, hcap⟩ := hx.size
  have hcount : (BitVec.ofNat 10 x.cnt).toNat = x.cnt := Nat.mod_eq_of_lt (by omega)
  exact ⟨hx.ranked.storeOk hcount hcap hpos, hx.ranked.treeOk hpos⟩

end Sys2Proof.Machine
end

section
/-!
PROOF. The invariant's tree and code parts (R53 to R56): each command leaves a tree of the right form or none, and
codes no longer than the walk is deep.
-/
namespace Sys2Proof.Machine

theorem SameTree.storeOk {t u : Tables} (h : SameTree t u) (ht : storeOk t = true) : storeOk u = true := by
  obtain ⟨hnode, hnnodes, hroot, hv⟩ := h
  unfold Machine.storeOk at ht ⊢
  rwa [hnode, hnnodes, hroot, hv]

theorem SameTree.treeOk {t u : Tables} (h : SameTree t u) (ht : treeOk t = true) : treeOk u = true := by
  obtain ⟨hnode, hnnodes, hroot, hv⟩ := h
  unfold Machine.treeOk at ht ⊢
  rwa [hnode, hroot, hv]

theorem sameTree_coded (ls : List (BitString × Byte)) (t : Tables) : SameTree t (t.coded ls) := ⟨rfl, rfl, rfl, rfl⟩

theorem storeOk_of_invalid {tb : Tables} (h : tb.treeV = false) : storeOk tb = true := by
  simp [storeOk, h]

theorem treeOk_of_invalid {tb : Tables} (h : tb.treeV = false) : treeOk tb = true := by
  simp [treeOk, h]

theorem codeOk_of_code_eq {t u : Tables} (h : u.code = t.code) (ht : codeOk t = true) : codeOk u = true := by
  unfold codeOk at ht ⊢
  rwa [h]

/-- A command leaves the tree of before, a new one of the right form, or none. -/
theorem Leaves.tree {s : State} {i : Instr} {tb : Tables} (h : Leaves s i tb) :
    SameTree s.tabs tb ∨ (storeOk tb = true ∧ treeOk tb = true) := by
  cases h with
  | kept => exact .inl ⟨rfl, rfl, rfl, rfl⟩
  | counted f => exact .inl ⟨rfl, rfl, rfl, rfl⟩
  | countLost f => exact .inl (sameTree_countLost ..)
  | built f hb => exact .inr (built_ok hb)
  | coded f hl => exact .inl ⟨rfl, rfl, rfl, rfl⟩
  | deserialized f hx => exact .inr (deserialized_ok hx _)
  | treeLost f => exact .inr ⟨storeOk_of_invalid (by simp), treeOk_of_invalid (by simp)⟩
  | compressed f hb hl =>
    obtain ⟨hstore, htree⟩ := built_ok hb
    exact .inr ⟨(sameTree_coded ..).storeOk hstore, (sameTree_coded ..).treeOk htree⟩
  | compressLost f => exact .inl (sameTree_countLost ..)
  | decompressed f hx => exact .inr (deserialized_ok hx _)
  | decompressLost f => exact .inr ⟨storeOk_of_invalid (by simp), treeOk_of_invalid (by simp)⟩

/-- A command leaves the codes of before, or those of a walk. -/
theorem Leaves.codes {s : State} {i : Instr} {tb : Tables} (h : Leaves s i tb) :
    tb.code = s.tabs.code ∨ codeOk tb = true := by
  cases h with
  | kept => exact .inl rfl
  | counted f => exact .inl rfl
  | countLost f => exact .inl (by simp)
  | built f hb => exact .inl (code_built hb)
  | coded f hl => exact .inr (codeOk_coded (length_le_of_treeLeaves hl) _)
  | deserialized f hx => exact .inl rfl
  | treeLost f => exact .inl (by simp)
  | compressed f hb hl => exact .inr (codeOk_coded (length_le_of_treeLeaves hl) _)
  | compressLost f => exact .inl (by simp)
  | decompressed f hx => exact .inl rfl
  | decompressLost f => exact .inl (by simp)

theorem codeOk_resetCore (m : Memory) (s : State) : codeOk (resetCore m s).tabs = true := by
  refine codeOk_iff.mpr fun c hc => ?_
  rw [List.eq_of_mem_replicate hc]
  exact Nat.zero_le _

/-- Settles O58: what each command leaves is the tree and the codes of before, or ones that are in order whatever
held before; a reset leaves no tree and empty codes. -/
theorem nodeStoreStaysATree : Obligations.NodeStoreStaysATree := by
  intro s t h
  obtain ⟨es, hmove⟩ := step_moves h
  cases hmove with
  | command hexec =>
    have hleft := exec_leaves hexec
    refine ⟨fun hs => ?_, fun hs => ?_, fun hs => ?_⟩
    · exact hleft.tree.elim (fun hsame => hsame.storeOk hs) fun hok => hok.1
    · exact hleft.tree.elim (fun hsame => hsame.treeOk hs) fun hok => hok.2
    · exact hleft.codes.elim (fun hsame => codeOk_of_code_eq hsame hs) id
  | illegal w => exact ⟨id, id, id⟩
  | reset m => exact ⟨fun _ => storeOk_of_invalid rfl, fun _ => treeOk_of_invalid rfl, fun _ => codeOk_resetCore ..⟩
  | launched w => exact ⟨id, id, id⟩
  | host hkept =>
    rw [hkept.tabs]
    exact ⟨id, id, id⟩

end Sys2Proof.Machine
end

section
/-!
PROOF. BUILD's steps end in one root (R110): every round leaves the queue one entry shorter, and a table with a
positive counter starts it with an entry.
-/
namespace Sys2Proof.Machine

theorem extractMin_of_ne_nil (ns : Table Node 511) {q : List NodeIdx} (h : q ≠ []) :
    ∃ x ∈ q, extractMin ns q = some (x, q.erase x) := by
  obtain ⟨k, q, rfl⟩ := List.exists_cons_of_ne_nil h
  exact ⟨_, leastKey_mem ns k q, rfl⟩

/-- A round on a queue of two entries or more: two of them leave it, and the node over them comes in (R110). -/
theorem mergeOnce_eq {b : Builder} (h : 2 ≤ b.queue.length) :
    ∃ x ∈ b.queue, ∃ y ∈ b.queue.erase x, ∃ w,
      mergeOnce b = ⟨b.nodes.write b.count (internalNode x y w), b.count + 1,
        (b.queue.erase x).erase y ++ [BitVec.ofNat 9 b.count]⟩ := by
  obtain ⟨x, hx, hex⟩ := extractMin_of_ne_nil b.nodes (q := b.queue) (by rintro hq; simp [hq] at h)
  have hlen : (b.queue.erase x).length = b.queue.length - 1 := List.length_erase_of_mem hx
  obtain ⟨y, hy, hey⟩ := extractMin_of_ne_nil b.nodes (q := b.queue.erase x)
    (by rintro hq; rw [hq, List.length_nil] at hlen; omega)
  exact ⟨x, hx, y, hy, (nodeAt b.nodes x).weight + (nodeAt b.nodes y).weight, by simp only [mergeOnce, hex, hey]⟩

theorem length_queue_mergeOnce {b : Builder} (h : 2 ≤ b.queue.length) :
    (mergeOnce b).queue.length + 1 = b.queue.length := by
  obtain ⟨x, hx, y, hy, w, hmerge⟩ := mergeOnce_eq h
  have hlen := List.length_erase_of_mem hx
  have hlen' := List.length_erase_of_mem hy
  rw [hmerge, List.length_append, List.length_singleton]
  omega

theorem length_queue_mergeAll (k : Nat) {b : Builder} (h : b.queue.length = k + 1) :
    (mergeAll k b).queue.length = 1 := by
  induction k generalizing b with
  | zero => exact h
  | succ k ih =>
    have hone := length_queue_mergeOnce (b := b) (by omega)
    exact ih (by omega)

theorem buildTree_eq_some (ns : Table Node 511) {f : Table Word 256} (h : leafNodes f ≠ []) :
    ∃ r, (mergeAll ((leafNodes f).length - 1) (startBuilder ns (leafNodes f))).queue = [r]
      ∧ buildTree ns f = some (mergeAll ((leafNodes f).length - 1) (startBuilder ns (leafNodes f)), r) := by
  have hpos := List.length_pos_iff.mpr h
  have hstart : (startBuilder ns (leafNodes f)).queue.length = (leafNodes f).length - 1 + 1 := by
    simp only [startBuilder, List.length_map, List.length_range]
    omega
  obtain ⟨r, hr⟩ := List.length_eq_one_iff.mp (length_queue_mergeAll _ hstart)
  exact ⟨r, hr, by simp only [buildTree, hr]⟩

theorem built_isSome {t : Tables} (h : leafNodes t.freq ≠ []) : ∃ u, t.built = some u := by
  obtain ⟨r, -, hbuild⟩ := buildTree_eq_some t.node h
  exact ⟨_, by simp only [Tables.built, hbuild]; rfl⟩

/-- BUILD has one Leaf for each positive counter (R51, R110). -/
theorem length_leavesOf (s : Nat) (ws : List Word) : (leavesOf s ws).length = (ws.filter (· != 0)).length := by
  induction ws generalizing s with
  | nil => rfl
  | cons w ws ih =>
    rw [leavesOf, List.filter_cons]
    by_cases hw : w = 0
    · simpa [hw] using ih (s + 1)
    · rw [if_neg hw, if_pos (bne_iff_ne.mpr hw), List.length_cons, List.length_cons, ih]

theorem length_leafNodes (f : Table Word 256) : (leafNodes f).length = countSymbols f := length_leavesOf 0 f.cells

/-- A Leaf's symbol has a positive counter, and every such symbol has its Leaf (R110). -/
theorem mem_map_sym_leafNodes {f : Table Word 256} {b : Byte} :
    b ∈ (leafNodes f).map Node.sym ↔ f.read b.toNat ≠ 0 := by
  rw [leafNodes_eq, List.map_filterMap, List.mem_filterMap]
  constructor
  · rintro ⟨k, hk, hsome⟩
    have hk : k < 256 := List.mem_range.mp hk
    obtain ⟨hread, rfl⟩ : f.read k ≠ 0 ∧ BitVec.ofNat 8 k = b := by simpa [leafNode] using hsome
    rwa [BitVec.toNat_ofNat, Nat.mod_eq_of_lt hk]
  · intro hb
    exact ⟨b.toNat, List.mem_range.mpr b.isLt, by simpa [leafNode] using hb⟩

end Sys2Proof.Machine
end

section
/-!
PROOF. The counters of a text (R100, R101): each is its byte's number of occurrences, and BUILD's Leaves are the bytes
of the text.
-/
namespace Sys2Proof.Machine

/-- The counter of a byte is the number of its occurrences, which the text's length keeps below `2^32` (R100). -/
theorem toNat_read_countBytes {bs : List Byte} (hlen : bs.length < 2 ^ 32) (b : Byte) :
    ((countBytes bs).read b.toNat).toNat = bs.count b := by
  have hfold : ∀ (bs : List Byte) (f : Table Word 256), (f.read b.toNat).toNat + bs.length < 2 ^ 32 →
      ((bs.foldl (fun f c => f.write c.toNat (f.read c.toNat + 1)) f).read b.toNat).toNat
        = (f.read b.toNat).toNat + bs.count b := by
    intro bs
    induction bs with
    | nil => intro f _; rfl
    | cons c bs ih =>
      intro f hf
      rw [List.length_cons] at hf
      rw [List.foldl_cons, List.count_cons]
      have hread := Table.read_write f c.toNat b.toNat (f.read c.toNat + 1) c.isLt
      by_cases hcb : c = b
      · subst hcb
        have hone : ((f.write c.toNat (f.read c.toNat + 1)).read c.toNat).toNat = (f.read c.toNat).toNat + 1 := by
          rw [hread, if_pos rfl, BitVec.toNat_add]
          exact Nat.mod_eq_of_lt (by change _ + 1 < _; omega)
        rw [ih _ (by omega), hone, if_pos (by simp)]
        omega
      · rw [if_neg fun h => hcb (BitVec.eq_of_toNat_eq h)] at hread
        rw [ih _ (by rw [hread]; omega), hread, if_neg (by simpa using hcb), Nat.add_zero]
  have hzero : ((Table.fill 256 (0 : Word)).read b.toNat).toNat = 0 := by rw [Table.read_fill _ _ _ b.isLt]; rfl
  have h := hfold bs (Table.fill 256 0) (by rwa [hzero, Nat.zero_add])
  rwa [hzero, Nat.zero_add] at h

/-- A counter is positive exactly for the bytes of the text (R101). -/
theorem read_countBytes_ne_zero {bs : List Byte} (hlen : bs.length < 2 ^ 32) {b : Byte} :
    (countBytes bs).read b.toNat ≠ 0 ↔ b ∈ bs := by
  rw [← List.count_pos_iff, ← toNat_read_countBytes hlen, Nat.pos_iff_ne_zero]
  exact not_congr (BitVec.toNat_inj (y := (0 : Word))).symm

/-- BUILD's Leaves after a count step are those of the bytes of the text (R101, R110). -/
theorem mem_sym_leafNodes_countBytes {bs : List Byte} (hlen : bs.length < 2 ^ 32) {b : Byte} :
    b ∈ (leafNodes (countBytes bs)).map Node.sym ↔ b ∈ bs :=
  mem_map_sym_leafNodes.trans (read_countBytes_ne_zero hlen)

end Sys2Proof.Machine
end

section
/-!
PROOF. When a command is refused and when it faults (R79, R86; log 8): a command with a meaning is never refused, and
only a store or a table that no command leaves makes one fault.
-/
namespace Sys2Proof.Machine

/-- What command `i` does once its checks have passed. -/
def bodyOf (i : Instr) (s : State) : Host.Outcome State Fault Refusal :=
  match i with
  | .count _ => countBody i s
  | .build _ => buildBody s
  | .gencode _ => gencodeBody s
  | .encode _ => encodeBody i s
  | .serialize _ => serializeBody i s
  | .deserialize _ => deserializeBody i s
  | .decode _ => decodeBody i s
  | .compress _ => compressBody i s
  | .decompress _ => decompressBody i s

theorem exec_eq_checked (i : Instr) (s : State) : exec i s = checked i s (bodyOf i s) := by
  cases i <;> rfl

/-- A command past its checks is its body. -/
theorem exec_ready {i : Instr} {s : State} (h : Ready i s) : exec i s = bodyOf i s :=
  (exec_eq_checked i s).trans (checked_body _ h.1 h.2)

/-- The stores and tables on which a body faults (log 8). -/
def Corrupt (i : Instr) (s : State) : Prop :=
  match i with
  | .build _ => s.tabs.built = none
  | .gencode _ | .serialize _ => treeLeaves s.tabs.node s.tabs.root = none
  | .compress _ => ∀ tb, (s.tabs.counted (srcBytes s)).built = some tb → treeLeaves tb.node tb.root = none
  | .count _ | .encode _ | .deserialize _ | .decode _ | .decompress _ => False

/-- A body answers a next state or, on a corrupt store or table, faults. -/
theorem bodyOf_cases (i : Instr) (s : State) :
    (∃ t, bodyOf i s = .next t) ∨ (bodyOf i s = .fault .corruptStore ∧ Corrupt i s) := by
  cases i with
  | count f => simp only [bodyOf, countBody]; split <;> exact .inl ⟨_, rfl⟩
  | build f =>
    simp only [bodyOf, buildBody]
    split
    next hnone => exact .inr ⟨rfl, hnone⟩
    next => exact .inl ⟨_, rfl⟩
  | gencode f =>
    simp only [bodyOf, gencodeBody]
    split
    next hnone => exact .inr ⟨rfl, hnone⟩
    next => exact .inl ⟨_, rfl⟩
  | encode f => simp only [bodyOf, encodeBody]; split <;> exact .inl ⟨_, rfl⟩
  | serialize f =>
    simp only [bodyOf, serializeBody]
    split
    next hnone => exact .inr ⟨rfl, hnone⟩
    next => split <;> exact .inl ⟨_, rfl⟩
  | deserialize f => simp only [bodyOf, deserializeBody]; split <;> exact .inl ⟨_, rfl⟩
  | decode f => simp only [bodyOf, decodeBody]; split <;> exact .inl ⟨_, rfl⟩
  | compress f =>
    simp only [bodyOf, compressBody]
    split
    next hnone => exact .inr ⟨rfl, fun tb htb => by cases hnone.symm.trans htb⟩
    next tb hsome =>
      split
      next hnone => exact .inr ⟨rfl, fun tb' htb => by cases hsome.symm.trans htb; exact hnone⟩
      next => exact .inl ⟨_, rfl⟩
  | decompress f => simp only [bodyOf, decompressBody]; split <;> exact .inl ⟨_, rfl⟩

/-- A command is refused exactly when it has no meaning (R79, R86). -/
theorem exec_refused_iff {i : Instr} {s : State} {r : Refusal} : exec i s = .refused r ↔ noMeaning i s = some r := by
  rw [exec_eq_checked]
  refine ⟨fun h => ?_, fun h => checked_refused _ h⟩
  obtain ⟨r', hn, hc⟩ | ⟨e, -, -, hc⟩ | ⟨-, -, hc⟩ := checked_cases i s (bodyOf i s)
  · cases hc.symm.trans h
    exact hn
  · cases hc.symm.trans h
  · obtain ⟨t, hb⟩ | ⟨hb, -⟩ := bodyOf_cases i s <;> cases (hb.symm.trans hc.symm).trans h

/-- A command faults only past its checks, on a corrupt store or table. -/
theorem exec_fault {i : Instr} {s : State} {r : Fault} (h : exec i s = .fault r) :
    upfront i s = none ∧ Corrupt i s := by
  rw [exec_eq_checked] at h
  obtain ⟨r', -, hc⟩ | ⟨e, -, -, hc⟩ | ⟨-, hu, hc⟩ := checked_cases i s (bodyOf i s)
  · cases hc.symm.trans h
  · cases hc.symm.trans h
  · obtain ⟨t, hb⟩ | ⟨-, hcorrupt⟩ := bodyOf_cases i s
    · cases (hb.symm.trans hc.symm).trans h
    · exact ⟨hu, hcorrupt⟩

/-! What the checks have made sure of (R182). -/

theorem check_passed {i : Instr} {s : State} {c : Bool × Err} (h : upfront i s = none) (hc : c ∈ upfrontChecks i s) :
    c.1 = false :=
  firstFailure_eq_none.mp h c hc

theorem valid_of_upfront {i : Instr} {s : State} {valid : Bool} {x : Word} (h : upfront i s = none)
    (hc : sequenceCheck valid x ∈ upfrontChecks i s) : valid = true := by
  simpa [sequenceCheck] using check_passed h hc

theorem nsym_ne_zero_of_upfront {f : BitFmt} {s : State} (h : upfront (.build f) s = none) : s.tabs.nsym ≠ 0 := by
  have hc : emptyCheck (s.tabs.nsym == 0) 0 ∈ upfrontChecks (.build f) s := by simp [upfrontChecks]
  simpa [emptyCheck] using check_passed h hc

theorem srcLen_pos_of_upfront {i : Instr} {s : State} (h : upfront i s = none)
    (hc : emptyCheck (s.cfg.bufs.srcLen == 0) 0 ∈ upfrontChecks i s) : 0 < s.cfg.bufs.srcLen.toNat := by
  have hne : s.cfg.bufs.srcLen ≠ 0 := by simpa [emptyCheck] using check_passed h hc
  exact Nat.pos_of_ne_zero fun hzero => hne (BitVec.eq_of_toNat_eq hzero)

/-! The commands that may fault (log 8). -/

theorem length_srcBytes (s : State) : (srcBytes s).length = s.cfg.bufs.srcLen.toNat := by
  simp [srcBytes, readBytes, srcText]

/-- The count, build and code steps of COMPRESS succeed on every text but the empty one (R170). -/
theorem compress_steps {f : BitFmt} {s : State} (hu : upfront (.compress f) s = none) :
    ∃ tb ls, (s.tabs.counted (srcBytes s)).built = some tb ∧ treeLeaves tb.node tb.root = some ls := by
  have hpos : 0 < (srcBytes s).length := by
    rw [length_srcBytes]
    exact srcLen_pos_of_upfront hu (by simp [upfrontChecks])
  have hne : leafNodes (countBytes (srcBytes s)) ≠ [] := by
    obtain ⟨b, hb⟩ := List.exists_mem_of_length_pos hpos
    have hsym := (mem_sym_leafNodes_countBytes (length_srcBytes_lt s)).mpr hb
    exact fun hnil => by simp [hnil] at hsym
  obtain ⟨tb, htb⟩ := built_isSome (t := s.tabs.counted (srcBytes s)) hne
  obtain ⟨b, r, -, rfl⟩ := built_eq_some htb
  have htree := (built_ok htb).2
  obtain ⟨ls, hls⟩ := Option.isSome_iff_exists.mp (by simpa [treeOk] using htree)
  exact ⟨_, ls, htb, hls⟩

/-- COMPRESS never faults: it makes the structures it walks itself (R170). -/
theorem exec_compress_ne_fault (f : BitFmt) (s : State) (r : Fault) : exec (.compress f) s ≠ .fault r := by
  intro h
  obtain ⟨hu, hcorrupt⟩ := exec_fault h
  obtain ⟨tb, ls, htb, hls⟩ := compress_steps hu
  cases hls.symm.trans (hcorrupt tb htb)

theorem treeLeaves_ne_none {t : Tables} (htree : treeOk t = true) (hv : t.treeV = true) :
    treeLeaves t.node t.root ≠ none := by
  have hsome : (treeLeaves t.node t.root).isSome = true := by simpa [treeOk, hv] using htree
  exact Option.isSome_iff_ne_none.mp hsome

/-- A valid table with a positive `nsym` that counts its symbols has a tree (R110). -/
theorem built_ne_none {t : Tables} (hfreq : freqOk t = true) (hv : t.freqV = true) (hnsym : t.nsym ≠ 0) :
    t.built ≠ none := by
  have hcount : t.nsym.toNat = (leafNodes t.freq).length := by
    simp only [freqOk, hv, Bool.not_true, Bool.false_or, Bool.and_eq_true, beq_iff_eq] at hfreq
    rw [length_leafNodes]
    exact hfreq.2
  have hne : leafNodes t.freq ≠ [] := by
    intro hnil
    rw [hnil, List.length_nil] at hcount
    exact hnsym (BitVec.eq_of_toNat_eq hcount)
  obtain ⟨u, hu⟩ := built_isSome hne
  simp [hu]

/-- No command faults on a consistent table and tree (log 8). -/
theorem exec_ne_fault {s : State} (hfreq : freqOk s.tabs = true) (htree : treeOk s.tabs = true) (i : Instr)
    (r : Fault) : exec i s ≠ .fault r := by
  intro h
  obtain ⟨hu, hcorrupt⟩ := exec_fault h
  cases i with
  | build f =>
    have hv := valid_of_upfront hu (x := 0) (List.mem_cons_self (a := sequenceCheck s.tabs.freqV 0))
    exact built_ne_none hfreq hv (nsym_ne_zero_of_upfront hu) hcorrupt
  | gencode f =>
    have hv := valid_of_upfront hu (x := 1) (List.mem_cons_self (a := sequenceCheck s.tabs.treeV 1))
    exact treeLeaves_ne_none htree hv hcorrupt
  | serialize f =>
    have hv := valid_of_upfront hu (x := 1) (List.mem_cons_self (a := sequenceCheck s.tabs.treeV 1))
    exact treeLeaves_ne_none htree hv hcorrupt
  | compress f => exact exec_compress_ne_fault f s r h
  | count f | encode f | deserialize f | decode f | decompress f => exact hcorrupt

/-- A command with a meaning, on a consistent table and tree, answers a next state (R80). -/
theorem exec_next {s : State} (hfreq : freqOk s.tabs = true) (htree : treeOk s.tabs = true) {i : Instr}
    (hn : noMeaning i s = none) : ∃ t, exec i s = .next t := by
  cases h : exec i s with
  | next t => exact ⟨t, rfl⟩
  | fault r => exact absurd h (exec_ne_fault hfreq htree i r)
  | refused r => rw [exec_refused_iff, hn] at h; cases h

theorem inv_iff {s : State} : inv s = true ↔ s.mem.wf = true ∧ regsOk s = true ∧ freqOk s.tabs = true
    ∧ codeOk s.tabs = true ∧ storeOk s.tabs = true ∧ treeOk s.tabs = true := by
  simp only [inv, Bool.and_eq_true, and_assoc]

/-- An ending leaves the engine idle with `DONE_IP` set (R189, R190). -/
theorem EndsWith.idle_done {i : Instr} {tb : Tables} {s t : State} (h : EndsWith i tb s t) :
    t.engine = .idle ∧ t.regs.doneIp = true := by
  obtain ⟨_, _, _, _, rfl⟩ | ⟨_, rfl⟩ := h <;> exact ⟨rfl, rfl⟩

theorem completeRunning_ne_fault {s : State} (hfreq : freqOk s.tabs = true) (htree : treeOk s.tabs = true)
    (r : Fault) : completeRunning s ≠ .fault r := by
  obtain ⟨-, hc⟩ | ⟨c, i, -, -, hc⟩ | ⟨c, x, -, -, hc⟩ := completeRunning_cases s <;> rw [hc]
  · nofun
  · exact exec_ne_fault hfreq htree i r
  · nofun

theorem resetNow_ne_fault (s : State) (r : Fault) : resetNow s ≠ .fault r := by
  obtain ⟨_, hc⟩ | hc := resetNow_cases s <;> rw [hc] <;> nofun

theorem writeReg_ne_fault (n : RegName) (v : Word) (s : State) (r : Fault) : writeReg n v s ≠ .fault r := by
  obtain ⟨-, -, hc⟩ | ⟨-, -, hc⟩ | ⟨-, hc⟩ | ⟨-, hc⟩ | ⟨-, -, -, hc⟩ := writeReg_cases n v s <;> rw [hc]
  · exact resetNow_ne_fault s r
  all_goals nofun

theorem hostRegWrite_ne_fault (a : RegAccess) (v : Word) (s : State) (r : Fault) : hostRegWrite a v s ≠ .fault r := by
  obtain ⟨_, -, hc⟩ | ⟨-, -, hc⟩ | ⟨n, -, -, hc⟩ := hostRegWrite_cases a v s <;> rw [hc]
  · nofun
  · nofun
  · exact writeReg_ne_fault n v s r

/-- Settles O59: only a command's body faults, and on a consistent table and tree none does. -/
theorem noFaultUnderTheInvariant : Obligations.NoFaultUnderTheInvariant := by
  intro s r hinv
  obtain ⟨-, -, hfreq, -, -, htree⟩ := inv_iff.mp hinv
  cases hev : s.events with
  | nil =>
    rw [step_no_event hev]
    exact completeRunning_ne_fault hfreq htree r
  | cons ev es =>
    rw [step_event hev]
    cases ev with
    | regRead a =>
      obtain ⟨_, -, hc⟩ | ⟨-, -, hc⟩ | ⟨_, -, -, hc⟩ := hostRegRead_cases a { s with events := es } <;>
        simp only [hc] <;> nofun
    | regWrite a v => exact hostRegWrite_ne_fault a v _ r
    | memRead a =>
      obtain ⟨v, hc⟩ := hostMemRead_cases a { s with events := es }
      simp only [hc]
      nofun
    | memWrite a v =>
      obtain ⟨-, hc⟩ | ⟨-, hc⟩ := hostMemWrite_cases a v { s with events := es } <;> simp only [hc] <;> nofun
    | irqAccept => nofun
    | complete => exact completeRunning_ne_fault (s := { s with events := es }) hfreq htree r
    | hwReset => exact resetNow_ne_fault _ r

/-- Settles O60: the completing step runs the command, which neither faults nor is refused, or ends an illegal word;
either ending is idle with `DONE_IP` set. -/
theorem launchedCommandsComplete : Obligations.LaunchedCommandsComplete := by
  intro s c hinv hbusy hev hmeaning
  obtain ⟨-, -, hfreq, -, -, htree⟩ := inv_iff.mp hinv
  rw [step_no_event hev]
  obtain ⟨hidle, -⟩ | ⟨c', i, hbusy', hdec, hc⟩ | ⟨c', x, -, -, hc⟩ := completeRunning_cases s
  · cases hidle.symm.trans hbusy
  · cases hbusy'.symm.trans hbusy
    obtain ⟨t, ht⟩ := exec_next hfreq htree (hmeaning i hdec)
    obtain ⟨tb, -, hend⟩ := exec_ends ht
    exact ⟨t, hc.trans ht, hend.idle_done⟩
  · exact ⟨_, hc, rfl, rfl⟩

end Sys2Proof.Machine
end

section
/-!
PROOF. Ranges (R71), and which commands have no meaning (R79, R86): two ranges overlap where they share a byte.
-/
namespace Sys2Proof.Machine

theorem Range.has_iff {r : Range} {a : Nat} : r.has a = true ↔ r.base ≤ a ∧ a < r.base + r.len := decide_eq_true_iff

/-- Two ranges meet exactly when they share a byte (R86). -/
theorem Range.meets_iff {r q : Range} : r.meets q = true ↔ ∃ a, r.has a = true ∧ q.has a = true := by
  simp only [Range.meets, Range.has_iff, decide_eq_true_eq]
  constructor
  · rintro ⟨hr, hq, hrq, hqr⟩
    exact ⟨max r.base q.base, by omega⟩
  · rintro ⟨a, hr, hq⟩
    omega

theorem inRanges_cons {r : Range} {rs : List Range} {a : Nat} :
    inRanges (r :: rs) a = true ↔ r.has a = true ∨ inRanges rs a = true := Bool.or_eq_true_iff

theorem inRanges_cons_eq_false {r : Range} {rs : List Range} {a : Nat} :
    inRanges (r :: rs) a = false ↔ r.has a = false ∧ inRanges rs a = false := Bool.or_eq_false_iff

theorem has_of_has_shorter {w : Range} {n a : Nat} (hn : n ≤ w.len) (h : Range.has ⟨w.base, n⟩ a = true) :
    w.has a = true := by
  rw [Range.has_iff] at h ⊢
  simp only at h
  omega

theorem has_of_has_first {r : Range} {m a : Nat} (h : (r.first m).has a = true) : r.has a = true := by
  rw [Range.has_iff] at h ⊢
  simp only [Range.first] at h
  omega

/-- Only COMPRESS has two write ranges (R71). -/
theorem overlapping_iff (i : Instr) (c : LaunchCopy) :
    overlapping i c = true ↔ (∃ w ∈ writeRanges i c, ∃ r ∈ readRanges i c, w.meets r = true)
      ∨ (∃ f, i = .compress f) ∧ (dstRange c).meets (toutRange c) = true := by
  cases i <;> simp [overlapping, writeRanges, readRanges]

theorem noMeaning_overlap_iff {i : Instr} {s : State} : noMeaning i s = some .overlap ↔ overlapping i s.cfg = true := by
  unfold noMeaning
  split
  next h => simp [h]
  next h => split <;> simp [h]

/-- Settles O19: the refusal is `noMeaning`'s, its first test overlap, its second memory with side effects. -/
theorem noMeaningIsRefused : Obligations.NoMeaningIsRefused := by
  intro i s
  refine ⟨?_, fun ⟨a, hvol, hin⟩ => ?_⟩
  · rw [exec_refused_iff, noMeaning_overlap_iff, overlapping_iff]
    simp only [Range.meets_iff]
    constructor
    · rintro (⟨w, hw, r, hr, a, hwa, hra⟩ | ⟨⟨f, hi⟩, a, hd, ht⟩)
      · exact .inl ⟨a, w, r, hw, hr, hwa, hra⟩
      · exact .inr ⟨a, f, hi, hd, ht⟩
    · rintro (⟨a, w, r, hw, hr, hwa, hra⟩ | ⟨a, f, hi, hd, ht⟩)
      · exact .inl ⟨w, hw, r, hr, a, hwa, hra⟩
      · exact .inr ⟨⟨f, hi⟩, a, hd, ht⟩
  · have hany : (s.platform.volatile.any fun a => inRanges (readRanges i s.cfg ++ writeRanges i s.cfg) a) = true :=
      List.any_eq_true.mpr ⟨a, hvol, hin⟩
    simp only [exec_refused_iff, noMeaning, hany, if_true]
    split
    · exact ⟨_, rfl⟩
    · exact ⟨_, rfl⟩

end Sys2Proof.Machine
end

section
/-!
PROOF. The step runs the decoded command (R80, R91), and what the host can do while a command runs or before its
completion is observed (R81, R85, R220).
-/
namespace Sys2Proof.Machine

/-! The completing step (R80). -/

/-- Decoding the word of a command gives the command (R90, R92). -/
theorem decode_encode (i : Instr) : decode (encode i) = .ok i := by
  cases i with | _ f => cases f <;> rfl

theorem completeRunning_of_decode {s : State} {c : LaunchCopy} {i : Instr} (hbusy : s.engine = .busy c)
    (hdec : decode c.cmd = .ok i) : completeRunning s = exec i s := by
  simp only [completeRunning, hbusy, hdec]

/-- Settles O4: the completing step is `exec` of the held word, and the word placed is the encoded one. -/
theorem stepRunsTheDecodedCommand : Obligations.StepRunsTheDecodedCommand := by
  refine ⟨fun s c i es hbusy hdec => ⟨fun hev => ?_, fun hev => ?_⟩, fun s i => ?_⟩
  · rw [step_no_event hev]
    exact completeRunning_of_decode hbusy hdec
  · rw [step_event hev]
    exact completeRunning_of_decode (s := { s with events := es }) hbusy hdec
  · have hword : BitVec.ofNat 32 ((encode i).toNat % 2 ^ 32) = encode i := by
      rw [Nat.mod_eq_of_lt (encode i).isLt, BitVec.ofNat_toNat, BitVec.setWidth_eq]
    have hlaunch : s.withFetchWord 32 (encode i).toNat
        = { launch (encode i) s with events := .complete :: s.events } := by rw [State.withFetchWord, hword]
    rw [hlaunch, step_event rfl]
    exact completeRunning_of_decode (s := launch (encode i) s) rfl (decode_encode i)

/-! The windows of the commands that run or are unobserved (R81, R220). -/

theorem mem_openCopies {s : State} {c : LaunchCopy} : c ∈ openCopies s ↔ s.engine = .busy c ∨ c ∈ s.unseen := by
  cases he : s.engine <;> simp [openCopies, runningCopies, he, eq_comm]

theorem inRanges_copyWrites {c : LaunchCopy} {a : Nat} :
    inRanges (copyWrites c) a = true ↔ ∃ i, decode c.cmd = .ok i ∧ inRanges (writeRanges i c) a = true := by
  unfold copyWrites
  cases decode c.cmd <;> simp [inRanges]

theorem inRanges_copyRanges {c : LaunchCopy} {a : Nat} :
    inRanges (copyRanges c) a = true
      ↔ ∃ i, decode c.cmd = .ok i ∧ inRanges (readRanges i c ++ writeRanges i c) a = true := by
  unfold copyRanges
  cases decode c.cmd <;> simp [inRanges]

/-- A completion is unobserved at first, by the copy its command ran on (R81, R220). -/
theorem EndsWith.unseen {i : Instr} {tb : Tables} {s t : State} (h : EndsWith i tb s t) :
    t.unseen = s.cfg :: s.unseen := by
  obtain ⟨_, _, _, _, rfl⟩ | ⟨_, rfl⟩ := h <;> rfl

/-- Settles O52: an access outside the window reads or writes its byte alone, and the window is spelled out. -/
theorem hostMemoryAccessesAreBytewise : Obligations.HostMemoryAccessesAreBytewise := by
  refine ⟨fun s a x es => ⟨fun hev => ?read, fun hev hout => ?write, fun hev hin => ?refuse, fun hev => ?irq⟩,
    fun s a => ⟨?writes, ?ranges⟩, fun i s t h => ?unseen⟩
  case read =>
    rw [step_event hev]
    by_cases hin : inRanges (openWrites s) a.toNat = true
    · refine ⟨_, if_pos hin, fun hout => absurd (hin.symm.trans hout) nofun, ?_⟩
      rw [BitVec.toNat_setWidth_of_le (by decide)]
      exact BitVec.isLt _
    · refine ⟨_, if_neg hin, fun _ => BitVec.toNat_setWidth_of_le (by decide), ?_⟩
      rw [BitVec.toNat_setWidth_of_le (by decide)]
      exact BitVec.isLt _
  case write =>
    rw [step_event hev]
    exact ⟨_, if_neg (Bool.eq_false_iff.mp hout), Memory.read_write_same .., fun b hb =>
      Memory.read_write_ne _ _ (Ne.symm hb)⟩
  case refuse =>
    rw [step_event hev]
    exact if_pos hin
  case irq =>
    rw [step_event hev]
    obtain ⟨hline, hc⟩ | ⟨hline, hc⟩ := hostIrqAccept_cases { s with events := es }
    · rw [if_pos (show irqLine s = true from hline)]
      exact hc
    · rw [if_neg (Bool.eq_false_iff.mp (show irqLine s = false from hline))]
      exact hc
  case writes =>
    simp only [inRanges_openWrites, mem_openCopies, inRanges_copyWrites, exists_and_left]
  case ranges =>
    simp only [inRanges_openRanges, mem_openCopies, inRanges_copyRanges, exists_and_left]
  case unseen =>
    obtain ⟨tb, -, hend⟩ := exec_ends h
    exact hend.unseen

/-! While a command runs (R85, R220). -/

/-- The access that reaches a register is the aligned word access to it (R22, R23). -/
theorem eq_accessTo {base : Nat} {a : RegAccess} {r : RegName} (ha : accessRefusal base a = none)
    (hr : regAt (a.offset base) = some r) : a = accessTo base r := by
  cases hin : a.inBlock base with
  | false => simp [accessRefusal, hin] at ha
  | true =>
    obtain ⟨hlo, hhi⟩ : base ≤ a.addr ∧ a.addr < base + 4096 := of_decide_eq_true hin
    rw [accessRefusal_of_inBlock hlo hhi] at ha
    split at ha
    next hword =>
      obtain ⟨hbytes, haligned⟩ := hword
      have hoff : r.offset = a.addr - base := offset_of_regAt haligned hr
      have haddr : a.addr = base + r.offset := by omega
      obtain ⟨addr, bytes⟩ := a
      cases hbytes
      cases haddr
      rfl
    next => cases ha

/-- A host step while a command runs, no reset: the interrupt registers, memory and the host's own records apart, the
state is as before (R46, R85). -/
def OnlyHostParts (s t : State) : Prop :=
  ∃ (doneIe errIe doneIp errIp : Bool) (m : Memory) (un : List LaunchCopy) (es : List Event) (sn : List Word) (n : Nat),
    t = { s with
      regs := { s.regs with doneIe := doneIe, errIe := errIe, doneIp := doneIp, errIp := errIp }
      mem := m, unseen := un, events := es, seen := sn, drawn := n }

theorem OnlyHostParts.refl (s : State) : OnlyHostParts s s := ⟨_, _, _, _, _, _, _, _, _, rfl⟩

theorem observe_onlyHostParts (s : State) : OnlyHostParts s (observe s) := ⟨_, _, _, _, _, _, _, _, _, rfl⟩

theorem sawWord_onlyHostParts {s t : State} (v : Word) (h : OnlyHostParts s t) : OnlyHostParts s (sawWord v t) := by
  obtain ⟨_, _, _, _, _, _, _, _, _, rfl⟩ := h
  exact ⟨_, _, _, _, _, _, _, _, _, rfl⟩

theorem hostRegRead_onlyHostParts {a : RegAccess} {s t : State} (h : hostRegRead a s = .next t) :
    OnlyHostParts s t := by
  obtain ⟨r, -, hc⟩ | ⟨-, -, hc⟩ | ⟨r, -, -, hc⟩ := hostRegRead_cases a s <;> rw [hc] at h <;> cases h
  · exact sawWord_onlyHostParts _ (.refl s)
  · obtain ⟨-, -, ho⟩ | ⟨-, ho⟩ := observedBy_cases r s <;> rw [ho]
    · exact sawWord_onlyHostParts _ (observe_onlyHostParts s)
    · exact sawWord_onlyHostParts _ (.refl s)

theorem writeReg_onlyHostParts {r : RegName} {v : Word} {s t : State} {c : LaunchCopy} (hbusy : s.engine = .busy c)
    (hreset : ¬ (r = .ctrl ∧ v.getLsbD 0 = true)) (h : writeReg r v s = .next t) : OnlyHostParts s t := by
  obtain ⟨hr, hv, -⟩ | ⟨-, -, hc⟩ | ⟨-, hc⟩ | ⟨-, hc⟩ | ⟨hctrl, hirqEn, hirqStat, -⟩ := writeReg_cases r v s
  · exact absurd ⟨hr, hv⟩ hreset
  · cases hc.symm.trans h
    exact .refl s
  · cases hc.symm.trans h
    exact ⟨_, _, _, _, _, _, _, _, _, rfl⟩
  · cases hc.symm.trans h
    exact ⟨_, _, _, _, _, _, _, _, _, rfl⟩
  · cases (writeReg_busy v hbusy ⟨hctrl, hirqEn, hirqStat⟩).symm.trans h
    exact .refl s

theorem hostRegWrite_onlyHostParts {a : RegAccess} {v : Word} {s t : State} {c : LaunchCopy}
    (hbusy : s.engine = .busy c) (hreset : v.getLsbD 0 = true → a ≠ accessTo s.platform.regBase .ctrl)
    (h : hostRegWrite a v s = .next t) : OnlyHostParts s t := by
  obtain ⟨r, -, hc⟩ | ⟨-, -, hc⟩ | ⟨r, ha, hr, hc⟩ := hostRegWrite_cases a v s <;> rw [hc] at h
  · cases h
  · cases h
    exact .refl s
  · exact writeReg_onlyHostParts hbusy (fun ⟨hctrl, hv⟩ => hreset hv (hctrl ▸ eq_accessTo ha hr)) h

/-- Settles O51: a host step that is no reset changes the host's parts alone, and the running command's ranges are in
the window. -/
theorem runningCommandIsFixed : Obligations.RunningCommandIsFixed := by
  intro s c ev es hbusy hev
  refine ⟨fun t hcomplete hreset hctrl h => ?_, fun i a x hdec hwrite hin => ?_⟩
  · rw [step_event hev] at h
    have hparts : OnlyHostParts { s with events := es } t := by
      cases ev with
      | complete => exact absurd rfl hcomplete
      | hwReset => exact absurd rfl hreset
      | regRead a => exact hostRegRead_onlyHostParts h
      | regWrite a v =>
        exact hostRegWrite_onlyHostParts (s := { s with events := es }) hbusy
          (fun hv ha => hctrl v hv (by rw [ha])) h
      | memRead a =>
        obtain ⟨v, hc⟩ := hostMemRead_cases a { s with events := es }
        cases hc.symm.trans h
        exact sawWord_onlyHostParts v (.refl _)
      | memWrite a v =>
        obtain ⟨-, hc⟩ | ⟨-, hc⟩ := hostMemWrite_cases a v { s with events := es } <;> cases hc.symm.trans h
        exact ⟨_, _, _, _, _, _, _, _, _, rfl⟩
      | irqAccept =>
        obtain ⟨-, hc⟩ | ⟨-, hc⟩ := hostIrqAccept_cases { s with events := es } <;> cases hc.symm.trans h
        · exact observe_onlyHostParts _
        · exact .refl _
    obtain ⟨_, _, _, _, _, _, _, _, _, rfl⟩ := hparts
    exact ⟨hbusy, rfl, rfl, rfl, rfl, ⟨rfl, rfl, rfl⟩, rfl, rfl⟩
  · subst hwrite
    rw [step_event hev]
    refine if_pos ?_
    exact inRanges_openRanges.mpr ⟨c, mem_openCopies.mpr (.inl hbusy), inRanges_copyRanges.mpr ⟨i, hdec, hin⟩⟩

end Sys2Proof.Machine
end

section
/-!
PROOF. Streams in memory (R76, R77, R89): where each bit of a written stream stands, and that it reads back.
-/
namespace Sys2Proof.Machine

/-! Packed bytes (R77). -/

/-- Bit `r` of the group is bit `7 - r` of the byte (R77). -/
theorem getLsbD_packedByte (s : BitString) (q : Nat) {r : Nat} (hr : r < 8) :
    (packedByte s q).getLsbD (7 - r) = s.getD (8 * q + r) false := by
  have hbyte : packedByte s q = BitVec.ofNat 8 (msbFirst 8 fun r => s.getD (8 * q + r) false) := rfl
  rw [hbyte, BitVec.getLsbD_ofNat, decide_eq_true (by omega), Bool.true_and]
  exact testBit_msbFirst 8 _ hr

theorem length_streamImage (f : BitFmt) (bits : BitString) : (streamImage f bits).length = streamBytes f bits.length := by
  cases f <;> simp [streamImage, streamBytes]

/-- Bit `i` of a written packed stream, 0 past its end (R77). -/
theorem getLsbD_read_packed (m : Memory) (base : Nat) (bits : BitString) {i : Nat} (hi : i < 8 * ceil8 bits.length) :
    ((writeBytes m base (streamImage .packed bits)).read (base + i / 8)).getLsbD (7 - i % 8) = bits.getD i false := by
  have hq : i / 8 < (streamImage .packed bits).length := by
    rw [length_streamImage]
    exact Nat.div_lt_of_lt_mul hi
  rw [read_writeBytes_inside _ m base (i / 8) hq]
  simp only [streamImage, List.getElem_map, List.getElem_range]
  rw [getLsbD_packedByte _ _ (Nat.mod_lt i (by decide)), Nat.div_add_mod]

/-- Character `i` of a written ASCII stream (R76). -/
theorem read_ascii (m : Memory) (base : Nat) (bits : BitString) {i : Nat} (hi : i < bits.length) :
    (writeBytes m base (streamImage .ascii bits)).read (base + i) = bitChar bits[i] := by
  rw [read_writeBytes_inside _ m base i (by rwa [length_streamImage])]
  exact List.getElem_map ..

theorem lt_eight_mul_ceil8 {i n : Nat} (h : i < n) : i < 8 * ceil8 n := by
  rw [ceil8]
  omega

theorem readBit_ascii_of_read {m : Memory} {base i : Nat} {b : Bool} (h : m.read (base + i) = bitChar b) :
    readBit m base i .ascii = some b := by
  simp only [readBit, h]
  cases b <;> rfl

/-- A written stream reads back bit by bit (R89). -/
theorem readBits_streamImage (f : BitFmt) (m : Memory) (base : Nat) (bits : BitString) :
    readBits (writeBytes m base (streamImage f bits)) base bits.length f = bits.map some := by
  refine List.ext_getElem (by simp [readBits]) fun i hi hi' => ?_
  have hlt : i < bits.length := by simpa using hi'
  simp only [readBits, List.getElem_map, List.getElem_range]
  cases f with
  | ascii => exact readBit_ascii_of_read (read_ascii m base bits hlt)
  | packed =>
    simp only [readBit, getLsbD_read_packed m base bits (lt_eight_mul_ceil8 hlt)]
    rw [List.getD_eq_getElem _ _ hlt]

/-- Settles O33: the packed bits by `getLsbD_read_packed`, the characters by `read_ascii`. -/
theorem streamLayout : Obligations.StreamLayout := by
  refine ⟨fun m base bits => ⟨length_streamImage .packed bits, fun i hi => ?_, fun i hi hi' => ?_⟩,
    fun m m' base n h => ?_, fun m base bits => ⟨length_streamImage .ascii bits, fun i hi => read_ascii m base bits hi⟩,
    fun m base i => ?_⟩
  · rw [getLsbD_read_packed m base bits (lt_eight_mul_ceil8 hi)]
    exact List.getD_eq_getElem _ _ hi
  · rw [getLsbD_read_packed m base bits hi']
    exact List.getD_eq_default _ _ hi
  · refine List.map_congr_left fun i hi => ?_
    simp only [readBit, h i (List.mem_range.mp hi)]
  · simp only [readBit]
    split
    next h0 => simp [h0]
    next h0 =>
      split
      next h1 => simp [h1]
      next h1 => simp only [true_iff]; exact ⟨h0, h1⟩

/-- The bits of a stream depend on its bytes alone (R89). -/
theorem readBits_congr {m m' : Memory} {base n : Nat} {f : BitFmt}
    (h : ∀ j < streamBytes f n, m.read (base + j) = m'.read (base + j)) :
    readBits m base n f = readBits m' base n f := by
  refine List.map_congr_left fun i hi => ?_
  have hi := List.mem_range.mp hi
  cases f with
  | ascii => simp only [readBit, h i hi]
  | packed =>
    have hq : i / 8 < streamBytes .packed n := Nat.div_lt_of_lt_mul (lt_eight_mul_ceil8 hi)
    simp only [readBit, h _ hq]

theorem readBytes_congr {m m' : Memory} {base n : Nat} (h : ∀ j < n, m.read (base + j) = m'.read (base + j)) :
    readBytes m base n = readBytes m' base n :=
  List.map_congr_left fun j hj => h j (List.mem_range.mp hj)

end Sys2Proof.Machine
end

section
/-!
PROOF. The encode step (R125, R127) and ENCODE of a text whose bytes all have codes.
-/
namespace Sys2Proof.Machine

/-! How a command ends (R189, R190). -/

/-- A success, its tables, result registers and memory apart, leaves what R189 says. -/
theorem endsWell_complete (s : State) (tb : Tables) (d o q : Word) (m : Memory) :
    EndsWell s (complete { s with
      tabs := tb, regs := { s.regs with dstLen := d, toutLen := o, ratio := q }, mem := m }) :=
  ⟨rfl, rfl, ⟨rfl, rfl, rfl⟩, ⟨rfl, rfl, rfl, rfl, rfl, rfl⟩, rfl, rfl, rfl, rfl, rfl⟩

theorem endsInError_raiseFor (i : Instr) (e : Err) (s : State) (tb : Tables) :
    EndsInError e.code.num e.info s (raiseFor i e { s with tabs := tb }) :=
  ⟨rfl, rfl, ⟨rfl, rfl, rfl⟩, ⟨rfl, rfl, rfl, rfl, rfl, rfl⟩, rfl, rfl, rfl, rfl, rfl⟩

/-! Bus errors (R186). -/

/-- Fewer addresses, no more of them failing. -/
theorem failing_eq_nil_of_imp {s : State} {rs qs : List Range} (h : failing s qs = [])
    (hsub : ∀ a, inRanges rs a = true → inRanges qs a = true) : failing s rs = [] := by
  rw [List.eq_nil_iff_forall_not_mem] at h ⊢
  intro a ha
  obtain ⟨hbus, hin⟩ := mem_failing.mp ha
  exact h a (mem_failing.mpr ⟨hbus, hsub a hin⟩)

/-! The encode step (R125). -/

theorem encodeStream_eq_streamOf {code : Table BitString 256} {bs : List Byte} (h : ∀ b ∈ bs, code.read b.toNat ≠ [])
    (i : Nat) : encodeStream code bs i = .ok (streamOf code bs) := by
  induction bs generalizing i with
  | nil => rfl
  | cons b bs ih =>
    have hb : (code.read b.toNat).length ≠ 0 := fun hlen => h b List.mem_cons_self (List.length_eq_zero_iff.mp hlen)
    simp only [encodeStream, if_neg hb, ih (fun c hc => h c (List.mem_cons_of_mem b hc)) (i + 1)]
    rfl

section
variable {code : Table BitString 256} {bs : List Byte} (h : ∀ b ∈ bs, code.read b.toNat ≠ []) {f : BitFmt} {cap : Nat}
include h

/-- With a code for every byte and room for the stream, the encode step finds the stream (R125). -/
theorem encodeRun_fits (hlen : (streamOf code bs).length ≤ 0xFFFFFFFF)
    (hcap : streamBytes f (streamOf code bs).length ≤ cap) :
    encodeRun code bs f cap = ⟨streamBytes f (streamOf code bs).length, .ok (streamOf code bs)⟩ := by
  simp only [encodeRun, encodeStream_eq_streamOf h]
  rw [if_neg (by omega)]

/-- With a code for every byte and no room for the stream, it ends with `E_CAPACITY` (R125). -/
theorem encodeRun_overflows
    (hbig : 0xFFFFFFFF < (streamOf code bs).length ∨ cap < streamBytes f (streamOf code bs).length) :
    encodeRun code bs f cap = ⟨streamBytes f (streamOf code bs).length, .error ⟨.capacity, BufId.dst.num⟩⟩ := by
  simp only [encodeRun, encodeStream_eq_streamOf h]
  rw [if_pos hbig]

end

/-- Every code is at most 255 bits, so the stream has at most 255 bits a byte (R6). -/
theorem length_streamOf_le {tb : Tables} (h : codeOk tb = true) (bs : List Byte) :
    (streamOf tb.code bs).length ≤ 255 * bs.length := by
  induction bs with
  | nil => exact Nat.le_refl 0
  | cons b bs ih =>
    have hb := length_code_le h b
    rw [streamOf] at ih ⊢
    rw [List.flatMap_cons, List.length_append, List.length_cons]
    omega

/-- The ratio of a stream of at most 255 bits a byte fits its register (R127). -/
theorem toNat_ratioOf {e l : Nat} (hl : 0 < l) (he : e ≤ 255 * l) : (ratioOf e l).toNat = rhe (e * 1250) l := by
  have hnear : 2 * (rhe (e * 1250) l * l) ≤ 2 * (e * 1250) + l := (rhe_nearest (e * 1250) hl).1
  have hle : rhe (e * 1250) l ≤ 318751 := by
    refine Nat.le_of_mul_le_mul_right ?_ hl
    omega
  exact Nat.mod_eq_of_lt (by omega)

theorem read_writeBytes_of_has_false {m : Memory} {base a : Nat} {bs : List Byte}
    (h : Range.has ⟨base, bs.length⟩ a = false) : (writeBytes m base bs).read a = m.read a := by
  simp only [Range.has, decide_eq_false_iff_not] at h
  exact read_writeBytes_outside bs m base a (by omega)

/-! ENCODE (R125). -/

/-- Settles O31: no access fails, so ENCODE ends as the encode step does, which has a code for every byte. -/
theorem encodeWritesTheCodes : Obligations.EncodeWritesTheCodes := by
  intro f s hready hquiet hcodes hall e need
  have hneed : need = streamBytes f e := by cases f <;> rfl
  have he : e ≤ 255 * s.cfg.bufs.srcLen.toNat := by
    rw [← length_srcBytes]
    exact length_streamOf_le hcodes _
  have hfail : failing s [srcText s.cfg, (dstRange s.cfg).first (streamBytes f e)] = [] := by
    refine failing_eq_nil_of_imp hquiet fun a ha => ?_
    simp only [readRanges, writeRanges, List.cons_append, List.nil_append, inRanges_cons] at ha ⊢
    exact ha.imp_right fun ha => ha.imp_left has_of_has_first
  rw [exec_ready hready]
  refine ⟨fun hlen hcap => ?_, fun hbig => ?_⟩
  · have hbody : bodyOf (.encode f) s = .next (complete { s with
        regs := s.regs.encoded e s.cfg.bufs.srcLen.toNat
        mem := writeBytes s.mem (dstRange s.cfg).base (streamImage f (streamOf s.tabs.code (srcBytes s))) }) := by
      simp only [bodyOf, encodeBody, Instr.fmt, encodeRun_fits hall hlen (hneed ▸ hcap), errOf]
      rw [outcomeOf_quiet hfail]
    have hbytes : (streamImage f (streamOf s.tabs.code (srcBytes s))).length = need := by
      rw [length_streamImage, hneed]
    refine ⟨_, hbody, endsWell_complete .., rfl, rfl, Nat.mod_eq_of_lt (by omega),
      toNat_ratioOf (srcLen_pos_of_upfront hready.2 (by simp [upfrontChecks])) he, readBits_streamImage .., ?_, fun a ha => ?_⟩
    · rw [← hbytes]
      exact readBytes_writeBytes ..
    · refine read_writeBytes_of_has_false ?_
      rw [hbytes]
      exact (inRanges_cons_eq_false.mp ha).1
  · have hbody : bodyOf (.encode f) s = .next (raiseFor (.encode f) ⟨.capacity, BufId.dst.num⟩ s) := by
      simp only [bodyOf, encodeBody, Instr.fmt, encodeRun_overflows hall (hneed ▸ hbig), errOf]
      rw [outcomeOf_quiet hfail]
    exact ⟨_, hbody, endsInError_raiseFor (.encode f) _ s s.tabs, rfl⟩

end Sys2Proof.Machine
end

section
/-!
PROOF. Where a command writes (R71, R78): an error in its write ranges alone, a success in the result's bytes, which lie
in them.
-/
namespace Sys2Proof.Machine

/-- What R78 lets command `i`, run from `s` and ended in `t`, have written. -/
def WritesWithin (i : Instr) (s t : State) : Prop :=
  MemSameOutside (writeRanges i s.cfg) s t
  ∧ (t.regs.err = false → MemSameOutside (writtenRanges i s.cfg t.regs) s t)
  ∧ (writeRanges i s.cfg = [] → t.mem = s.mem)

/-- An error writes in the write ranges alone (R78, R190). -/
theorem writesWithin_raiseFor (i : Instr) (e : Err) (s : State) (tb : Tables) :
    WritesWithin i s (raiseFor i e { s with tabs := tb }) := by
  have hmem : (raiseFor i e { s with tabs := tb }).mem = scribble s.drawn s.mem (writeRanges i s.cfg) := rfl
  refine ⟨fun a ha => ?_, nofun, fun hnil => ?_⟩
  · rw [hmem]
    exact read_scribble_outside s.drawn a _ s.mem ha
  · rw [hmem, hnil, scribble_nil]

/-- A command that leaves memory as it was. -/
theorem writesWithin_of_mem_eq {i : Instr} {s t : State} (h : t.mem = s.mem) : WritesWithin i s t :=
  ⟨fun _ _ => by rw [h], fun _ _ _ => by rw [h], fun _ => h⟩

/-- A success whose results lie in the write ranges and that has written nothing else. -/
theorem writesWithin_of_written {i : Instr} {s t : State} {rs : List Range}
    (hwritten : writtenRanges i s.cfg t.regs = rs) (hsame : MemSameOutside rs s t)
    (hsub : ∀ a, inRanges rs a = true → inRanges (writeRanges i s.cfg) a = true)
    (hne : writeRanges i s.cfg ≠ []) : WritesWithin i s t := by
  subst hwritten
  exact ⟨fun a ha => hsame a (Bool.eq_false_iff.mpr fun hin => Bool.eq_false_iff.mp ha (hsub a hin)), fun _ => hsame,
    fun hnil => absurd hnil hne⟩

/-- A result within the command's one write range (R78). -/
theorem writesWithin_of_writeBytes {i : Instr} {s t : State} {w : Range} {bs : List Byte}
    (hmem : t.mem = writeBytes s.mem w.base bs) (hlen : bs.length ≤ w.len) (hw : writeRanges i s.cfg = [w])
    (hwritten : writtenRanges i s.cfg t.regs = [⟨w.base, bs.length⟩]) : WritesWithin i s t := by
  refine writesWithin_of_written hwritten (fun a ha => ?_) (fun a ha => ?_) (by simp [hw])
  · rw [hmem, read_writeBytes_of_has_false (inRanges_cons_eq_false.mp ha).1]
  · rw [hw]
    exact inRanges_cons.mpr ((inRanges_cons.mp ha).imp_left (has_of_has_shorter hlen))

/-! The results fit (R125, R140, R160). -/

theorem fits_of_encodeRun_ok {code : Table BitString 256} {bs : List Byte} {f : BitFmt} {cap : Nat} {t : BitString}
    (h : (encodeRun code bs f cap).result = .ok t) : t.length ≤ 0xFFFFFFFF ∧ streamBytes f t.length ≤ cap := by
  simp only [encodeRun] at h
  split at h
  · cases h
  · split at h <;> cases h
    omega

theorem fits_of_textCheck {text : List Byte} {cap : Nat} (h : textCheck text cap = none) : text.length ≤ cap := by
  unfold textCheck at h
  split at h
  · cases h
  · omega

/-- The decode step never has more bytes than DST holds (R163). -/
theorem length_decodeBits_out_le {ns : Table Node 511} {root : NodeIdx} {cap : Nat} (bits : List (Option Bool)) (i : Nat)
    (w : WalkPtr) {out : List Byte} (h : out.length ≤ cap) : (decodeBits ns root cap bits i w out).out.length ≤ cap := by
  induction bits generalizing i w out with
  | nil =>
    rw [decodeBits]
    split <;> exact h
  | cons b bits ih =>
    cases b with
    | none => exact h
    | some b =>
      simp only [decodeBits]
      split
      · exact h
      split
      · exact ih _ _ h
      split
      · exact h
      next hfull =>
        refine ih _ _ ?_
        rw [List.length_append, List.length_singleton]
        omega

theorem length_decodeRun_out_le (tb : Tables) (f : BitFmt) (s : State) :
    (decodeRun tb f s).out.length ≤ s.cfg.bufs.dstCap.toNat :=
  length_decodeBits_out_le _ _ _ (Nat.zero_le _)

theorem toNat_ofNat_of_le_cap {n : Nat} {cap : Word} (h : n ≤ cap.toNat) : (BitVec.ofNat 32 n).toNat = n :=
  Nat.mod_eq_of_lt (h.trans_lt cap.isLt)

/-! The commands. -/

theorem encodeBody_writesWithin {f : BitFmt} {s t : State} (h : encodeBody (.encode f) s = .next t) :
    WritesWithin (.encode f) s t := by
  simp only [encodeBody] at h
  split at h <;> cases h
  next bits _ hok =>
    obtain ⟨hlen, hcap⟩ := fits_of_encodeRun_ok hok
    have hdst : (BitVec.ofNat 32 bits.length).toNat = bits.length := Nat.mod_eq_of_lt (by omega)
    refine writesWithin_of_writeBytes (w := dstRange s.cfg) rfl ((length_streamImage f bits).trans_le hcap) rfl ?_
    simp [-BitVec.toNat_ofNat, writtenRanges, hdst, length_streamImage, dstRange, Instr.fmt]
  next => exact writesWithin_raiseFor _ _ s s.tabs
  next => exact writesWithin_raiseFor _ _ s s.tabs

theorem serializeBody_writesWithin {f : BitFmt} {s t : State} (h : serializeBody (.serialize f) s = .next t) :
    WritesWithin (.serialize f) s t := by
  unfold serializeBody at h
  split at h
  · cases h
  next ls _ =>
    split at h <;> cases h
    next => exact writesWithin_raiseFor _ _ s s.tabs
    next hout =>
      have hlen := fits_of_textCheck (outcomeOf_eq_none.mp hout).2
      refine writesWithin_of_writeBytes (w := toutRange s.cfg) rfl hlen rfl ?_
      simp [-BitVec.toNat_ofNat, writtenRanges, toNat_ofNat_of_le_cap hlen, toutRange]

theorem decodeBody_writesWithin {f : BitFmt} {s t : State} (h : decodeBody (.decode f) s = .next t) :
    WritesWithin (.decode f) s t := by
  simp only [decodeBody] at h
  split at h <;> cases h
  next => exact writesWithin_raiseFor _ _ s s.tabs
  next =>
    have hlen := length_decodeRun_out_le s.tabs f s
    refine writesWithin_of_writeBytes (w := dstRange s.cfg) rfl hlen rfl ?_
    simp [-BitVec.toNat_ofNat, writtenRanges, toNat_ofNat_of_le_cap hlen, dstRange, Instr.fmt]

theorem decompressBody_writesWithin {f : BitFmt} {s t : State} (h : decompressBody (.decompress f) s = .next t) :
    WritesWithin (.decompress f) s t := by
  unfold decompressBody at h
  split at h <;> cases h
  · unfold decompressLost
    split <;> exact writesWithin_raiseFor ..
  next x _ =>
    simp only [decompressEnd]
    split
    · split <;> exact writesWithin_raiseFor ..
    · have hlen := length_decodeRun_out_le (s.tabs.deserialized x) f s
      refine writesWithin_of_writeBytes (w := dstRange s.cfg) rfl hlen rfl ?_
      simp [-BitVec.toNat_ofNat, writtenRanges, toNat_ofNat_of_le_cap hlen, dstRange, Instr.fmt]

/-- COMPRESS writes its two results, each within its range (R78, R170). -/
theorem compressEnd_writesWithin (f : BitFmt) (s : State) (tb : Tables) (ls : List (BitString × Byte)) :
    WritesWithin (.compress f) s (compressEnd (.compress f) s tb ls) := by
  simp only [compressEnd]
  split
  next bits hout hok =>
    obtain ⟨hlen, hcap⟩ := fits_of_encodeRun_ok hok
    have hcheck := (outcomeOf_eq_none.mp hout).2
    simp only [compressErr, hok] at hcheck
    have htext := fits_of_textCheck hcheck
    have hdst : (BitVec.ofNat 32 bits.length).toNat = bits.length := Nat.mod_eq_of_lt (by omega)
    refine writesWithin_of_written (rs := [⟨(dstRange s.cfg).base, (streamImage f bits).length⟩,
      ⟨(toutRange s.cfg).base, (treeText ls).length⟩]) ?_ (fun a ha => ?_) (fun a ha => ?_) (by simp [writeRanges])
    · simp [-BitVec.toNat_ofNat, writtenRanges, hdst, toNat_ofNat_of_le_cap htext, length_streamImage, dstRange,
        toutRange]
    · obtain ⟨hd, ht⟩ := inRanges_cons_eq_false.mp ha
      exact (read_writeBytes_of_has_false (inRanges_cons_eq_false.mp ht).1).trans (read_writeBytes_of_has_false hd)
    · refine inRanges_cons.mpr ((inRanges_cons.mp ha).imp
        (has_of_has_shorter ((length_streamImage f bits).trans_le hcap)) fun ht => ?_)
      exact inRanges_cons.mpr ((inRanges_cons.mp ht).imp_left (has_of_has_shorter htext))
  next =>
    split <;> exact writesWithin_raiseFor ..
  next => exact writesWithin_raiseFor ..

theorem compressBody_writesWithin {f : BitFmt} {s t : State} (h : compressBody (.compress f) s = .next t) :
    WritesWithin (.compress f) s t := by
  unfold compressBody at h
  split at h
  · cases h
  · split at h <;> cases h
    exact compressEnd_writesWithin ..

/-- What each command does past its checks writes within its ranges. -/
theorem bodyOf_writesWithin {i : Instr} {s t : State} (h : bodyOf i s = .next t) : WritesWithin i s t := by
  cases i with
  | count f =>
    simp only [bodyOf, countBody] at h
    split at h <;> cases h
    · exact writesWithin_raiseFor ..
    · exact writesWithin_of_mem_eq rfl
  | build f =>
    simp only [bodyOf, buildBody] at h
    split at h <;> cases h
    exact writesWithin_of_mem_eq rfl
  | gencode f =>
    simp only [bodyOf, gencodeBody] at h
    split at h <;> cases h
    exact writesWithin_of_mem_eq rfl
  | encode f => exact encodeBody_writesWithin h
  | serialize f => exact serializeBody_writesWithin h
  | deserialize f =>
    simp only [bodyOf, deserializeBody] at h
    split at h <;> cases h
    · exact writesWithin_of_mem_eq rfl
    · exact writesWithin_raiseFor ..
    · exact writesWithin_raiseFor ..
  | decode f => exact decodeBody_writesWithin h
  | compress f => exact compressBody_writesWithin h
  | decompress f => exact decompressBody_writesWithin h

/-- Settles O16: an upfront error writes as every error does, and each body within its ranges. -/
theorem writesStayInTheirRanges : Obligations.WritesStayInTheirRanges := by
  intro i s t h
  rw [exec_eq_checked] at h
  obtain ⟨e, rfl⟩ | hbody := checked_next h
  · exact writesWithin_raiseFor i e s s.tabs
  · exact bodyOf_writesWithin hbody

end Sys2Proof.Machine
end

section
/-!
PROOF. The walk of a built tree (R110, R114, R120): every Leaf is found once, so its pairs are the symbols counted, and
their paths are together no longer than those of the deepest tree (R143).
-/
namespace Sys2Proof.Machine

/-! Walks put together. -/

/-- The pairs of branch `b` of a node, seen from the node. -/
def under (b : Bool) (ls : List (BitString × Byte)) : List (BitString × Byte) := ls.map fun l => (b :: l.1, l.2)

theorem map_snd_under (b : Bool) (ls : List (BitString × Byte)) : (under b ls).map Prod.snd = ls.map Prod.snd := by
  simp [under, Function.comp_def]

theorem length_under (b : Bool) (ls : List (BitString × Byte)) : (under b ls).length = ls.length := List.length_map ..

/-- The bits of all paths of a walk. -/
def pathBits (ls : List (BitString × Byte)) : Nat := (ls.map fun l => l.1.length).sum

theorem pathBits_cons (l : BitString × Byte) (ls : List (BitString × Byte)) :
    pathBits (l :: ls) = l.1.length + pathBits ls := List.sum_cons

theorem pathBits_append (ls ms : List (BitString × Byte)) : pathBits (ls ++ ms) = pathBits ls + pathBits ms := by
  simp [pathBits]

theorem pathBits_under (b : Bool) (ls : List (BitString × Byte)) : pathBits (under b ls) = pathBits ls + ls.length := by
  induction ls with
  | nil => rfl
  | cons l ls ih =>
    rw [under] at ih
    rw [under, List.map_cons, pathBits_cons, pathBits_cons, ih, List.length_cons, List.length_cons]
    omega

/-- `w` gives the walk at every node of the store's first `m`, each Internal node standing above nodes of lower index:
a Leaf's is its own pair, an Internal node's those of its left and then of its right branch (R120). -/
structure Grown (ns : Table Node 511) (m : Nat) (w : Nat → List (BitString × Byte)) : Prop where
  size : m ≤ 511
  leaf : ∀ k < m, (ns.read k).internal = false → w k = [([], (ns.read k).sym)]
  lower : ∀ k < m, (ns.read k).internal = true → ∀ b, (childOf (ns.read k) b).toNat < k
  node : ∀ k < m, (ns.read k).internal = true →
    w k = under false (w (ns.read k).left.toNat) ++ under true (w (ns.read k).right.toNat)

section
variable {ns : Table Node 511} {m : Nat} {w : Nat → List (BitString × Byte)} (h : Grown ns m w)
include h

theorem Grown.left_lt {k : Nat} (hk : k < m) (hint : (ns.read k).internal = true) : (ns.read k).left.toNat < k :=
  h.lower k hk hint false

theorem Grown.right_lt {k : Nat} (hk : k < m) (hint : (ns.read k).internal = true) : (ns.read k).right.toNat < k :=
  h.lower k hk hint true

/-- A node below an Internal one is there: its index is below the store's size, so it is not `NIL`. -/
theorem Grown.ne_nil_of_lt {c : NodeIdx} {k : Nat} (hk : k < m) (hc : c.toNat < k) : c ≠ Config.nil := by
  have hsize := h.size
  rintro rfl
  have hnil : (Config.nil).toNat = 511 := rfl
  omega

/-- Every node stands above a Leaf, and among trees with as many Leaves the deepest has the most path bits. -/
theorem Grown.pathBits_le {k : Nat} (hk : k < m) :
    0 < (w k).length ∧ 2 * pathBits (w k) + 2 ≤ (w k).length * ((w k).length + 1) := by
  induction k using Nat.strong_induction_on with
  | _ k ih =>
    cases hint : (ns.read k).internal with
    | false => simp [h.leaf k hk hint, pathBits]
    | true =>
      have hl := h.left_lt hk hint
      have hr := h.right_lt hk hint
      obtain ⟨hlpos, hlbits⟩ := ih _ hl (hl.trans hk)
      obtain ⟨hrpos, hrbits⟩ := ih _ hr (hr.trans hk)
      rw [h.node k hk hint, List.length_append, length_under, length_under, pathBits_append, pathBits_under,
        pathBits_under]
      exact ⟨by omega, by nlinarith⟩

/-- What the walk from a node finds are the node's pairs, under the path to it (R120). -/
theorem Grown.eq_of_leavesFrom {fuel : Nat} {k : NodeIdx} {p : BitString} {ls : List (BitString × Byte)}
    (hk : k.toNat < m) (hwalk : leavesFrom ns fuel k p = some ls) : ls = (w k.toNat).map fun l => (p ++ l.1, l.2) := by
  induction fuel generalizing k p ls with
  | zero =>
    cases hint : (nodeAt ns k).internal with
    | true => simp [leavesFrom_zero_internal hint] at hwalk
    | false =>
      rw [leavesFrom_leaf hint] at hwalk
      cases hwalk
      simp [h.leaf k.toNat hk hint, nodeAt]
  | succ fuel ih =>
    cases hint : (nodeAt ns k).internal with
    | false =>
      rw [leavesFrom_leaf hint] at hwalk
      cases hwalk
      simp [h.leaf k.toNat hk hint, nodeAt]
    | true =>
      have hl := h.left_lt hk hint
      have hr := h.right_lt hk hint
      rw [leavesFrom_succ_internal hint, leavesBelow, leavesBelow, nodeAt, if_neg (h.ne_nil_of_lt hk hl),
        if_neg (h.ne_nil_of_lt hk hr), Option.bind_eq_some_iff] at hwalk
      obtain ⟨l, hwalkl, hmap⟩ := hwalk
      obtain ⟨r, hwalkr, rfl⟩ := Option.map_eq_some_iff.mp hmap
      rw [ih (hl.trans hk) hwalkl, ih (hr.trans hk) hwalkr, h.node k.toNat hk hint]
      simp [under, Function.comp_def]

/-- An Internal node added over two nodes of the store: its walk is theirs, and no other walk changes. -/
theorem Grown.push (hm : m < 511) {x y : NodeIdx} (hx : x.toNat < m) (hy : y.toNat < m) (wt : Word) :
    Grown (ns.write m (internalNode x y wt)) (m + 1)
      (Function.update w m (under false (w x.toNat) ++ under true (w y.toNat))) := by
  have hlast : (ns.write m (internalNode x y wt)).read m = internalNode x y wt := Table.read_write_same _ _ _ hm
  have hother : ∀ k < m, (ns.write m (internalNode x y wt)).read k = ns.read k := fun k hk =>
    Table.read_write_ne _ _ (by omega)
  have hold : ∀ k < m, Function.update w m (under false (w x.toNat) ++ under true (w y.toNat)) k = w k := fun k hk =>
    Function.update_of_ne (by omega) _ _
  refine ⟨hm, fun k hk hint => ?leaf, fun k hk hint b => ?lower, fun k hk hint => ?node⟩ <;>
    obtain rfl | hk := Nat.eq_or_lt_of_le (Nat.le_of_lt_succ hk)
  case leaf.inl =>
    rw [hlast] at hint
    cases hint
  case leaf.inr =>
    rw [hother k hk] at hint ⊢
    rw [hold k hk, h.leaf k hk hint]
  case lower.inl =>
    rw [hlast]
    cases b <;> assumption
  case lower.inr =>
    rw [hother k hk] at hint ⊢
    exact h.lower k hk hint b
  case node.inl =>
    rw [hlast, Function.update_self]
    change _ = under false (Function.update w k _ x.toNat) ++ under true (Function.update w k _ y.toNat)
    rw [hold _ hx, hold _ hy]
  case node.inr =>
    rw [hother k hk] at hint ⊢
    rw [hold k hk, hold _ ((h.left_lt hk hint).trans hk), hold _ ((h.right_lt hk hint).trans hk), h.node k hk hint]

end

/-! BUILD's steps (R110). -/

theorem read_placeNodes_getElem (ds : List Node) {ns : Table Node 511} {n j : Nat} (hj : j < ds.length)
    (hcap : n + ds.length ≤ 511) : (placeNodes ns n ds).read (n + j) = ds[j] := by
  induction ds generalizing ns n j with
  | nil => exact absurd hj (Nat.not_lt_zero j)
  | cons d ds ih =>
    rw [List.length_cons] at hcap
    rw [placeNodes]
    cases j with
    | zero => exact (read_placeNodes_lt ds (Nat.lt_succ_self n)).trans (Table.read_write_same _ _ _ (by omega))
    | succ j =>
      rw [← Nat.add_assoc, Nat.add_right_comm, ih (Nat.lt_of_succ_lt_succ hj) (by omega), List.getElem_cons_succ]

/-- The symbols of the Leaves that the queue's nodes stand above. -/
def queueSyms (w : Nat → List (BitString × Byte)) (q : List NodeIdx) : List Byte :=
  q.flatMap fun k => (w k.toNat).map Prod.snd

/-- The builder's store is grown, and the queue's nodes stand above each of the symbols once. -/
structure BuilderWalks (syms : List Byte) (b : Builder) (w : Nat → List (BitString × Byte)) : Prop where
  grown : Grown b.nodes b.count w
  once : (queueSyms w b.queue).Perm syms

theorem startBuilder_walks (ns : Table Node 511) (f : Table Word 256) :
    BuilderWalks ((leafNodes f).map Node.sym) (startBuilder ns (leafNodes f))
      fun k => [([], ((startBuilder ns (leafNodes f)).nodes.read k).sym)] := by
  have hlen := length_leafNodes_le f
  have hread : ∀ k (hk : k < (leafNodes f).length),
      (startBuilder ns (leafNodes f)).nodes.read k = (leafNodes f)[k] := fun k hk => by
    have h := read_placeNodes_getElem (leafNodes f) (ns := ns) (n := 0) hk (by omega)
    rwa [Nat.zero_add] at h
  have hleaf : ∀ k < (leafNodes f).length, ((startBuilder ns (leafNodes f)).nodes.read k).internal = false := by
    intro k hk
    obtain ⟨sym, wt, hd⟩ := mem_leafNodes (List.getElem_mem hk)
    rw [hread k hk, hd]
    rfl
  have hcontra : ∀ k < (leafNodes f).length, ((startBuilder ns (leafNodes f)).nodes.read k).internal ≠ true :=
    fun k hk => by simp [hleaf k hk]
  refine ⟨⟨hlen.trans (by decide), fun k hk _ => rfl, fun k hk hint => absurd hint (hcontra k hk),
    fun k hk hint => absurd hint (hcontra k hk)⟩, List.Perm.of_eq ?_⟩
  have hsyms : queueSyms (fun k => [([], ((startBuilder ns (leafNodes f)).nodes.read k).sym)])
      (startBuilder ns (leafNodes f)).queue
      = (List.range (leafNodes f).length).map fun k => ((startBuilder ns (leafNodes f)).nodes.read (k % 512)).sym := by
    simp only [queueSyms, startBuilder, List.flatMap_map, List.map_cons, List.map_nil, BitVec.toNat_ofNat]
    exact List.flatMap_pure_eq_map _ _
  rw [hsyms]
  refine List.ext_getElem (by simp) fun k hk hk' => ?_
  have hk' : k < (leafNodes f).length := by simpa using hk'
  rw [List.getElem_map, List.getElem_map, List.getElem_range, Nat.mod_eq_of_lt (by omega), hread k hk']

/-- A round keeps the symbols: the two extracted nodes' go under the node over them (R110). -/
theorem mergeOnce_walks {n : Nat} {syms : List Byte} {b : Builder} {w : Nat → List (BitString × Byte)}
    (hok : BuilderOk n b) (hwalks : BuilderWalks syms b w) (hlen : 2 ≤ b.queue.length) :
    ∃ w', BuilderWalks syms (mergeOnce b) w' := by
  obtain ⟨x, hx, y, hy, wt, hmerge⟩ := mergeOnce_eq hlen
  have hcount : b.count < 511 := by
    have hbalance := hok.balance
    have hleaves := hok.leaves
    omega
  have hidx : (BitVec.ofNat 9 b.count).toNat = b.count := Nat.mod_eq_of_lt (by omega)
  have hxlt := hok.queued x hx
  have hylt := hok.queued y (List.mem_of_mem_erase hy)
  refine ⟨Function.update w b.count (under false (w x.toNat) ++ under true (w y.toNat)), ?_⟩
  rw [hmerge]
  refine ⟨hwalks.grown.push hcount hxlt hylt wt, ?_⟩
  have hrest : queueSyms (Function.update w b.count (under false (w x.toNat) ++ under true (w y.toNat)))
      ((b.queue.erase x).erase y) = queueSyms w ((b.queue.erase x).erase y) := by
    refine List.flatMap_congr fun k hk => ?_
    have hk := hok.queued k (List.mem_of_mem_erase (List.mem_of_mem_erase hk))
    rw [Function.update_of_ne (by omega)]
  have hnew : queueSyms (Function.update w b.count (under false (w x.toNat) ++ under true (w y.toNat)))
      [BitVec.ofNat 9 b.count] = (w x.toNat).map Prod.snd ++ (w y.toNat).map Prod.snd := by
    simp only [queueSyms, List.flatMap_cons, List.flatMap_nil, List.append_nil, hidx, Function.update_self,
      List.map_append, map_snd_under]
  have hperm : b.queue.Perm (x :: y :: (b.queue.erase x).erase y) :=
    (List.perm_cons_erase hx).trans ((List.perm_cons_erase hy).cons x)
  have hold : (queueSyms w (x :: y :: (b.queue.erase x).erase y)).Perm syms :=
    ((hperm.flatMap_right _).symm).trans hwalks.once
  refine List.Perm.trans ?_ hold
  rw [queueSyms, List.flatMap_append, ← queueSyms, ← queueSyms, hrest, hnew]
  refine List.perm_append_comm.trans (List.Perm.of_eq ?_)
  simp [queueSyms]

theorem mergeAll_walks {n : Nat} {syms : List Byte} (k : Nat) {b : Builder} {w : Nat → List (BitString × Byte)}
    (hok : BuilderOk n b) (hwalks : BuilderWalks syms b w) (hlen : b.queue.length = k + 1) :
    ∃ w', BuilderWalks syms (mergeAll k b) w' := by
  induction k generalizing b w with
  | zero => exact ⟨w, hwalks⟩
  | succ k ih =>
    obtain ⟨w', hwalks'⟩ := mergeOnce_walks hok hwalks (by omega)
    have hone := length_queue_mergeOnce (b := b) (by omega)
    exact ih (mergeOnce_ok hok) hwalks' (by omega)

/-- The tree BUILD leaves is grown, and its root stands above each symbol of the table once (R110, R114). -/
theorem buildTree_walks {ns : Table Node 511} {f : Table Word 256} {b : Builder} {r : NodeIdx}
    (h : buildTree ns f = some (b, r)) :
    ∃ w, Grown b.nodes b.count w ∧ ((w r.toNat).map Prod.snd).Perm ((leafNodes f).map Node.sym) := by
  have hne : leafNodes f ≠ [] := by
    intro hnil
    simp [buildTree, hnil, startBuilder, mergeAll] at h
  obtain ⟨r', hqueue, hbuild⟩ := buildTree_eq_some ns hne
  cases hbuild.symm.trans h
  have hpos := List.length_pos_iff.mpr hne
  obtain ⟨w, hgrown, honce⟩ := mergeAll_walks ((leafNodes f).length - 1) (startBuilder_ok ns f)
    (startBuilder_walks ns f) (by simp only [startBuilder, List.length_map, List.length_range]; omega)
  rw [hqueue] at honce
  exact ⟨w, hgrown, by simpa [queueSyms] using honce⟩

/-- The walk of the tree BUILD leaves: each symbol of the table once, by a path that is not empty; and all the paths
together are no longer than those of a tree of 256 Leaves one below the other, 255 + 255 + 254 + … + 1 bits (R143). -/
theorem built_walk {t u : Tables} (h : t.built = some u) {ls : List (BitString × Byte)}
    (hwalk : treeLeaves u.node u.root = some ls) :
    (ls.map Prod.snd).Perm ((leafNodes t.freq).map Node.sym) ∧ (∀ l ∈ ls, l.1 ≠ []) ∧ pathBits ls ≤ 32895 := by
  obtain ⟨b, r, hbuild, rfl⟩ := built_eq_some h
  obtain ⟨w, hgrown, honce⟩ := buildTree_walks hbuild
  obtain ⟨-, hroot, -⟩ := buildTree_ok hbuild
  simp only at hwalk
  cases hint : (nodeAt b.nodes r).internal with
  | false =>
    rw [treeLeaves_leaf hint] at hwalk
    cases hwalk
    rw [hgrown.leaf r.toNat hroot hint] at honce
    exact ⟨honce, by simp, by simp [pathBits]⟩
  | true =>
    rw [treeLeaves_internal hint] at hwalk
    have hls : ls = w r.toNat := by simpa using hgrown.eq_of_leavesFrom hroot hwalk
    obtain ⟨-, hbits⟩ := hgrown.pathBits_le hroot
    have hlen : (w r.toNat).length ≤ 256 := by
      have hcount := honce.length_eq
      rw [List.length_map, List.length_map] at hcount
      exact hcount.trans_le (length_leafNodes_le t.freq)
    subst hls
    refine ⟨honce, fun l hl => ?_, by nlinarith⟩
    rw [hgrown.node r.toNat hroot hint] at hl
    obtain hl | hl := List.mem_append.mp hl <;> obtain ⟨l', -, rfl⟩ := List.mem_map.mp hl <;> exact List.cons_ne_nil _ _

end Sys2Proof.Machine
end

section
/-!
PROOF. What the count, build and code steps of COMPRESS leave (R100, R110, R120, R170): a code for every byte of the
text, and a tree whose text is not too long (R143).
-/
namespace Sys2Proof.Machine

/-! The symbols of a table (R51, R110). -/

theorem nodup_sym_leafNodes (f : Table Word 256) : ((leafNodes f).map Node.sym).Nodup := by
  have hsyms : (leafNodes f).map Node.sym
      = ((List.range 256).filter fun k => f.read k ≠ 0).map (BitVec.ofNat 8) := by
    rw [leafNodes_eq, List.map_filterMap, ← List.filterMap_eq_map, List.filterMap_filter]
    refine List.filterMap_congr fun k _ => ?_
    by_cases hk : f.read k = 0
    · simp [hk]
    · rw [if_neg hk, if_pos (decide_eq_true hk)]
      rfl
  rw [hsyms]
  refine List.Nodup.map_on (fun j hj k hk hjk => ?_) (List.nodup_range.filter _)
  have hj := List.mem_range.mp (List.mem_filter.mp hj).1
  have hk := List.mem_range.mp (List.mem_filter.mp hk).1
  have hnat := congrArg BitVec.toNat hjk
  rwa [BitVec.toNat_ofNat, BitVec.toNat_ofNat, Nat.mod_eq_of_lt hj, Nat.mod_eq_of_lt hk] at hnat

/-- `nsym` counts the distinct bytes of the text (R51). -/
theorem toNat_nsym_counted {bs : List Byte} (hlen : bs.length < 2 ^ 32) (tb : Tables) :
    (tb.counted bs).nsym.toNat = bs.dedup.length := by
  have hperm : ((leafNodes (countBytes bs)).map Node.sym).Perm bs.dedup :=
    (List.perm_ext_iff_of_nodup (nodup_sym_leafNodes _) (List.nodup_dedup bs)).mpr fun b =>
      (mem_sym_leafNodes_countBytes hlen).trans List.mem_dedup.symm
  have hcount := countSymbols_le (countBytes bs)
  rw [← hperm.length_eq, List.length_map, length_leafNodes]
  exact Nat.mod_eq_of_lt (by omega)

/-! The code table (R120, R122). -/

theorem read_foldl_write_of_not_mem {ls : List (BitString × Byte)} {b : Byte} (h : b ∉ ls.map Prod.snd)
    (t : Table BitString 256) : (ls.foldl (fun t l => t.write l.2.toNat l.1) t).read b.toNat = t.read b.toNat := by
  induction ls generalizing t with
  | nil => rfl
  | cons l ls ih =>
    rw [List.map_cons, List.mem_cons, not_or] at h
    rw [List.foldl_cons, ih h.2, Table.read_write_ne _ _ fun hb => h.1 (BitVec.eq_of_toNat_eq hb.symm)]

/-- In a walk that finds each symbol once, a symbol's code is its Leaf's path (R120). -/
theorem read_codeTable_of_mem {ls : List (BitString × Byte)} (hnodup : (ls.map Prod.snd).Nodup) {l : BitString × Byte}
    (hl : l ∈ ls) : (codeTable ls).read l.2.toNat = l.1 := by
  have hfold : ∀ (ls : List (BitString × Byte)) (t : Table BitString 256), (ls.map Prod.snd).Nodup → l ∈ ls →
      (ls.foldl (fun t l => t.write l.2.toNat l.1) t).read l.2.toNat = l.1 := by
    intro ls
    induction ls with
    | nil => intro t _ hl; cases hl
    | cons l' ls ih =>
      intro t hnodup hl
      rw [List.map_cons, List.nodup_cons] at hnodup
      rw [List.foldl_cons]
      obtain rfl | hl := List.mem_cons.mp hl
      · rw [read_foldl_write_of_not_mem hnodup.1, Table.read_write_same _ _ _ l.2.isLt]
      · exact ih _ hnodup.2 hl
  exact hfold ls _ hnodup hl

/-! The tree text (R141, R143). -/

/-- Each line has its path's bits and seven bytes more, and a `0x0A` between two lines (R141). -/
theorem length_treeText : ∀ ls : List (BitString × Byte), ls ≠ [] →
    (treeText ls).length + 1 = pathBits ls + 8 * ls.length
  | [l], _ => by simp [treeText, treeLine, sepBytes, pathBits]
  | l :: l' :: ls, _ => by
    have hrest := length_treeText (l' :: ls) (List.cons_ne_nil _ _)
    have hline : (treeLine l).length = l.1.length + 7 := by simp [treeLine, sepBytes]
    rw [treeText, List.length_append, List.length_cons, hline, pathBits_cons, List.length_cons (a := l)]
    · omega
    · nofun

/-! The three steps together (R170). -/

/-- What the first three steps of COMPRESS leave for the text `bs`: the tables `tb`, whose tree has the pairs `ls`. -/
structure TextTables (bs : List Byte) (tb : Tables) (ls : List (BitString × Byte)) : Prop where
  freqV : tb.freqV = true
  treeV : tb.treeV = true
  codeV : tb.codeV = true
  counts : ∀ b : Byte, (tb.freq.read b.toNat).toNat = bs.count b
  total : tb.total = BitVec.ofNat 32 bs.length
  nsym : tb.nsym.toNat = bs.dedup.length
  walk : treeLeaves tb.node tb.root = some ls
  codes : ∀ l ∈ ls, tb.code.read l.2.toNat = l.1
  coded : ∀ b ∈ bs, tb.code.read b.toNat ≠ []
  short : codeOk tb = true
  text : (treeText ls).length ≤ 34942

theorem textTables_of_steps {bs : List Byte} (hlen : bs.length < 2 ^ 32) {t tb : Tables} {ls : List (BitString × Byte)}
    (hbuilt : (t.counted bs).built = some tb) (hwalk : treeLeaves tb.node tb.root = some ls) :
    TextTables bs (tb.coded ls) ls := by
  obtain ⟨hperm, hne, hbits⟩ := built_walk hbuilt hwalk
  obtain ⟨hfreq, hnsym, htotal, hfreqV⟩ := sameFreq_built hbuilt
  have hnodup : (ls.map Prod.snd).Nodup := hperm.nodup_iff.mpr (nodup_sym_leafNodes _)
  have hcodes : ∀ l ∈ ls, (tb.coded ls).code.read l.2.toNat = l.1 := fun l hl => read_codeTable_of_mem hnodup hl
  refine ⟨hfreqV, ?_, rfl, fun b => ?_, htotal, ?_, hwalk, hcodes, fun b hb => ?_,
    codeOk_coded (length_le_of_treeLeaves hwalk) tb, ?_⟩
  · obtain ⟨_, _, -, rfl⟩ := built_eq_some hbuilt
    rfl
  · rw [← toNat_read_countBytes hlen b]
    exact congrArg (fun f : Table Word 256 => (f.read b.toNat).toNat) hfreq
  · rw [← toNat_nsym_counted hlen t]
    exact congrArg BitVec.toNat hnsym
  · obtain ⟨l, hl, rfl⟩ := List.mem_map.mp (hperm.mem_iff.mpr ((mem_sym_leafNodes_countBytes hlen).mpr hb))
    rw [hcodes l hl]
    exact hne l hl
  · have hcount : ls.length ≤ 256 := by
      have h := hperm.length_eq
      rw [List.length_map, List.length_map] at h
      exact h.trans_le (length_leafNodes_le _)
    by_cases hnil : ls = []
    · subst hnil
      exact Nat.zero_le _
    · have htext := length_treeText ls hnil
      omega

end Sys2Proof.Machine
end

section
/-!
PROOF. COMPRESS (R170): its encode and serialize steps over the tables of its text, and its endings.
-/
namespace Sys2Proof.Machine

/-- COMPRESS past its checks ends over the tables of its text (R170). -/
theorem compressBody_eq {f : BitFmt} {s : State} (hu : upfront (.compress f) s = none) :
    ∃ tb ls, TextTables (srcBytes s) tb ls
      ∧ compressBody (.compress f) s = .next (compressEnd (.compress f) s tb ls) := by
  obtain ⟨tb, ls, hbuilt, hwalk⟩ := compress_steps hu
  exact ⟨tb.coded ls, ls, textTables_of_steps (length_srcBytes_lt s) hbuilt hwalk,
    by simp only [compressBody, hbuilt, hwalk]⟩

/-! Never `E_LOOKUP` or `E_SEQUENCE` (R172). -/

theorem firstFailure_mem {cs : List (Bool × Err)} {e : Err} (h : firstFailure cs = some e) : e ∈ cs.map Prod.snd := by
  induction cs with
  | nil => cases h
  | cons c cs ih =>
    obtain ⟨b, e'⟩ := c
    rw [firstFailure_cons] at h
    split at h
    · cases h
      exact List.mem_cons_self
    · exact List.mem_cons_of_mem _ (ih h)

/-- A data phase ends with its own error or with a bus error (R186). -/
theorem outcomeOf_eq_some {s : State} {rs : List Range} {d : Option Err} {e : Err} (h : outcomeOf s rs d = some e) :
    e.code = .bus ∨ d = some e := by
  obtain ⟨-, ho⟩ | ⟨-, -, ho⟩ | ⟨a, -, ho⟩ := outcomeOf_cases s rs d
  · exact .inr (ho.symm.trans h)
  · exact .inr (ho.symm.trans h)
  · cases ho.symm.trans h
    exact .inl rfl

/-- With a code for every byte the only error of the encode step is `E_CAPACITY` (R125). -/
theorem code_of_encodeRun_error {code : Table BitString 256} {bs : List Byte} (h : ∀ b ∈ bs, code.read b.toNat ≠ [])
    {f : BitFmt} {cap : Nat} {e : Err} (he : (encodeRun code bs f cap).result = .error e) : e.code = .capacity := by
  simp only [encodeRun, encodeStream_eq_streamOf h] at he
  split at he <;> cases he
  rfl

theorem code_of_textCheck {text : List Byte} {cap : Nat} {e : Err} (h : textCheck text cap = some e) :
    e.code = .capacity := by
  unfold textCheck at h
  split at h <;> cases h
  rfl

/-- The data-check errors of COMPRESS are `E_CAPACITY` (R172). -/
theorem code_of_compressErr {code : Table BitString 256} {bs : List Byte} (h : ∀ b ∈ bs, code.read b.toNat ≠ [])
    {f : BitFmt} {cap cap' : Nat} {text : List Byte} {e : Err}
    (he : compressErr (encodeRun code bs f cap) text cap' = some e) : e.code = .capacity := by
  unfold compressErr at he
  split at he
  next hrun =>
    cases he
    exact code_of_encodeRun_error h hrun
  next => exact code_of_textCheck he

/-- COMPRESS ends with no error, `E_CAPACITY` or `E_BUS`, once its upfront checks have passed (R172). -/
theorem errcode_compressEnd {f : BitFmt} {s : State} {tb : Tables} {ls : List (BitString × Byte)}
    (h : ∀ b ∈ srcBytes s, tb.code.read b.toNat ≠ []) :
    (compressEnd (.compress f) s tb ls).regs.errcode ∈ [0, ErrCode.capacity.num, ErrCode.bus.num] := by
  simp only [compressEnd]
  split
  next => exact List.mem_cons_self
  next e hout =>
    have hcode : e.code = .bus ∨ e.code = .capacity :=
      (outcomeOf_eq_some hout).imp_right (code_of_compressErr h)
    have herr : e.code.num ∈ [0, ErrCode.capacity.num, ErrCode.bus.num] := by
      obtain hcode | hcode := hcode <;> rw [hcode] <;> decide
    split <;> exact herr
  next e _ hrun =>
    have herr : e.code.num ∈ [0, ErrCode.capacity.num, ErrCode.bus.num] := by
      rw [code_of_encodeRun_error h hrun]
      decide
    exact herr

theorem code_of_upfront_compress {f : BitFmt} {s : State} {e : Err} (h : upfront (.compress f) s = some e) :
    e.code = .empty ∨ e.code = .range := by
  have hmem := firstFailure_mem h
  simp only [upfrontChecks, emptyCheck, rangeCheck, List.map_cons, List.map_nil, List.mem_cons, List.not_mem_nil,
    or_false] at hmem
  obtain rfl | rfl | rfl | rfl := hmem
  · exact .inl rfl
  all_goals exact .inr rfl

/-- COMPRESS never ends with `E_LOOKUP` or `E_SEQUENCE` (R172). -/
theorem errcode_exec_compress {f : BitFmt} {s t : State} (h : exec (.compress f) s = .next t) :
    t.regs.errcode ≠ 6 ∧ t.regs.errcode ≠ 9 := by
  rw [exec_eq_checked] at h
  obtain ⟨_, -, hc⟩ | ⟨e, -, hu, hc⟩ | ⟨-, hu, hc⟩ := checked_cases (.compress f) s (bodyOf (.compress f) s)
  · cases hc.symm.trans h
  · cases hc.symm.trans h
    rw [raiseFor_regs, Regs.fail_errcode]
    obtain hcode | hcode := code_of_upfront_compress hu <;> rw [hcode] <;> decide
  · obtain ⟨tb, ls, htb, hend⟩ := compressBody_eq hu
    cases (hend.symm.trans hc.symm).trans h
    have hmem := errcode_compressEnd (f := f) (ls := ls) htb.coded
    generalize (compressEnd (.compress f) s tb ls).regs.errcode = c at hmem ⊢
    revert c
    decide

/-! With no failing address (R170). -/

section
variable {f : BitFmt} {s : State} {tb : Tables} {ls : List (BitString × Byte)}

theorem failing_compress_eq_nil (hquiet : Quiet (.compress f) s) (m n : Nat) :
    failing s [srcText s.cfg, (dstRange s.cfg).first m, (toutRange s.cfg).first n] = [] := by
  refine failing_eq_nil_of_imp hquiet fun a ha => ?_
  simp only [readRanges, writeRanges, List.cons_append, List.nil_append, inRanges_cons] at ha ⊢
  exact ha.imp_right fun ha => ha.imp has_of_has_first fun ha => ha.imp_left has_of_has_first

/-- A stream that does not fit DST is `E_CAPACITY` 2 (R170). -/
theorem compressEnd_overflows (hquiet : Quiet (.compress f) s) (htb : TextTables (srcBytes s) tb ls)
    (hbig : 0xFFFFFFFF < (streamOf tb.code (srcBytes s)).length
      ∨ s.cfg.bufs.dstCap.toNat < streamBytes f (streamOf tb.code (srcBytes s)).length) :
    compressEnd (.compress f) s tb ls
      = raiseFor (.compress f) ⟨.capacity, BufId.dst.num⟩ { s with tabs := tb } := by
  simp only [compressEnd, Instr.fmt, encodeRun_overflows htb.coded hbig, compressErr,
    outcomeOf_quiet (failing_compress_eq_nil hquiet _ _)]
  exact if_neg fun h => nomatch h.1

section
variable (hquiet : Quiet (.compress f) s) (htb : TextTables (srcBytes s) tb ls)
  (hlen : (streamOf tb.code (srcBytes s)).length ≤ 0xFFFFFFFF)
  (hcap : streamBytes f (streamOf tb.code (srcBytes s)).length ≤ s.cfg.bufs.dstCap.toNat)
include hquiet htb hlen hcap

/-- A stream that fits and a tree text that does not is `E_CAPACITY` 3 (R170). -/
theorem compressEnd_text_overflows (hbig : s.cfg.bufs.toutCap.toNat < (treeText ls).length) :
    compressEnd (.compress f) s tb ls
      = raiseFor (.compress f) ⟨.capacity, BufId.tout.num⟩ { s with tabs := tb } := by
  simp only [compressEnd, Instr.fmt, encodeRun_fits htb.coded hlen hcap, compressErr, textCheck, if_pos hbig,
    outcomeOf_quiet (failing_compress_eq_nil hquiet _ _)]
  exact if_neg fun h => nomatch h.1

/-- Where both fit, COMPRESS succeeds with both in place (R170). -/
theorem compressEnd_fits (htext : (treeText ls).length ≤ s.cfg.bufs.toutCap.toNat) :
    compressEnd (.compress f) s tb ls = complete { s with
      tabs := tb
      regs := (s.regs.encoded (streamOf tb.code (srcBytes s)).length s.cfg.bufs.srcLen.toNat).serialized
        (treeText ls).length
      mem := writeBytes (writeBytes s.mem (dstRange s.cfg).base (streamImage f (streamOf tb.code (srcBytes s))))
        (toutRange s.cfg).base (treeText ls) } := by
  simp only [compressEnd, Instr.fmt, encodeRun_fits htb.coded hlen hcap, compressErr, textCheck,
    if_neg (Nat.not_lt.mpr htext), outcomeOf_quiet (failing_compress_eq_nil hquiet _ _)]

end

end

/-- The ranges of COMPRESS's two results share no byte (R86). -/
theorem dst_tout_disjoint {f : BitFmt} {s : State} (h : noMeaning (.compress f) s = none) {a : Nat}
    (hd : (dstRange s.cfg).has a = true) : (toutRange s.cfg).has a = false := by
  refine Bool.eq_false_iff.mpr fun ht => ?_
  have hover : overlapping (.compress f) s.cfg = true :=
    (overlapping_iff _ _).mpr (.inr ⟨⟨f, rfl⟩, Range.meets_iff.mpr ⟨a, hd, ht⟩⟩)
  rw [noMeaning_overlap_iff.mpr hover] at h
  cases h

/-- Where both results fit, COMPRESS succeeds: the registers hold their lengths and the ratio, DST the stream, TOUT the
text, and nothing else of memory has changed (R170). -/
theorem compress_success {f : BitFmt} {s : State} {tb : Tables} {ls : List (BitString × Byte)}
    (hready : Ready (.compress f) s) (hquiet : Quiet (.compress f) s) (htb : TextTables (srcBytes s) tb ls)
    (hlen : (streamOf tb.code (srcBytes s)).length ≤ 0xFFFFFFFF)
    (hcap : streamBytes f (streamOf tb.code (srcBytes s)).length ≤ s.cfg.bufs.dstCap.toNat)
    (htext : (treeText ls).length ≤ s.cfg.bufs.toutCap.toNat) :
    let t := compressEnd (.compress f) s tb ls
    let e := (streamOf tb.code (srcBytes s)).length
    EndsWell s t ∧ t.tabs = tb ∧ t.regs.dstLen.toNat = e ∧ t.regs.toutLen.toNat = (treeText ls).length
      ∧ t.regs.ratio.toNat = rhe (e * 1250) s.cfg.bufs.srcLen.toNat
      ∧ readBits t.mem s.cfg.bufs.dstBase.toNat e f = (streamOf tb.code (srcBytes s)).map some
      ∧ readBytes t.mem s.cfg.bufs.dstBase.toNat (streamBytes f e) = streamImage f (streamOf tb.code (srcBytes s))
      ∧ readBytes t.mem s.cfg.bufs.toutBase.toNat (treeText ls).length = treeText ls
      ∧ MemSameOutside (writtenRanges (.compress f) s.cfg t.regs) s t := by
  intro t e
  have hwrites : MemSameOutside (writtenRanges (.compress f) s.cfg t.regs) s t := by
    refine (compressEnd_writesWithin f s tb ls).2.1 ?_
    rw [compressEnd_fits hquiet htb hlen hcap htext]
    rfl
  have hdst : ∀ j < streamBytes f e, t.mem.read (s.cfg.bufs.dstBase.toNat + j)
      = (writeBytes s.mem s.cfg.bufs.dstBase.toNat (streamImage f (streamOf tb.code (srcBytes s)))).read
        (s.cfg.bufs.dstBase.toNat + j) := by
    intro j hj
    have hin : (dstRange s.cfg).has (s.cfg.bufs.dstBase.toNat + j) = true :=
      Range.has_iff.mpr ⟨Nat.le_add_right _ _, Nat.add_lt_add_left (hj.trans_le hcap) _⟩
    have hout : Range.has ⟨(toutRange s.cfg).base, (treeText ls).length⟩ (s.cfg.bufs.dstBase.toNat + j) = false :=
      Bool.eq_false_iff.mpr fun hin' =>
        Bool.eq_false_iff.mp (dst_tout_disjoint hready.1 hin) (has_of_has_shorter (w := toutRange s.cfg) htext hin')
    simp only [t, compressEnd_fits hquiet htb hlen hcap htext]
    exact read_writeBytes_of_has_false hout
  have hsrc : 0 < s.cfg.bufs.srcLen.toNat := srcLen_pos_of_upfront hready.2 (by simp [upfrontChecks])
  have he : e ≤ 255 * s.cfg.bufs.srcLen.toNat := by
    rw [← length_srcBytes]
    exact length_streamOf_le htb.short _
  have hbits := (readBits_congr hdst).trans (readBits_streamImage f s.mem _ _)
  have hbytes := readBytes_congr hdst
  rw [← length_streamImage f, readBytes_writeBytes, length_streamImage f] at hbytes
  refine ⟨?_, ?_, ?_, ?_, ?_, hbits, hbytes, ?_, hwrites⟩ <;>
    simp only [t, compressEnd_fits hquiet htb hlen hcap htext]
  · exact endsWell_complete ..
  · rfl
  · exact Nat.mod_eq_of_lt (by omega)
  · exact toNat_ofNat_of_le_cap htext
  · exact toNat_ratioOf hsrc he
  · exact readBytes_writeBytes ..

theorem streamBytes_le (f : BitFmt) (e : Nat) : streamBytes f e ≤ e := by
  cases f with
  | ascii => exact Nat.le_refl e
  | packed =>
    simp only [streamBytes, ceil8]
    omega

theorem TextTables.total_eq {s : State} {tb : Tables} {ls : List (BitString × Byte)}
    (h : TextTables (srcBytes s) tb ls) : tb.total = s.cfg.bufs.srcLen := by
  rw [h.total, length_srcBytes, BitVec.ofNat_toNat, BitVec.setWidth_eq]

/-- With no failing address COMPRESS leaves the tables of its text, whatever it ends with (R170). -/
theorem tabs_compressEnd {f : BitFmt} {s : State} {tb : Tables} {ls : List (BitString × Byte)}
    (hquiet : Quiet (.compress f) s) (htb : TextTables (srcBytes s) tb ls) :
    (compressEnd (.compress f) s tb ls).tabs = tb := by
  by_cases hfits : (streamOf tb.code (srcBytes s)).length ≤ 0xFFFFFFFF
      ∧ streamBytes f (streamOf tb.code (srcBytes s)).length ≤ s.cfg.bufs.dstCap.toNat
  · obtain ⟨hlen, hcap⟩ := hfits
    by_cases htext : (treeText ls).length ≤ s.cfg.bufs.toutCap.toNat
    · rw [compressEnd_fits hquiet htb hlen hcap htext, complete_tabs]
    · rw [compressEnd_text_overflows hquiet htb hlen hcap (Nat.lt_of_not_le htext), raiseFor_tabs]
  · rw [compressEnd_overflows hquiet htb (by omega), raiseFor_tabs]

/-- COMPRESS past its checks with no failing address: it ends, and over the tables of its text (R170). -/
theorem exec_compress_quiet {f : BitFmt} {s : State} (hready : Ready (.compress f) s) (hquiet : Quiet (.compress f) s) :
    ∃ t ls, exec (.compress f) s = .next t ∧ compressEnd (.compress f) s t.tabs ls = t
      ∧ TextTables (srcBytes s) t.tabs ls := by
  obtain ⟨tb, ls, htb, hend⟩ := compressBody_eq hready.2
  have htabs := tabs_compressEnd hquiet htb
  exact ⟨_, ls, (exec_ready hready).trans hend, by rw [htabs], htabs.symm ▸ htb⟩

/-- Settles O46: past its checks COMPRESS ends over the tables of its text, in one of three ways with no failing
address; its error kinds are `E_CAPACITY`, `E_BUS` and those of its upfront checks, and it builds what it walks. -/
theorem compressDeliversItsResults : Obligations.CompressDeliversItsResults := by
  refine ⟨fun f s hready hquiet hdst htout => ?_, fun f s hready hquiet => ?_, fun f s t h => errcode_exec_compress h,
    exec_compress_ne_fault⟩ <;>
    obtain ⟨t, ls, hexec, ht, htb⟩ := exec_compress_quiet hready hquiet
  · have he : (streamOf t.tabs.code (srcBytes s)).length ≤ 255 * s.cfg.bufs.srcLen.toNat := by
      rw [← length_srcBytes]
      exact length_streamOf_le htb.short _
    have hbytes := streamBytes_le f (streamOf t.tabs.code (srcBytes s)).length
    have hcap := s.cfg.bufs.dstCap.isLt
    have hsuccess := compress_success hready hquiet htb (by omega) (by omega) (htb.text.trans htout)
    rw [ht] at hsuccess
    obtain ⟨hwell, -, hdstLen, htoutLen, hratio, hbits, himage, htext, hframe⟩ := hsuccess
    rw [← hdstLen] at hratio hbits himage
    rw [← htoutLen] at htext
    exact ⟨t, ls, hexec, hwell, htb.freqV, htb.treeV, htb.codeV, htb.counts, htb.total_eq, htb.nsym, htb.walk, htb.codes,
      hdstLen, hbits, by cases f <;> exact himage, hratio, htoutLen, htext, hframe⟩
  · refine ⟨t, ls, hexec, htb.freqV, htb.treeV, htb.codeV, htb.counts, htb.total_eq, htb.nsym, htb.walk, htb.codes, ?_⟩
    intro e need fits
    have hneed : need = streamBytes f e := by cases f <;> rfl
    refine ⟨fun hover => ?_, fun ⟨hlen, hcap⟩ hover => ?_, fun ⟨hlen, hcap⟩ htext => ?_⟩
    · have hbig : 0xFFFFFFFF < e ∨ s.cfg.bufs.dstCap.toNat < streamBytes f e := by
        rw [← hneed]
        exact (not_and_or.mp hover).imp Nat.lt_of_not_le Nat.lt_of_not_le
      rw [ht.symm.trans (compressEnd_overflows hquiet htb hbig)]
      exact endsInError_raiseFor ..
    · rw [hneed] at hcap
      rw [ht.symm.trans (compressEnd_text_overflows hquiet htb hlen hcap hover)]
      exact endsInError_raiseFor ..
    · rw [hneed] at hcap ⊢
      have hsuccess := compress_success hready hquiet htb hlen hcap htext
      rw [ht] at hsuccess
      obtain ⟨hwell, -, hdstLen, htoutLen, hratio, -, himage, htout, hframe⟩ := hsuccess
      exact ⟨hwell, hdstLen, htoutLen, hratio, himage, htout, hframe⟩

end Sys2Proof.Machine
end

section
/-!
PROOF. Command words (R90 to R93): the fields of a word as numbers, which words decode, and the two directions of
decoding and encoding.
-/
namespace Sys2Proof.Machine

/-! The fields of a word (R90). -/

theorem toNat_opField (w : Word) : (opField w).toNat = w.toNat % 16 := by
  simp [opField]

theorem lowReserved_eq_zero_iff {w : Word} : w.extractLsb' 4 4 = 0 ↔ w.toNat / 16 % 16 = 0 := by
  simp [← BitVec.toNat_inj, Nat.shiftRight_eq_div_pow]

theorem highReserved_eq_zero_iff {w : Word} : w.extractLsb' 9 23 = 0 ↔ w.toNat < 512 := by
  have hw : w.toNat < 2 ^ 32 := w.isLt
  have hfield : (w.extractLsb' 9 23).toNat = w.toNat / 512 % 2 ^ 23 := by
    rw [BitVec.extractLsb'_toNat, Nat.shiftRight_eq_div_pow]
  have hzero : w.extractLsb' 9 23 = 0 ↔ (w.extractLsb' 9 23).toNat = 0 := BitVec.toNat_inj.symm
  rw [hzero, hfield]
  omega

/-- The format bit is bit 8, in its place (R90). -/
theorem fmtBit_fmtField (w : Word) : fmtBit (fmtField w) = w &&& 0x100 := by
  have hbit : w &&& 0x100 = if w.getLsbD 8 then 0x100 else 0 := BitVec.and_twoPow w 8
  rw [hbit, fmtField]
  split <;> rfl

theorem toNat_fmtBit_fmtField (w : Word) : (fmtBit (fmtField w)).toNat = 256 * (w.toNat / 256 % 2) := by
  have hbit : w.getLsbD 8 = decide (w.toNat / 256 % 2 = 1) := Nat.testBit_eq_decide_div_mod_eq
  rw [fmtField, hbit]
  obtain h | h := Nat.mod_two_eq_zero_or_one (w.toNat / 256) <;> rw [h] <;> rfl

/-- Clearing bit 8 takes away the format bit and nothing else. -/
theorem toNat_clear_bit8 (w : Word) : (w &&& 0xFFFFFEFF).toNat + (fmtBit (fmtField w)).toNat = w.toNat := by
  have hdisjoint : (w &&& 0xFFFFFEFF) &&& (w &&& 0x100) = 0 := by
    calc (w &&& 0xFFFFFEFF) &&& (w &&& 0x100) = w &&& w &&& (0xFFFFFEFF &&& 0x100) := by ac_rfl
      _ = 0 := BitVec.and_zero
  calc (w &&& 0xFFFFFEFF).toNat + (fmtBit (fmtField w)).toNat
      = ((w &&& 0xFFFFFEFF) + (w &&& 0x100)).toNat := by
        rw [fmtBit_fmtField, BitVec.toNat_add_of_and_eq_zero hdisjoint]
    _ = (w &&& (0xFFFFFEFF ||| 0x100)).toNat := by
        rw [BitVec.add_eq_or_of_and_eq_zero _ _ hdisjoint, BitVec.and_or_distrib_left]
    _ = w.toNat := congrArg BitVec.toNat (BitVec.and_allOnes (x := w))

/-! The opcode map (R92). -/

theorem commandOf_eq_some_iff {n : Nat} {f : BitFmt} {i : Instr} :
    commandOf n f = some i ↔ i.opcode.toNat = n ∧ i.fmt = f := by
  constructor
  · intro h
    unfold commandOf at h
    split at h <;> cases h <;> exact ⟨rfl, rfl⟩
  · rintro ⟨rfl, rfl⟩
    cases i <;> rfl

/-- The opcodes are 1 to 9, each some command's (R92). -/
theorem exists_commandOf_iff {n : Nat} {f : BitFmt} : (∃ i, commandOf n f = some i) ↔ 1 ≤ n ∧ n ≤ 9 := by
  constructor
  · rintro ⟨i, hi⟩
    obtain ⟨rfl, -⟩ := commandOf_eq_some_iff.mp hi
    cases i <;> simp [Instr.opcode]
  · rintro ⟨hlo, hhi⟩
    interval_cases n <;> exact ⟨_, rfl⟩

/-! Decoding (R90, R92, R93). -/

/-- A word decodes to the command of its opcode in its format, where its reserved bits are 0. -/
theorem decode_eq_ok_iff {w : Word} {i : Instr} : decode w = .ok i ↔
    w.extractLsb' 4 4 = 0 ∧ w.extractLsb' 9 23 = 0 ∧ commandOf (opField w).toNat (fmtField w) = some i := by
  have hlow : lowReservedZero w = true ↔ w.extractLsb' 4 4 = 0 := decide_eq_true_iff
  have hhigh : highReservedZero w = true ↔ w.extractLsb' 9 23 = 0 := decide_eq_true_iff
  rw [← hlow, ← hhigh, decode]
  cases lowReservedZero w
  · simp
  cases highReservedZero w
  · simp
  · cases commandOf (opField w).toNat (fmtField w) <;> simp

theorem exists_decode_iff {w : Word} : (∃ i, decode w = .ok i) ↔
    w.extractLsb' 4 4 = 0 ∧ w.extractLsb' 9 23 = 0 ∧ 1 ≤ (opField w).toNat ∧ (opField w).toNat ≤ 9 := by
  simp only [decode_eq_ok_iff, exists_and_left, exists_commandOf_iff]

theorem toNat_encode (i : Instr) : (encode i).toNat = i.opcode.toNat + (fmtBit i.fmt).toNat := by
  cases i with | _ f => cases f <;> rfl

/-- A word that decodes is the word of its command: its opcode and its format bit are all that is not 0. -/
theorem encode_of_decode {w : Word} {i : Instr} (h : decode w = .ok i) : encode i = w := by
  obtain ⟨hlow, hhigh, hcommand⟩ := decode_eq_ok_iff.mp h
  obtain ⟨hop, hfmt⟩ := commandOf_eq_some_iff.mp hcommand
  rw [lowReserved_eq_zero_iff] at hlow
  rw [highReserved_eq_zero_iff] at hhigh
  refine BitVec.eq_of_toNat_eq ?_
  rw [toNat_encode, hop, hfmt, toNat_opField, toNat_fmtBit_fmtField]
  omega

/-- Settles O2: one way is `decode_encode`, back is `encode_of_decode`, and with bit 8 cleared a word that decodes is
its opcode. -/
theorem decodeAndEncodeAgree : Obligations.DecodeAndEncodeAgree := by
  refine ⟨decode_encode, fun w i => encode_of_decode, fun w => ?_⟩
  have hclear := toNat_clear_bit8 w
  rw [toNat_fmtBit_fmtField] at hclear
  rw [exists_decode_iff, lowReserved_eq_zero_iff, highReserved_eq_zero_iff, toNat_opField]
  omega

/-- Settles O1: each word evaluated. -/
theorem writtenWordsDecode : Obligations.WrittenWordsDecode := by
  unfold Obligations.WrittenWordsDecode
  decide

end Sys2Proof.Machine
end

section
/-!
PROOF. Illegal words (R93) and launches (R91).
-/
namespace Sys2Proof.Machine

/-! Illegal words (R93). -/

/-- R93's three ways for a word to be illegal. -/
def IllegalWord (w : Word) : Prop :=
  w.extractLsb' 0 4 = 0 ∨ 0xA ≤ (w.extractLsb' 0 4).toNat ∨ w.extractLsb' 4 4 ≠ 0 ∨ w.extractLsb' 9 23 ≠ 0

theorem exists_decode_iff_not_illegal {w : Word} : (∃ i, decode w = .ok i) ↔ ¬ IllegalWord w := by
  have hop : w.extractLsb' 0 4 = 0 ↔ (opField w).toNat = 0 := BitVec.toNat_inj.symm
  rw [exists_decode_iff, IllegalWord, hop, ← opField]
  simp only [ne_eq, lowReserved_eq_zero_iff, highReserved_eq_zero_iff]
  omega

theorem decode_error_of_illegal {w : Word} (h : IllegalWord w) : ∃ e, decode w = .error e := by
  cases hdec : decode w with
  | error e => exact ⟨e, rfl⟩
  | ok i => exact absurd h (exists_decode_iff_not_illegal.mp ⟨i, hdec⟩)

theorem completeRunning_of_error {s : State} {c : LaunchCopy} {e : DecodeError} (hbusy : s.engine = .busy c)
    (hdec : decode c.cmd = .error e) : completeRunning s = .next (raiseIllegal c.cmd s) := by
  simp only [completeRunning, hbusy, hdec]

/-- An illegal word reports itself (R93, R190). -/
theorem endsInError_raiseIllegal (w : Word) (s : State) : EndsInError 10 w s (raiseIllegal w s) :=
  ⟨rfl, rfl, ⟨rfl, rfl, rfl⟩, ⟨rfl, rfl, rfl, rfl, rfl, rfl⟩, rfl, rfl, rfl, rfl, rfl⟩

/-- Settles O3: an illegal word does not decode, so it completes as `raiseIllegal` does. -/
theorem illegalWordsEndInError : Obligations.IllegalWordsEndInError := by
  intro s c hbusy
  refine ⟨fun hillegal => ?_, exists_decode_iff_not_illegal.mpr⟩
  obtain ⟨e, hdec⟩ := decode_error_of_illegal hillegal
  exact ⟨_, completeRunning_of_error hbusy hdec, endsInError_raiseIllegal .., ⟨rfl, rfl, rfl⟩, rfl, rfl⟩

/-! Launches (R91). -/

/-- An idle engine launches the word written to `CMD` (R91). -/
theorem writeReg_cmd_idle (w : Word) {s : State} (hidle : s.engine = .idle) :
    writeReg .cmd w s = .next (launch w s) := by
  simp [writeReg, writeWhenIdle, isBusy_idle hidle]

/-- Settles O5: an idle engine launches, and runs or rejects the word on the copy the launch took; a busy one ignores
the write. -/
theorem launchTakesACopy : Obligations.LaunchTakesACopy := by
  intro s w es hev
  rw [step_regWrite hev]
  refine ⟨fun hidle => ?_, fun c hbusy => writeReg_busy w (s := { s with events := es }) hbusy (by decide)⟩
  refine ⟨_, writeReg_cmd_idle w hidle, rfl, rfl, rfl, rfl, rfl, rfl, rfl, rfl, rfl, fun i hdec => ?_, fun e hdec => ?_⟩
  · exact completeRunning_of_decode (launch_engine ..) hdec
  · exact ⟨_, completeRunning_of_error (launch_engine ..) hdec, endsInError_raiseIllegal ..⟩

end Sys2Proof.Machine
end

section
/-!
PROOF. What a command's ending depends on (R185): its inputs are the configuration copy, the tables, the platform, the
draw and the bytes of its read ranges, and every step of every command is a function of these.
-/
namespace Sys2Proof.Machine

/-- Two states that agree on the inputs of command `i` (R185). -/
structure SameInputs (i : Instr) (s s' : State) : Prop where
  cfg : s'.cfg = s.cfg
  tabs : s'.tabs = s.tabs
  platform : s'.platform = s.platform
  drawn : s'.drawn = s.drawn
  reads : ∀ a, inRanges (readRanges i s.cfg) a = true → s'.mem.read a = s.mem.read a

/-- Two endings of command `i` on the copy `c` that are alike (R185): in the tables, the error, the result registers the
command writes and, after a success, the result's bytes. -/
def SameEnding (i : Instr) (c : LaunchCopy) (t t' : State) : Prop :=
  t'.tabs = t.tabs ∧ t'.regs.err = t.regs.err ∧ t'.regs.errcode = t.regs.errcode ∧ t'.regs.errinfo = t.regs.errinfo
  ∧ ((resultsOf i).dstLen = true → t'.regs.dstLen = t.regs.dstLen)
  ∧ ((resultsOf i).toutLen = true → t'.regs.toutLen = t.regs.toutLen)
  ∧ ((resultsOf i).ratio = true → t'.regs.ratio = t.regs.ratio)
  ∧ (t.regs.err = false → ∀ a, inRanges (writtenRanges i c t.regs) a = true → t'.mem.read a = t.mem.read a)

/-- Two outcomes of command `i` on the copy `c` that are alike. -/
def SameOutcome (i : Instr) (c : LaunchCopy) : (o o' : Host.Outcome State Fault Refusal) → Prop
  | .next t, .next t' => SameEnding i c t t'
  | .fault r, .fault r' => r' = r
  | .refused r, .refused r' => r' = r
  | _, _ => False

theorem SameOutcome.next {i : Instr} {c : LaunchCopy} {o o' : Host.Outcome State Fault Refusal} {t : State}
    (h : SameOutcome i c o o') (ht : o = .next t) : ∃ t', o' = .next t' ∧ SameEnding i c t t' := by
  subst ht
  cases o' with
  | next t' => exact ⟨t', rfl, h⟩
  | fault r => exact h.elim
  | refused r => exact h.elim

/-! The bytes of the results (R78). -/

theorem has_of_inRanges_singleton {r : Range} {a : Nat} (h : inRanges [r] a = true) : r.has a = true :=
  (inRanges_cons.mp h).resolve_right nofun

/-- A written text reads back alike, whatever memory held before. -/
theorem read_writeBytes_of_has {base n a : Nat} {bs : List Byte} (hn : n ≤ bs.length)
    (ha : Range.has ⟨base, n⟩ a = true) (m m' : Memory) :
    (writeBytes m' base bs).read a = (writeBytes m base bs).read a := by
  obtain ⟨hlo, hhi⟩ := Range.has_iff.mp ha
  obtain ⟨j, rfl⟩ := Nat.exists_eq_add_of_le hlo
  have hj : j < bs.length := by
    simp only at hhi
    omega
  rw [read_writeBytes_inside bs m' base j hj, read_writeBytes_inside bs m base j hj]

/-- Where two memories agree, they still do once a text is written to both. -/
theorem read_writeBytes_congr {base a : Nat} {bs : List Byte} {m m' : Memory} (h : m'.read a = m.read a) :
    (writeBytes m' base bs).read a = (writeBytes m base bs).read a := by
  cases ha : Range.has ⟨base, bs.length⟩ a with
  | true => exact read_writeBytes_of_has (Nat.le_refl _) ha m m'
  | false => rw [read_writeBytes_of_has_false ha, read_writeBytes_of_has_false ha, h]

theorem streamBytes_mono (f : BitFmt) {d e : Nat} (h : d ≤ e) : streamBytes f d ≤ streamBytes f e := by
  cases f with
  | ascii => exact h
  | packed => exact Nat.div_le_div_right (Nat.add_le_add_right h 7)

/-- A stream's length register holds no more than the stream's length. -/
theorem streamBytes_register_le (f : BitFmt) (bits : BitString) :
    streamBytes f (BitVec.ofNat 32 bits.length).toNat ≤ (streamImage f bits).length := by
  rw [length_streamImage]
  exact streamBytes_mono f (Nat.mod_le ..)

/-! Endings (R189, R190). -/

theorem sameEnding_raiseFor (i : Instr) (c : LaunchCopy) (e : Err) {s s' : State} (h : s'.tabs = s.tabs) :
    SameEnding i c (raiseFor i e s) (raiseFor i e s') := by
  refine ⟨h, rfl, rfl, rfl, fun hw => ?_, fun hw => ?_, fun hw => ?_, nofun⟩ <;> simp [hw]

/-- Two successes over one set of tables that agree on the result registers and the result's bytes. -/
theorem sameEnding_complete {i : Instr} {c : LaunchCopy} {s s' : State} (htabs : s'.tabs = s.tabs)
    (hdst : (resultsOf i).dstLen = true → s'.regs.dstLen = s.regs.dstLen)
    (htout : (resultsOf i).toutLen = true → s'.regs.toutLen = s.regs.toutLen)
    (hratio : (resultsOf i).ratio = true → s'.regs.ratio = s.regs.ratio)
    (hmem : ∀ a, inRanges (writtenRanges i c (complete s).regs) a = true → s'.mem.read a = s.mem.read a) :
    SameEnding i c (complete s) (complete s') :=
  ⟨htabs, rfl, rfl, rfl, hdst, htout, hratio, fun _ => hmem⟩

/-! Steps. -/

section
variable {i : Instr} {s s' : State} (h : SameInputs i s s')
include h

theorem SameInputs.noMeaning : noMeaning i s' = noMeaning i s := by
  simp only [Machine.noMeaning, h.cfg, h.platform]

theorem SameInputs.upfront : upfront i s' = upfront i s := by
  simp only [Machine.upfront, upfrontChecks, h.cfg, h.tabs]

theorem SameInputs.failing (rs : List Range) : failing s' rs = failing s rs := by
  simp only [Machine.failing, h.platform]

theorem SameInputs.outcomeOf (rs : List Range) (d : Option Err) : outcomeOf s' rs d = outcomeOf s rs d := by
  simp only [Machine.outcomeOf, h.failing, h.drawn]

/-- A read range's bytes are alike. -/
theorem SameInputs.read {r : Range} (hr : r ∈ readRanges i s.cfg) {j : Nat} (hj : j < r.len) :
    s'.mem.read (r.base + j) = s.mem.read (r.base + j) :=
  h.reads _ (List.any_eq_true.mpr ⟨r, hr, Range.has_iff.mpr ⟨Nat.le_add_right .., Nat.add_lt_add_left hj _⟩⟩)

theorem SameInputs.srcBytes (hr : srcText s.cfg ∈ readRanges i s.cfg) : srcBytes s' = srcBytes s := by
  simp only [Machine.srcBytes, h.cfg]
  exact readBytes_congr fun j hj => h.read hr hj

theorem SameInputs.treeBytes (hr : treeRange s.cfg ∈ readRanges i s.cfg) : treeBytes s' = treeBytes s := by
  simp only [Machine.treeBytes, h.cfg]
  exact readBytes_congr fun j hj => h.read hr hj

theorem SameInputs.decodeRun {f : BitFmt} (hr : srcStream f s.cfg ∈ readRanges i s.cfg) (tb : Tables) :
    decodeRun tb f s' = decodeRun tb f s := by
  have hbits := readBits_congr (f := f) (n := s.cfg.bufs.srcLen.toNat) fun j hj => h.read hr hj
  simp only [Machine.decodeRun, h.cfg]
  exact congrArg (decodeBits _ _ _ · 0 .top []) hbits

/-- What a command does first depends on its inputs. -/
theorem SameInputs.checked {body body' : Host.Outcome State Fault Refusal} (hbody : SameOutcome i s.cfg body body') :
    SameOutcome i s.cfg (checked i s body) (checked i s' body') := by
  simp only [Machine.checked, h.noMeaning, h.upfront]
  split
  · rfl
  split
  · exact sameEnding_raiseFor _ _ _ h.tabs
  · exact hbody

end

/-! Commands. -/

section
variable {f : BitFmt} {s s' : State}

theorem countBody_sameOutcome (h : SameInputs (.count f) s s') :
    SameOutcome (.count f) s.cfg (countBody (.count f) s) (countBody (.count f) s') := by
  simp only [countBody, h.cfg, h.tabs, h.drawn, h.outcomeOf, h.srcBytes List.mem_cons_self]
  split
  · exact sameEnding_raiseFor _ _ _ rfl
  · exact sameEnding_complete rfl nofun nofun nofun nofun

theorem buildBody_sameOutcome (h : SameInputs (.build f) s s') :
    SameOutcome (.build f) s.cfg (buildBody s) (buildBody s') := by
  simp only [buildBody, h.tabs]
  split
  · rfl
  · exact sameEnding_complete rfl nofun nofun nofun nofun

theorem gencodeBody_sameOutcome (h : SameInputs (.gencode f) s s') :
    SameOutcome (.gencode f) s.cfg (gencodeBody s) (gencodeBody s') := by
  simp only [gencodeBody, h.tabs]
  split
  · rfl
  · exact sameEnding_complete rfl nofun nofun nofun nofun

theorem encodeBody_sameOutcome (h : SameInputs (.encode f) s s') :
    SameOutcome (.encode f) s.cfg (encodeBody (.encode f) s) (encodeBody (.encode f) s') := by
  simp only [encodeBody, h.cfg, h.tabs, h.outcomeOf, h.srcBytes List.mem_cons_self]
  split
  next bits _ _ =>
    exact sameEnding_complete rfl (fun _ => rfl) nofun (fun _ => rfl) fun a ha =>
      read_writeBytes_of_has (streamBytes_register_le f bits) (has_of_inRanges_singleton ha) ..
  next => exact sameEnding_raiseFor _ _ _ h.tabs
  next => exact sameEnding_raiseFor _ _ _ h.tabs

theorem serializeBody_sameOutcome (h : SameInputs (.serialize f) s s') :
    SameOutcome (.serialize f) s.cfg (serializeBody (.serialize f) s) (serializeBody (.serialize f) s') := by
  simp only [serializeBody, h.cfg, h.tabs, h.outcomeOf]
  split
  · rfl
  split
  · exact sameEnding_raiseFor _ _ _ h.tabs
  · exact sameEnding_complete rfl nofun (fun _ => rfl) nofun fun a ha =>
      read_writeBytes_of_has (Nat.mod_le ..) (has_of_inRanges_singleton ha) ..

theorem deserializeBody_sameOutcome (h : SameInputs (.deserialize f) s s') :
    SameOutcome (.deserialize f) s.cfg (deserializeBody (.deserialize f) s) (deserializeBody (.deserialize f) s') := by
  simp only [deserializeBody, h.cfg, h.tabs, h.drawn, h.outcomeOf, h.treeBytes List.mem_cons_self]
  split
  · exact sameEnding_complete rfl nofun nofun nofun nofun
  · exact sameEnding_raiseFor _ _ _ rfl
  · exact sameEnding_raiseFor _ _ _ rfl

theorem decodeBody_sameOutcome (h : SameInputs (.decode f) s s') :
    SameOutcome (.decode f) s.cfg (decodeBody (.decode f) s) (decodeBody (.decode f) s') := by
  simp only [decodeBody, h.cfg, h.tabs, h.outcomeOf, Instr.fmt, h.decodeRun List.mem_cons_self]
  split
  · exact sameEnding_raiseFor _ _ _ h.tabs
  · exact sameEnding_complete rfl (fun _ => rfl) nofun nofun fun a ha =>
      read_writeBytes_of_has (Nat.mod_le ..) (has_of_inRanges_singleton ha) ..

theorem compressEnd_sameEnding (h : SameInputs (.compress f) s s') (tb : Tables) (ls : List (BitString × Byte)) :
    SameEnding (.compress f) s.cfg (compressEnd (.compress f) s tb ls) (compressEnd (.compress f) s' tb ls) := by
  simp only [compressEnd, h.cfg, h.tabs, h.drawn, h.outcomeOf, h.failing, h.srcBytes List.mem_cons_self]
  split
  next bits _ _ =>
    refine sameEnding_complete rfl (fun _ => rfl) (fun _ => rfl) (fun _ => rfl) fun a ha => ?_
    obtain hd | ha := inRanges_cons.mp ha
    · exact read_writeBytes_congr (read_writeBytes_of_has (streamBytes_register_le f bits) hd ..)
    · exact read_writeBytes_of_has (Nat.mod_le ..) (has_of_inRanges_singleton ha) ..
  next => split <;> exact sameEnding_raiseFor _ _ _ rfl
  next => exact sameEnding_raiseFor _ _ _ rfl

theorem compressBody_sameOutcome (h : SameInputs (.compress f) s s') :
    SameOutcome (.compress f) s.cfg (compressBody (.compress f) s) (compressBody (.compress f) s') := by
  simp only [compressBody, h.tabs, h.srcBytes List.mem_cons_self]
  split
  · rfl
  split
  · rfl
  · exact compressEnd_sameEnding h ..

theorem decompressLost_sameEnding (h : SameInputs (.decompress f) s s') (e : Err) :
    SameEnding (.decompress f) s.cfg (decompressLost (.decompress f) s e) (decompressLost (.decompress f) s' e) := by
  simp only [decompressLost, h.cfg, h.tabs, h.drawn, h.outcomeOf]
  split <;> exact sameEnding_raiseFor _ _ _ rfl

theorem decompressEnd_sameEnding (h : SameInputs (.decompress f) s s') (tb : Tables) :
    SameEnding (.decompress f) s.cfg (decompressEnd (.decompress f) s tb) (decompressEnd (.decompress f) s' tb) := by
  simp only [decompressEnd, h.cfg, h.tabs, h.drawn, h.outcomeOf, h.failing, Instr.fmt, h.decodeRun List.mem_cons_self]
  split
  · split <;> exact sameEnding_raiseFor _ _ _ rfl
  · exact sameEnding_complete rfl (fun _ => rfl) nofun nofun fun a ha =>
      read_writeBytes_of_has (Nat.mod_le ..) (has_of_inRanges_singleton ha) ..

theorem decompressBody_sameOutcome (h : SameInputs (.decompress f) s s') :
    SameOutcome (.decompress f) s.cfg (decompressBody (.decompress f) s) (decompressBody (.decompress f) s') := by
  have htree : treeRange s.cfg ∈ readRanges (.decompress f) s.cfg := List.mem_cons_of_mem _ List.mem_cons_self
  simp only [decompressBody, h.tabs, h.treeBytes htree]
  split
  · exact decompressLost_sameEnding h _
  · exact decompressEnd_sameEnding h _

end

/-- From states that agree on its inputs a command ends alike (R185). -/
theorem exec_sameOutcome {i : Instr} {s s' : State} (h : SameInputs i s s') :
    SameOutcome i s.cfg (exec i s) (exec i s') := by
  rw [exec_eq_checked, exec_eq_checked]
  refine h.checked ?_
  cases i with
  | count f => exact countBody_sameOutcome h
  | build f => exact buildBody_sameOutcome h
  | gencode f => exact gencodeBody_sameOutcome h
  | encode f => exact encodeBody_sameOutcome h
  | serialize f => exact serializeBody_sameOutcome h
  | deserialize f => exact deserializeBody_sameOutcome h
  | decode f => exact decodeBody_sameOutcome h
  | compress f => exact compressBody_sameOutcome h
  | decompress f => exact decompressBody_sameOutcome h

/-- Settles O53: the first part is `exec_sameOutcome`; the five commands use their format nowhere, so both spellings
unfold to one meaning. -/
theorem outcomeDependsOnInputsOnly : Obligations.OutcomeDependsOnInputsOnly := by
  refine ⟨fun i s s' t hcfg htabs hplatform hdrawn hreads hexec => ?_, fun s => ⟨rfl, rfl, rfl, rfl, rfl⟩⟩
  have hinputs : SameInputs i s s' :=
    ⟨hcfg.symm, htabs.symm, hplatform.symm, hdrawn.symm, fun a ha => (hreads a ha).symm⟩
  exact (exec_sameOutcome hinputs).next hexec

end Sys2Proof.Machine
end

section
/-!
PROOF. The count step (R100 to R102): COUNT of a legal text counts every byte, and a bus error in the step loses the
frequency table alone.
-/
namespace Sys2Proof.Machine

/-! The table of a text (R100, R101). -/

/-- The sum of the counters, symbol by symbol through the table's reads. -/
theorem sum_map_read_eq_freqTotal (f : Table Word 256) :
    ((List.range 256).map fun b => (f.read b).toNat).sum = freqTotal f := by
  have hcells : f.cells = (List.range 256).map f.read := by
    refine List.ext_getElem (by simp [f.size]) fun i hi _ => ?_
    simp [Table.read, List.getD_eq_getElem?_getD, hi]
  rw [freqTotal, hcells, List.map_map]
  rfl

/-- The counters of a text depend on how often each byte occurs and not on the order (R101). -/
theorem countBytes_perm {bs bs' : List Byte} (h : bs.Perm bs') (hlen : bs.length < 2 ^ 32) :
    countBytes bs = countBytes bs' := by
  refine Table.ext_read fun i hi => BitVec.eq_of_toNat_eq ?_
  have hsym : (BitVec.ofNat 8 i).toNat = i := Nat.mod_eq_of_lt hi
  rw [← hsym, toNat_read_countBytes hlen, toNat_read_countBytes (h.length_eq ▸ hlen), h.count_eq]

/-! COUNT with no failing address (R100). -/

theorem exec_count_quiet {f : BitFmt} {s : State} (hready : Ready (.count f) s) (hquiet : Quiet (.count f) s) :
    exec (.count f) s = .next (complete { s with tabs := s.tabs.counted (srcBytes s) }) := by
  have hfail : failing s [srcText s.cfg] = [] := hquiet
  rw [exec_ready hready]
  simp only [bodyOf, countBody, outcomeOf_quiet hfail]

theorem ofNat_length_srcBytes (s : State) : BitVec.ofNat 32 (srcBytes s).length = s.cfg.bufs.srcLen := by
  rw [length_srcBytes, BitVec.ofNat_toNat, BitVec.setWidth_eq]

/-- Settles O22: with no failing address COUNT ends with the tables of its text, whose counters are known. -/
theorem countCountsEveryByte : Obligations.CountCountsEveryByte := by
  intro f s hready hquiet
  have hlen := length_srcBytes_lt s
  exact ⟨_, exec_count_quiet hready hquiet, endsWell_complete .., ⟨rfl, rfl, rfl⟩, rfl, ⟨rfl, rfl, rfl, rfl⟩,
    ⟨rfl, rfl⟩, rfl, ofNat_length_srcBytes s, toNat_read_countBytes hlen, toNat_nsym_counted hlen s.tabs⟩

/-- Settles O23: the counters are the bytes' occurrences, which sum to the length and ignore the order. -/
theorem countTableSumsToTheLength : Obligations.CountTableSumsToTheLength := by
  refine ⟨fun f s hready hquiet => ?_, fun f f' s s' hready hquiet hready' hquiet' hperm => ?_⟩
  · have hlen := length_srcBytes_lt s
    refine ⟨_, exec_count_quiet hready hquiet, ?_, ofNat_length_srcBytes s, fun b => ?_⟩
    · have htotal : (BitVec.ofNat 32 (srcBytes s).length).toNat = (srcBytes s).length := Nat.mod_eq_of_lt hlen
      rw [sum_map_read_eq_freqTotal, complete_tabs, Tables.counted_freq, Tables.counted_total,
        freqTotal_countBytes hlen, htotal]
    · rw [complete_tabs, Tables.counted_freq, toNat_read_countBytes hlen, List.count_pos_iff]
  · exact ⟨_, _, exec_count_quiet hready hquiet, exec_count_quiet hready' hquiet',
      countBytes_perm hperm (length_srcBytes_lt s)⟩

/-! A bus error in the count step (R102). -/

/-- With a failing address and no data-check error the outcome is a bus error (R186). -/
theorem outcomeOf_failing {s : State} {rs : List Range} (h : failing s rs ≠ []) :
    ∃ a, outcomeOf s rs none = some (errAt .bus a) := by
  obtain ⟨hnil, -⟩ | ⟨-, hnone, -⟩ | ⟨a, -, ho⟩ := outcomeOf_cases s rs none
  · exact absurd hnil h
  · exact absurd rfl hnone
  · exact ⟨a, ho⟩

/-- Only `E_BUS` has the number 12 (R180). -/
theorem ErrCode.eq_bus_of_num {c : ErrCode} (h : c.num = 12) : c = .bus := by
  revert h
  cases c <;> decide

/-- The encode and serialize steps of COMPRESS with a failing address in SRC: an `E_BUS` is the count step's (R102,
R170). -/
theorem tabs_compressEnd_of_bus {i : Instr} {s : State} {tb : Tables} {ls : List (BitString × Byte)}
    (hfail : failing s [srcText s.cfg] ≠ []) (hbus : (compressEnd i s tb ls).regs.errcode = 12) :
    (compressEnd i s tb ls).tabs = s.tabs.countLost s.drawn := by
  have hnotNone : ∀ rs d, outcomeOf s (srcText s.cfg :: rs) d ≠ none := fun rs d hnone =>
    hfail (failing_eq_nil_of_imp (outcomeOf_eq_none.mp hnone).1 fun a ha =>
      inRanges_cons.mpr (.inl ((inRanges_cons.mp ha).resolve_right nofun)))
  simp only [compressEnd] at hbus ⊢
  split at hbus
  next hnone _ => exact absurd hnone (hnotNone _ _)
  next e _ =>
    have hcode : e.code = .bus := by
      split at hbus <;> exact ErrCode.eq_bus_of_num hbus
    rw [if_pos ⟨hcode, hfail⟩]
    rfl
  next hnone _ => exact absurd hnone (hnotNone _ _)

/-- Settles O24: the outcome of COUNT is then a bus error, and of COMPRESS an `E_BUS` is its count step's. -/
theorem countBusErrorLosesTheTable : Obligations.CountBusErrorLosesTheTable := by
  refine ⟨fun f s hready hfail => ?_, fun f s t hready hfail _ hexec hbus => ?_⟩
  · obtain ⟨a, ho⟩ := outcomeOf_failing (rs := [srcText s.cfg]) hfail
    have hbody : exec (.count f) s
        = .next (raiseFor (.count f) (errAt .bus a) { s with tabs := s.tabs.countLost s.drawn }) := by
      rw [exec_ready hready]
      simp only [bodyOf, countBody, ho]
    exact ⟨_, _, hbody, endsInError_raiseFor .., Tables.countLost_freqV .., sameTree_countLost ..,
      ⟨Tables.countLost_code .., Tables.countLost_codeV ..⟩, ⟨rfl, rfl, rfl⟩, rfl⟩
  · obtain ⟨tb, ls, -, hend⟩ := compressBody_eq hready.2
    rw [exec_ready hready] at hexec
    cases hend.symm.trans hexec
    have htabs := tabs_compressEnd_of_bus hfail hbus
    rw [TreeSame, CodeSame, htabs]
    exact ⟨Tables.countLost_freqV .., sameTree_countLost .., Tables.countLost_code .., Tables.countLost_codeV ..⟩

end Sys2Proof.Machine
end

section
/-!
PROOF. ENCODE of a text with a byte that has no code (R125, R126).
-/
namespace Sys2Proof.Machine

/-- The lookups stop at the first byte with no code, with its offset (R126). -/
theorem encodeStream_of_missing {code : Table BitString 256} {pre : List Byte} {b : Byte}
    (hpre : ∀ c ∈ pre, code.read c.toNat ≠ []) (hb : code.read b.toNat = []) (post : List Byte) (i : Nat) :
    encodeStream code (pre ++ b :: post) i = .error (i + pre.length) := by
  induction pre generalizing i with
  | nil => exact if_pos (by rw [hb]; rfl)
  | cons c pre ih =>
    have hc : (code.read c.toNat).length ≠ 0 := fun hlen =>
      hpre c List.mem_cons_self (List.length_eq_zero_iff.mp hlen)
    rw [List.cons_append, encodeStream, if_neg hc, ih (fun d hd => hpre d (List.mem_cons_of_mem c hd)),
      List.length_cons, Nat.add_assoc, Nat.add_comm 1]

/-- Settles O32: the encode step looks every byte up before it checks DST, and no access fails. -/
theorem lookupErrorAtTheFirstMissingByte : Obligations.LookupErrorAtTheFirstMissingByte := by
  intro f s pre post b hready hquiet hsrc hpre hb
  have hstream : encodeStream s.tabs.code (srcBytes s) 0 = .error pre.length := by
    rw [hsrc, encodeStream_of_missing hpre hb, Nat.zero_add]
  have hfail : ∀ n, failing s [srcText s.cfg, (dstRange s.cfg).first n] = [] := fun n =>
    failing_eq_nil_of_imp hquiet fun a ha => by
      simp only [readRanges, writeRanges, List.cons_append, List.nil_append, inRanges_cons] at ha ⊢
      exact ha.imp_right fun ha => ha.imp_left has_of_has_first
  have hbody : exec (.encode f) s = .next (raiseFor (.encode f) (errAt .lookup pre.length) s) := by
    rw [exec_ready hready]
    simp only [bodyOf, encodeBody, encodeRun, hstream, errOf, outcomeOf_quiet (hfail _)]
  exact ⟨_, hbody, endsInError_raiseFor (.encode f) _ s s.tabs, rfl⟩

end Sys2Proof.Machine
end

section
/-!
PROOF. The walk of a tree lists its Leaves (R120): the pairs found are those of the paths that lead to a Leaf, and where
two paths part the earlier goes left. GENCODE gives each symbol the path of its last Leaf (R121, R122).
-/
namespace Sys2Proof.Machine

/-! Paths to Leaves, bit by bit. -/

theorem leadsToLeaf_nil {ns : Table Node 511} {k : NodeIdx} {b : Byte} :
    leadsToLeaf ns k [] b = true ↔ (nodeAt ns k).internal = false ∧ (nodeAt ns k).sym = b := by
  simp [leadsToLeaf]

theorem leadsToLeaf_cons {ns : Table Node 511} {k : NodeIdx} {c : Bool} {p : BitString} {b : Byte} :
    leadsToLeaf ns k (c :: p) b = true ↔ (nodeAt ns k).internal = true ∧ childOf (nodeAt ns k) c ≠ Config.nil
      ∧ leadsToLeaf ns (childOf (nodeAt ns k) c) p b = true := by
  cases c <;> simp [leadsToLeaf, childOf, and_assoc]

/-- The paths of two pairs part, the first going left and the second right. -/
def PartsLeft (l m : BitString × Byte) : Prop := ∃ r p q, l.1 = r ++ false :: p ∧ m.1 = r ++ true :: q

/-- `ls` lists the Leaves at and below node `k`, whose path is `p`: `IsWalk` seen from an inner node. -/
structure ListsFrom (ns : Table Node 511) (k : NodeIdx) (p : BitString) (ls : List (BitString × Byte)) : Prop where
  mem : ∀ (q : BitString) (b : Byte), (q, b) ∈ ls ↔ ∃ r, q = p ++ r ∧ leadsToLeaf ns k r b = true
  order : ls.Pairwise PartsLeft

theorem listsFrom_leaf {ns : Table Node 511} {k : NodeIdx} (h : (nodeAt ns k).internal = false) (p : BitString) :
    ListsFrom ns k p [(p, (nodeAt ns k).sym)] := by
  refine ⟨fun q b => ?_, List.pairwise_singleton _ _⟩
  rw [List.mem_singleton, Prod.mk.injEq]
  constructor
  · rintro ⟨rfl, rfl⟩
    exact ⟨[], (List.append_nil q).symm, leadsToLeaf_nil.mpr ⟨h, rfl⟩⟩
  · rintro ⟨r, rfl, hr⟩
    cases r with
    | nil => exact ⟨List.append_nil p, (leadsToLeaf_nil.mp hr).2.symm⟩
    | cons c r => cases h.symm.trans (leadsToLeaf_cons.mp hr).1

/-- The list of a node is its left branch's and then its right branch's, each empty under `NIL`. -/
theorem listsFrom_node {ns : Table Node 511} {k : NodeIdx} (h : (nodeAt ns k).internal = true) {p : BitString}
    {branch : Bool → List (BitString × Byte)}
    (hnil : ∀ c, childOf (nodeAt ns k) c = Config.nil → branch c = [])
    (hchild : ∀ c, childOf (nodeAt ns k) c ≠ Config.nil →
      ListsFrom ns (childOf (nodeAt ns k) c) (p ++ [c]) (branch c)) :
    ListsFrom ns k p (branch false ++ branch true) := by
  have hmem : ∀ c q b, (q, b) ∈ branch c ↔ ∃ r, q = p ++ c :: r ∧ leadsToLeaf ns k (c :: r) b = true := by
    intro c q b
    by_cases hc : childOf (nodeAt ns k) c = Config.nil
    · rw [hnil c hc]
      exact ⟨nofun, fun ⟨_, _, hr⟩ => absurd hc (leadsToLeaf_cons.mp hr).2.1⟩
    · simp only [(hchild c hc).mem, leadsToLeaf_cons, h, hc, List.append_assoc, List.singleton_append, ne_eq,
        not_false_iff, true_and]
  have horder : ∀ c, (branch c).Pairwise PartsLeft := by
    intro c
    by_cases hc : childOf (nodeAt ns k) c = Config.nil
    · rw [hnil c hc]
      exact List.Pairwise.nil
    · exact (hchild c hc).order
  refine ⟨fun q b => ?_, List.pairwise_append.mpr ⟨horder false, horder true, fun l hl m hm => ?_⟩⟩
  · rw [List.mem_append, hmem, hmem]
    constructor
    · rintro (⟨r, hq, hr⟩ | ⟨r, hq, hr⟩)
      · exact ⟨_, hq, hr⟩
      · exact ⟨_, hq, hr⟩
    · rintro ⟨r, hq, hr⟩
      cases r with
      | nil => cases h.symm.trans (leadsToLeaf_nil.mp hr).1
      | cons c r =>
        cases c with
        | false => exact .inl ⟨r, hq, hr⟩
        | true => exact .inr ⟨r, hq, hr⟩
  · obtain ⟨r, hr, -⟩ := (hmem false l.1 l.2).mp hl
    obtain ⟨r', hr', -⟩ := (hmem true m.1 m.2).mp hm
    exact ⟨p, r, r', hr, hr'⟩

/-- The walk from a node lists the Leaves at and below it (R120). -/
theorem listsFrom_of_leavesFrom {ns : Table Node 511} {fuel : Nat} {k : NodeIdx} {p : BitString}
    {ls : List (BitString × Byte)} (h : leavesFrom ns fuel k p = some ls) : ListsFrom ns k p ls := by
  induction fuel generalizing k p ls with
  | zero =>
    cases hk : (nodeAt ns k).internal with
    | true => cases (leavesFrom_zero_internal hk p).symm.trans h
    | false =>
      cases (leavesFrom_leaf hk 0 p).symm.trans h
      exact listsFrom_leaf hk p
  | succ fuel ih =>
    cases hk : (nodeAt ns k).internal with
    | false =>
      cases (leavesFrom_leaf hk _ p).symm.trans h
      exact listsFrom_leaf hk p
    | true =>
      rw [leavesFrom_succ_internal hk, Option.bind_eq_some_iff] at h
      obtain ⟨l, hl, hmap⟩ := h
      obtain ⟨r, hr, rfl⟩ := Option.map_eq_some_iff.mp hmap
      have hbranch : ∀ c, leavesBelow ns fuel (childOf (nodeAt ns k) c) (p ++ [c]) = some (cond c r l) := by
        intro c
        cases c <;> assumption
      refine listsFrom_node (branch := fun c => cond c r l) hk (fun c hc => ?_) fun c hc => ?_
      · have hb := hbranch c
        rw [leavesBelow, if_pos hc] at hb
        exact (Option.some.inj hb).symm
      · have hb := hbranch c
        rw [leavesBelow, if_neg hc] at hb
        exact ih hb

/-- The walk of a tree is the depth-first, left-before-right list of its Leaves (R120, R121). -/
theorem isWalk_of_treeLeaves {ns : Table Node 511} {root : NodeIdx} {ls : List (BitString × Byte)}
    (h : treeLeaves ns root = some ls) : IsWalk ns root ls := by
  refine ⟨fun hroot => ?_, fun hroot => ?_⟩
  · exact (Option.some.inj ((treeLeaves_leaf hroot).symm.trans h)).symm
  · have hlists := listsFrom_of_leavesFrom ((treeLeaves_internal hroot).symm.trans h)
    exact ⟨fun p b => by simpa using hlists.mem p b, hlists.order⟩

/-! GENCODE (R120 to R122). -/

/-- A symbol's code is the path of the last pair that holds it, none if no pair does (R120, R122). -/
theorem read_codeTable (ls : List (BitString × Byte)) (b : Byte) :
    (codeTable ls).read b.toNat = ((ls.reverse.find? fun l => l.2 == b).map fun l => l.1).getD [] := by
  induction ls using List.reverseRecOn with
  | nil => exact Table.read_fill _ _ _ b.isLt
  | append_singleton ls l ih =>
    have hlast : codeTable (ls ++ [l]) = (codeTable ls).write l.2.toNat l.1 := List.foldl_concat ..
    rw [hlast, List.reverse_concat, List.find?_cons, Table.read_write _ _ _ _ l.2.isLt]
    by_cases hb : l.2 = b
    · rw [if_pos (congrArg BitVec.toNat hb), beq_iff_eq.mpr hb]
      rfl
    · rw [if_neg fun hnat => hb (BitVec.eq_of_toNat_eq hnat), ih, beq_eq_false_iff_ne.mpr hb]

/-- A command with no memory range has a meaning in every state (R79, R86). -/
theorem noMeaning_of_no_ranges {i : Instr} {s : State} (hr : readRanges i s.cfg = []) (hw : writeRanges i s.cfg = []) :
    noMeaning i s = none := by
  simp [noMeaning, overlapping, hr, hw, inRanges]

/-- GENCODE of a tree ends with the codes of its walk (R120). -/
theorem exec_gencode (f : BitFmt) {s : State} {ls : List (BitString × Byte)} (hv : s.tabs.treeV = true)
    (hwalk : treeLeaves s.tabs.node s.tabs.root = some ls) :
    exec (.gencode f) s = .next (complete { s with tabs := s.tabs.coded ls }) := by
  have hready : Ready (.gencode f) s :=
    ⟨noMeaning_of_no_ranges rfl rfl, by simp [upfront, upfrontChecks, sequenceCheck, hv]⟩
  rw [exec_ready hready]
  simp only [bodyOf, gencodeBody, hwalk]

/-- Settles O28: the walk is the list of the Leaves, and the code table is written from it in order. -/
theorem gencodeAssignsLeafPaths : Obligations.GencodeAssignsLeafPaths := by
  intro f s ls hv hwalk
  exact ⟨isWalk_of_treeLeaves hwalk, _, exec_gencode f hv hwalk, endsWell_complete .., ⟨rfl, rfl, rfl⟩, rfl,
    ⟨rfl, rfl, rfl, rfl⟩, ⟨rfl, rfl, rfl, rfl⟩, rfl, read_codeTable ls⟩

end Sys2Proof.Machine
end

section
/-!
PROOF. The shape of a built tree (R110, R111, R114): a merge takes the two queued nodes of least key, and at every
moment each node created is once either a child of another or in the queue.
-/
namespace Sys2Proof.Machine

/-! The key order (R111). -/

/-- The key of a node as one number: the weight first, then the index (R111). -/
def nodeKey (ns : Table Node 511) (k : NodeIdx) : Nat := (nodeAt ns k).weight.toNat * 512 + k.toNat

theorem keyLess_iff {ns : Table Node 511} {a b : NodeIdx} :
    keyLess ns a b = true ↔ (nodeAt ns a).weight.toNat < (nodeAt ns b).weight.toNat
      ∨ ((nodeAt ns a).weight.toNat = (nodeAt ns b).weight.toNat ∧ a.toNat < b.toNat) := decide_eq_true_iff

theorem keyLess_iff_nodeKey {ns : Table Node 511} {a b : NodeIdx} :
    keyLess ns a b = true ↔ nodeKey ns a < nodeKey ns b := by
  have ha := a.isLt
  have hb := b.isLt
  rw [keyLess_iff, nodeKey, nodeKey]
  omega

theorem nodeKey_injective (ns : Table Node 511) : Function.Injective (nodeKey ns) := by
  intro a b h
  have ha := a.isLt
  have hb := b.isLt
  rw [nodeKey, nodeKey] at h
  exact BitVec.eq_of_toNat_eq (by omega)

theorem nodeKey_leastKey_le (ns : Table Node 511) {m : NodeIdx} {q : List NodeIdx} :
    ∀ k ∈ m :: q, nodeKey ns (leastKey ns m q) ≤ nodeKey ns k := by
  induction q generalizing m with
  | nil => exact fun k hk => (List.mem_singleton.mp hk) ▸ Nat.le_refl _
  | cons j q ih =>
    have hstep : leastKey ns m (j :: q) = leastKey ns (if keyLess ns j m then j else m) q := rfl
    intro k hk
    rw [hstep]
    split
    next hless =>
      have hj := ih (m := j) j List.mem_cons_self
      rw [keyLess_iff_nodeKey] at hless
      obtain rfl | hk := List.mem_cons.mp hk
      · omega
      · exact ih k hk
    next hless =>
      have hm := ih (m := m) m List.mem_cons_self
      rw [keyLess_iff_nodeKey] at hless
      rw [List.mem_cons, List.mem_cons] at hk
      obtain rfl | rfl | hk := hk
      · exact hm
      · omega
      · exact ih k (List.mem_cons_of_mem _ hk)

/-- `extract_min` takes the node of least key and leaves the others (R111). -/
theorem extractMin_least {ns : Table Node 511} {q q' : List NodeIdx} {x : NodeIdx}
    (h : extractMin ns q = some (x, q')) : q.Perm (x :: q') ∧ ∀ k ∈ q, k ≠ x → keyLess ns x k = true := by
  obtain ⟨hx, rfl⟩ := extractMin_eq_some h
  refine ⟨List.perm_cons_erase hx, fun k hk hne => ?_⟩
  cases q with
  | nil => cases hx
  | cons m q =>
    cases h
    have hle := nodeKey_leastKey_le ns k hk
    exact keyLess_iff_nodeKey.mpr (Nat.lt_of_le_of_ne hle fun heq => hne (nodeKey_injective ns heq.symm))

/-! One merge (R110). -/

/-- The two nodes a round merges: `x` has the least key in the queue and `y` the least in the rest; `q` stays. -/
structure LeastTwo (b : Builder) (x y : NodeIdx) (q : List NodeIdx) : Prop where
  perm : b.queue.Perm (x :: y :: q)
  first : ∀ k ∈ b.queue, k ≠ x → keyLess b.nodes x k = true
  second : ∀ k ∈ y :: q, k ≠ y → keyLess b.nodes y k = true

/-- The builder after the merge of `x` and `y`, with `q` the rest of the queue. -/
def Builder.merged (b : Builder) (x y : NodeIdx) (q : List NodeIdx) : Builder where
  nodes := b.nodes.write b.count (internalNode x y ((nodeAt b.nodes x).weight + (nodeAt b.nodes y).weight))
  count := b.count + 1
  queue := q ++ [BitVec.ofNat 9 b.count]

theorem mergeOnce_eq_merged {b : Builder} (h : 2 ≤ b.queue.length) :
    ∃ x y q, LeastTwo b x y q ∧ mergeOnce b = b.merged x y q := by
  obtain ⟨x, hx, hex⟩ := extractMin_of_ne_nil b.nodes (q := b.queue) (by rintro hq; simp [hq] at h)
  have hlen : (b.queue.erase x).length = b.queue.length - 1 := List.length_erase_of_mem hx
  obtain ⟨y, hy, hey⟩ := extractMin_of_ne_nil b.nodes (q := b.queue.erase x)
    (by rintro hq; rw [hq, List.length_nil] at hlen; omega)
  obtain ⟨hperm, hfirst⟩ := extractMin_least hex
  obtain ⟨hperm', hsecond⟩ := extractMin_least hey
  exact ⟨x, y, _, ⟨hperm.trans (hperm'.cons x), hfirst, fun k hk => hsecond k (hperm'.mem_iff.mpr hk)⟩,
    by simp only [mergeOnce, hex, hey, Builder.merged]⟩

section
variable {n : Nat} {b : Builder} {x y : NodeIdx} {q : List NodeIdx}

theorem LeastTwo.x_lt (h : LeastTwo b x y q) (hok : BuilderOk n b) : x.toNat < b.count :=
  hok.queued x (h.perm.mem_iff.mpr List.mem_cons_self)

theorem LeastTwo.y_lt (h : LeastTwo b x y q) (hok : BuilderOk n b) : y.toNat < b.count :=
  hok.queued y (h.perm.mem_iff.mpr (List.mem_cons_of_mem _ List.mem_cons_self))

theorem LeastTwo.q_lt (h : LeastTwo b x y q) (hok : BuilderOk n b) {k : NodeIdx} (hk : k ∈ q) : k.toNat < b.count :=
  hok.queued k (h.perm.mem_iff.mpr (List.mem_cons_of_mem _ (List.mem_cons_of_mem _ hk)))

/-- A round finds room in the store, and the index of its node fits. -/
theorem LeastTwo.count_lt (h : LeastTwo b x y q) (hok : BuilderOk n b) : b.count < 511 := by
  have hlen := h.perm.length_eq
  have hbalance := hok.balance
  have hleaves := hok.leaves
  rw [List.length_cons, List.length_cons] at hlen
  omega

theorem LeastTwo.toNat_count (h : LeastTwo b x y q) (hok : BuilderOk n b) :
    (BitVec.ofNat 9 b.count).toNat = b.count := by
  have hcount := h.count_lt hok
  exact Nat.mod_eq_of_lt (by omega)

theorem read_merged_of_ne (b : Builder) (x y : NodeIdx) (q : List NodeIdx) {k : Nat} (hk : k ≠ b.count) :
    (b.merged x y q).nodes.read k = b.nodes.read k :=
  Table.read_write_ne _ _ (Ne.symm hk)

theorem LeastTwo.read_count (h : LeastTwo b x y q) (hok : BuilderOk n b) :
    (b.merged x y q).nodes.read b.count
      = internalNode x y ((nodeAt b.nodes x).weight + (nodeAt b.nodes y).weight) :=
  Table.read_write_same _ _ _ (h.count_lt hok)

end

/-! Children (R110, R114). -/

/-- The children of a built node: an Internal node has two. -/
def childrenOf (d : Node) : List Nat := if d.internal then [d.left.toNat, d.right.toNat] else []

theorem mem_childrenOf {d : Node} {c : Nat} :
    c ∈ childrenOf d ↔ d.internal = true ∧ (d.left.toNat = c ∨ d.right.toNat = c) := by
  cases h : d.internal <;> simp [childrenOf, h, eq_comm]

/-- The children of the first `m` nodes of the store. -/
def placed (ns : Table Node 511) (m : Nat) : List Nat := (List.range m).flatMap fun k => childrenOf (ns.read k)

theorem mem_placed {ns : Table Node 511} {m c : Nat} : c ∈ placed ns m ↔ ∃ k < m, c ∈ childrenOf (ns.read k) := by
  simp [placed]

theorem placed_congr {ns ns' : Table Node 511} {m : Nat} (h : ∀ k < m, ns'.read k = ns.read k) :
    placed ns' m = placed ns m :=
  List.flatMap_congr fun k hk => by rw [h k (List.mem_range.mp hk)]

theorem placed_succ (ns : Table Node 511) (m : Nat) : placed ns (m + 1) = placed ns m ++ childrenOf (ns.read m) := by
  simp [placed, List.range_succ]

/-- When no child is placed twice, a node has one parent at most. -/
theorem parent_unique {ns : Table Node 511} {m c j k : Nat} (h : (placed ns m).Nodup) (hj : j < m) (hk : k < m)
    (hcj : c ∈ childrenOf (ns.read j)) (hck : c ∈ childrenOf (ns.read k)) : j = k := by
  by_contra hne
  have : Std.Symm (Function.onFun List.Disjoint fun k => childrenOf (ns.read k)) := ⟨fun _ _ hd => hd.symm⟩
  have hdisjoint := (List.nodup_flatMap.mp h).2.forall (List.mem_range.mpr hj) (List.mem_range.mpr hk) hne
  exact hdisjoint hcj hck

theorem nodup_childrenOf {ns : Table Node 511} {m k : Nat} (h : (placed ns m).Nodup) (hk : k < m) :
    (childrenOf (ns.read k)).Nodup :=
  (List.nodup_flatMap.mp h).1 k (List.mem_range.mpr hk)

/-! The invariant of the merges (R110, R114). -/

/-- The builder over the store `ns` with the Leaves `ds` in place: after them come the merged nodes, each node is once a
child, of a later node, or in the queue, and nothing else of the store has changed. -/
structure BuilderShape (ds : List Node) (ns : Table Node 511) (b : Builder) : Prop where
  leaf : ∀ k (hk : k < ds.length), b.nodes.read k = ds[k]
  merged : ∀ k, ds.length ≤ k → k < b.count → (b.nodes.read k).internal = true ∧ (b.nodes.read k).sym = 0
  lower : ∀ k < b.count, ∀ c ∈ childrenOf (b.nodes.read k), c < k
  rest : ∀ k, b.count ≤ k → b.nodes.read k = ns.read k
  once : (placed b.nodes b.count ++ b.queue.map BitVec.toNat).Perm (List.range b.count)

theorem read_placeNodes_ge (ds : List Node) {ns : Table Node 511} {n k : Nat} (hk : n + ds.length ≤ k) :
    (placeNodes ns n ds).read k = ns.read k := by
  induction ds generalizing ns n with
  | nil => rfl
  | cons d ds ih =>
    rw [List.length_cons] at hk
    rw [placeNodes, ih (by omega), Table.read_write_ne _ _ (by omega)]

theorem internal_of_mem_leafNodes {f : Table Word 256} {d : Node} (h : d ∈ leafNodes f) : d.internal = false := by
  obtain ⟨_, _, rfl⟩ := mem_leafNodes h
  rfl

theorem read_startBuilder (ns : Table Node 511) (f : Table Word 256) {k : Nat} (hk : k < (leafNodes f).length) :
    (startBuilder ns (leafNodes f)).nodes.read k = (leafNodes f)[k] := by
  have hlen := length_leafNodes_le f
  have h := read_placeNodes_getElem (leafNodes f) (ns := ns) (n := 0) hk (by omega)
  rwa [Nat.zero_add] at h

theorem toNat_queue_startBuilder (ns : Table Node 511) (f : Table Word 256) :
    (startBuilder ns (leafNodes f)).queue.map BitVec.toNat = List.range (leafNodes f).length := by
  have hlen := length_leafNodes_le f
  rw [startBuilder, List.map_map]
  refine (List.map_congr_left fun k hk => ?_).trans (List.map_id _)
  have hk := List.mem_range.mp hk
  exact Nat.mod_eq_of_lt (by omega)

theorem startBuilder_shape (ns : Table Node 511) (f : Table Word 256) :
    BuilderShape (leafNodes f) ns (startBuilder ns (leafNodes f)) := by
  have hchildless : ∀ k < (leafNodes f).length, childrenOf ((startBuilder ns (leafNodes f)).nodes.read k) = [] := by
    intro k hk
    rw [read_startBuilder ns f hk, childrenOf, internal_of_mem_leafNodes (List.getElem_mem hk)]
    rfl
  have hnone : placed (startBuilder ns (leafNodes f)).nodes (leafNodes f).length = [] :=
    List.flatMap_eq_nil_iff.mpr fun k hk => hchildless k (List.mem_range.mp hk)
  refine ⟨fun k hk => read_startBuilder ns f hk, fun k hk hlt => absurd hlt (Nat.not_lt.mpr hk),
    fun k hk c hc => absurd (hchildless k hk ▸ hc) List.not_mem_nil,
    fun k hk => read_placeNodes_ge _ (by rw [Nat.zero_add]; exact hk), ?_⟩
  rw [show (startBuilder ns (leafNodes f)).count = (leafNodes f).length from rfl, hnone, List.nil_append,
    toNat_queue_startBuilder]

theorem merged_shape {ds : List Node} {ns : Table Node 511} {b : Builder} {x y : NodeIdx} {q : List NodeIdx}
    (hok : BuilderOk ds.length b) (h : BuilderShape ds ns b) (htwo : LeastTwo b x y q) :
    BuilderShape ds ns (b.merged x y q) := by
  have hcreated := hok.created
  have hlast := htwo.read_count hok
  have hother : ∀ k, k ≠ b.count → (b.merged x y q).nodes.read k = b.nodes.read k := fun k hk =>
    read_merged_of_ne b x y q hk
  refine ⟨fun k hk => ?_, fun k hk hlt => ?_, fun k hk c hc => ?_, fun k hk => ?_, ?_⟩
  · rw [hother k (by omega), h.leaf k hk]
  · obtain rfl | hlt := Nat.eq_or_lt_of_le (Nat.le_of_lt_succ hlt)
    · rw [hlast]
      exact ⟨rfl, rfl⟩
    · rw [hother k (by omega)]
      exact h.merged k hk hlt
  · obtain rfl | hk := Nat.eq_or_lt_of_le (Nat.le_of_lt_succ hk)
    · rw [hlast] at hc
      obtain ⟨-, rfl | rfl⟩ := mem_childrenOf.mp hc
      · exact htwo.x_lt hok
      · exact htwo.y_lt hok
    · rw [hother k (by omega)] at hc
      exact h.lower k hk c hc
  · have hk : b.count + 1 ≤ k := hk
    rw [hother k (by omega), h.rest k (by omega)]
  · have hplaced : placed (b.merged x y q).nodes (b.count + 1) = placed b.nodes b.count ++ [x.toNat, y.toNat] := by
      rw [placed_succ, hlast, placed_congr fun k hk => hother k (by omega)]
      rfl
    have hqueue : (b.merged x y q).queue.map BitVec.toNat = q.map BitVec.toNat ++ [b.count] := by
      rw [Builder.merged, List.map_append, List.map_singleton, htwo.toNat_count hok]
    change (placed _ (b.count + 1) ++ _).Perm (List.range (b.count + 1))
    rw [hplaced, hqueue, List.range_succ, ← List.append_assoc, List.append_assoc (placed _ _)]
    exact (((htwo.perm.map BitVec.toNat).symm.append_left _).trans h.once).append_right [b.count]

/-- What holds of the builder at the start and is kept by every merge holds when the merges are done. -/
theorem mergeAll_induct {ds : List Node} {ns : Table Node 511} {P : Builder → Prop}
    (hstep : ∀ {b x y q}, BuilderOk ds.length b → BuilderShape ds ns b → LeastTwo b x y q → P b → P (b.merged x y q))
    (k : Nat) {b : Builder} (hok : BuilderOk ds.length b) (hshape : BuilderShape ds ns b) (hP : P b)
    (hlen : b.queue.length = k + 1) : BuilderShape ds ns (mergeAll k b) ∧ P (mergeAll k b) := by
  induction k generalizing b with
  | zero => exact ⟨hshape, hP⟩
  | succ k ih =>
    obtain ⟨x, y, q, htwo, hmerge⟩ := mergeOnce_eq_merged (b := b) (by omega)
    have hone := length_queue_mergeOnce (b := b) (by omega)
    have hok' := mergeOnce_ok hok
    rw [mergeAll]
    rw [hmerge] at hone hok' ⊢
    exact ih hok' (merged_shape hok hshape htwo) (hstep hok hshape htwo hP) (by omega)

theorem leafNodes_ne_nil {ns : Table Node 511} {f : Table Word 256} {b : Builder} {r : NodeIdx}
    (h : buildTree ns f = some (b, r)) : leafNodes f ≠ [] := by
  intro hnil
  simp [buildTree, hnil, startBuilder, mergeAll] at h

/-- The same for what BUILD leaves, whose queue holds the root alone. -/
theorem buildTree_induct {ns : Table Node 511} {f : Table Word 256} {b : Builder} {r : NodeIdx}
    (h : buildTree ns f = some (b, r)) {P : Builder → Prop} (hstart : P (startBuilder ns (leafNodes f)))
    (hstep : ∀ {b x y q}, BuilderOk (leafNodes f).length b → BuilderShape (leafNodes f) ns b → LeastTwo b x y q →
      P b → P (b.merged x y q)) :
    BuilderShape (leafNodes f) ns b ∧ b.queue = [r] ∧ P b := by
  have hne := leafNodes_ne_nil h
  obtain ⟨r', hqueue, hbuild⟩ := buildTree_eq_some ns hne
  cases hbuild.symm.trans h
  have hpos := List.length_pos_iff.mpr hne
  obtain ⟨hshape, hP⟩ := mergeAll_induct hstep ((leafNodes f).length - 1) (startBuilder_ok ns f)
    (startBuilder_shape ns f) hstart (by simp only [startBuilder, List.length_map, List.length_range]; omega)
  exact ⟨hshape, hqueue, hP⟩

end Sys2Proof.Machine
end

section
/-!
PROOF. BUILD of a consistent table (R110, R113, R114): the tree it leaves, node by node, and how deep it is.
-/
namespace Sys2Proof.Machine

/-! The Leaves (R110). -/

/-- A Leaf holds a symbol with a positive counter, and the counter as its weight (R110). -/
theorem leafNode_of_mem {f : Table Word 256} {d : Node} (h : d ∈ leafNodes f) :
    ∃ k < 256, f.read k ≠ 0 ∧ d = leafNode (BitVec.ofNat 8 k) (f.read k) := by
  rw [leafNodes_eq] at h
  obtain ⟨k, hk, hsome⟩ := List.mem_filterMap.mp h
  split at hsome <;> cases hsome
  exact ⟨k, List.mem_range.mp hk, ‹_›, rfl⟩

theorem weight_of_mem_leafNodes {f : Table Word 256} {d : Node} (h : d ∈ leafNodes f) :
    d.weight = f.read d.sym.toNat ∧ d.weight ≠ 0 := by
  obtain ⟨k, hk, hpos, rfl⟩ := leafNode_of_mem h
  have hsym : (BitVec.ofNat 8 k).toNat = k := Nat.mod_eq_of_lt hk
  exact ⟨congrArg f.read hsym.symm, hpos⟩

/-- The Leaves are in increasing symbol value (R110). -/
theorem pairwise_sym_leafNodes (f : Table Word 256) :
    (leafNodes f).Pairwise fun d e => d.sym.toNat < e.sym.toNat := by
  rw [leafNodes_eq, List.pairwise_filterMap]
  refine List.pairwise_lt_range.imp_of_mem fun {j k} hj hk hlt d hd e he => ?_
  split at hd <;> cases hd
  split at he <;> cases he
  have hj : (BitVec.ofNat 8 j).toNat = j := Nat.mod_eq_of_lt (List.mem_range.mp hj)
  have hk : (BitVec.ofNat 8 k).toNat = k := Nat.mod_eq_of_lt (List.mem_range.mp hk)
  simpa only [leafNode, hj, hk] using hlt

/-! What the merges leave (R110, R114). -/

section
variable {ns : Table Node 511} {f : Table Word 256} {b : Builder} {r : NodeIdx} (h : buildTree ns f = some (b, r))
include h

theorem buildTree_shape : BuilderShape (leafNodes f) ns b ∧ b.queue = [r] := by
  obtain ⟨hshape, hqueue, -⟩ := buildTree_induct h (P := fun _ => True) trivial fun _ _ _ _ => trivial
  exact ⟨hshape, hqueue⟩

theorem internal_buildTree_iff {k : Nat} (hk : k < b.count) :
    (b.nodes.read k).internal = true ↔ (leafNodes f).length ≤ k := by
  obtain ⟨hshape, -⟩ := buildTree_shape h
  refine ⟨fun hint => Nat.le_of_not_lt fun hlt => ?_, fun hle => (hshape.merged k hle hk).1⟩
  rw [hshape.leaf k hlt, internal_of_mem_leafNodes (List.getElem_mem hlt)] at hint
  cases hint

/-- The children of a node come before it (R110). -/
theorem lt_of_mem_childrenOf {k c : Nat} (hk : k < b.count) (hc : c ∈ childrenOf (b.nodes.read k)) : c < k := by
  obtain ⟨hshape, -⟩ := buildTree_shape h
  exact hshape.lower k hk c hc

theorem nodup_placed_buildTree : (placed b.nodes b.count).Nodup := by
  obtain ⟨hshape, -⟩ := buildTree_shape h
  exact (List.nodup_append.mp (hshape.once.nodup_iff.mpr List.nodup_range)).1

theorem buildTree_sizes : b.count = 2 * (leafNodes f).length - 1 ∧ r.toNat = 2 * (leafNodes f).length - 2 := by
  obtain ⟨hshape, hqueue⟩ := buildTree_shape h
  obtain ⟨hok, hroot, -⟩ := buildTree_ok h
  have hbalance := hok.balance
  rw [hqueue, List.length_singleton] at hbalance
  have hlast : b.count - 1 ∈ placed b.nodes b.count ++ [r].map BitVec.toNat := by
    rw [← hqueue, hshape.once.mem_iff, List.mem_range]
    omega
  obtain hplaced | hr := List.mem_append.mp hlast
  · obtain ⟨k, hk, hc⟩ := mem_placed.mp hplaced
    have hlt := lt_of_mem_childrenOf h hk hc
    omega
  · have hr : b.count - 1 = r.toNat := List.mem_singleton.mp hr
    omega

/-- Every node but the root has exactly one parent (R114). -/
theorem exists_parent {c : Nat} (hc : c < b.count) (hroot : c ≠ r.toNat) :
    ∃ k < b.count, c ∈ childrenOf (b.nodes.read k)
      ∧ ∀ j < b.count, c ∈ childrenOf (b.nodes.read j) → j = k := by
  obtain ⟨hshape, hqueue⟩ := buildTree_shape h
  have hmem : c ∈ placed b.nodes b.count ++ b.queue.map BitVec.toNat := hshape.once.mem_iff.mpr (List.mem_range.mpr hc)
  rw [hqueue] at hmem
  obtain ⟨k, hk, hck⟩ := mem_placed.mp
    ((List.mem_append.mp hmem).resolve_right fun hr => hroot (List.mem_singleton.mp hr))
  exact ⟨k, hk, hck, fun j hj hcj => parent_unique (nodup_placed_buildTree h) hj hk hcj hck⟩

end

/-- A node's paths are shorter than its Leaves are many: each bit of a path leaves a Leaf on the other side (R114). -/
theorem Grown.length_path_lt {ns : Table Node 511} {m : Nat} {w : Nat → List (BitString × Byte)} (h : Grown ns m w)
    {k : Nat} (hk : k < m) : ∀ l ∈ w k, l.1.length < (w k).length := by
  induction k using Nat.strong_induction_on with
  | _ k ih =>
    cases hint : (ns.read k).internal with
    | false => simp [h.leaf k hk hint]
    | true =>
      have hl := h.left_lt hk hint
      have hr := h.right_lt hk hint
      have hlpos := (h.pathBits_le (hl.trans hk)).1
      have hrpos := (h.pathBits_le (hr.trans hk)).1
      intro l hmem
      rw [h.node k hk hint, List.length_append, length_under, length_under]
      rw [h.node k hk hint] at hmem
      obtain hmem | hmem := List.mem_append.mp hmem <;> obtain ⟨l', hl', rfl⟩ := List.mem_map.mp hmem <;>
        rw [List.length_cons]
      · have hlt := ih _ hl (hl.trans hk) l' hl'
        omega
      · have hlt := ih _ hr (hr.trans hk) l' hl'
        omega

/-! BUILD (R110). -/

/-- The tables BUILD leaves: the tree, and no codes (R110). -/
def Tables.withTree (b : Builder) (r : NodeIdx) (t : Tables) : Tables :=
  { t with node := b.nodes, nnodes := BitVec.ofNat 10 b.count, root := r, treeV := true, codeV := false }

/-- A valid consistent table adds up to `total`, and BUILD has `nsym` Leaves for it (R50, R51). -/
theorem freqOk_valid {t : Tables} (h : freqOk t = true) (hv : t.freqV = true) :
    freqTotal t.freq = t.total.toNat ∧ (leafNodes t.freq).length = t.nsym.toNat := by
  simp only [freqOk, hv, Bool.not_true, Bool.false_or, Bool.and_eq_true, beq_iff_eq] at h
  rw [length_leafNodes]
  exact ⟨h.1, h.2.symm⟩

/-- BUILD of a consistent table that is not empty ends with the tree of its merges (R110). -/
theorem exec_build (f : BitFmt) {s : State} (hv : s.tabs.freqV = true) (hnsym : s.tabs.nsym ≠ 0)
    (hfreq : freqOk s.tabs = true) :
    ∃ b r, buildTree s.tabs.node s.tabs.freq = some (b, r) ∧ s.tabs.built = some (s.tabs.withTree b r)
      ∧ exec (.build f) s = .next (complete { s with tabs := s.tabs.withTree b r }) := by
  have hready : Ready (.build f) s :=
    ⟨noMeaning_of_no_ranges rfl rfl, by simpa [upfront, upfrontChecks, sequenceCheck, emptyCheck, hv] using hnsym⟩
  obtain ⟨u, hu⟩ := Option.ne_none_iff_exists'.mp (built_ne_none hfreq hv hnsym)
  obtain ⟨b, r, hbuild, rfl⟩ := built_eq_some hu
  refine ⟨b, r, hbuild, hu, ?_⟩
  rw [exec_ready hready]
  simp only [bodyOf, buildBody, hu]
  rfl

/-- The walk of a built tree: one pair a Leaf, at most as deep as there are merges (R114). -/
theorem treeLeaves_built {t : Tables} {b : Builder} {r : NodeIdx} (hbuild : buildTree t.node t.freq = some (b, r))
    (hbuilt : t.built = some (t.withTree b r)) :
    ∃ ls, treeLeaves b.nodes r = some ls ∧ ls.length = (leafNodes t.freq).length
      ∧ ∀ l ∈ ls, 1 ≤ l.1.length ∧ l.1.length ≤ max 1 ((leafNodes t.freq).length - 1) := by
  have htree := (built_ok hbuilt).2
  obtain ⟨ls, hls⟩ := Option.isSome_iff_exists.mp (show (treeLeaves b.nodes r).isSome = true from htree)
  obtain ⟨hperm, hne, -⟩ := built_walk hbuilt hls
  have hlen := hperm.length_eq
  rw [List.length_map, List.length_map] at hlen
  refine ⟨ls, hls, hlen, fun l hl => ⟨List.length_pos_iff.mpr (hne l hl), ?_⟩⟩
  obtain ⟨w, hgrown, -⟩ := buildTree_walks hbuild
  obtain ⟨-, hroot, -⟩ := buildTree_ok hbuild
  cases hint : (nodeAt b.nodes r).internal with
  | false =>
    cases (treeLeaves_leaf hint).symm.trans hls
    rw [List.mem_singleton.mp hl]
    exact Nat.le_max_left ..
  | true =>
    have hw : ls = w r.toNat := by
      simpa using hgrown.eq_of_leavesFrom hroot ((treeLeaves_internal hint).symm.trans hls)
    have hlt := hgrown.length_path_lt hroot l (hw ▸ hl)
    rw [← hw] at hlt
    omega

theorem toNat_ofNat_count {ns : Table Node 511} {f : Table Word 256} {b : Builder} {r : NodeIdx}
    (h : buildTree ns f = some (b, r)) : (BitVec.ofNat 10 b.count).toNat = b.count := by
  obtain ⟨-, -, hcap⟩ := buildTree_ok h
  rw [Config.nodeCap] at hcap
  exact Nat.mod_eq_of_lt (by omega)

/-- Settles O25: the Leaves and the merged nodes are those of the builder's shape, whose children are placed once. -/
theorem builtTreeShape : Obligations.BuiltTreeShape := by
  intro f s hv hnsym hfreq n
  obtain ⟨b, r, hbuild, hbuilt, hexec⟩ := exec_build f hv hnsym hfreq
  obtain ⟨hshape, -⟩ := buildTree_shape hbuild
  obtain ⟨hcount, hroot⟩ := buildTree_sizes hbuild
  have hlen : (leafNodes s.tabs.freq).length = n := (freqOk_valid hfreq hv).2
  have hnodup := nodup_placed_buildTree hbuild
  have hchild : ∀ {k c}, n ≤ k → k < 2 * n - 1 → (c ∈ childrenOf (b.nodes.read k) ↔
      (b.nodes.read k).left.toNat = c ∨ (b.nodes.read k).right.toNat = c) := fun hk hlt => by
    rw [mem_childrenOf, (hshape.merged _ (by omega) (by omega)).1]
    exact and_iff_right rfl
  rw [hlen] at hcount hroot
  refine ⟨_, hexec, endsWell_complete .., ⟨rfl, rfl, rfl⟩, rfl, ⟨rfl, rfl, rfl, rfl⟩, rfl, rfl, rfl,
    (toNat_ofNat_count hbuild).trans hcount, hroot, fun k hk => ?leaf, fun j k hjk hk => ?sorted,
    fun k hk hlt => ?merged, fun c hc => ?parent, fun k hk _ => hshape.rest k (by omega), ?walk⟩
  case leaf =>
    have hd : b.nodes.read k ∈ leafNodes s.tabs.freq := hshape.leaf k (by omega) ▸ List.getElem_mem _
    obtain ⟨hweight, hpos⟩ := weight_of_mem_leafNodes hd
    obtain ⟨_, _, hleaf⟩ := mem_leafNodes hd
    refine ⟨internal_of_mem_leafNodes hd, ?_, ?_, hweight, hpos⟩
    · exact congrArg Node.left hleaf
    · exact congrArg Node.right hleaf
  case sorted =>
    have hsorted := List.pairwise_iff_getElem.mp (pairwise_sym_leafNodes s.tabs.freq) j k (by omega) (by omega) hjk
    rwa [← hshape.leaf, ← hshape.leaf] at hsorted
  case merged =>
    obtain ⟨hint, hsym⟩ := hshape.merged k (by omega) (by omega)
    have hlower : ∀ c ∈ childrenOf (b.nodes.read k), c < k := fun c => lt_of_mem_childrenOf hbuild (by omega)
    have htwo := nodup_childrenOf hnodup (k := k) (by omega)
    rw [childrenOf, if_pos hint] at hlower htwo
    exact ⟨hint, hsym, hlower _ List.mem_cons_self, hlower _ (List.mem_cons_of_mem _ List.mem_cons_self), fun heq =>
      (List.nodup_cons.mp htwo).1 (List.mem_singleton.mpr (congrArg BitVec.toNat heq))⟩
  case parent =>
    obtain ⟨k, hk, hck, honly⟩ := exists_parent hbuild (c := c) (by omega) (by omega)
    have hn : n ≤ k := hlen ▸ (internal_buildTree_iff hbuild hk).mp (mem_childrenOf.mp hck).1
    refine ⟨k, hn, by omega, (hchild hn (by omega)).mp hck, fun j hj hlt hcj => ?_⟩
    exact honly j (by omega) ((hchild hj hlt).mpr hcj)
  case walk =>
    obtain ⟨ls, hwalk, hnum, hdeep⟩ := treeLeaves_built hbuild hbuilt
    rw [hlen] at hnum hdeep
    exact ⟨ls, hwalk, hnum, hdeep⟩

end Sys2Proof.Machine
end

section
/-!
PROOF. The weights of a built tree (R110, R112): the queue's weights always add up to the input length, so no merge
overflows.
-/
namespace Sys2Proof.Machine

/-- The weight of node `k` of the store. -/
def weightOf (ns : Table Node 511) (k : Nat) : Nat := (ns.read k).weight.toNat

/-- The Leaves' weights are the counters (R110). -/
theorem sum_weight_leavesOf (s : Nat) (ws : List Word) :
    ((leavesOf s ws).map fun d => d.weight.toNat).sum = (ws.map BitVec.toNat).sum := by
  induction ws generalizing s with
  | nil => rfl
  | cons w ws ih =>
    rw [leavesOf, List.map_cons, List.sum_cons]
    split
    next hzero =>
      rw [ih, hzero]
      exact (Nat.zero_add _).symm
    next => rw [List.map_cons, List.sum_cons, ih, leafNode]

/-- The builder of a table whose counters add up to `total`: so do the weights in the queue, every Internal node's is
the sum of its children's, and none exceeds `total` (R112). -/
structure BuilderWeights (total : Nat) (b : Builder) : Prop where
  queued : ((b.queue.map BitVec.toNat).map (weightOf b.nodes)).sum = total
  bounded : ∀ k < b.count, weightOf b.nodes k ≤ total
  adds : ∀ k < b.count, (b.nodes.read k).internal = true →
    weightOf b.nodes k = weightOf b.nodes (b.nodes.read k).left.toNat + weightOf b.nodes (b.nodes.read k).right.toNat

theorem startBuilder_weights (ns : Table Node 511) (f : Table Word 256) :
    BuilderWeights (freqTotal f) (startBuilder ns (leafNodes f)) := by
  have hweights : (List.range (leafNodes f).length).map (weightOf (startBuilder ns (leafNodes f)).nodes)
      = (leafNodes f).map fun d => d.weight.toNat := by
    refine List.ext_getElem (by simp) fun k hk _ => ?_
    have hk : k < (leafNodes f).length := by simpa using hk
    rw [List.getElem_map, List.getElem_map, List.getElem_range, weightOf, read_startBuilder ns f hk]
  have hsum : ((leafNodes f).map fun d => d.weight.toNat).sum = freqTotal f := sum_weight_leavesOf 0 f.cells
  refine ⟨?_, fun k hk => ?_, fun k hk hint => ?_⟩
  · rw [toNat_queue_startBuilder, hweights, hsum]
  · rw [← hsum, ← hweights]
    exact List.le_sum_of_mem (List.mem_map_of_mem (List.mem_range.mpr hk))
  · rw [read_startBuilder ns f hk, internal_of_mem_leafNodes (List.getElem_mem hk)] at hint
    cases hint

/-- A merge keeps the sum of the queue's weights, below `2^32`, so the new node's weight does not overflow (R112). -/
theorem merged_weights {total : Nat} (htotal : total < 2 ^ 32) {ds : List Node} {ns : Table Node 511} {b : Builder}
    {x y : NodeIdx} {q : List NodeIdx} (hok : BuilderOk ds.length b) (hshape : BuilderShape ds ns b)
    (htwo : LeastTwo b x y q) (h : BuilderWeights total b) : BuilderWeights total (b.merged x y q) := by
  have hold : ∀ k < b.count, weightOf (b.merged x y q).nodes k = weightOf b.nodes k := fun k hk =>
    congrArg (fun d : Node => d.weight.toNat) (read_merged_of_ne b x y q (Nat.ne_of_lt hk))
  have hx := htwo.x_lt hok
  have hy := htwo.y_lt hok
  have hsplit : weightOf b.nodes x.toNat + weightOf b.nodes y.toNat
      + ((q.map BitVec.toNat).map (weightOf b.nodes)).sum = total := by
    rw [← h.queued, ((htwo.perm.map BitVec.toNat).map (weightOf b.nodes)).sum_eq, List.map_cons, List.map_cons,
      List.map_cons, List.map_cons, List.sum_cons, List.sum_cons, Nat.add_assoc]
  have hnew : weightOf (b.merged x y q).nodes b.count = weightOf b.nodes x.toNat + weightOf b.nodes y.toNat := by
    rw [weightOf, htwo.read_count hok]
    refine (BitVec.toNat_add _ _).trans (Nat.mod_eq_of_lt ?_)
    change weightOf b.nodes x.toNat + weightOf b.nodes y.toNat < 2 ^ 32
    omega
  have hrest : (q.map BitVec.toNat).map (weightOf (b.merged x y q).nodes)
      = (q.map BitVec.toNat).map (weightOf b.nodes) := by
    refine List.map_congr_left fun k hk => ?_
    obtain ⟨j, hj, rfl⟩ := List.mem_map.mp hk
    exact hold _ (htwo.q_lt hok hj)
  refine ⟨?_, fun k hk => ?_, fun k hk hint => ?_⟩
  · have hqueue : (b.merged x y q).queue.map BitVec.toNat = q.map BitVec.toNat ++ [b.count] := by
      rw [Builder.merged, List.map_append, List.map_singleton, htwo.toNat_count hok]
    rw [hqueue, List.map_append, List.sum_append, hrest, List.map_singleton, List.sum_singleton, hnew]
    omega
  · obtain rfl | hk := Nat.eq_or_lt_of_le (Nat.le_of_lt_succ hk)
    · rw [hnew]
      omega
    · rw [hold k hk]
      exact h.bounded k hk
  · obtain rfl | hk := Nat.eq_or_lt_of_le (Nat.le_of_lt_succ hk)
    · rw [hnew, htwo.read_count hok]
      change _ = weightOf _ x.toNat + weightOf _ y.toNat
      rw [hold _ hx, hold _ hy]
    · rw [read_merged_of_ne b x y q (Nat.ne_of_lt hk)] at hint ⊢
      have hlower : ∀ c ∈ childrenOf (b.nodes.read k), c < b.count := fun c hc => (hshape.lower k hk c hc).trans hk
      have hleft := hlower _ (mem_childrenOf.mpr ⟨hint, .inl rfl⟩)
      have hright := hlower _ (mem_childrenOf.mpr ⟨hint, .inr rfl⟩)
      rw [hold k hk, hold _ hleft, hold _ hright]
      exact h.adds k hk hint

/-- Settles O26: at the end the queue holds the root alone, whose weight is then the sum of all counters. -/
theorem builtWeightsAdd : Obligations.BuiltWeightsAdd := by
  intro f s hv hnsym hfreq
  obtain ⟨b, r, hbuild, -, hexec⟩ := exec_build f hv hnsym hfreq
  have htotal : freqTotal s.tabs.freq = s.tabs.total.toNat := (freqOk_valid hfreq hv).1
  obtain ⟨-, hqueue, hweights⟩ := buildTree_induct hbuild (startBuilder_weights _ _)
    (merged_weights (by rw [htotal]; exact s.tabs.total.isLt))
  rw [htotal] at hweights
  have hroot : (b.nodes.read r.toNat).weight.toNat = s.tabs.total.toNat := by
    have hsum := hweights.queued
    rwa [hqueue, List.map_singleton, List.map_singleton, List.sum_singleton] at hsum
  have hcount := toNat_ofNat_count hbuild
  exact ⟨_, hexec, fun k hk hint => hweights.adds k (hcount ▸ hk) hint, BitVec.eq_of_toNat_eq hroot,
    fun k hk => hweights.bounded k (hcount ▸ hk)⟩

end Sys2Proof.Machine
end

section
/-!
PROOF. Which nodes BUILD merges (R111, R113): every Internal node has the two least keys of its moment for children, and
the tree depends on the frequency table alone.
-/
namespace Sys2Proof.Machine

/-! The least two (R111). -/

/-- The key order on indices as numbers: lower weight first, then lower index (R111). -/
def KeyBefore (ns : Table Node 511) (j k : Nat) : Prop :=
  weightOf ns j < weightOf ns k ∨ (weightOf ns j = weightOf ns k ∧ j < k)

theorem keyBefore_of_keyLess {ns : Table Node 511} {x y : NodeIdx} (h : keyLess ns x y = true) :
    KeyBefore ns x.toNat y.toNat := keyLess_iff.mp h

theorem keyBefore_congr {ns ns' : Table Node 511} {j k : Nat} (hj : ns'.read j = ns.read j)
    (hk : ns'.read k = ns.read k) : KeyBefore ns' j k ↔ KeyBefore ns j k := by
  rw [KeyBefore, KeyBefore, weightOf, weightOf, hj, hk]
  rfl

/-- Internal node `k` has the least key on its left and the next on its right, among the nodes before it that no earlier
node has for a child. -/
def MergesLeast (ns : Table Node 511) (k : Nat) : Prop :=
  KeyBefore ns (ns.read k).left.toNat (ns.read k).right.toNat
  ∧ ∀ j < k, j ∉ childrenOf (ns.read k) → (∀ m < k, j ∉ childrenOf (ns.read m)) →
      KeyBefore ns (ns.read k).right.toNat j

theorem mergesLeast_congr {ns ns' : Table Node 511} {k : Nat} (h : ∀ j ≤ k, ns'.read j = ns.read j)
    (hleft : (ns.read k).left.toNat < k) (hright : (ns.read k).right.toNat < k) (hk : MergesLeast ns k) :
    MergesLeast ns' k := by
  rw [MergesLeast, h k (Nat.le_refl k)]
  refine ⟨(keyBefore_congr (h _ hleft.le) (h _ hright.le)).mpr hk.1, fun j hj hnot hfree => ?_⟩
  refine (keyBefore_congr (h _ hright.le) (h j hj.le)).mpr (hk.2 j hj hnot fun m hm => ?_)
  rw [← h m hm.le]
  exact hfree m hm

/-- A node just merged has the least two keys: what is no child yet is in the queue. -/
theorem merged_mergesLeast {ds : List Node} {ns : Table Node 511} {b : Builder} {x y : NodeIdx} {q : List NodeIdx}
    (hok : BuilderOk ds.length b) (hshape : BuilderShape ds ns b) (htwo : LeastTwo b x y q)
    (h : ∀ k < b.count, (b.nodes.read k).internal = true → MergesLeast b.nodes k) :
    ∀ k < (b.merged x y q).count, ((b.merged x y q).nodes.read k).internal = true →
      MergesLeast (b.merged x y q).nodes k := by
  have hother : ∀ k < b.count, (b.merged x y q).nodes.read k = b.nodes.read k := fun k hk =>
    read_merged_of_ne b x y q (Nat.ne_of_lt hk)
  have hx := htwo.x_lt hok
  have hy := htwo.y_lt hok
  intro k hk hint
  obtain rfl | hk := Nat.eq_or_lt_of_le (Nat.le_of_lt_succ hk)
  · have hnodup : b.queue.Nodup :=
      ((List.nodup_append.mp (hshape.once.nodup_iff.mpr List.nodup_range)).2.1).of_map
    have hxy : y ≠ x := by
      rintro rfl
      exact (List.nodup_cons.mp (htwo.perm.nodup_iff.mp hnodup)).1 List.mem_cons_self
    rw [MergesLeast, htwo.read_count hok]
    refine ⟨(keyBefore_congr (hother _ hx) (hother _ hy)).mpr (keyBefore_of_keyLess ?_), fun j hj hnot hfree => ?_⟩
    · exact htwo.first y (htwo.perm.mem_iff.mpr (List.mem_cons_of_mem _ List.mem_cons_self)) hxy
    · have hplaced : j ∉ placed b.nodes b.count := fun hmem => by
        obtain ⟨m, hm, hjm⟩ := mem_placed.mp hmem
        exact hfree m hm ((hother m hm).symm ▸ hjm)
      have hmem := (List.mem_append.mp (hshape.once.mem_iff.mpr (List.mem_range.mpr hj))).resolve_left hplaced
      obtain ⟨i, hi, rfl⟩ := List.mem_map.mp hmem
      have hix : i ≠ x := fun heq => hnot (mem_childrenOf.mpr ⟨rfl, .inl (congrArg BitVec.toNat heq.symm)⟩)
      have hiy : i ≠ y := fun heq => hnot (mem_childrenOf.mpr ⟨rfl, .inr (congrArg BitVec.toNat heq.symm)⟩)
      have hiq : i ∈ y :: q := (List.mem_cons.mp (htwo.perm.mem_iff.mp hi)).resolve_left hix
      exact (keyBefore_congr (hother _ hy) (hother _ hj)).mpr (keyBefore_of_keyLess (htwo.second i hiq hiy))
  · rw [hother k hk] at hint
    have hleft := hshape.lower k hk _ (mem_childrenOf.mpr ⟨hint, .inl rfl⟩)
    have hright := hshape.lower k hk _ (mem_childrenOf.mpr ⟨hint, .inr rfl⟩)
    exact mergesLeast_congr (fun j hj => hother j (by omega)) hleft hright (h k hk hint)

theorem buildTree_mergesLeast {ns : Table Node 511} {f : Table Word 256} {b : Builder} {r : NodeIdx}
    (h : buildTree ns f = some (b, r)) :
    ∀ k < b.count, (b.nodes.read k).internal = true → MergesLeast b.nodes k := by
  refine (buildTree_induct h (fun k hk hint => ?_) merged_mergesLeast).2.2
  rw [read_startBuilder ns f hk, internal_of_mem_leafNodes (List.getElem_mem hk)] at hint
  cases hint

/-! The store before does not matter (R110). -/

/-- Two builders alike in all they have created. -/
structure BuildersAgree (b b' : Builder) : Prop where
  count : b'.count = b.count
  queue : b'.queue = b.queue
  nodes : ∀ k < b.count, b'.nodes.read k = b.nodes.read k

theorem extractMin_congr {ns ns' : Table Node 511} {q : List NodeIdx} (h : ∀ k ∈ q, nodeAt ns' k = nodeAt ns k) :
    extractMin ns' q = extractMin ns q := by
  have hleast : ∀ (q : List NodeIdx) (m : NodeIdx), (∀ k ∈ m :: q, nodeAt ns' k = nodeAt ns k) →
      leastKey ns' m q = leastKey ns m q := by
    intro q
    induction q with
    | nil => exact fun _ _ => rfl
    | cons k q ih =>
      intro m hq
      have hm := hq m List.mem_cons_self
      have hk := hq k (List.mem_cons_of_mem _ List.mem_cons_self)
      have hless : keyLess ns' k m = keyLess ns k m := by rw [keyLess, keyLess, hm, hk]
      rw [leastKey, leastKey, List.foldl_cons, List.foldl_cons, hless, ← leastKey, ← leastKey]
      refine ih _ fun j hj => ?_
      obtain rfl | hj := List.mem_cons.mp hj
      · split <;> assumption
      · exact hq j (List.mem_cons_of_mem _ (List.mem_cons_of_mem _ hj))
  cases q with
  | nil => rfl
  | cons m q => rw [extractMin, extractMin, hleast q m h]

theorem mergeOnce_agree {n : Nat} {b b' : Builder} (hok : BuilderOk n b) (h : BuildersAgree b b')
    (hlen : 2 ≤ b.queue.length) : BuildersAgree (mergeOnce b) (mergeOnce b') := by
  have hcount : b.count < 511 := by
    have hbalance := hok.balance
    have hleaves := hok.leaves
    omega
  have hnode : ∀ k ∈ b.queue, nodeAt b'.nodes k = nodeAt b.nodes k := fun k hk => h.nodes _ (hok.queued k hk)
  have hfirst : extractMin b'.nodes b'.queue = extractMin b.nodes b.queue := by rw [h.queue, extractMin_congr hnode]
  simp only [mergeOnce, hfirst]
  split
  next => exact h
  next x q hx =>
    obtain ⟨hxmem, rfl⟩ := extractMin_eq_some hx
    rw [extractMin_congr fun k hk => hnode k (List.mem_of_mem_erase hk)]
    split
    next => exact h
    next y q' hy =>
      have hymem := List.mem_of_mem_erase (extractMin_eq_some hy).1
      refine ⟨congrArg (· + 1) h.count, by simp only [h.count], fun k hk => ?_⟩
      simp only [h.count, hnode x hxmem, hnode y hymem, Table.read_write _ _ _ _ hcount]
      split
      next => rfl
      next hne => exact h.nodes k (Nat.lt_of_le_of_ne (Nat.le_of_lt_succ hk) (Ne.symm hne))

theorem mergeAll_agree {n : Nat} (k : Nat) {b b' : Builder} (hok : BuilderOk n b) (h : BuildersAgree b b')
    (hlen : b.queue.length = k + 1) : BuildersAgree (mergeAll k b) (mergeAll k b') := by
  induction k generalizing b b' with
  | zero => exact h
  | succ k ih =>
    have hone := length_queue_mergeOnce (b := b) (by omega)
    exact ih (mergeOnce_ok hok) (mergeOnce_agree hok h (by omega)) (by omega)

/-- Over any two stores BUILD creates the same nodes from a table (R110). -/
theorem buildTree_agree {ns ns' : Table Node 511} {f : Table Word 256} {b b' : Builder} {r r' : NodeIdx}
    (h : buildTree ns f = some (b, r)) (h' : buildTree ns' f = some (b', r')) : BuildersAgree b b' ∧ r' = r := by
  have hne := leafNodes_ne_nil h
  obtain ⟨_, hqueue, hbuild⟩ := buildTree_eq_some ns hne
  obtain ⟨_, hqueue', hbuild'⟩ := buildTree_eq_some ns' hne
  cases hbuild.symm.trans h
  cases hbuild'.symm.trans h'
  have hpos := List.length_pos_iff.mpr hne
  have hstart : BuildersAgree (startBuilder ns (leafNodes f)) (startBuilder ns' (leafNodes f)) :=
    ⟨rfl, rfl, fun k hk => (read_startBuilder ns' f hk).trans (read_startBuilder ns f hk).symm⟩
  have hagree := mergeAll_agree ((leafNodes f).length - 1) (startBuilder_ok ns f) hstart
    (by simp only [startBuilder, List.length_map, List.length_range]; omega)
  refine ⟨hagree, ?_⟩
  have hsame := hagree.queue
  rw [hqueue, hqueue'] at hsame
  exact List.singleton_inj.mp hsame

/-- Settles O27: `extract_min` by `extractMin_least`, the merges by `buildTree_mergesLeast` and `buildTree_agree`. -/
theorem queueGivesTheLeastKey : Obligations.QueueGivesTheLeastKey := by
  refine ⟨fun ns q q' m hmin => ?extract, fun f f' s s' hv hnsym hfreq hv' hnsym' hfreq' hsame => ?table,
    fun f s hv hnsym hfreq => ?merges⟩
  case extract =>
    obtain ⟨hperm, hleast⟩ := extractMin_least hmin
    exact ⟨hperm, fun k hk hne => (keyLess_iff.mp (hleast k hk hne)).imp_right fun ⟨hweight, hidx⟩ =>
      ⟨BitVec.eq_of_toNat_eq hweight, hidx⟩⟩
  case table =>
    obtain ⟨b, r, hbuild, -, hexec⟩ := exec_build f hv hnsym hfreq
    obtain ⟨b', r', hbuild', -, hexec'⟩ := exec_build f' hv' hnsym' hfreq'
    obtain ⟨hagree, rfl⟩ := buildTree_agree hbuild (hsame ▸ hbuild')
    have hcount := toNat_ofNat_count hbuild
    exact ⟨_, _, hexec, hexec', congrArg (BitVec.ofNat 10) hagree.count.symm, rfl,
      fun k hk => (hagree.nodes k (hcount ▸ hk)).symm⟩
  case merges =>
    obtain ⟨b, r, hbuild, -, hexec⟩ := exec_build f hv hnsym hfreq
    have hcount := toNat_ofNat_count hbuild
    refine ⟨_, hexec, fun k hk hint => ?_⟩
    have hk : k < b.count := hcount ▸ hk
    obtain ⟨hless, hnext⟩ := buildTree_mergesLeast hbuild k hk hint
    exact ⟨hless, fun j hj hnot hfree => hnext j hj (fun hc => hnot (mem_childrenOf.mp hc).2) fun m hm hc =>
      hfree m hm (mem_childrenOf.mp hc).1 (mem_childrenOf.mp hc).2⟩

/-! One symbol (R113, R121). -/

/-- Settles O29: one symbol is one Leaf and no merge; a Leaf for root is the whole walk, by the path `0`. -/
theorem singleSymbolHasCodeZero : Obligations.SingleSymbolHasCodeZero := by
  refine ⟨fun f s hv hnsym hfreq => ?build, fun f s hv hleaf => ?gencode⟩
  case build =>
    obtain ⟨b, r, hbuild, -, hexec⟩ := exec_build f hv (by rw [hnsym]; decide) hfreq
    have hlen : (leafNodes s.tabs.freq).length = 1 := by
      rw [(freqOk_valid hfreq hv).2, hnsym]
      rfl
    obtain ⟨d, hd⟩ := List.length_eq_one_iff.mp hlen
    obtain ⟨k, hk, hpos, rfl⟩ := leafNode_of_mem (hd ▸ List.mem_singleton_self d)
    obtain ⟨hcount, hroot⟩ := buildTree_sizes hbuild
    rw [hlen] at hcount hroot
    refine ⟨_, k, hexec, congrArg (BitVec.ofNat 10) hcount, BitVec.eq_of_toNat_eq hroot, hpos,
      fun c hc hne => ?_, hk, ?_⟩
    · by_contra hread
      have hsym : (BitVec.ofNat 8 c).toNat = c := Nat.mod_eq_of_lt hc
      have hmem := mem_map_sym_leafNodes.mpr (show s.tabs.freq.read (BitVec.ofNat 8 c).toNat ≠ 0 by rwa [hsym])
      rw [hd] at hmem
      have hck := congrArg BitVec.toNat (List.mem_singleton.mp hmem)
      exact hne (hsym.symm.trans (hck.trans (Nat.mod_eq_of_lt hk)))
    · refine ((buildTree_shape hbuild).1.leaf 0 (by omega)).trans ?_
      simp only [hd, List.getElem_cons_zero]
      rfl
  case gencode =>
    refine ⟨_, exec_gencode f hv (treeLeaves_leaf hleaf), fun b => ?_⟩
    rw [complete_tabs, Tables.coded_code, read_codeTable, List.reverse_singleton, List.find?_singleton]
    change _ = if b = (nodeAt s.tabs.node s.tabs.root).sym then [false] else []
    by_cases hb : b = (nodeAt s.tabs.node s.tabs.root).sym
    · simp [hb]
    · simp [hb, Ne.symm hb]

end Sys2Proof.Machine
end

section
/-!
PROOF. The codes of a built tree (R123): every symbol of the table has one, by a path that is not empty, and any two
paths of a walk part.
-/
namespace Sys2Proof.Machine

/-- Neither path is the beginning of the other (R123, R148). -/
def PrefixFree (l m : BitString × Byte) : Prop := ¬ l.1 <+: m.1 ∧ ¬ m.1 <+: l.1

/-- Paths that part are no prefixes of one another (R123). -/
theorem PartsLeft.prefixFree {l m : BitString × Byte} (h : PartsLeft l m) : PrefixFree l m := by
  obtain ⟨r, p, q, hl, hm⟩ := h
  rw [PrefixFree, hl, hm, List.prefix_append_right_inj, List.prefix_append_right_inj, List.cons_prefix_cons,
    List.cons_prefix_cons]
  exact ⟨nofun, nofun⟩

/-- A walk is in order, its paths parting to the left (R120). -/
theorem pairwise_partsLeft_of_treeLeaves {ns : Table Node 511} {root : NodeIdx} {ls : List (BitString × Byte)}
    (h : treeLeaves ns root = some ls) : ls.Pairwise PartsLeft := by
  obtain ⟨hleaf, hinternal⟩ := isWalk_of_treeLeaves h
  cases hroot : (nodeAt ns root).internal with
  | false =>
    rw [hleaf hroot]
    exact List.pairwise_singleton _ _
  | true => exact (hinternal hroot).2

/-- Settles O30: the codes are the paths of the built tree's walk, which finds each symbol of the table once. -/
theorem builtCodesArePrefixFree : Obligations.BuiltCodesArePrefixFree := by
  intro f f' s hv hnsym hfreq
  obtain ⟨b, r, hbuild, hbuilt, hexec⟩ := exec_build f hv hnsym hfreq
  obtain ⟨ls, hwalk, -, -⟩ := treeLeaves_built hbuild hbuilt
  obtain ⟨hperm, hne, -⟩ := built_walk hbuilt hwalk
  have hnodup : (ls.map Prod.snd).Nodup := hperm.nodup_iff.mpr (nodup_sym_leafNodes _)
  have hcoded : ∀ c : Byte, 1 ≤ ((codeTable ls).read c.toNat).length →
      ∃ l ∈ ls, l.2 = c ∧ (codeTable ls).read c.toNat = l.1 := by
    intro c hc
    have hmem : c ∈ ls.map Prod.snd := by
      by_contra hnot
      rw [codeTable, read_foldl_write_of_not_mem hnot, Table.read_fill _ _ _ c.isLt] at hc
      cases hc
    obtain ⟨l, hl, rfl⟩ := List.mem_map.mp hmem
    exact ⟨l, hl, rfl, read_codeTable_of_mem hnodup hl⟩
  refine ⟨_, _, hexec, exec_gencode f' rfl hwalk, fun c => ?positive, fun c => ?short,
    fun c d hcd hc hd hprefix => ?free⟩
  case positive =>
    have hpos : 0 < (s.tabs.freq.read c.toNat).toNat ↔ c ∈ ls.map Prod.snd := by
      rw [hperm.mem_iff, mem_map_sym_leafNodes, Nat.pos_iff_ne_zero]
      exact not_congr (BitVec.toNat_inj (y := (0 : Word)))
    refine hpos.trans ⟨fun hmem => ?_, fun hc => ?_⟩
    · obtain ⟨l, hl, rfl⟩ := List.mem_map.mp hmem
      change 1 ≤ ((codeTable ls).read l.2.toNat).length
      rw [read_codeTable_of_mem hnodup hl]
      exact List.length_pos_iff.mpr (hne l hl)
    · obtain ⟨l, hl, rfl, -⟩ := hcoded c hc
      exact List.mem_map_of_mem hl
  case short => exact length_code_le (codeOk_coded (length_le_of_treeLeaves hwalk) s.tabs) c
  case free =>
    obtain ⟨l, hl, rfl, hcode⟩ := hcoded c hc
    obtain ⟨m, hm, rfl, hcode'⟩ := hcoded d hd
    have hlm : l ≠ m := fun heq => hcd (congrArg Prod.snd heq)
    have hsymm : Std.Symm PrefixFree := ⟨fun _ _ h => h.symm⟩
    have hfree := ((pairwise_partsLeft_of_treeLeaves hwalk).imp PartsLeft.prefixFree).forall hl hm hlm
    change (codeTable ls).read _ <+: (codeTable ls).read _ at hprefix
    rw [hcode, hcode'] at hprefix
    exact hfree.1 hprefix

end Sys2Proof.Machine
end

section
/-!
PROOF. The deserialize step reads a tree text line by line (R145, R147): each line gives back its path and symbol, and
the step ends as its insertions do.
-/
namespace Sys2Proof.Machine

theorem isBitChar_bitChar (b : Bool) : isBitChar (bitChar b) = true := by
  cases b <;> rfl

/-- A line is its path's characters up to the separator, and then fixed positions (R147). -/
theorem parseLine_treeLine (l : BitString × Byte) (tail : List Byte) :
    parseLine (treeLine l ++ tail) = (afterLine tail).map fun rest => (l.1, l.2, rest) := by
  obtain ⟨path, sym⟩ := l
  have hline : treeLine (path, sym) ++ tail
      = path.map bitChar ++ (sepBytes ++ ([quote, sym, quote] ++ tail)) := by
    simp [treeLine]
  have hbits : ∀ c ∈ path.map bitChar, isBitChar c = true := fun c hc => by
    obtain ⟨b, -, rfl⟩ := List.mem_map.mp hc
    exact isBitChar_bitChar b
  have hpath : (path.map bitChar).map (fun c => c == 0x31) = path := by
    rw [List.map_map]
    exact (List.map_congr_left fun b _ => by cases b <;> rfl).trans (List.map_id path)
  have htake : (treeLine (path, sym) ++ tail).takeWhile isBitChar = path.map bitChar := by
    rw [hline, List.takeWhile_append_of_pos hbits]
    exact List.append_nil _
  have hdrop : (treeLine (path, sym) ++ tail).dropWhile isBitChar = sepBytes ++ ([quote, sym, quote] ++ tail) := by
    rw [hline, List.dropWhile_append_of_pos hbits]
    rfl
  simp only [parseLine, htake, hdrop, hpath]
  rfl

/-- The text of a line and more lines: the line, and after a `0x0A` the rest (R141). -/
theorem treeText_cons_append (l : BitString × Byte) (ls : List (BitString × Byte)) (tail : List Byte) :
    treeText (l :: ls) ++ tail
      = treeLine l ++ (if ls = [] then tail else lineFeed :: (treeText ls ++ tail)) := by
  cases ls with
  | nil => rfl
  | cons m ls => simp [treeText]

theorem treeText_ne_nil {ls : List (BitString × Byte)} (h : ls ≠ []) : treeText ls ≠ [] := by
  intro hnil
  have hlen := length_treeText ls h
  have hpos := List.length_pos_iff.mpr h
  rw [hnil, List.length_nil] at hlen
  omega

/-- The lines inserted one after another (R145). -/
def insertLines (t : Trie) (ls : List (BitString × Byte)) : Except ErrCode Trie :=
  ls.foldlM (fun t l => insertLine t l.1 l.2) t

theorem insertLines_cons (t : Trie) (l : BitString × Byte) (ls : List (BitString × Byte)) :
    insertLines t (l :: ls) = (insertLine t l.1 l.2).bind fun t' => insertLines t' ls := rfl

/-- Lines whose insertions succeed are read, and then what follows them: nothing, or from the next line on (R145). -/
theorem deserializeLines_treeText {ls : List (BitString × Byte)} (hne : ls ≠ []) {fuel line : Nat} {t t' : Trie}
    (hins : insertLines t ls = .ok t') {tail more : List Byte} (htail : afterLine tail = some more) :
    deserializeLines (fuel + ls.length) (treeText ls ++ tail) line t
      = if more = [] then .ok t' else deserializeLines fuel more (line + ls.length) t' := by
  induction ls generalizing line t with
  | nil => exact absurd rfl hne
  | cons l ls ih =>
    rw [insertLines_cons] at hins
    cases hone : insertLine t l.1 l.2 with
    | error c => rw [hone] at hins; cases hins
    | ok t₁ =>
      rw [hone] at hins
      rw [List.length_cons, ← Nat.add_assoc, deserializeLines, treeText_cons_append, parseLine_treeLine]
      by_cases hnil : ls = []
      · subst hnil
        cases hins
        simp only [if_true, htail, Option.map_some, hone]
        rfl
      · have hmore : treeText ls ++ tail ≠ [] := fun h => treeText_ne_nil hnil (List.append_eq_nil_iff.mp h).1
        simp only [if_neg hnil, afterLine, if_true, Option.map_some, hone, if_neg hmore]
        rw [ih hnil hins, Nat.add_assoc line 1, Nat.add_comm 1]

/-- The deserialize step on a text whose lines can all be inserted (R145). -/
theorem deserializeText_treeText {ls : List (BitString × Byte)} (hne : ls ≠ []) {ns : Table Node 511} {t : Trie}
    (hins : insertLines (startTrie ns) ls = .ok t) : deserializeText ns (treeText ls) = .ok t := by
  have hlen := length_treeText ls hne
  obtain ⟨fuel, hfuel⟩ : ∃ fuel, (treeText ls).length = fuel + ls.length :=
    ⟨(treeText ls).length - ls.length, by have hpos := List.length_pos_iff.mpr hne; omega⟩
  have hrun := deserializeLines_treeText hne (fuel := fuel) (line := 0) hins (tail := []) rfl
  rwa [List.append_nil, if_pos rfl, ← hfuel] at hrun

end Sys2Proof.Machine
end

section
/-!
PROOF. The trie a deserialize step grows, node by node (R145): each node has a path of its own, a child stands one bit
below its parent, and an allocation adds one node.
-/
namespace Sys2Proof.Machine

/-- What a node says of its path: an Internal node nothing, a Leaf its symbol. -/
def nodeKind (d : Node) : Option Byte := if d.internal then none else some d.sym

theorem nodeKind_withChild (d : Node) (b : Bool) (c : NodeIdx) : nodeKind (withChild d b c) = nodeKind d := by
  rw [nodeKind, withChild_internal, withChild_sym]
  rfl

theorem nodeKind_eq_some {d : Node} {b : Byte} : nodeKind d = some b ↔ d.internal = false ∧ d.sym = b := by
  cases h : d.internal <;> simp [nodeKind, h]

/-- `path` gives each node of the trie its path, all of them in `S`, which has no more paths than the store has
nodes. -/
structure TriePaths (S : Finset BitString) (t : Trie) (path : Nat → BitString) : Prop where
  room : S.card ≤ 511
  within : ∀ k < t.cnt, path k ∈ S
  pos : 0 < t.cnt
  root : path 0 = []
  inj : ∀ j < t.cnt, ∀ k < t.cnt, path j = path k → j = k
  down : ∀ k < t.cnt, ∀ b, childOf (t.nodes.read k) b ≠ Config.nil →
    (t.nodes.read k).internal = true ∧ (childOf (t.nodes.read k) b).toNat < t.cnt
      ∧ path (childOf (t.nodes.read k) b).toNat = path k ++ [b]
  up : ∀ j < t.cnt, ∀ p b, path j = p ++ [b] →
    ∃ k < t.cnt, path k = p ∧ childOf (t.nodes.read k) b = BitVec.ofNat 9 j

/-- The trie has a node of this kind at path `p`. -/
def HasNode (t : Trie) (path : Nat → BitString) (p : BitString) (o : Option Byte) : Prop :=
  ∃ k < t.cnt, path k = p ∧ nodeKind (t.nodes.read k) = o

section
variable {S : Finset BitString} {t : Trie} {path : Nat → BitString} (h : TriePaths S t path)
include h

theorem TriePaths.image_eq : ((Finset.range t.cnt).image path).card = t.cnt := by
  rw [Finset.card_image_of_injOn fun j hj k hk => h.inj j (by simpa using hj) k (by simpa using hk), Finset.card_range]

theorem TriePaths.image_subset : (Finset.range t.cnt).image path ⊆ S :=
  Finset.image_subset_iff.mpr fun k hk => h.within k (Finset.mem_range.mp hk)

theorem TriePaths.cnt_le : t.cnt ≤ 511 := by
  have hcard := Finset.card_le_card h.image_subset
  rw [h.image_eq] at hcard
  exact hcard.trans h.room

/-- While a path of `S` has no node the store is not full. -/
theorem TriePaths.cnt_lt {p : BitString} (hp : p ∈ S) (hfree : ∀ k < t.cnt, path k ≠ p) : t.cnt < 511 := by
  have hsub : (Finset.range t.cnt).image path ⊂ S := by
    refine (Finset.ssubset_iff_of_subset h.image_subset).mpr ⟨p, hp, fun hmem => ?_⟩
    obtain ⟨k, hk, hkp⟩ := Finset.mem_image.mp hmem
    exact hfree k (Finset.mem_range.mp hk) hkp
  have hcard := Finset.card_lt_card hsub
  rw [h.image_eq] at hcard
  exact hcard.trans_le h.room

/-- When every path of `S` has a node, the trie has as many nodes as `S` has paths. -/
theorem TriePaths.cnt_eq (hall : ∀ p ∈ S, ∃ k < t.cnt, path k = p) : t.cnt = S.card := by
  have hsub : S ⊆ (Finset.range t.cnt).image path := fun p hp => by
    obtain ⟨k, hk, hkp⟩ := hall p hp
    exact Finset.mem_image.mpr ⟨k, Finset.mem_range.mpr hk, hkp⟩
  rw [← h.image_eq, Finset.Subset.antisymm h.image_subset hsub]

/-- The index of a node fits its 9 bits and is not `NIL`. -/
theorem TriePaths.toNat_index {j : Nat} (hj : j < t.cnt) :
    (BitVec.ofNat 9 j).toNat = j ∧ BitVec.ofNat 9 j ≠ Config.nil := by
  have hcnt := h.cnt_le
  have hidx : (BitVec.ofNat 9 j).toNat = j := Nat.mod_eq_of_lt (by omega)
  refine ⟨hidx, fun heq => ?_⟩
  have hnil : (BitVec.ofNat 9 j).toNat = 511 := congrArg BitVec.toNat heq
  omega

/-- The node one bit below another is its child. -/
theorem TriePaths.child_eq {j k : Nat} (hj : j < t.cnt) (hk : k < t.cnt) {b : Bool} (hpath : path j = path k ++ [b]) :
    childOf (t.nodes.read k) b = BitVec.ofNat 9 j := by
  obtain ⟨i, hi, hik, hchild⟩ := h.up j hj _ _ hpath
  rwa [h.inj i hi k hk hik] at hchild

/-- A free child has no node at its path. -/
theorem TriePaths.free_of_child_nil {k : Nat} (hk : k < t.cnt) {b : Bool}
    (hnil : childOf (t.nodes.read k) b = Config.nil) : ∀ j < t.cnt, path j ≠ path k ++ [b] := fun _ hj hpath =>
  (h.toNat_index hj).2 ((h.child_eq hj hk hpath).symm.trans hnil)

/-- Above a node there are nodes at all prefixes of its path. -/
theorem TriePaths.exists_prefix (q : BitString) {p : BitString} (hnode : ∃ j < t.cnt, path j = p ++ q) :
    ∃ k < t.cnt, path k = p := by
  induction q using List.reverseRecOn with
  | nil => simpa using hnode
  | append_singleton q b ih =>
    obtain ⟨j, hj, hpath⟩ := hnode
    rw [← List.append_assoc] at hpath
    obtain ⟨k, hk, hkp, -⟩ := h.up j hj _ _ hpath
    exact ih ⟨k, hk, hkp⟩

/-- The bits from a node lead to a Leaf exactly where the trie has that Leaf. -/
theorem TriePaths.leadsToLeaf_iff {k : NodeIdx} {p : BitString} {b : Byte} (hk : k.toNat < t.cnt) :
    leadsToLeaf t.nodes k p b = true ↔ HasNode t path (path k.toNat ++ p) (some b) := by
  induction p generalizing k with
  | nil =>
    rw [leadsToLeaf_nil, List.append_nil, nodeAt, ← nodeKind_eq_some]
    constructor
    · exact fun hkind => ⟨k.toNat, hk, rfl, hkind⟩
    · rintro ⟨j, hj, hpath, hkind⟩
      rwa [h.inj j hj _ hk hpath] at hkind
  | cons c p ih =>
    rw [leadsToLeaf_cons, nodeAt, List.append_cons]
    constructor
    · rintro ⟨-, hne, hleads⟩
      obtain ⟨-, hlt, hpath⟩ := h.down _ hk c hne
      rwa [ih hlt, hpath] at hleads
    · intro hnode
      obtain ⟨j, hj, hpath, hkind⟩ := hnode
      obtain ⟨i, hi, hik⟩ := h.exists_prefix p ⟨j, hj, hpath⟩
      have hchild := h.child_eq hi hk hik
      obtain ⟨hidx, hne⟩ := h.toNat_index hi
      rw [hchild]
      refine ⟨(h.down _ hk c (hchild ▸ hne)).1, hne, (ih (by rwa [hidx])).mpr ?_⟩
      rw [hidx, hik]
      exact ⟨j, hj, hpath, hkind⟩

/-- An allocation at a free child adds one node, one bit below its parent (R145). -/
theorem TriePaths.alloc {k : NodeIdx} (hk : k.toNat < t.cnt) (hint : (t.nodes.read k.toNat).internal = true) {b : Bool}
    (hnil : childOf (t.nodes.read k.toNat) b = Config.nil) (hin : path k.toNat ++ [b] ∈ S) {d : Node}
    (hbare : ∀ b, childOf d b = Config.nil) :
    TriePaths S (allocChild t k b d) (Function.update path t.cnt (path k.toNat ++ [b]))
    ∧ ∀ p o, HasNode (allocChild t k b d) (Function.update path t.cnt (path k.toNat ++ [b])) p o
        ↔ HasNode t path p o ∨ (p = path k.toNat ++ [b] ∧ o = nodeKind d) := by
  have hfree := h.free_of_child_nil hk hnil
  have hcnt := h.cnt_lt hin hfree
  have hread := read_allocChild hk hcnt b d
  have hidx : (BitVec.ofNat 9 t.cnt).toNat = t.cnt := Nat.mod_eq_of_lt (by omega)
  have hnew : (allocChild t k b d).nodes.read t.cnt = d := (hread _).trans (if_pos rfl)
  have hparent : (allocChild t k b d).nodes.read k.toNat
      = withChild (t.nodes.read k.toNat) b (BitVec.ofNat 9 t.cnt) := by
    rw [hread, if_neg (by omega), if_pos rfl]
  have hother : ∀ j < t.cnt, j ≠ k.toNat → (allocChild t k b d).nodes.read j = t.nodes.read j := fun j hj hjk => by
    rw [hread, if_neg (by omega), if_neg hjk]
  have hkind : ∀ j < t.cnt, nodeKind ((allocChild t k b d).nodes.read j) = nodeKind (t.nodes.read j) := fun j hj => by
    by_cases hjk : j = k.toNat
    · rw [hjk, hparent, nodeKind_withChild]
    · rw [hother j hj hjk]
  have hold : ∀ j < t.cnt, Function.update path t.cnt (path k.toNat ++ [b]) j = path j := fun j hj =>
    Function.update_of_ne (by omega) _ _
  have hlast : Function.update path t.cnt (path k.toNat ++ [b]) t.cnt = path k.toNat ++ [b] := Function.update_self ..
  refine ⟨⟨h.room, fun j hj => ?within, Nat.succ_pos _, (hold 0 h.pos).trans h.root, fun i hi j hj hij => ?inj,
    fun j hj c hne => ?down, fun j hj p c hp => ?up⟩, fun p o => ⟨?has, ?had⟩⟩
  case within =>
    obtain rfl | hj := Nat.eq_or_lt_of_le (Nat.le_of_lt_succ hj)
    · rwa [hlast]
    · rw [hold j hj]
      exact h.within j hj
  case inj =>
    obtain rfl | hi := Nat.eq_or_lt_of_le (Nat.le_of_lt_succ hi) <;>
      obtain rfl | hj := Nat.eq_or_lt_of_le (Nat.le_of_lt_succ hj)
    · rfl
    · rw [hlast, hold j hj] at hij
      exact absurd hij.symm (hfree j hj)
    · rw [hlast, hold i hi] at hij
      exact absurd hij (hfree i hi)
    · rw [hold i hi, hold j hj] at hij
      exact h.inj i hi j hj hij
  case down =>
    have hkeep : ∀ j < t.cnt, childOf (t.nodes.read j) c ≠ Config.nil → (t.nodes.read j).internal = true
        ∧ (childOf (t.nodes.read j) c).toNat < t.cnt + 1
        ∧ Function.update path t.cnt (path k.toNat ++ [b]) (childOf (t.nodes.read j) c).toNat = path j ++ [c] := by
      intro j hj hne
      obtain ⟨hint', hlt, hpath⟩ := h.down j hj c hne
      exact ⟨hint', Nat.lt_succ_of_lt hlt, (hold _ hlt).trans hpath⟩
    obtain rfl | hj := Nat.eq_or_lt_of_le (Nat.le_of_lt_succ hj)
    · rw [hnew] at hne
      exact absurd (hbare c) hne
    rw [hold j hj]
    by_cases hjk : j = k.toNat
    · subst hjk
      rw [hparent] at hne ⊢
      rw [childOf_withChild] at hne ⊢
      rw [withChild_internal]
      split at hne
      next hcb =>
        rw [if_pos hcb, hidx, hlast, hcb]
        exact ⟨hint, Nat.lt_succ_self _, rfl⟩
      next hcb =>
        rw [if_neg hcb]
        exact hkeep _ hj hne
    · rw [hother j hj hjk] at hne ⊢
      exact hkeep j hj hne
  case up =>
    obtain rfl | hj := Nat.eq_or_lt_of_le (Nat.le_of_lt_succ hj)
    · rw [hlast] at hp
      obtain ⟨hpk, hbc⟩ := List.append_inj' hp rfl
      cases hbc
      refine ⟨k.toNat, Nat.lt_succ_of_lt hk, (hold _ hk).trans hpk, ?_⟩
      rw [hparent, childOf_withChild, if_pos rfl]
    · rw [hold j hj] at hp
      obtain ⟨i, hi, hip, hchild⟩ := h.up j hj p c hp
      have hne := (h.toNat_index hj).2
      refine ⟨i, Nat.lt_succ_of_lt hi, (hold i hi).trans hip, ?_⟩
      by_cases hik : i = k.toNat
      · subst hik
        have hcb : c ≠ b := fun hcb => hne (hchild.symm.trans (hcb ▸ hnil))
        rw [hparent, childOf_withChild, if_neg hcb, hchild]
      · rw [hother i hi hik, hchild]
  case has =>
    rintro ⟨j, hj, hpath, ho⟩
    obtain rfl | hj := Nat.eq_or_lt_of_le (Nat.le_of_lt_succ hj)
    · rw [hlast] at hpath
      rw [hnew] at ho
      exact .inr ⟨hpath.symm, ho.symm⟩
    · rw [hold j hj] at hpath
      rw [hkind j hj] at ho
      exact .inl ⟨j, hj, hpath, ho⟩
  case had =>
    rintro (⟨j, hj, hpath, ho⟩ | ⟨rfl, rfl⟩)
    · exact ⟨j, Nat.lt_succ_of_lt hj, (hold j hj).trans hpath, (hkind j hj).trans ho⟩
    · exact ⟨t.cnt, Nat.lt_succ_self _, hlast, congrArg nodeKind hnew⟩

end

end Sys2Proof.Machine
end

section
/-!
PROOF. The insertions of acceptable lines (R145, R147 to R149): each succeeds, and the trie ends with a Leaf at each
line's path, Internal nodes at its proper prefixes, and no other node.
-/
namespace Sys2Proof.Machine

/-! The insertion, case by case, where it does not stop. -/

section
variable {t : Trie} {k : NodeIdx} (sym : Byte) (hint : (t.nodes.read k.toNat).internal = true) {b b' : Bool}
  {p : BitString}
include hint

theorem insertFrom_last (hnil : childOf (t.nodes.read k.toNat) b = Config.nil) (hcnt : t.cnt ≠ Config.nodeCap) :
    insertFrom sym [b] k t = .ok (allocChild t k b (leafNode sym 0)) := by
  rw [insertFrom, nodeAt, if_neg (by simp [hint]), if_neg (by simp [hnil]), if_neg hcnt]

theorem insertFrom_grow (hnil : childOf (t.nodes.read k.toNat) b = Config.nil) (hcnt : t.cnt ≠ Config.nodeCap) :
    insertFrom sym (b :: b' :: p) k t
      = insertFrom sym (b' :: p) (BitVec.ofNat 9 t.cnt) (allocChild t k b bareInternal) := by
  rw [insertFrom, nodeAt, if_neg (by simp [hint]), if_pos hnil, if_neg hcnt]

theorem insertFrom_descend (hne : childOf (t.nodes.read k.toNat) b ≠ Config.nil) :
    insertFrom sym (b :: b' :: p) k t = insertFrom sym (b' :: p) (childOf (t.nodes.read k.toNat) b) t := by
  rw [insertFrom, nodeAt, if_neg (by simp [hint]), if_neg hne]

end

/-! One line (R145). -/

/-- The nodes the line of `p` and `sym` adds below the node at path `q`: its Leaf, and Internal nodes on the way. -/
def LineAdds (q p : BitString) (sym : Byte) (r : BitString) (o : Option Byte) : Prop :=
  (o = none ∧ q <+: r ∧ r <+: p ∧ r ≠ p) ∨ (r = p ∧ o = some sym)

theorem leaf_childless (sym : Byte) (b : Bool) : childOf (leafNode sym 0) b = Config.nil := by
  cases b <;> rfl

theorem bareInternal_childless (b : Bool) : childOf bareInternal b = Config.nil := by
  cases b <;> rfl

/-- Below a node that stands on the way of a line, the line adds the node's kind and what it adds a bit further down. -/
theorem lineAdds_iff {q p : BitString} {b : Bool} (hp : q ++ [b] <+: p) (hne : q ≠ p) {sym : Byte} {r : BitString}
    {o : Option Byte} : LineAdds q p sym r o ↔ (r = q ∧ o = none) ∨ LineAdds (q ++ [b]) p sym r o := by
  have hqp : q <+: p := (List.prefix_append q [b]).trans hp
  constructor
  · rintro (⟨rfl, hqr, hrp, hrne⟩ | hleaf)
    · obtain ⟨s, rfl⟩ := hqr
      cases s with
      | nil => exact .inl ⟨List.append_nil q, rfl⟩
      | cons c s =>
        obtain ⟨u, rfl⟩ := hp
        rw [List.append_assoc, List.prefix_append_right_inj] at hrp
        obtain ⟨rfl, -⟩ := List.cons_prefix_cons.mp hrp
        exact .inr (.inl ⟨rfl, List.append_cons q c s ▸ List.prefix_append .., by
          rw [List.append_assoc, List.prefix_append_right_inj]; exact hrp, hrne⟩)
    · exact .inr (.inr hleaf)
  · rintro (⟨rfl, rfl⟩ | ⟨rfl, hqr, hrp, hrne⟩ | hleaf)
    · exact .inl ⟨rfl, List.prefix_rfl, hqp, hne⟩
    · exact .inl ⟨rfl, (List.prefix_append q [b]).trans hqr, hrp, hrne⟩
    · exact .inr hleaf

/-- A line whose path meets no Leaf, ends at no node and has all its prefixes in `S` is inserted (R145). -/
theorem insertFrom_adds {S : Finset BitString} {sym : Byte} {p : BitString} (hp : p ≠ []) {k : NodeIdx} {t : Trie}
    {path : Nat → BitString} (h : TriePaths S t path) (hk : k.toNat < t.cnt)
    (hin : ∀ r, r <+: path k.toNat ++ p → r ∈ S)
    (hleaf : ∀ r s, HasNode t path r (some s) → ¬ r <+: path k.toNat ++ p)
    (hnew : ∀ o, ¬ HasNode t path (path k.toNat ++ p) o) :
    ∃ t' path', insertFrom sym p k t = .ok t' ∧ TriePaths S t' path'
      ∧ ∀ r o, HasNode t' path' r o ↔ HasNode t path r o ∨ LineAdds (path k.toNat) (path k.toNat ++ p) sym r o := by
  induction p generalizing k t path with
  | nil => exact absurd rfl hp
  | cons b p ih =>
    have hint : (t.nodes.read k.toNat).internal = true := by
      by_contra hfalse
      exact hleaf _ _ ⟨k.toNat, hk, rfl, nodeKind_eq_some.mpr ⟨Bool.eq_false_iff.mpr hfalse, rfl⟩⟩
        (List.prefix_append ..)
    have hroot : HasNode t path (path k.toNat) none := ⟨k.toNat, hk, rfl, if_pos hint⟩
    have hbit : path k.toNat ++ [b] <+: path k.toNat ++ b :: p :=
      (List.prefix_append_right_inj _).mpr (List.prefix_append [b] p)
    have hadds : ∀ r o, (HasNode t path r o ∨ LineAdds (path k.toNat) (path k.toNat ++ b :: p) sym r o)
        ↔ HasNode t path r o ∨ LineAdds (path k.toNat ++ [b]) (path k.toNat ++ b :: p) sym r o := fun r o => by
      rw [lineAdds_iff hbit (by simp)]
      constructor
      · rintro (hold | ⟨rfl, rfl⟩ | hadd)
        · exact .inl hold
        · exact .inl hroot
        · exact .inr hadd
      · exact fun hcase => hcase.imp_right .inr
    simp only [hadds]
    cases p with
    | nil =>
      have hnil : childOf (t.nodes.read k.toNat) b = Config.nil := by
        by_contra hne
        obtain ⟨-, hlt, hpath⟩ := h.down _ hk b hne
        exact hnew _ ⟨_, hlt, hpath, rfl⟩
      have hcnt := h.cnt_lt (hin _ List.prefix_rfl) (h.free_of_child_nil hk hnil)
      obtain ⟨hpaths, hnodes⟩ := h.alloc hk hint hnil (hin _ List.prefix_rfl) (leaf_childless sym)
      refine ⟨_, _, ?_, hpaths, fun r o => (hnodes r o).trans (or_congr_right ?_)⟩
      · exact insertFrom_last sym hint hnil (Nat.ne_of_lt hcnt)
      · constructor
        · exact fun hlast => .inr hlast
        · rintro (⟨-, hqr, hrp, hne⟩ | hlast)
          · exact absurd (hrp.eq_of_length_le hqr.length_le) hne
          · exact hlast
    | cons b' p =>
      have hsplit : path k.toNat ++ b :: b' :: p = path k.toNat ++ [b] ++ b' :: p := List.append_cons ..
      rw [hsplit] at hin hleaf hnew ⊢
      by_cases hnil : childOf (t.nodes.read k.toNat) b = Config.nil
      · have hbin := hin _ (List.prefix_append ..)
        have hcnt := h.cnt_lt hbin (h.free_of_child_nil hk hnil)
        obtain ⟨hpaths, hnodes⟩ := h.alloc hk hint hnil hbin bareInternal_childless
        have hidx : (BitVec.ofNat 9 t.cnt).toNat = t.cnt := Nat.mod_eq_of_lt (by omega)
        have hlast : Function.update path t.cnt (path k.toNat ++ [b]) t.cnt = path k.toNat ++ [b] :=
          Function.update_self ..
        have hrun := insertFrom_grow sym (b' := b') (p := p) hint hnil (Nat.ne_of_lt hcnt)
        obtain ⟨t', path', hok, hpaths', hnodes'⟩ := ih (k := BitVec.ofNat 9 t.cnt) (List.cons_ne_nil b' p) hpaths
          (by rw [hidx]; exact Nat.lt_succ_self _) (by rw [hidx, hlast]; exact hin)
          (fun r s hnode => by
            rw [hidx, hlast]
            exact hleaf r s (((hnodes r _).mp hnode).resolve_right fun hbad => nomatch hbad.2))
          (fun o hnode => by
            rw [hidx, hlast] at hnode
            exact hnew o (((hnodes _ _).mp hnode).resolve_right fun hbad => by simp at hbad))
        rw [hidx, hlast] at hnodes'
        refine ⟨t', path', hrun.trans hok, hpaths', fun r o => ?_⟩
        rw [hnodes', hnodes, or_assoc, lineAdds_iff (q := path k.toNat ++ [b]) (b := b') (by simp) (by simp)]
        exact or_congr_right ⟨fun hcase => hcase.elim .inl id, .inr⟩
      · obtain ⟨-, hlt, hpath⟩ := h.down _ hk b hnil
        rw [insertFrom_descend sym hint hnil, ← hpath]
        exact ih (List.cons_ne_nil b' p) h hlt (hpath ▸ hin) (hpath ▸ hleaf) (hpath ▸ hnew)

/-! All lines (R145). -/

/-- The nodes of a trie of these lines: the root, Internal nodes at the proper prefixes, and the Leaves. -/
def LinesHave (ls : List (BitString × Byte)) (r : BitString) (o : Option Byte) : Prop :=
  (o = none ∧ (r = [] ∨ ∃ l ∈ ls, r <+: l.1 ∧ r ≠ l.1)) ∨ ∃ l ∈ ls, r = l.1 ∧ o = some l.2

theorem linesHave_concat (ls : List (BitString × Byte)) (l : BitString × Byte) (r : BitString) (o : Option Byte) :
    LinesHave (ls ++ [l]) r o ↔ LinesHave ls r o ∨ LineAdds [] l.1 l.2 r o := by
  simp only [LinesHave, LineAdds, List.mem_append, List.mem_singleton, or_and_right, exists_or, exists_eq_left,
    List.nil_prefix, true_and, and_or_left]
  rw [← eq_iff_iff]
  ac_rfl

/-- The trie of the lines `ls`. -/
structure TrieOf (S : Finset BitString) (ls : List (BitString × Byte)) (t : Trie) (path : Nat → BitString) : Prop where
  paths : TriePaths S t path
  nodes : ∀ r o, HasNode t path r o ↔ LinesHave ls r o

theorem startTrie_trieOf {S : Finset BitString} (hroom : S.card ≤ 511) (hnil : [] ∈ S) (ns : Table Node 511) :
    TrieOf S [] (startTrie ns) fun _ => [] := by
  have hread : (startTrie ns).nodes.read 0 = bareInternal := Table.read_write_same _ _ _ (by decide)
  have hone : ∀ k < (startTrie ns).cnt, k = 0 := fun k hk => Nat.lt_one_iff.mp hk
  refine ⟨⟨hroom, fun _ _ => hnil, Nat.one_pos, rfl, fun j hj k hk _ => (hone j hj).trans (hone k hk).symm,
    fun k hk b hne => ?_, fun j _ p b hp => ?_⟩, fun r o => ⟨?_, ?_⟩⟩
  · rw [hone k hk, hread] at hne
    exact absurd (bareInternal_childless b) hne
  · simp at hp
  · rintro ⟨k, hk, rfl, rfl⟩
    rw [hone k hk, hread]
    exact .inl ⟨rfl, .inl rfl⟩
  · rintro (⟨rfl, rfl | ⟨l, hl, -⟩⟩ | ⟨l, hl, -⟩)
    · exact ⟨0, Nat.one_pos, rfl, congrArg nodeKind hread⟩
    · cases hl
    · cases hl

/-- A line of 1 to 255 bits that conflicts with no earlier one is inserted (R145, R148). -/
theorem TrieOf.insertLine {S : Finset BitString} {ls : List (BitString × Byte)} {t : Trie} {path : Nat → BitString}
    (h : TrieOf S ls t path) {l : BitString × Byte} (hlen : 1 ≤ l.1.length ∧ l.1.length ≤ Config.maxCodeLen)
    (hin : ∀ r, r <+: l.1 → r ∈ S) (hfree : ∀ m ∈ ls, PrefixFree m l) :
    ∃ t' path', insertLine t l.1 l.2 = .ok t' ∧ TrieOf S (ls ++ [l]) t' path' := by
  obtain ⟨hpos, hmax⟩ := hlen
  have hroot : path (0 : NodeIdx).toNat = [] := h.paths.root
  have hfull : path (0 : NodeIdx).toNat ++ l.1 = l.1 := by rw [hroot, List.nil_append]
  have hrun : Machine.insertLine t l.1 l.2 = insertFrom l.2 l.1 0 t := by
    rw [Machine.insertLine, if_neg (by omega), if_neg (by omega)]
  obtain ⟨t', path', hok, hpaths, hnodes⟩ := insertFrom_adds (k := 0) (sym := l.2) (List.length_pos_iff.mp hpos) h.paths
    h.paths.pos (by rwa [hfull])
    (fun r s hnode => by
      rw [hfull]
      obtain ⟨hnone, -⟩ | ⟨m, hm, rfl, -⟩ := (h.nodes _ _).mp hnode
      · cases hnone
      · exact (hfree m hm).1)
    (fun o hnode => by
      rw [hfull] at hnode
      obtain ⟨-, hnil | ⟨m, hm, hprefix, -⟩⟩ | ⟨m, hm, heq, -⟩ := (h.nodes _ _).mp hnode
      · rw [hnil] at hpos
        cases hpos
      · exact (hfree m hm).2 hprefix
      · exact (hfree m hm).2 (heq ▸ List.prefix_rfl))
  refine ⟨t', path', hrun.trans hok, hpaths, fun r o => ?_⟩
  rw [hnodes, h.nodes, linesHave_concat, hfull, hroot]

theorem TrieOf.insertLines {S : Finset BitString} {ls : List (BitString × Byte)} {done : List (BitString × Byte)}
    {t : Trie} {path : Nat → BitString} (h : TrieOf S done t path)
    (hlen : ∀ l ∈ ls, 1 ≤ l.1.length ∧ l.1.length ≤ Config.maxCodeLen) (hin : ∀ l ∈ ls, ∀ r, r <+: l.1 → r ∈ S)
    (hfree : (done ++ ls).Pairwise PrefixFree) :
    ∃ t' path', insertLines t ls = .ok t' ∧ TrieOf S (done ++ ls) t' path' := by
  induction ls generalizing done t path with
  | nil => exact ⟨t, path, rfl, by rwa [List.append_nil]⟩
  | cons l ls ih =>
    obtain ⟨-, -, hcross⟩ := List.pairwise_append.mp hfree
    obtain ⟨t₁, path₁, hone, h₁⟩ := h.insertLine (hlen l List.mem_cons_self) (hin l List.mem_cons_self)
      fun m hm => hcross m hm l List.mem_cons_self
    rw [List.append_cons] at hfree ⊢
    obtain ⟨t', path', hrest, h'⟩ := ih h₁ (fun m hm => hlen m (List.mem_cons_of_mem l hm))
      (fun m hm => hin m (List.mem_cons_of_mem l hm)) hfree
    refine ⟨t', path', ?_, h'⟩
    rw [insertLines_cons, hone]
    exact hrest

/-! The prefixes of the lines (R149). -/

/-- The paths of a trie of these lines: the root's, and all distinct prefixes. -/
def linePrefixes (ls : List (BitString × Byte)) : Finset BitString :=
  insert [] (ls.flatMap fun l => (List.range l.1.length).map fun j => l.1.take (j + 1)).toFinset

theorem mem_linePrefixes {ls : List (BitString × Byte)} {r : BitString} :
    r ∈ linePrefixes ls ↔ r = [] ∨ ∃ l ∈ ls, r <+: l.1 := by
  simp only [linePrefixes, Finset.mem_insert, List.mem_toFinset, List.mem_flatMap, List.mem_map, List.mem_range]
  refine or_congr_right' fun hne => exists_congr fun l => and_congr_right fun _ => ⟨?_, fun hprefix => ?_⟩
  · rintro ⟨j, -, rfl⟩
    exact List.take_prefix ..
  · have hpos := List.length_pos_iff.mpr hne
    have hle := hprefix.length_le
    refine ⟨r.length - 1, by omega, ?_⟩
    rw [Nat.sub_add_cancel hpos]
    exact (List.prefix_iff_eq_take.mp hprefix).symm

theorem card_linePrefixes (ls : List (BitString × Byte)) : (linePrefixes ls).card = prefixCount ls + 1 := by
  rw [linePrefixes, Finset.card_insert_of_notMem, List.card_toFinset, prefixCount]
  simp only [List.mem_toFinset, List.mem_flatMap, List.mem_map, List.mem_range, not_exists, not_and]
  intro l _ j hj hnil
  have hlen := congrArg List.length hnil
  rw [List.length_take, List.length_nil] at hlen
  omega

theorem acceptable_iff {ls : List (BitString × Byte)} :
    acceptable ls = true ↔ ls ≠ [] ∧ (∀ l ∈ ls, 1 ≤ l.1.length ∧ l.1.length ≤ Config.maxCodeLen)
      ∧ ls.Pairwise PrefixFree ∧ prefixCount ls + 1 ≤ Config.nodeCap := by
  simp only [acceptable, Bool.and_eq_true, Bool.not_eq_true', List.isEmpty_eq_false_iff, List.all_eq_true,
    decide_eq_true_eq, and_assoc]
  rfl

/-- A text of acceptable lines is accepted whatever the store held, and leaves the trie of its lines (R145, R149). -/
theorem deserializeText_of_acceptable {ls : List (BitString × Byte)} (h : acceptable ls = true) (ns : Table Node 511) :
    ∃ t path, deserializeText ns (treeText ls) = .ok t ∧ TrieOf (linePrefixes ls) ls t path := by
  obtain ⟨hne, hlen, hfree, hroom⟩ := acceptable_iff.mp h
  have hstart : TrieOf (linePrefixes ls) [] (startTrie ns) fun _ => [] :=
    startTrie_trieOf ((card_linePrefixes ls).trans_le hroom) (mem_linePrefixes.mpr (.inl rfl)) ns
  obtain ⟨t, path, hins, htrie⟩ := hstart.insertLines hlen
    (fun l hl r hr => mem_linePrefixes.mpr (.inr ⟨l, hl, hr⟩)) hfree
  exact ⟨t, path, deserializeText_treeText hne hins, htrie⟩

/-! What the trie holds (R145, R149). -/

section
variable {ls : List (BitString × Byte)} {t : Trie} {path : Nat → BitString} (h : TrieOf (linePrefixes ls) ls t path)
include h

/-- One node for the root and one for each of the distinct prefixes (R145). -/
theorem TrieOf.cnt_eq : t.cnt = prefixCount ls + 1 := by
  rw [← card_linePrefixes]
  refine h.paths.cnt_eq fun p hp => ?_
  have hhave : ∃ o, LinesHave ls p o := by
    obtain hnil | ⟨l, hl, hprefix⟩ := mem_linePrefixes.mp hp
    · exact ⟨none, .inl ⟨rfl, .inl hnil⟩⟩
    · by_cases hpl : p = l.1
      · exact ⟨some l.2, .inr ⟨l, hl, hpl, rfl⟩⟩
      · exact ⟨none, .inl ⟨rfl, .inr ⟨l, hl, hprefix, hpl⟩⟩⟩
  obtain ⟨o, ho⟩ := hhave
  obtain ⟨k, hk, hkp, -⟩ := (h.nodes p o).mpr ho
  exact ⟨k, hk, hkp⟩

theorem TrieOf.root_internal : (nodeAt t.nodes 0).internal = true := by
  obtain ⟨k, hk, hpath, hkind⟩ := (h.nodes [] none).mpr (.inl ⟨rfl, .inl rfl⟩)
  obtain rfl : k = 0 := h.paths.inj k hk 0 h.paths.pos (hpath.trans h.paths.root.symm)
  cases hint : (t.nodes.read 0).internal with
  | true => exact hint
  | false => simp [nodeKind, hint] at hkind

/-- The walk of the trie finds the lines' pairs (R145). -/
theorem TrieOf.mem_treeLeaves_iff {ls' : List (BitString × Byte)} (hwalk : treeLeaves t.nodes 0 = some ls')
    (l : BitString × Byte) : l ∈ ls' ↔ l ∈ ls := by
  obtain ⟨p, b⟩ := l
  have hzero : path (0 : NodeIdx).toNat = [] := h.paths.root
  rw [((isWalk_of_treeLeaves hwalk).2 h.root_internal).1, h.paths.leadsToLeaf_iff (k := 0) h.paths.pos, hzero,
    List.nil_append, h.nodes]
  constructor
  · rintro (⟨hnone, -⟩ | ⟨l, hl, rfl, hsym⟩)
    · cases hnone
    · cases hsym
      exact hl
  · exact fun hl => .inr ⟨(p, b), hl, rfl, rfl⟩

end

end Sys2Proof.Machine
end

section
/-!
PROOF. The text of a built tree reads back (R149): its lines are acceptable, a tree of `N` Leaves having `2N - 1` paths
in all, and the order of a walk is the order of its paths, so both trees list the same pairs.
-/
namespace Sys2Proof.Machine

/-! The order of a walk. -/

theorem PartsLeft.lt {l m : BitString × Byte} (h : PartsLeft l m) : l.1 < m.1 := by
  obtain ⟨r, p, q, hl, hm⟩ := h
  rw [hl, hm]
  exact List.append_left_lt (List.cons_lt_cons_iff.mpr (.inl (by decide)))

/-- Two walks that find the same pairs are equal. -/
theorem eq_of_pairwise_partsLeft {ls ms : List (BitString × Byte)} (hls : ls.Pairwise PartsLeft)
    (hms : ms.Pairwise PartsLeft) (hmem : ∀ l, l ∈ ls ↔ l ∈ ms) : ls = ms := by
  have hirrefl : ∀ l m : BitString × Byte, PartsLeft l m → l ≠ m := fun l m h heq =>
    List.lt_irrefl m.1 (heq ▸ h.lt)
  have hnodup : ls.Nodup := hls.imp fun h => hirrefl _ _ h
  have hnodup' : ms.Nodup := hms.imp fun h => hirrefl _ _ h
  exact List.Perm.eq_of_pairwise (fun _ _ _ _ h h' => absurd h'.lt (List.lt_asymm h.lt)) hls hms
    ((List.perm_ext_iff_of_nodup hnodup hnodup').mpr hmem)

/-! The paths of a built tree (R114, R149). -/

/-- The prefixes of two branches together: the node's own path, and those of each branch under its bit. -/
theorem linePrefixes_under {ls ms : List (BitString × Byte)} (hls : ls ≠ []) (hms : ms ≠ []) :
    linePrefixes (under false ls ++ under true ms)
      = insert [] ((linePrefixes ls).image (List.cons false) ∪ (linePrefixes ms).image (List.cons true)) := by
  have hbranch : ∀ (b : Bool) {ns : List (BitString × Byte)}, ns ≠ [] → ∀ r : BitString,
      ((∃ l ∈ under b ns, r <+: l.1) ↔ r = [] ∨ r ∈ (linePrefixes ns).image (List.cons b)) := by
    intro b ns hns r
    simp only [under, List.mem_map, Finset.mem_image, mem_linePrefixes]
    constructor
    · rintro ⟨_, ⟨l, hl, rfl⟩, hr⟩
      refine (List.prefix_cons_iff.mp hr).imp_right fun ⟨t, ht, htl⟩ => ⟨t, .inr ⟨l, hl, htl⟩, ht.symm⟩
    · obtain ⟨n, hn⟩ := List.exists_mem_of_ne_nil ns hns
      rintro (rfl | ⟨t, rfl | ⟨l, hl, htl⟩, rfl⟩)
      · exact ⟨_, ⟨n, hn, rfl⟩, List.nil_prefix⟩
      · exact ⟨_, ⟨n, hn, rfl⟩, List.cons_prefix_cons.mpr ⟨rfl, List.nil_prefix⟩⟩
      · exact ⟨_, ⟨l, hl, rfl⟩, List.cons_prefix_cons.mpr ⟨rfl, htl⟩⟩
  ext r
  simp only [mem_linePrefixes, List.mem_append, or_and_right, exists_or, hbranch false hls, hbranch true hms,
    Finset.mem_insert, Finset.mem_union]
  tauto

/-- A node of a built tree that stands above `N` Leaves has `2N - 1` paths at and below it (R149). -/
theorem Grown.card_linePrefixes {ns : Table Node 511} {m : Nat} {w : Nat → List (BitString × Byte)}
    (h : Grown ns m w) {k : Nat} (hk : k < m) : (linePrefixes (w k)).card + 1 = 2 * (w k).length := by
  induction k using Nat.strong_induction_on with
  | _ k ih =>
    cases hint : (ns.read k).internal with
    | false =>
      rw [h.leaf k hk hint]
      rfl
    | true =>
      have hl := h.left_lt hk hint
      have hr := h.right_lt hk hint
      have hleft := ih _ hl (hl.trans hk)
      have hright := ih _ hr (hr.trans hk)
      have hlne := List.length_pos_iff.mp (h.pathBits_le (hl.trans hk)).1
      have hrne := List.length_pos_iff.mp (h.pathBits_le (hr.trans hk)).1
      have hdisjoint : Disjoint ((linePrefixes (w (ns.read k).left.toNat)).image (List.cons false))
          ((linePrefixes (w (ns.read k).right.toNat)).image (List.cons true)) := by
        rw [Finset.disjoint_left]
        rintro r hrl hrr
        obtain ⟨p, -, rfl⟩ := Finset.mem_image.mp hrl
        obtain ⟨q, -, hq⟩ := Finset.mem_image.mp hrr
        cases hq
      rw [h.node k hk hint, linePrefixes_under hlne hrne, Finset.card_insert_of_notMem (by simp),
        Finset.card_union_of_disjoint hdisjoint, Finset.card_image_of_injective _ List.cons_injective,
        Finset.card_image_of_injective _ List.cons_injective, List.length_append, length_under, length_under]
      omega

/-- The number of paths below the root of a built tree: 1 for a single Leaf, else `2N - 2` (R149). -/
theorem prefixCount_built {ns : Table Node 511} {f : Table Word 256} {b : Builder} {r : NodeIdx}
    (hbuild : buildTree ns f = some (b, r)) {ls : List (BitString × Byte)} (hwalk : treeLeaves b.nodes r = some ls)
    (hlen : ls.length = (leafNodes f).length) :
    prefixCount ls + 1 = if (leafNodes f).length = 1 then 2 else 2 * (leafNodes f).length - 1 := by
  obtain ⟨w, hgrown, -⟩ := buildTree_walks hbuild
  obtain ⟨-, hroot, -⟩ := buildTree_ok hbuild
  obtain ⟨-, hrootIdx⟩ := buildTree_sizes hbuild
  cases hint : (nodeAt b.nodes r).internal with
  | false =>
    cases (treeLeaves_leaf hint).symm.trans hwalk
    have hone : (leafNodes f).length = 1 := hlen.symm
    rw [if_pos hone]
    rfl
  | true =>
    have hmany := (internal_buildTree_iff hbuild hroot).mp hint
    have hw : ls = w r.toNat := by
      simpa using hgrown.eq_of_leavesFrom hroot ((treeLeaves_internal hint).symm.trans hwalk)
    have hcard := hgrown.card_linePrefixes hroot
    rw [← hw, Machine.card_linePrefixes, hlen] at hcard
    split <;> omega

/-- The walk of a built tree is a list of acceptable lines (R147 to R149). -/
theorem acceptable_built {t : Tables} {b : Builder} {r : NodeIdx} (hbuild : buildTree t.node t.freq = some (b, r))
    {ls : List (BitString × Byte)} (hwalk : treeLeaves b.nodes r = some ls)
    (hlen : ls.length = (leafNodes t.freq).length) (hne : ∀ l ∈ ls, 1 ≤ l.1.length) : acceptable ls = true := by
  have hleaves := length_leafNodes_le t.freq
  have hcount := prefixCount_built hbuild hwalk hlen
  have hpos := List.length_pos_iff.mpr (leafNodes_ne_nil hbuild)
  refine acceptable_iff.mpr ⟨?_, fun l hl => ⟨hne l hl, length_le_of_treeLeaves hwalk l hl⟩,
    (pairwise_partsLeft_of_treeLeaves hwalk).imp PartsLeft.prefixFree, ?_⟩
  · exact List.length_pos_iff.mp (hlen ▸ hpos)
  · rw [hcount, Config.nodeCap]
    split <;> omega

/-- Settles O41: the lines of a built tree are acceptable, so the trie has their pairs, which have one order. -/
theorem serializedTreeReadsBack : Obligations.SerializedTreeReadsBack := by
  intro f s ns hv hnsym hfreq
  obtain ⟨b, r, hbuild, hbuilt, hexec⟩ := exec_build f hv hnsym hfreq
  obtain ⟨ls, hwalk, hlen, hpaths⟩ := treeLeaves_built hbuild hbuilt
  have hnum : (leafNodes s.tabs.freq).length = s.tabs.nsym.toNat := (freqOk_valid hfreq hv).2
  obtain ⟨trie, path, hrun, htrie⟩ :=
    deserializeText_of_acceptable (acceptable_built hbuild hwalk hlen fun l hl => (hpaths l hl).1) ns
  obtain ⟨ls', hwalk'⟩ : ∃ ls', treeLeaves trie.nodes 0 = some ls' :=
    Option.isSome_iff_exists.mp (by simpa [treeOk] using (deserialized_ok hrun s.tabs).2)
  have hsame : ls' = ls := eq_of_pairwise_partsLeft (pairwise_partsLeft_of_treeLeaves hwalk')
    (pairwise_partsLeft_of_treeLeaves hwalk) (htrie.mem_treeLeaves_iff hwalk')
  have hone : s.tabs.nsym = 1 ↔ s.tabs.nsym.toNat = 1 := BitVec.toNat_inj.symm
  refine ⟨_, ls, trie, hexec, hwalk, hrun, hsame ▸ hwalk', ?_⟩
  rw [htrie.cnt_eq, prefixCount_built hbuild hwalk hlen, hnum]
  simp only [hone]

end Sys2Proof.Machine
end

section
/-!
PROOF. DESERIALIZE of acceptable lines (R145, R147, R149): they may end with one `0x0A`, the trie they leave has their
pairs, and every node weighs 0.
-/
namespace Sys2Proof.Machine

/-! The weights of a trie (R145). -/

/-- The trie fits the store, and every node in use weighs 0. -/
structure Weightless (t : Trie) : Prop where
  size : t.cnt ≤ 511
  weight : ∀ k < t.cnt, (t.nodes.read k).weight = 0

theorem withChild_weight (d : Node) (b : Bool) (c : NodeIdx) : (withChild d b c).weight = d.weight := by
  cases b <;> rfl

theorem startTrie_weightless (ns : Table Node 511) : Weightless (startTrie ns) := by
  refine ⟨show 1 ≤ 511 by decide, fun k hk => ?_⟩
  obtain rfl : k = 0 := Nat.lt_one_iff.mp hk
  exact congrArg Node.weight (Table.read_write_same ns 0 bareInternal (by decide))

theorem Weightless.alloc {t : Trie} (h : Weightless t) (hcnt : t.cnt ≠ Config.nodeCap) (k : NodeIdx) (b : Bool)
    {d : Node} (hd : d.weight = 0) : Weightless (allocChild t k b d) := by
  have hlt : t.cnt < 511 := Nat.lt_of_le_of_ne h.size hcnt
  have hnew : ∀ j < t.cnt + 1, ((t.nodes.write t.cnt d).read j).weight = 0 := by
    intro j hj
    rw [Table.read_write _ _ _ _ hlt]
    split
    · exact hd
    · exact h.weight j (by omega)
  refine ⟨hlt, fun j hj => ?_⟩
  have hset : (allocChild t k b d).nodes = (t.nodes.write t.cnt d).write k.toNat
      (withChild ((t.nodes.write t.cnt d).read k.toNat) b (BitVec.ofNat 9 t.cnt)) := rfl
  have hj : j < t.cnt + 1 := hj
  rw [hset]
  by_cases hkj : k.toNat = j
  · subst hkj
    rw [Table.read_write_same _ _ _ (by omega), withChild_weight]
    exact hnew _ hj
  · rw [Table.read_write_ne _ _ hkj]
    exact hnew j hj

theorem Weightless.insertFrom {sym : Byte} {p : BitString} {k : NodeIdx} {t t' : Trie} (h : Weightless t)
    (hins : insertFrom sym p k t = .ok t') : Weightless t' := by
  induction p generalizing k t with
  | nil => cases hins
  | cons b p ih =>
    cases p with
    | nil =>
      simp only [Machine.insertFrom] at hins
      split at hins
      · cases hins
      split at hins
      · cases hins
      split at hins <;> cases hins
      exact h.alloc ‹_› k b rfl
    | cons b' p =>
      simp only [Machine.insertFrom] at hins
      split at hins
      · cases hins
      split at hins
      · split at hins
        · cases hins
        · exact ih (h.alloc ‹_› k b rfl) hins
      · exact ih h hins

/-- A line that is inserted is inserted from the root (R145). -/
theorem insertFrom_of_insertLine {t t' : Trie} {p : BitString} {sym : Byte} (h : insertLine t p sym = .ok t') :
    insertFrom sym p 0 t = .ok t' := by
  unfold insertLine at h
  split at h
  · cases h
  split at h
  · cases h
  · exact h

theorem Weightless.deserializeLines {fuel : Nat} {text : List Byte} {line : Nat} {t t' : Trie} (h : Weightless t)
    (hrun : deserializeLines fuel text line t = .ok t') : Weightless t' := by
  induction fuel generalizing text line t with
  | zero => cases hrun
  | succ fuel ih =>
    rw [Machine.deserializeLines] at hrun
    split at hrun
    · cases hrun
    split at hrun
    · cases hrun
    next hins =>
      have h' : Weightless _ := h.insertFrom (insertFrom_of_insertLine hins)
      split at hrun
      · cases hrun
        exact h'
      · exact ih h' hrun

/-! The text of accepted lines (R145, R147). -/

/-- The insertions of acceptable lines, or of none, leave the trie of these lines (R145). -/
theorem insertLines_of_acceptable {ls : List (BitString × Byte)} (h : ls = [] ∨ acceptable ls = true)
    (ns : Table Node 511) :
    ∃ t path, insertLines (startTrie ns) ls = .ok t ∧ TrieOf (linePrefixes ls) ls t path := by
  have hnil : [] ∈ linePrefixes ls := mem_linePrefixes.mpr (.inl rfl)
  obtain rfl | h := h
  · exact ⟨_, _, rfl, startTrie_trieOf (by decide) hnil ns⟩
  · obtain ⟨-, hlen, hfree, hroom⟩ := acceptable_iff.mp h
    exact (startTrie_trieOf ((card_linePrefixes ls).trans_le hroom) hnil ns).insertLines hlen
      (fun l hl r hr => mem_linePrefixes.mpr (.inr ⟨l, hl, hr⟩)) hfree

/-- After lines that are inserted the step goes on with what follows them, if anything does (R145). -/
theorem deserializeText_append {ls : List (BitString × Byte)} (hne : ls ≠ []) {ns : Table Node 511} {t : Trie}
    (hins : insertLines (startTrie ns) ls = .ok t) {tail more : List Byte} (htail : afterLine tail = some more) :
    ∃ fuel, tail.length ≤ fuel ∧ deserializeText ns (treeText ls ++ tail)
      = if more = [] then .ok t else deserializeLines fuel more ls.length t := by
  have hlen := length_treeText ls hne
  have hpos := List.length_pos_iff.mpr hne
  refine ⟨(treeText ls ++ tail).length - ls.length, by rw [List.length_append]; omega, ?_⟩
  have hrun := deserializeLines_treeText hne (fuel := (treeText ls ++ tail).length - ls.length) (line := 0) hins htail
  rwa [Nat.sub_add_cancel (by rw [List.length_append]; omega), Nat.zero_add] at hrun

theorem nodup_of_prefixFree {ls : List (BitString × Byte)} (h : ls.Pairwise PrefixFree) : ls.Nodup :=
  List.Pairwise.imp (S := (· ≠ ·)) (fun hfree heq => hfree.1 (heq ▸ List.prefix_rfl)) h

/-- A text of acceptable lines, with or without a `0x0A` at its end, leaves the trie of its lines, whose walk finds
their pairs (R145, R147, R149). -/
theorem deserializeText_of_lines {ls : List (BitString × Byte)} (h : acceptable ls = true) {text : List Byte}
    (htext : text = treeText ls ∨ text = treeText ls ++ [0x0A]) (ns : Table Node 511) :
    ∃ t path ls', deserializeText ns text = .ok t ∧ TrieOf (linePrefixes ls) ls t path
      ∧ treeLeaves t.nodes 0 = some ls' ∧ ls'.Perm ls := by
  obtain ⟨hne, -, hfree, -⟩ := acceptable_iff.mp h
  obtain ⟨t, path, hins, htrie⟩ := insertLines_of_acceptable (.inr h) ns
  have hrun : deserializeText ns text = .ok t := by
    obtain rfl | rfl := htext
    · exact deserializeText_treeText hne hins
    · obtain ⟨_, -, hrun⟩ := deserializeText_append hne hins (tail := [0x0A]) (more := []) rfl
      exact hrun
  obtain ⟨ls', hwalk⟩ : ∃ ls', treeLeaves t.nodes 0 = some ls' :=
    Option.isSome_iff_exists.mp (by simpa [treeOk] using (deserialized_ok hrun Tables.reset).2)
  have hfree' := (pairwise_partsLeft_of_treeLeaves hwalk).imp PartsLeft.prefixFree
  exact ⟨t, path, ls', hrun, htrie, hwalk,
    (List.perm_ext_iff_of_nodup (nodup_of_prefixFree hfree') (nodup_of_prefixFree hfree)).mpr
      (htrie.mem_treeLeaves_iff hwalk)⟩

/-! DESERIALIZE (R145, R146). -/

section
variable {f : BitFmt} {s : State} (hready : Ready (.deserialize f) s) (hquiet : Quiet (.deserialize f) s)
include hready hquiet

/-- A text the step accepts ends DESERIALIZE with its trie (R145). -/
theorem exec_deserialize_ok {t : Trie} (hrun : deserializeText s.tabs.node (treeBytes s) = .ok t) :
    exec (.deserialize f) s = .next (complete { s with tabs := s.tabs.deserialized t }) := by
  have hquiet : failing s [treeRange s.cfg] = [] := hquiet
  rw [exec_ready hready]
  simp only [bodyOf, deserializeBody, hrun, errOf, outcomeOf_quiet hquiet]

/-- A text the step refuses ends DESERIALIZE with its error, the tree lost (R146). -/
theorem exec_deserialize_error {e : Err} (hrun : deserializeText s.tabs.node (treeBytes s) = .error e) :
    exec (.deserialize f) s = .next (raiseFor (.deserialize f) e { s with tabs := s.tabs.treeLost s.drawn }) := by
  have hquiet : failing s [treeRange s.cfg] = [] := hquiet
  rw [exec_ready hready]
  simp only [bodyOf, deserializeBody, hrun, errOf, outcomeOf_quiet hquiet]

end

/-- Settles O37: the text leaves the trie of its lines, which has one node for each of the prefixes, all of weight 0. -/
theorem deserializeAcceptsPrefixCodes : Obligations.DeserializeAcceptsPrefixCodes := by
  intro f s ls hready hquiet hacc htext
  obtain ⟨t, path, ls', hrun, htrie, hwalk, hperm⟩ := deserializeText_of_lines hacc htext s.tabs.node
  have hcnt := htrie.paths.cnt_le
  have hnnodes : (BitVec.ofNat 10 t.cnt).toNat = t.cnt := Nat.mod_eq_of_lt (by omega)
  have hweights : Weightless t := (startTrie_weightless s.tabs.node).deserializeLines hrun
  refine ⟨_, ls', exec_deserialize_ok hready hquiet hrun,
    endsWell_complete s _ s.regs.dstLen s.regs.toutLen s.regs.ratio s.mem, ⟨rfl, rfl, rfl⟩, rfl, ⟨rfl, rfl, rfl, rfl⟩,
    rfl, rfl, rfl, rfl, hnnodes.trans htrie.cnt_eq, hwalk, hperm, fun k hk => hweights.weight k (hnnodes ▸ hk)⟩

end Sys2Proof.Machine
end

section
/-!
PROOF. The decode step over whole Leaves (R160, R161), and DECOMPRESS of an acceptable text (R174): its deserialize step
leaves the trie of the lines, over which its decode step is DECODE's.
-/
namespace Sys2Proof.Machine

/-! The decode step (R160, R161). -/

section
variable {ns : Table Node 511} {root : NodeIdx} {cap : Nat}

/-- From an Internal node the bits to a Leaf emit its symbol and go back to `TOP` (R160). -/
theorem decodeBits_leaf {k : NodeIdx} {w : WalkPtr} (hw : ∀ c, walkChild ns root w c = childOf (nodeAt ns k) c)
    (hint : (nodeAt ns k).internal = true) {p : BitString} {b : Byte} (hleads : leadsToLeaf ns k p b = true)
    {out : List Byte} (hroom : out.length < cap) (rest : List (Option Bool)) (i : Nat) :
    decodeBits ns root cap (p.map some ++ rest) i w out
      = decodeBits ns root cap rest (i + p.length) .top (out ++ [b]) := by
  induction p generalizing k w i with
  | nil => cases hint.symm.trans (leadsToLeaf_nil.mp hleads).1
  | cons c p ih =>
    obtain ⟨-, hne, hrest⟩ := leadsToLeaf_cons.mp hleads
    rw [List.map_cons, List.cons_append, decodeBits, hw]
    simp only [if_neg hne]
    cases hchild : (nodeAt ns (childOf (nodeAt ns k) c)).internal with
    | true =>
      rw [if_pos rfl, ih (fun _ => rfl) hchild hrest, List.length_cons, Nat.add_assoc, Nat.add_comm 1]
    | false =>
      cases p with
      | nil =>
        rw [if_neg Bool.false_ne_true, if_neg (Nat.ne_of_lt hroom), (leadsToLeaf_nil.mp hrest).2]
        rfl
      | cons c' p => cases hchild.symm.trans (leadsToLeaf_cons.mp hrest).1

/-- The bits of whole Leaves emit their symbols in order (R160). -/
theorem decodeBits_pathsOf (hroot : (nodeAt ns root).internal = true) {xs : List (BitString × Byte)}
    (hleads : ∀ x ∈ xs, leadsToLeaf ns root x.1 x.2 = true) {out : List Byte} (hroom : out.length + xs.length ≤ cap)
    (rest : List (Option Bool)) (i : Nat) :
    decodeBits ns root cap ((pathsOf xs).map some ++ rest) i .top out
      = decodeBits ns root cap rest (i + (pathsOf xs).length) .top (out ++ xs.map Prod.snd) := by
  induction xs generalizing out i with
  | nil => simp [pathsOf]
  | cons x xs ih =>
    rw [List.length_cons] at hroom
    have hw : ∀ c, walkChild ns root .top c = childOf (nodeAt ns root) c := fun c => if_pos hroot
    have hcons : pathsOf (x :: xs) = x.1 ++ pathsOf xs := rfl
    rw [hcons, List.map_append, List.append_assoc,
      decodeBits_leaf hw hroot (hleads x List.mem_cons_self) (by omega),
      ih (fun y hy => hleads y (List.mem_cons_of_mem x hy)) (by simp; omega), List.length_append, List.map_cons,
      List.append_assoc, Nat.add_assoc]
    rfl

end

/-! Commands whose ranges and checks are another's (R71, R182). -/

theorem inRanges_mono {rs qs : List Range} (h : rs ⊆ qs) {a : Nat} (ha : inRanges rs a = true) :
    inRanges qs a = true := by
  obtain ⟨r, hmem, hhas⟩ := List.any_eq_true.mp ha
  exact List.any_eq_true.mpr ⟨r, h hmem, hhas⟩

/-- Two commands' ranges, read and written, one's among the other's. -/
theorem ranges_subset {i j : Instr} {c : LaunchCopy} (hr : readRanges i c ⊆ readRanges j c)
    (hw : writeRanges i c ⊆ writeRanges j c) : readRanges i c ++ writeRanges i c ⊆ readRanges j c ++ writeRanges j c :=
  fun r hmem => List.mem_append.mpr ((List.mem_append.mp hmem).imp (@hr r) (@hw r))

/-- A command whose ranges are among another's has a meaning where that one has. -/
theorem noMeaning_of_subset {i j : Instr} {s : State} (hi : ∀ f, i ≠ .compress f)
    (hr : readRanges i s.cfg ⊆ readRanges j s.cfg) (hw : writeRanges i s.cfg ⊆ writeRanges j s.cfg)
    (h : noMeaning j s = none) : noMeaning i s = none := by
  have hover : overlapping i s.cfg = true → overlapping j s.cfg = true := by
    rw [overlapping_iff, overlapping_iff]
    rintro (⟨w, hw', r, hr', hmeets⟩ | ⟨⟨f, hf⟩, -⟩)
    · exact .inl ⟨w, hw hw', r, hr hr', hmeets⟩
    · exact absurd hf (hi f)
  unfold noMeaning at h ⊢
  split at h
  · cases h
  next hno =>
    split at h
    · cases h
    next hvol =>
      rw [if_neg fun hyes => hno (hover hyes), if_neg]
      intro hany
      obtain ⟨a, ha, hin⟩ := List.any_eq_true.mp hany
      exact hvol (List.any_eq_true.mpr ⟨a, ha, inRanges_mono (ranges_subset hr hw) hin⟩)

/-- A command passes its upfront checks where each passes or is one that another command has passed. -/
theorem upfront_of_checks {i j : Instr} {s u : State}
    (hchecks : ∀ c ∈ upfrontChecks i u, c.1 = false ∨ c ∈ upfrontChecks j s) (h : upfront j s = none) :
    upfront i u = none :=
  firstFailure_eq_none.mpr fun c hc => (hchecks c hc).elim id (check_passed h)

theorem quiet_of_subset {i j : Instr} {s : State} (hr : readRanges i s.cfg ⊆ readRanges j s.cfg)
    (hw : writeRanges i s.cfg ⊆ writeRanges j s.cfg) (h : Quiet j s) : Quiet i s :=
  failing_eq_nil_of_imp h fun _ => inRanges_mono (ranges_subset hr hw)

section
variable (f : BitFmt) (c : LaunchCopy)

theorem readRanges_deserialize_subset : readRanges (.deserialize f) c ⊆ readRanges (.decompress f) c :=
  List.subset_cons_self _ _

theorem readRanges_decode_subset : readRanges (.decode f) c ⊆ readRanges (.decompress f) c :=
  List.cons_subset_cons _ (List.nil_subset _)

end

section
variable {f : BitFmt} {s : State}

/-- The deserialize step of DECOMPRESS is a DESERIALIZE past its checks (R174). -/
theorem ready_deserialize_of_decompress (h : Ready (.decompress f) s) : Ready (.deserialize f) s :=
  ⟨noMeaning_of_subset nofun (readRanges_deserialize_subset f _) (List.nil_subset _) h.1,
    upfront_of_checks (by simp [upfrontChecks]) h.2⟩

theorem quiet_deserialize_of_decompress (h : Quiet (.decompress f) s) : Quiet (.deserialize f) s :=
  quiet_of_subset (readRanges_deserialize_subset f _) (List.nil_subset _) h

/-- Over a valid tree the decode step of DECOMPRESS is a DECODE past its checks (R174). -/
theorem ready_decode_of_decompress {tb : Tables} (hv : tb.treeV = true) (h : Ready (.decompress f) s) :
    Ready (.decode f) { s with tabs := tb } := by
  have hmeaning : noMeaning (.decode f) s = none :=
    noMeaning_of_subset nofun (readRanges_decode_subset f _) (List.Subset.refl _) h.1
  exact ⟨hmeaning, upfront_of_checks (s := s) (by simp [upfrontChecks, sequenceCheck, hv, State.cfg]) h.2⟩

theorem quiet_decode_of_decompress (tb : Tables) (h : Quiet (.decompress f) s) :
    Quiet (.decode f) { s with tabs := tb } := by
  have hquiet : Quiet (.decode f) s := quiet_of_subset (readRanges_decode_subset f _) (List.Subset.refl _) h
  exact hquiet

end

/-! DECODE and DECOMPRESS with no failing address (R160, R174). -/

section
variable {f : BitFmt} {s : State}

theorem failing_decode_eq_nil (hquiet : Quiet (.decode f) s) (n : Nat) :
    failing s [srcStream f s.cfg, (dstRange s.cfg).first n] = [] := by
  refine failing_eq_nil_of_imp hquiet fun a ha => ?_
  simp only [readRanges, writeRanges, List.cons_append, List.nil_append, inRanges_cons] at ha ⊢
  exact ha.imp_right fun ha => ha.imp_left has_of_has_first

theorem failing_decompress_eq_nil (hquiet : Quiet (.decompress f) s) (n : Nat) :
    failing s [srcStream f s.cfg, treeRange s.cfg, (dstRange s.cfg).first n] = [] := by
  refine failing_eq_nil_of_imp hquiet fun a ha => ?_
  simp only [readRanges, writeRanges, List.cons_append, List.nil_append, inRanges_cons] at ha ⊢
  exact ha.imp_right fun ha => ha.imp_right fun ha => ha.imp_left has_of_has_first

section
variable (hready : Ready (.decode f) s) (hquiet : Quiet (.decode f) s)
include hready hquiet

theorem exec_decode_ok (hrun : (decodeRun s.tabs f s).err = none) :
    exec (.decode f) s = .next (complete { s with
      regs := s.regs.decoded (decodeRun s.tabs f s).out.length
      mem := writeBytes s.mem (dstRange s.cfg).base (decodeRun s.tabs f s).out }) := by
  rw [exec_ready hready]
  simp only [bodyOf, decodeBody, Instr.fmt, hrun, outcomeOf_quiet (failing_decode_eq_nil hquiet _)]

theorem exec_decode_error {e : Err} (hrun : (decodeRun s.tabs f s).err = some e) :
    exec (.decode f) s = .next (raiseFor (.decode f) e s) := by
  rw [exec_ready hready]
  simp only [bodyOf, decodeBody, Instr.fmt, hrun, outcomeOf_quiet (failing_decode_eq_nil hquiet _)]

end

section
variable (hready : Ready (.decompress f) s) (hquiet : Quiet (.decompress f) s)
include hready hquiet

/-- A text the deserialize step refuses ends DECOMPRESS with its error, the tree lost (R146, R174). -/
theorem exec_decompress_refused {e : Err} (htext : deserializeText s.tabs.node (treeBytes s) = .error e) :
    exec (.decompress f) s = .next (raiseFor (.decompress f) e { s with tabs := s.tabs.treeLost s.drawn }) := by
  rw [exec_ready hready]
  simp only [bodyOf, decompressBody, htext, decompressLost, Instr.fmt,
    outcomeOf_quiet (failing_decompress_eq_nil hquiet _)]

section
variable {x : Trie} (htext : deserializeText s.tabs.node (treeBytes s) = .ok x)
include htext

/-- A stream decoded to its end over the tree of the text (R174). -/
theorem exec_decompress_ok (hrun : (decodeRun (s.tabs.deserialized x) f s).err = none) :
    exec (.decompress f) s = .next (complete { s with
      tabs := s.tabs.deserialized x
      regs := s.regs.decoded (decodeRun (s.tabs.deserialized x) f s).out.length
      mem := writeBytes s.mem (dstRange s.cfg).base (decodeRun (s.tabs.deserialized x) f s).out }) := by
  rw [exec_ready hready]
  simp only [bodyOf, decompressBody, htext, decompressEnd, Instr.fmt, hrun,
    outcomeOf_quiet (failing_decompress_eq_nil hquiet _)]

/-- A stream the decode step refuses ends DECOMPRESS with its error, the tree of the text kept (R174). -/
theorem exec_decompress_error {e : Err} (hrun : (decodeRun (s.tabs.deserialized x) f s).err = some e) :
    exec (.decompress f) s = .next (raiseFor (.decompress f) e { s with tabs := s.tabs.deserialized x }) := by
  have htree : failing s [treeRange s.cfg] = [] := quiet_deserialize_of_decompress hquiet
  rw [exec_ready hready]
  simp only [bodyOf, decompressBody, htext, decompressEnd, Instr.fmt, hrun,
    outcomeOf_quiet (failing_decompress_eq_nil hquiet _)]
  rw [if_neg fun h => h.2 htree]

/-- DECOMPRESS of a text that is accepted ends as DECODE over its tree does (R174). -/
theorem exec_decompress_as_decode :
    ∃ t d, exec (.decompress f) s = .next t ∧ t.tabs = s.tabs.deserialized x
      ∧ exec (.decode f) { s with tabs := s.tabs.deserialized x } = .next d
      ∧ t.regs.err = d.regs.err ∧ t.regs.errcode = d.regs.errcode ∧ t.regs.errinfo = d.regs.errinfo
      ∧ t.regs.dstLen = d.regs.dstLen := by
  have hready' := ready_decode_of_decompress (tb := s.tabs.deserialized x) rfl hready
  have hquiet' := quiet_decode_of_decompress (s.tabs.deserialized x) hquiet
  cases hrun : (decodeRun (s.tabs.deserialized x) f s).err with
  | none =>
    exact ⟨_, _, exec_decompress_ok hready hquiet htext hrun, rfl, exec_decode_ok hready' hquiet' hrun, rfl, rfl, rfl,
      rfl⟩
  | some e =>
    exact ⟨_, _, exec_decompress_error hready hquiet htext hrun, rfl, exec_decode_error hready' hquiet' hrun, rfl, rfl,
      rfl, rfl⟩

end

end

end

/-- Settles O48: the deserialize step leaves the trie of the lines, and the stream's Leaves are its Leaves; whatever the
stream, DECOMPRESS ends as DECODE does. -/
theorem decompressDecodesTheText : Obligations.DecompressDecodesTheText := by
  refine ⟨fun f s ls xs hready hquiet hacc htext hxs hbits hroom => ?_, fun f s ls hready hquiet hacc htext => ?_⟩
  · obtain ⟨x, path, ls', hrun, htrie, hwalk, hperm⟩ := deserializeText_of_lines hacc (.inl htext) s.tabs.node
    have hleads : ∀ y ∈ xs, leadsToLeaf x.nodes 0 y.1 y.2 = true := fun y hy =>
      (((isWalk_of_treeLeaves hwalk).2 htrie.root_internal).1 y.1 y.2).mp (hperm.mem_iff.mpr (hxs y hy))
    have hdecode : decodeRun (s.tabs.deserialized x) f s = ⟨xs.map Prod.snd, none, 0⟩ := by
      have hall := decodeBits_pathsOf (cap := s.cfg.bufs.dstCap.toNat) htrie.root_internal hleads (out := [])
        (by simpa using hroom) [] 0
      rw [List.append_nil, ← hbits] at hall
      exact hall
    have hexec := exec_decompress_ok hready hquiet hrun (congrArg DecodeRun.err hdecode)
    rw [hdecode] at hexec
    have hlen : (xs.map Prod.snd).length = xs.length := List.length_map ..
    refine ⟨_, ls', hexec, endsWell_complete .., ?_, rfl, rfl, ?_, fun a ha => ?_, ⟨rfl, rfl, rfl, rfl⟩, rfl, rfl, rfl,
      hwalk, hperm⟩
    · exact (toNat_ofNat_of_le_cap (hlen.trans_le hroom)).trans hlen
    · rw [← hlen]
      exact readBytes_writeBytes ..
    · refine read_writeBytes_of_has_false ?_
      rw [hlen]
      exact (inRanges_cons_eq_false.mp ha).1
  · obtain ⟨x, path, ls', hrun, -, hwalk, hperm⟩ := deserializeText_of_lines hacc htext s.tabs.node
    obtain ⟨t, d, hexec, htabs, hdecode, hregs⟩ := exec_decompress_as_decode hready hquiet hrun
    refine ⟨t, ls', d, hexec, ?_⟩
    simp only [FreqSame, htabs]
    exact ⟨⟨rfl, rfl, rfl, rfl⟩, rfl, rfl, rfl, hwalk, hperm, hdecode, hregs⟩

end Sys2Proof.Machine
end

section
/-!
PROOF. SERIALIZE (R140 to R143): the text is the walk's lines with a `0x0A` between two, and TOUT holds it where it
fits.
-/
namespace Sys2Proof.Machine

/-- The text is its lines with a `0x0A` between two of them (R141). -/
theorem treeText_eq_intercalate (ls : List (BitString × Byte)) :
    treeText ls = List.intercalate [lineFeed] (ls.map treeLine) := by
  induction ls with
  | nil => rfl
  | cons l ls ih =>
    cases ls with
    | nil => exact (List.append_nil _).symm
    | cons m ls =>
      rw [List.map_cons, List.map_cons, List.intercalate_cons_cons, ← List.map_cons, ← ih, List.append_assoc]
      rfl

/-- The line of a Leaf, byte by byte (R141). -/
theorem treeLine_eq (l : BitString × Byte) :
    treeLine l = l.1.map bitChar ++ [0x20, 0x2D, 0x3E, 0x20, 0x27, l.2, 0x27] :=
  List.append_assoc ..

/-- A path's bits and eight bytes a Leaf, less one (R143). -/
theorem length_treeText_eq (ls : List (BitString × Byte)) :
    (treeText ls).length = (ls.map fun l => l.1.length + 8).sum - 1 := by
  have hsum : (ls.map fun l => l.1.length + 8).sum = pathBits ls + 8 * ls.length := by
    simp [pathBits, List.sum_map_add, Nat.mul_comm]
  rw [hsum]
  by_cases hnil : ls = []
  · subst hnil
    rfl
  · have hlen := length_treeText ls hnil
    omega

/-- No path of a walk is empty: at the root stands an Internal node, or the one Leaf, whose path is `0` (R142). -/
theorem ne_nil_of_treeLeaves {ns : Table Node 511} {root : NodeIdx} {ls : List (BitString × Byte)}
    (h : treeLeaves ns root = some ls) {l : BitString × Byte} (hl : l ∈ ls) : l.1 ≠ [] := by
  obtain ⟨hleaf, hinternal⟩ := isWalk_of_treeLeaves h
  cases hroot : (nodeAt ns root).internal with
  | false =>
    rw [hleaf hroot, List.mem_singleton] at hl
    rw [hl]
    exact List.cons_ne_nil _ _
  | true =>
    obtain ⟨p, b⟩ := l
    have hleads := ((hinternal hroot).1 p b).mp hl
    rintro rfl
    cases hroot.symm.trans (leadsToLeaf_nil.mp hleads).1

section
variable {f : BitFmt} {s : State} (hready : Ready (.serialize f) s) (hquiet : Quiet (.serialize f) s)
  {ls : List (BitString × Byte)} (hwalk : treeLeaves s.tabs.node s.tabs.root = some ls)

theorem failing_serialize_eq_nil (hquiet : Quiet (.serialize f) s) (n : Nat) :
    failing s [(toutRange s.cfg).first n] = [] :=
  failing_eq_nil_of_imp hquiet fun _ ha => inRanges_cons.mpr (.inl (has_of_has_first (has_of_inRanges_singleton ha)))

include hready hquiet hwalk

/-- A text that fits is written to TOUT (R140). -/
theorem exec_serialize_fits (hfits : (treeText ls).length ≤ s.cfg.bufs.toutCap.toNat) :
    exec (.serialize f) s = .next (complete { s with
      regs := s.regs.serialized (treeText ls).length
      mem := writeBytes s.mem (toutRange s.cfg).base (treeText ls) }) := by
  rw [exec_ready hready]
  simp only [bodyOf, serializeBody, hwalk, textCheck, if_neg (Nat.not_lt.mpr hfits),
    outcomeOf_quiet (failing_serialize_eq_nil hquiet _)]

/-- A text that does not fit is `E_CAPACITY` 3 (R140). -/
theorem exec_serialize_overflows (hbig : s.cfg.bufs.toutCap.toNat < (treeText ls).length) :
    exec (.serialize f) s = .next (raiseFor (.serialize f) ⟨.capacity, BufId.tout.num⟩ s) := by
  rw [exec_ready hready]
  simp only [bodyOf, serializeBody, hwalk, textCheck, if_pos hbig,
    outcomeOf_quiet (failing_serialize_eq_nil hquiet _)]

end

/-- Settles O35: the statement's text is `treeText` of the walk, and SERIALIZE ends by whether it fits. -/
theorem serializeWritesOneLineALeaf : Obligations.SerializeWritesOneLineALeaf := by
  intro f s ls hready hquiet hwalk text
  have htext : text = treeText ls :=
    ((treeText_eq_intercalate ls).trans (congrArg _ (List.map_congr_left fun l _ => treeLine_eq l))).symm
  rw [htext]
  refine ⟨isWalk_of_treeLeaves hwalk, length_treeText_eq ls, fun hfits => ?_, fun hbig => ?_⟩
  · exact ⟨_, exec_serialize_fits hready hquiet hwalk hfits, endsWell_complete .., rfl, rfl, rfl,
      toNat_ofNat_of_le_cap hfits, readBytes_writeBytes ..,
      fun a ha => read_writeBytes_of_has_false (inRanges_cons_eq_false.mp ha).1⟩
  · exact ⟨_, exec_serialize_overflows hready hquiet hwalk hbig, endsInError_raiseFor (.serialize f) _ s s.tabs, rfl⟩

/-- Settles O36: the single Leaf's line has eight bytes, and no walk has an empty path. -/
theorem serializedPathsAreNotEmpty : Obligations.SerializedPathsAreNotEmpty := by
  refine ⟨fun f s hready hquiet hleaf hcap => ?_, fun ns root ls hwalk l hl =>
    List.length_pos_iff.mpr (ne_nil_of_treeLeaves hwalk hl)⟩
  have hexec := exec_serialize_fits hready hquiet (treeLeaves_leaf hleaf) hcap
  exact ⟨_, hexec, rfl, readBytes_writeBytes s.mem _ (treeLine ([false], _))⟩

end Sys2Proof.Machine
end

section
/-!
PROOF. Lines by position (R145, R147): which texts begin with a line, and where the deserialize step ends at one it
refuses.
-/
namespace Sys2Proof.Machine

/-- A line ends with the text or at a `0x0A` (R145). -/
theorem afterLine_eq_some {tail rest : List Byte} :
    afterLine tail = some rest ↔ (tail = [] ∧ rest = []) ∨ tail = lineFeed :: rest := by
  cases tail with
  | nil => simp [afterLine, eq_comm]
  | cons b tail =>
    by_cases hb : b = lineFeed
    · simp [afterLine, hb]
    · simp [afterLine, hb]

/-- The characters of a path are those of its bits (R147). -/
theorem map_bitChar_takeWhile (text : List Byte) :
    ((text.takeWhile isBitChar).map fun b => b == 0x31).map bitChar = text.takeWhile isBitChar := by
  rw [List.map_map]
  refine (List.map_congr_left fun c hc => ?_).trans (List.map_id _)
  have hbit : c = 0x30 ∨ c = 0x31 := by simpa [isBitChar] using List.mem_takeWhile_imp hc
  obtain rfl | rfl := hbit <;> rfl

/-- A text begins with a line exactly where it is one line's bytes and a line's end (R147). -/
theorem parseLine_eq_some {text rest : List Byte} {p : BitString} {sym : Byte} :
    parseLine text = some (p, sym, rest) ↔ ∃ tail, text = treeLine (p, sym) ++ tail ∧ afterLine tail = some rest := by
  constructor
  · intro h
    simp only [parseLine] at h
    split at h
    next hsep =>
      split at h
      next q sym' q' tail hafter =>
        split at h
        next hquotes =>
          obtain ⟨rest', htail, heq⟩ := Option.map_eq_some_iff.mp h
          cases heq
          obtain ⟨rfl, rfl⟩ := hquotes
          refine ⟨tail, ?_, htail⟩
          have hsplit : text = text.takeWhile isBitChar
              ++ ((text.dropWhile isBitChar).take 4 ++ (text.dropWhile isBitChar).drop 4) := by
            rw [List.take_append_drop, List.takeWhile_append_dropWhile]
          refine hsplit.trans ?_
          rw [hsep, hafter, treeLine, map_bitChar_takeWhile, List.append_assoc, List.append_assoc]
          rfl
        next => cases h
      next => cases h
    next => cases h
  · rintro ⟨tail, rfl, htail⟩
    rw [parseLine_treeLine, htail]
    rfl

/-! Where the step ends at a line (R145, R147, R148). -/

theorem deserializeLines_of_unparsed {text : List Byte} (h : parseLine text = none) (fuel line : Nat) (t : Trie) :
    deserializeLines fuel text line t = .error (errAt .parse line) := by
  cases fuel with
  | zero => rfl
  | succ fuel => simp only [deserializeLines, h]

/-- A line whose insertion fails ends the step with that error, whatever follows (R145). -/
theorem deserializeLines_of_refused {l : BitString × Byte} {t : Trie} {c : ErrCode}
    (h : insertLine t l.1 l.2 = .error c) {tail more : List Byte} (htail : afterLine tail = some more)
    (fuel line : Nat) :
    deserializeLines (fuel + 1) (treeLine l ++ tail) line t = .error (errAt c line) := by
  simp only [deserializeLines, parseLine_treeLine, htail, Option.map_some, h]

theorem treeText_cons {ls : List (BitString × Byte)} (hne : ls ≠ []) (l : BitString × Byte) :
    treeText (l :: ls) = treeLine l ++ lineFeed :: treeText ls := by
  obtain ⟨m, ls, rfl⟩ := List.exists_cons_of_ne_nil hne
  rfl

theorem treeText_concat {ls : List (BitString × Byte)} (hne : ls ≠ []) (l : BitString × Byte) :
    treeText (ls ++ [l]) = treeText ls ++ lineFeed :: treeLine l := by
  induction ls with
  | nil => exact absurd rfl hne
  | cons m ls ih =>
    by_cases hnil : ls = []
    · subst hnil
      rfl
    · rw [List.cons_append, treeText_cons (by simp), ih hnil, treeText_cons hnil, List.append_assoc, List.cons_append]

/-- Lines that are inserted and then one that is not end the step with its error, at its index (R145). -/
theorem deserializeText_of_refused {ls : List (BitString × Byte)} {ns : Table Node 511} {t : Trie}
    (hins : insertLines (startTrie ns) ls = .ok t) {l : BitString × Byte} {c : ErrCode}
    (h : insertLine t l.1 l.2 = .error c) {tail more : List Byte} (htail : afterLine tail = some more) :
    deserializeText ns (treeText (ls ++ [l]) ++ tail) = .error (errAt c ls.length) := by
  by_cases hnil : ls = []
  · subst hnil
    cases hins
    obtain ⟨fuel, hfuel⟩ : ∃ fuel, (treeLine l ++ tail).length = fuel + 1 :=
      Nat.exists_eq_succ_of_ne_zero (by simp [treeLine])
    have hrun := deserializeLines_of_refused h htail fuel 0
    rwa [← hfuel] at hrun
  · obtain ⟨fuel, hfuel, hrun⟩ :=
      deserializeText_append hnil hins (tail := lineFeed :: (treeLine l ++ tail))
        (afterLine_eq_some.mpr (.inr rfl))
    obtain ⟨fuel, rfl⟩ := Nat.exists_eq_succ_of_ne_zero (Nat.ne_of_gt (Nat.lt_of_lt_of_le (Nat.succ_pos _) hfuel))
    rw [treeText_concat hnil, List.append_assoc, List.cons_append, hrun, if_neg (by simp [treeLine]),
      deserializeLines_of_refused h htail]

/-- DESERIALIZE of a text the step refuses (R146). -/
theorem deserialize_ends_in_error {f : BitFmt} {s : State} (hready : Ready (.deserialize f) s)
    (hquiet : Quiet (.deserialize f) s) {c : ErrCode} {n : Nat}
    (hrun : deserializeText s.tabs.node (treeBytes s) = .error (errAt c n)) :
    ∃ t, exec (.deserialize f) s = .next t ∧ EndsInError c.num (BitVec.ofNat 32 n) s t ∧ t.tabs.treeV = false :=
  ⟨_, exec_deserialize_error hready hquiet hrun, endsInError_raiseFor .., Tables.treeLost_treeV ..⟩

end Sys2Proof.Machine
end

section
/-!
PROOF. Where an insertion stops (R145, R148, R149): at a Leaf on the way or a node at the path's end with `E_STRUCT`,
and otherwise, when the store is too small for the path's new nodes, with `E_CAPACITY`.
-/
namespace Sys2Proof.Machine

/-! The insertion, case by case, where it stops. -/

section
variable {t : Trie} {k : NodeIdx} (sym : Byte)

theorem insertFrom_leaf (hleaf : (t.nodes.read k.toNat).internal = false) (p : BitString) :
    insertFrom sym p k t = .error .struct :=
  match p with
  | [] => rfl
  | [_] => if_pos hleaf
  | _ :: _ :: _ => if_pos hleaf

variable (hint : (t.nodes.read k.toNat).internal = true) {b : Bool}
include hint

theorem insertFrom_occupied (hne : childOf (t.nodes.read k.toNat) b ≠ Config.nil) :
    insertFrom sym [b] k t = .error .struct := by
  rw [insertFrom, nodeAt, if_neg (by simp [hint]), if_pos hne]

theorem insertFrom_full (hnil : childOf (t.nodes.read k.toNat) b = Config.nil) (hcnt : t.cnt = Config.nodeCap)
    (p : BitString) : insertFrom sym (b :: p) k t = .error .capacity := by
  cases p with
  | nil => rw [insertFrom, nodeAt, if_neg (by simp [hint]), if_neg (by simp [hnil]), if_pos hcnt]
  | cons b' p => rw [insertFrom, nodeAt, if_neg (by simp [hint]), if_pos hnil, if_pos hcnt]

end

/-- Off the trie every bit needs a new node, so a store with fewer left is full before the path's end (R149). -/
theorem insertFrom_overflows (sym : Byte) {p : BitString} {b : Bool} {k : NodeIdx} {t : Trie} (hk : k.toNat < t.cnt)
    (hint : (t.nodes.read k.toNat).internal = true) (hnil : childOf (t.nodes.read k.toNat) b = Config.nil)
    (hsize : t.cnt ≤ 511) (hbig : 511 < t.cnt + (b :: p).length) : insertFrom sym (b :: p) k t = .error .capacity := by
  induction p generalizing b k t with
  | nil =>
    rw [List.length_singleton] at hbig
    exact insertFrom_full sym hint hnil (Nat.le_antisymm hsize (Nat.le_of_lt_succ hbig)) []
  | cons b' p ih =>
    by_cases hcnt : t.cnt = Config.nodeCap
    · exact insertFrom_full sym hint hnil hcnt _
    · have hlt : t.cnt < 511 := Nat.lt_of_le_of_ne hsize hcnt
      have hidx : (BitVec.ofNat 9 t.cnt).toNat = t.cnt := Nat.mod_eq_of_lt (by omega)
      have hnew : (allocChild t k b bareInternal).nodes.read (BitVec.ofNat 9 t.cnt).toNat = bareInternal := by
        rw [hidx, read_allocChild hk hlt, if_pos rfl]
      rw [insertFrom_grow sym hint hnil hcnt]
      refine ih ?_ (by rw [hnew]; rfl) (by rw [hnew]; exact bareInternal_childless b') hlt ?_
      · rw [hidx]
        exact Nat.lt_succ_self _
      · rw [List.length_cons] at hbig
        change 511 < t.cnt + 1 + _
        omega

section
variable {S : Finset BitString} {t : Trie} {path : Nat → BitString} (h : TriePaths S t path)
include h

/-- The child on the way to a node further down. -/
theorem TriePaths.child_on_the_way {k : NodeIdx} (hk : k.toNat < t.cnt) {b : Bool} {q : BitString}
    (hnode : ∃ j < t.cnt, path j = path k.toNat ++ b :: q) :
    childOf (t.nodes.read k.toNat) b ≠ Config.nil ∧ (childOf (t.nodes.read k.toNat) b).toNat < t.cnt
      ∧ path (childOf (t.nodes.read k.toNat) b).toNat = path k.toNat ++ [b] := by
  rw [List.append_cons] at hnode
  obtain ⟨i, hi, hik⟩ := h.exists_prefix q hnode
  have hchild := h.child_eq hi hk hik
  obtain ⟨hidx, hne⟩ := h.toNat_index hi
  rw [hchild, hidx]
  exact ⟨hne, hi, hik⟩

/-- A Leaf on the way, or any node at the path's end, stops the insertion (R148). -/
theorem TriePaths.insertFrom_struct (sym : Byte) {p : BitString} {k : NodeIdx} (hk : k.toNat < t.cnt)
    (hstop : ∃ r o, HasNode t path r o ∧ path k.toNat <+: r ∧ r <+: path k.toNat ++ p
      ∧ (r = path k.toNat ++ p ∨ o ≠ none)) : insertFrom sym p k t = .error .struct := by
  induction p generalizing k with
  | nil => rfl
  | cons b p ih =>
    cases hint : (t.nodes.read k.toNat).internal with
    | false => exact insertFrom_leaf sym hint _
    | true =>
      obtain ⟨r, o, ⟨j, hj, hjr, hkind⟩, ⟨s, rfl⟩, hrp, hlast⟩ := hstop
      rw [List.prefix_append_right_inj] at hrp
      cases s with
      | nil =>
        rw [List.append_nil] at hjr hlast
        obtain rfl := h.inj j hj k.toNat hk hjr
        rw [nodeKind, if_pos hint] at hkind
        exact hlast.elim (fun heq => by simp at heq) fun hne => absurd hkind.symm hne
      | cons c s =>
        obtain ⟨rfl, hsp⟩ := List.cons_prefix_cons.mp hrp
        obtain ⟨hne, hlt, hpath⟩ := h.child_on_the_way hk ⟨j, hj, hjr⟩
        cases p with
        | nil => exact insertFrom_occupied sym hint hne
        | cons b' p =>
          rw [insertFrom_descend sym hint hne]
          refine ih hlt ⟨_, o, ⟨j, hj, hjr, hkind⟩, ?_⟩
          rw [hpath, List.append_cons _ c s, List.append_assoc _ [c] (b' :: p)]
          exact ⟨List.prefix_append .., by simpa using hsp, hlast.imp_left fun heq => by simpa using heq⟩

/-- Where nothing is in the way and the nodes there are and the path's own would be more than the store holds, the
insertion finds it full (R149). -/
theorem TriePaths.insertFrom_capacity (sym : Byte) {p : BitString} {k : NodeIdx} (hk : k.toNat < t.cnt)
    (hleaf : ∀ r s, HasNode t path r (some s) → ¬ r <+: path k.toNat ++ p)
    (hnew : ∀ o, ¬ HasNode t path (path k.toNat ++ p) o) {T : Finset BitString}
    (hT : ∀ r ∈ T, (∃ j < t.cnt, path j = r) ∨ r <+: path k.toNat ++ p) (hbig : 511 < T.card) :
    insertFrom sym p k t = .error .capacity := by
  induction p generalizing k with
  | nil => exact absurd ⟨k.toNat, hk, (List.append_nil _).symm, rfl⟩ (hnew _)
  | cons b p ih =>
    have hint : (t.nodes.read k.toNat).internal = true := by
      by_contra hfalse
      exact hleaf _ _ ⟨k.toNat, hk, rfl, nodeKind_eq_some.mpr ⟨Bool.eq_false_iff.mpr hfalse, rfl⟩⟩
        (List.prefix_append ..)
    by_cases hnil : childOf (t.nodes.read k.toNat) b = Config.nil
    · refine insertFrom_overflows sym hk hint hnil h.cnt_le (hbig.trans_le ?_)
      have hsub : T ⊆ (Finset.range t.cnt).image path
          ∪ (Finset.range (b :: p).length).image fun j => path k.toNat ++ (b :: p).take (j + 1) := by
        intro r hr
        have hold : (∃ j < t.cnt, path j = r) → r ∈ (Finset.range t.cnt).image path := by
          rintro ⟨j, hj, hjr⟩
          exact Finset.mem_image.mpr ⟨j, Finset.mem_range.mpr hj, hjr⟩
        obtain hnode | hrp := hT r hr
        · exact Finset.mem_union_left _ (hold hnode)
        · obtain ⟨q, hq⟩ | ⟨s, rfl⟩ := List.prefix_or_prefix_of_prefix hrp (List.prefix_append (path k.toNat) (b :: p))
          · exact Finset.mem_union_left _ (hold (h.exists_prefix q ⟨k.toNat, hk, hq.symm⟩))
          · rw [List.prefix_append_right_inj] at hrp
            cases s with
            | nil => exact Finset.mem_union_left _ (hold ⟨k.toNat, hk, (List.append_nil _).symm⟩)
            | cons c s =>
              refine Finset.mem_union_right _ (Finset.mem_image.mpr ⟨s.length, ?_, ?_⟩)
              · exact Finset.mem_range.mpr hrp.length_le
              · exact congrArg _ (List.prefix_iff_eq_take.mp hrp).symm
      have hcard := (Finset.card_le_card hsub).trans (Finset.card_union_le _ _)
      have htail := Finset.card_image_le (s := Finset.range (b :: p).length)
        (f := fun j => path k.toNat ++ (b :: p).take (j + 1))
      rw [h.image_eq] at hcard
      rw [Finset.card_range] at htail
      omega
    · obtain ⟨-, hlt, hpath⟩ := h.down _ hk b hnil
      cases p with
      | nil => exact absurd ⟨_, hlt, hpath, rfl⟩ (hnew _)
      | cons b' p =>
        rw [List.append_cons, ← hpath] at hleaf hnew hT
        rw [insertFrom_descend sym hint hnil]
        exact ih hlt hleaf hnew hT

end

end Sys2Proof.Machine
end

section
/-!
PROOF. DESERIALIZE of a text with a bad line (R147 to R149): a line of another form, one that conflicts with an earlier
one, and one the store cannot hold.
-/
namespace Sys2Proof.Machine

/-- A path of 1 to 255 bits is inserted from the root (R145). -/
theorem insertLine_eq {p : BitString} (hne : p ≠ []) (hlen : p.length ≤ 255) (t : Trie) (sym : Byte) :
    insertLine t p sym = insertFrom sym p 0 t :=
  (if_neg fun hzero => hne (List.length_eq_zero_iff.mp hzero)).trans (if_neg (Nat.not_lt.mpr hlen))

section
variable {ls : List (BitString × Byte)} {t : Trie} {path : Nat → BitString} (h : TrieOf (linePrefixes ls) ls t path)
include h

/-- There is a node at each of the prefixes of the lines (R145). -/
theorem TrieOf.exists_node {r : BitString} (hr : r ∈ linePrefixes ls) : ∃ o, HasNode t path r o := by
  obtain hnil | ⟨l, hl, hprefix⟩ := mem_linePrefixes.mp hr
  · exact ⟨none, (h.nodes r none).mpr (.inl ⟨rfl, .inl hnil⟩)⟩
  · by_cases hrl : r = l.1
    · exact ⟨some l.2, (h.nodes _ _).mpr (.inr ⟨l, hl, hrl, rfl⟩)⟩
    · exact ⟨none, (h.nodes _ _).mpr (.inl ⟨rfl, .inr ⟨l, hl, hprefix, hrl⟩⟩)⟩

/-- A line with an empty path, or with one that conflicts with an earlier line's, is `E_STRUCT` (R148). -/
theorem TrieOf.insertLine_struct {q : BitString} (hlen : q.length ≤ 255)
    (hbad : q = [] ∨ ∃ l ∈ ls, l.1 <+: q ∨ q <+: l.1) (sym : Byte) : Machine.insertLine t q sym = .error .struct := by
  by_cases hnil : q = []
  · exact if_pos (List.length_eq_zero_iff.mpr hnil)
  have hroot : path (0 : NodeIdx).toNat = [] := h.paths.root
  obtain ⟨l, hl, hconflict⟩ := hbad.resolve_left hnil
  have hstop : ∃ r o, HasNode t path r o ∧ r <+: q ∧ (r = q ∨ o ≠ none) := by
    obtain hlq | hql := hconflict
    · exact ⟨l.1, some l.2, (h.nodes _ _).mpr (.inr ⟨l, hl, rfl, rfl⟩), hlq, .inr nofun⟩
    · obtain ⟨o, ho⟩ := h.exists_node (mem_linePrefixes.mpr (.inr ⟨l, hl, hql⟩))
      exact ⟨q, o, ho, List.prefix_rfl, .inl rfl⟩
  obtain ⟨r, o, hnode, hrq, hlast⟩ := hstop
  rw [insertLine_eq hnil hlen]
  refine h.paths.insertFrom_struct sym (k := 0) h.paths.pos ⟨r, o, hnode, ?_⟩
  rw [hroot]
  exact ⟨List.nil_prefix, hrq, hlast⟩

/-- A line whose path is too long, or has too many new nodes for the store, is `E_CAPACITY` (R145, R149). -/
theorem TrieOf.insertLine_capacity {q : BitString} {sym : Byte}
    (hbad : 255 < q.length ∨ (1 ≤ q.length ∧ (∀ l ∈ ls, ¬ l.1 <+: q ∧ ¬ q <+: l.1)
      ∧ 511 < prefixCount (ls ++ [(q, sym)]) + 1)) : Machine.insertLine t q sym = .error .capacity := by
  by_cases hlong : 255 < q.length
  · exact (if_neg (by omega)).trans (if_pos hlong)
  obtain ⟨hpos, hfree, hbig⟩ := hbad.resolve_left hlong
  have hroot : path (0 : NodeIdx).toNat = [] := h.paths.root
  rw [← card_linePrefixes] at hbig
  rw [insertLine_eq (List.length_pos_iff.mp hpos) (Nat.le_of_not_lt hlong)]
  refine h.paths.insertFrom_capacity sym (k := 0) h.paths.pos ?_ ?_ ?_ hbig <;> rw [hroot, List.nil_append]
  · intro r s hnode
    obtain ⟨hnone, -⟩ | ⟨m, hm, rfl, -⟩ := (h.nodes _ _).mp hnode
    · cases hnone
    · exact (hfree m hm).1
  · intro o hnode
    obtain ⟨-, hnil | ⟨m, hm, hprefix, -⟩⟩ | ⟨m, hm, heq, -⟩ := (h.nodes _ _).mp hnode
    · rw [hnil] at hpos
      cases hpos
    · exact (hfree m hm).2 hprefix
    · exact (hfree m hm).2 (heq ▸ List.prefix_rfl)
  · intro r hr
    rw [mem_linePrefixes] at hr
    simp only [List.mem_append, List.mem_singleton] at hr
    have hold : r ∈ linePrefixes ls → ∃ j < t.cnt, path j = r := fun hmem => by
      obtain ⟨o, j, hj, hjr, -⟩ := h.exists_node hmem
      exact ⟨j, hj, hjr⟩
    obtain rfl | ⟨m, hm | rfl, hrm⟩ := hr
    · exact .inl (hold (mem_linePrefixes.mpr (.inl rfl)))
    · exact .inl (hold (mem_linePrefixes.mpr (.inr ⟨m, hm, hrm⟩)))
    · exact .inr hrm

end

theorem afterLine_of_rest {rest : List Byte} (h : rest = [] ∨ ∃ more, rest = 0x0A :: more) :
    ∃ more, afterLine rest = some more := by
  obtain rfl | ⟨more, rfl⟩ := h
  · exact ⟨[], rfl⟩
  · exact ⟨more, rfl⟩

/-- Settles O38: the grammar by `parseLine_eq_some`; acceptable lines are inserted, and the next one is not. -/
theorem linesAreParsedByPosition : Obligations.LinesAreParsedByPosition := by
  refine ⟨fun text rest p sym => ?grammar, fun f s ls bad hready hquiet hparse htext => ?parse,
    fun f s ls q b rest hready hquiet hacc hrest htext hbad => ?capacity⟩
  case grammar =>
    have hline : treeLine (p, sym)
        = (p.map fun b => if b then (0x31 : Byte) else 0x30) ++ [0x20, 0x2D, 0x3E, 0x20, 0x27, sym, 0x27] :=
      treeLine_eq (p, sym)
    rw [parseLine_eq_some, ← hline]
    simp only [afterLine_eq_some]
    constructor
    · rintro ⟨tail, rfl, ⟨rfl, rfl⟩ | rfl⟩
      · exact .inl ⟨List.append_nil _, rfl⟩
      · exact .inr rfl
    · rintro (⟨rfl, rfl⟩ | rfl)
      · exact ⟨[], (List.append_nil _).symm, .inl ⟨rfl, rfl⟩⟩
      · exact ⟨_, rfl, .inr rfl⟩
  case parse =>
    refine deserialize_ends_in_error hready hquiet (c := .parse) ?_
    obtain ⟨rfl, htext⟩ | ⟨hacc, hne, htext⟩ := htext
    · rw [htext]
      exact deserializeLines_of_unparsed hparse _ 0 _
    · obtain ⟨t, path, hins, -⟩ := insertLines_of_acceptable (.inr hacc) s.tabs.node
      obtain ⟨fuel, -, hrun⟩ := deserializeText_append (acceptable_iff.mp hacc).1 hins (tail := 0x0A :: bad)
        (afterLine_eq_some.mpr (.inr rfl))
      rw [htext, hrun, if_neg hne, deserializeLines_of_unparsed hparse]
  case capacity =>
    obtain ⟨t, path, hins, htrie⟩ := insertLines_of_acceptable hacc s.tabs.node
    obtain ⟨more, hmore⟩ := afterLine_of_rest hrest
    refine deserialize_ends_in_error hready hquiet (c := .capacity) ?_
    rw [htext]
    exact deserializeText_of_refused hins (l := (q, b)) (htrie.insertLine_capacity hbad) hmore

/-- Settles O39: acceptable lines leave their trie, in which the conflicting path is blocked. -/
theorem conflictingPathsAreStructural : Obligations.ConflictingPathsAreStructural := by
  intro f s ls q b rest hready hquiet hacc hrest htext hlen hbad
  obtain ⟨t, path, hins, htrie⟩ := insertLines_of_acceptable hacc s.tabs.node
  obtain ⟨more, hmore⟩ := afterLine_of_rest hrest
  refine deserialize_ends_in_error hready hquiet (c := .struct) ?_
  rw [htext]
  exact deserializeText_of_refused hins (l := (q, b)) (htrie.insertLine_struct hlen hbad b) hmore

end Sys2Proof.Machine
end

section
/-!
PROOF. What a deserialize step that fails leaves (R146), in DESERIALIZE and in DECOMPRESS: no tree and no code table,
and the frequency table as it was.
-/
namespace Sys2Proof.Machine

section
variable {i : Instr} {s t : State} (h : exec i s = .next t)
include h

/-- An upfront error leaves the tables as they were (R182). -/
theorem tabs_eq_of_upfront (hu : upfront i s ≠ none) : t.tabs = s.tabs := by
  rw [exec_eq_checked] at h
  obtain ⟨_, -, hc⟩ | ⟨e, -, -, hc⟩ | ⟨-, hnone, -⟩ := checked_cases i s (bodyOf i s)
  · cases hc.symm.trans h
  · cases hc.symm.trans h
    rfl
  · exact absurd hnone hu

/-- Past the upfront checks a command is its body (R182). -/
theorem bodyOf_eq_next (hu : upfront i s = none) : bodyOf i s = .next t := by
  rw [exec_eq_checked] at h
  obtain ⟨_, -, hc⟩ | ⟨e, -, hsome, -⟩ | ⟨-, -, hc⟩ := checked_cases i s (bodyOf i s)
  · cases hc.symm.trans h
  · cases hu.symm.trans hsome
  · exact hc.symm.trans h

end

/-- DESERIALIZE that ends in an error past its checks loses the tree (R146). -/
theorem tabs_of_deserialize_error {f : BitFmt} {s t : State} (h : exec (.deserialize f) s = .next t)
    (herr : t.regs.err = true) (hu : upfront (.deserialize f) s = none) : t.tabs = s.tabs.treeLost s.drawn := by
  have hbody := bodyOf_eq_next h hu
  simp only [bodyOf, deserializeBody] at hbody
  split at hbody <;> cases hbody
  · cases herr
  · rfl
  · rfl

/-! DECOMPRESS (R146, R174). -/

/-- The data-check errors of the decode step are no bus errors (R162 to R166). -/
theorem code_of_decodeBits {ns : Table Node 511} {root : NodeIdx} {cap : Nat} {bits : List (Option Bool)} {i : Nat}
    {w : WalkPtr} {out : List Byte} {e : Err} (h : (decodeBits ns root cap bits i w out).err = some e) :
    e.code ≠ .bus := by
  induction bits generalizing i w out with
  | nil =>
    rw [decodeBits] at h
    split at h <;> cases h
    nofun
  | cons b bits ih =>
    cases b with
    | none =>
      cases h
      nofun
    | some b =>
      simp only [decodeBits] at h
      split at h
      · cases h
        nofun
      split at h
      · exact ih h
      split at h
      · cases h
        nofun
      · exact ih h

theorem ErrCode.num_eq_bus {c : ErrCode} : c.num = 12 ↔ c = .bus := by
  cases c <;> decide

theorem failing_eq_nil_iff {s : State} {rs : List Range} :
    failing s rs = [] ↔ ∀ a ∈ s.platform.busError, inRanges rs a = false := by
  simp [failing]

/-- A bus error that is not the data phase's own is at a failing address (R186). -/
theorem failing_of_outcomeOf_bus {s : State} {rs : List Range} {d : Option Err} {e : Err}
    (h : outcomeOf s rs d = some e) (hbus : e.code = .bus) (hd : ∀ e, d = some e → e.code ≠ .bus) :
    failing s rs ≠ [] := by
  intro hquiet
  rw [outcomeOf_quiet hquiet] at h
  exact hd e h hbus

/-- With no failing address of SRC or DST, one that DECOMPRESS may access is one of TREE (R186). -/
theorem failing_tree_ne_nil {f : BitFmt} {s : State} (hquiet : failing s [srcStream f s.cfg, dstRange s.cfg] = [])
    {n : Nat} (hfail : failing s [srcStream f s.cfg, treeRange s.cfg, (dstRange s.cfg).first n] ≠ []) :
    failing s [treeRange s.cfg] ≠ [] := by
  refine fun htree => hfail (failing_eq_nil_iff.mpr fun a ha => ?_)
  have hother := failing_eq_nil_iff.mp hquiet a ha
  have hin := failing_eq_nil_iff.mp htree a ha
  simp only [inRanges_cons_eq_false] at hother hin ⊢
  obtain ⟨hsrc, hdst, -⟩ := hother
  exact ⟨hsrc, hin.1, Bool.eq_false_iff.mpr fun hfirst => Bool.eq_false_iff.mp hdst (has_of_has_first hfirst), rfl⟩

/-- DECOMPRESS whose deserialize step fails loses the tree (R146): on its text, or with `E_BUS` at an address of
TREE. -/
theorem decompress_loses_tree {f : BitFmt} {s t : State} (h : exec (.decompress f) s = .next t)
    (hu : upfront (.decompress f) s = none)
    (hcause : (∃ e, deserializeText s.tabs.node (treeBytes s) = .error e)
      ∨ (t.regs.errcode = 12 ∧ failing s [srcStream f s.cfg, dstRange s.cfg] = [])) :
    t.regs.err = true ∧ t.tabs = s.tabs.treeLost s.drawn := by
  have hbody := bodyOf_eq_next h hu
  simp only [bodyOf, decompressBody] at hbody
  split at hbody <;> cases hbody
  next e _ =>
    unfold decompressLost
    split <;> exact ⟨rfl, rfl⟩
  next x hx =>
    obtain ⟨e, he⟩ | ⟨hcode, hquiet⟩ := hcause
    · cases hx.symm.trans he
    simp only [decompressEnd] at hcode ⊢
    split at hcode
    next e hout =>
      have hbus : e.code = .bus := ErrCode.num_eq_bus.mp (by split at hcode <;> exact hcode)
      have htree := failing_tree_ne_nil hquiet (failing_of_outcomeOf_bus hout hbus fun _ => code_of_decodeBits)
      rw [if_pos ⟨hbus, htree⟩]
      exact ⟨rfl, rfl⟩
    next => cases hcode

/-- Settles O40: what the error leaves is `treeLost`, whose views read 0; a refused text is refused alike by both. -/
theorem deserializeErrorLosesTheTree : Obligations.DeserializeErrorLosesTheTree := by
  intro f s t
  refine ⟨fun h herr => ⟨fun hu => ?_, tabs_eq_of_upfront h⟩,
    fun h => ⟨fun hu hcause => ?_, tabs_eq_of_upfront h⟩, fun e hready hquiet htext => ?_⟩
  · have htabs := tabs_of_deserialize_error h herr hu
    simp [FreqSame, readReg, viewNnodes, viewRoot, viewNodeW, viewNodeInfo, nodeShown, htabs]
  · obtain ⟨herr, htabs⟩ := decompress_loses_tree h hu hcause
    simp [FreqSame, herr, htabs]
  · exact ⟨_, _, exec_decompress_refused hready hquiet htext,
      exec_deserialize_error (ready_deserialize_of_decompress hready) (quiet_deserialize_of_decompress hquiet) htext,
      endsInError_raiseFor .., endsInError_raiseFor .., rfl⟩

end Sys2Proof.Machine
end

section
/-!
PROOF. The decode step bit by bit (R160 to R166): the bits to Leaves emit their symbols, the bits down the tree emit
nothing, and the first bit that cannot be taken ends it at its index. DECODE ends as the step does.
-/
namespace Sys2Proof.Machine

/-! Bits down the tree (R161). -/

theorem descends_nil {ns : Table Node 511} {k k' : NodeIdx} :
    descends ns k [] k' = true ↔ (nodeAt ns k).internal = true ∧ k = k' := by
  simp [descends]

theorem descends_cons {ns : Table Node 511} {k k' : NodeIdx} {c : Bool} {p : BitString} :
    descends ns k (c :: p) k' = true ↔ (nodeAt ns k).internal = true ∧ childOf (nodeAt ns k) c ≠ Config.nil
      ∧ descends ns (childOf (nodeAt ns k) c) p k' = true := by
  simp [descends, and_assoc]

theorem internal_of_descends {ns : Table Node 511} {k k' : NodeIdx} {p : BitString} (h : descends ns k p k' = true) :
    (nodeAt ns k).internal = true := by
  cases p with
  | nil => exact (descends_nil.mp h).1
  | cons c p => exact (descends_cons.mp h).1

/-- The paths of listed Leaves lead to them (R120). -/
theorem leadsToLeaf_of_mem {ns : Table Node 511} {root : NodeIdx} {ls xs : List (BitString × Byte)}
    (hwalk : treeLeaves ns root = some ls) (hroot : (nodeAt ns root).internal = true) (hxs : ∀ x ∈ xs, x ∈ ls) :
    ∀ x ∈ xs, leadsToLeaf ns root x.1 x.2 = true :=
  fun x hx => (((isWalk_of_treeLeaves hwalk).2 hroot).1 x.1 x.2).mp (hxs x hx)

section
variable {ns : Table Node 511} {root : NodeIdx} {cap : Nat}

/-- Bits down to an Internal node emit nothing and leave the walk there, below `TOP` if there are any (R160). -/
theorem decodeBits_descends {k k' : NodeIdx} {w : WalkPtr} (hw : ∀ c, walkChild ns root w c = childOf (nodeAt ns k) c)
    {p : BitString} (hp : descends ns k p k' = true) (out : List Byte) (i : Nat) :
    ∃ w', (∀ c, walkChild ns root w' c = childOf (nodeAt ns k') c) ∧ (w' = .top → p = [] ∧ w = .top)
      ∧ ∀ rest, decodeBits ns root cap (p.map some ++ rest) i w out
          = decodeBits ns root cap rest (i + p.length) w' out := by
  induction p generalizing k w i with
  | nil =>
    obtain ⟨-, rfl⟩ := descends_nil.mp hp
    exact ⟨w, hw, fun h => ⟨rfl, h⟩, fun _ => rfl⟩
  | cons c p ih =>
    obtain ⟨-, hne, hrest⟩ := descends_cons.mp hp
    obtain ⟨w', hw', hbelow, hrun⟩ := ih (w := .node (childOf (nodeAt ns k) c)) (fun _ => rfl) hrest (i + 1)
    refine ⟨w', hw', fun h => absurd (hbelow h).2 nofun, fun rest => ?_⟩
    rw [List.map_cons, List.cons_append, decodeBits, hw]
    simp only [if_neg hne, internal_of_descends hrest, if_true, hrun, List.length_cons, Nat.add_assoc, Nat.add_comm 1]

/-! The bits that end the step (R162 to R166). -/

theorem decodeBits_trunc {w : WalkPtr} (hw : w ≠ .top) (i : Nat) (out : List Byte) :
    (decodeBits ns root cap [] i w out).err = some (errAt .trunc i) := by
  rw [decodeBits, if_neg hw]

theorem decodeBits_badbit (rest : List (Option Bool)) (i : Nat) (w : WalkPtr) (out : List Byte) :
    (decodeBits ns root cap (none :: rest) i w out).err = some (errAt .badbit i) := rfl

theorem decodeBits_malformed {w : WalkPtr} {b : Bool} (hchild : walkChild ns root w b = Config.nil)
    (rest : List (Option Bool)) (i : Nat) (out : List Byte) :
    (decodeBits ns root cap (some b :: rest) i w out).err = some (errAt .malformed i) := by
  rw [decodeBits]
  simp only [if_pos hchild]

theorem decodeBits_capacity {w : WalkPtr} {b : Bool} (hchild : walkChild ns root w b ≠ Config.nil)
    (hleaf : (nodeAt ns (walkChild ns root w b)).internal = false) {out : List Byte} (hfull : out.length = cap)
    (rest : List (Option Bool)) (i : Nat) :
    (decodeBits ns root cap (some b :: rest) i w out).err = some (errAt .capacity i) := by
  rw [decodeBits]
  simp only [if_neg hchild, hleaf, Bool.false_eq_true, if_false, if_pos hfull]

/-! A single-Leaf tree (R165). -/

section
variable (hleaf : (nodeAt ns root).internal = false)
include hleaf

theorem walkChild_singleLeaf (b : Bool) : walkChild ns root .top b = if b then Config.nil else root := by
  simp [walkChild, hleaf]

/-- Each bit 0 emits the Leaf's symbol (R165). -/
theorem decodeBits_singleLeaf (hroot : root ≠ Config.nil) (n : Nat) {out : List Byte} (hroom : out.length + n ≤ cap)
    (rest : List (Option Bool)) (i : Nat) :
    decodeBits ns root cap (List.replicate n (some false) ++ rest) i .top out
      = decodeBits ns root cap rest (i + n) .top (out ++ List.replicate n (nodeAt ns root).sym) := by
  induction n generalizing out i with
  | zero => simp
  | succ n ih =>
    have hlt : out.length ≠ cap := by omega
    rw [List.replicate_succ, List.cons_append, decodeBits, walkChild_singleLeaf hleaf]
    simp only [Bool.false_eq_true, if_false, if_neg hroot, hleaf, if_neg hlt]
    rw [ih (by simp; omega), List.append_assoc, List.replicate_succ, Nat.add_assoc, Nat.add_comm 1]
    rfl

end

end

/-- A valid tree's root is a node (R55). -/
theorem root_ne_nil {tb : Tables} (hstore : storeOk tb = true) (hv : tb.treeV = true) : tb.root ≠ Config.nil := by
  intro hnil
  simp only [storeOk, hv, hnil, Config.nil, Config.nodeCap, Bool.not_true, Bool.false_or, Bool.and_eq_true,
    decide_eq_true_eq] at hstore
  obtain ⟨⟨-, hcap, hroot⟩, -⟩ := hstore
  exact absurd (hroot.trans_le hcap) (by decide)

/-! The decode step on SRC (R160). -/

section
variable {f : BitFmt} {s : State}

theorem length_srcBits (f : BitFmt) (s : State) : (srcBits f s).length = s.cfg.bufs.srcLen.toNat := by
  simp [srcBits, readBits]

/-- The decode step starts at `TOP` on the first bit of SRC (R160). -/
theorem decodeRun_eq (tb : Tables) (f : BitFmt) (s : State) :
    decodeRun tb f s = decodeBits tb.node tb.root s.cfg.bufs.dstCap.toNat (srcBits f s) 0 .top [] := rfl

/-- After whole Leaves and `cut` bits more down the tree the step stands where those bits lead, with the Leaves' symbols
decoded (R160). -/
theorem decodeRun_cut {ls xs : List (BitString × Byte)} {cut : BitString} {k : NodeIdx}
    (hwalk : treeLeaves s.tabs.node s.tabs.root = some ls) (hxs : ∀ x ∈ xs, x ∈ ls)
    (hcut : descends s.tabs.node s.tabs.root cut k = true) (hroom : xs.length ≤ s.cfg.bufs.dstCap.toNat) :
    ∃ w, (∀ c, walkChild s.tabs.node s.tabs.root w c = childOf (nodeAt s.tabs.node k) c) ∧ (w = .top → cut = [])
      ∧ ∀ rest, srcBits f s = (pathsOf xs ++ cut).map some ++ rest →
        decodeRun s.tabs f s = decodeBits s.tabs.node s.tabs.root s.cfg.bufs.dstCap.toNat rest
          (pathsOf xs ++ cut).length w (xs.map Prod.snd) := by
  have hroot := internal_of_descends hcut
  obtain ⟨w, hw, hbelow, hrun⟩ := decodeBits_descends (cap := s.cfg.bufs.dstCap.toNat) (w := .top)
    (fun _ => if_pos hroot) hcut (xs.map Prod.snd) (pathsOf xs).length
  refine ⟨w, hw, fun h => (hbelow h).1, fun rest hbits => ?_⟩
  rw [decodeRun_eq, hbits, List.map_append, List.append_assoc,
    decodeBits_pathsOf hroot (leadsToLeaf_of_mem hwalk hroot hxs) (by simpa using hroom), Nat.zero_add, List.nil_append,
    hrun, List.length_append]

/-- After `n` bits 0 the step over a single-Leaf tree is at `TOP` with the Leaf's symbol decoded `n` times (R165). -/
theorem decodeRun_singleLeaf (hstore : storeOk s.tabs = true) (hv : s.tabs.treeV = true)
    (hleaf : (nodeAt s.tabs.node s.tabs.root).internal = false) {n : Nat} (hroom : n ≤ s.cfg.bufs.dstCap.toNat)
    {rest : List (Option Bool)} (hbits : srcBits f s = List.replicate n (some false) ++ rest) :
    decodeRun s.tabs f s = decodeBits s.tabs.node s.tabs.root s.cfg.bufs.dstCap.toNat rest n .top
      (List.replicate n (nodeAt s.tabs.node s.tabs.root).sym) := by
  rw [decodeRun_eq, hbits, decodeBits_singleLeaf hleaf (root_ne_nil hstore hv) n (by simpa using hroom), Nat.zero_add,
    List.nil_append]

/-- A stream of whole Leaves decodes to their symbols, whatever the tree (R160, R165). -/
theorem decodeRun_pathsOf {ls xs : List (BitString × Byte)} (hstore : storeOk s.tabs = true)
    (hv : s.tabs.treeV = true) (hwalk : treeLeaves s.tabs.node s.tabs.root = some ls) (hxs : ∀ x ∈ xs, x ∈ ls)
    (hbits : srcBits f s = (pathsOf xs).map some) (hroom : xs.length ≤ s.cfg.bufs.dstCap.toNat) :
    decodeRun s.tabs f s = ⟨xs.map Prod.snd, none, 0⟩ := by
  cases hroot : (nodeAt s.tabs.node s.tabs.root).internal with
  | true =>
    rw [decodeRun_eq, hbits, ← List.append_nil ((pathsOf xs).map some),
      decodeBits_pathsOf hroot (leadsToLeaf_of_mem hwalk hroot hxs) (by simpa using hroom)]
    rfl
  | false =>
    obtain rfl := (isWalk_of_treeLeaves hwalk).1 hroot
    obtain ⟨n, rfl⟩ : ∃ n, xs = List.replicate n ([false], (nodeAt s.tabs.node s.tabs.root).sym) :=
      ⟨xs.length, List.eq_replicate_of_mem fun x hx => List.mem_singleton.mp (hxs x hx)⟩
    have hzeros : srcBits f s = List.replicate n (some false) ++ [] := by
      simpa [pathsOf, List.flatMap_replicate] using hbits
    rw [decodeRun_singleLeaf hstore hv hroot (by simpa using hroom) hzeros, List.map_replicate]
    rfl

end

/-! How DECODE ends (R160). -/

section
variable {f : BitFmt} {s : State} (hready : Ready (.decode f) s) (hquiet : Quiet (.decode f) s)
include hready

theorem treeV_of_ready_decode : s.tabs.treeV = true :=
  valid_of_upfront hready.2 (x := 1) List.mem_cons_self

include hquiet

/-- DECODE of a stream the step decodes to its end delivers the symbols, and leaves everything else (R160, R189). -/
theorem decode_delivers {bs : List Byte} (hrun : decodeRun s.tabs f s = ⟨bs, none, 0⟩) :
    ∃ t, exec (.decode f) s = .next t ∧ EndsWell s t ∧ t.tabs = s.tabs
      ∧ t.regs.toutLen = s.regs.toutLen ∧ t.regs.ratio = s.regs.ratio
      ∧ t.regs.dstLen.toNat = bs.length ∧ readBytes t.mem s.cfg.bufs.dstBase.toNat bs.length = bs
      ∧ MemSameOutside [⟨s.cfg.bufs.dstBase.toNat, bs.length⟩] s t := by
  have hexec := exec_decode_ok hready hquiet (congrArg DecodeRun.err hrun)
  have hroom := length_decodeRun_out_le s.tabs f s
  rw [hrun] at hexec hroom
  exact ⟨_, hexec, endsWell_complete .., rfl, rfl, rfl, toNat_ofNat_of_le_cap hroom, readBytes_writeBytes ..,
    fun a ha => read_writeBytes_of_has_false (inRanges_cons_eq_false.mp ha).1⟩

/-- DECODE of a stream the step cannot take ends in its error and reports no symbol (R162, R190). -/
theorem decode_ends_in_error {c : ErrCode} {i : Nat} (hrun : (decodeRun s.tabs f s).err = some (errAt c i)) :
    ∃ t, exec (.decode f) s = .next t ∧ EndsInError c.num (BitVec.ofNat 32 i) s t ∧ t.regs.dstLen = 0
      ∧ t.tabs = s.tabs :=
  ⟨_, exec_decode_error hready hquiet hrun, endsInError_raiseFor (.decode f) _ s s.tabs, rfl, rfl⟩

end

/-- Settles O42: every stream of whole Leaves decodes to their symbols, which DECODE delivers. -/
theorem decodeEmitsTheLeafSymbols : Obligations.DecodeEmitsTheLeafSymbols := by
  intro f s ls xs hready hquiet hstore hwalk hxs hbits hroom
  have hrun := decodeRun_pathsOf hstore (treeV_of_ready_decode hready) hwalk hxs hbits hroom
  have hends := decode_delivers hready hquiet hrun
  rwa [List.length_map] at hends

/-- Settles O43: the cut leaves the walk below `TOP` at the end of the stream. -/
theorem truncatedStreamIsReported : Obligations.TruncatedStreamIsReported := by
  intro f s ls xs cut k hready hquiet hwalk hxs hne hcut hbits hroom
  obtain ⟨w, -, hbelow, hrun⟩ := decodeRun_cut (f := f) hwalk hxs hcut hroom
  have herr := decodeBits_trunc (ns := s.tabs.node) (root := s.tabs.root) (cap := s.cfg.bufs.dstCap.toNat)
    (fun h => hne (hbelow h)) (pathsOf xs ++ cut).length (xs.map Prod.snd)
  rw [← hrun [] (hbits.trans (List.append_nil _).symm)] at herr
  have hlen : BitVec.ofNat 32 (pathsOf xs ++ cut).length = s.cfg.bufs.srcLen := by
    rw [← List.length_map (f := some), ← hbits, length_srcBits, BitVec.ofNat_toNat, BitVec.setWidth_eq]
  rw [← hlen]
  exact decode_ends_in_error hready hquiet herr

/-- Settles O44: the step stands at node `k` when it meets the bad bit. -/
theorem decodeReportsTheFirstBadBit : Obligations.DecodeReportsTheFirstBadBit := by
  intro f s ls xs cut k rest hready hquiet hwalk hxs hcut at' ends
  refine ⟨fun hbits hroom => decode_ends_in_error hready hquiet (c := .badbit) ?badbit,
    fun b hbits hroom hnil => decode_ends_in_error hready hquiet (c := .malformed) ?malformed,
    fun b hbits hfull hne hleaf => decode_ends_in_error hready hquiet (c := .capacity) ?capacity⟩
  case badbit =>
    obtain ⟨w, -, -, hrun⟩ := decodeRun_cut (f := f) hwalk hxs hcut hroom
    rw [hrun _ hbits, decodeBits_badbit]
  case malformed =>
    obtain ⟨w, hw, -, hrun⟩ := decodeRun_cut (f := f) hwalk hxs hcut hroom
    rw [hrun _ hbits, decodeBits_malformed ((hw b).trans hnil)]
  case capacity =>
    obtain ⟨w, hw, -, hrun⟩ := decodeRun_cut (f := f) hwalk hxs hcut hfull.le
    rw [← hw] at hne hleaf
    rw [hrun _ hbits, decodeBits_capacity hne hleaf ((List.length_map ..).trans hfull)]

/-- Settles O45: after `n` bits 0 the step is at `TOP`, from which bit 0 leads to the Leaf and bit 1 nowhere. -/
theorem singleLeafDecodes : Obligations.SingleLeafDecodes := by
  intro f s n rest hready hquiet hstore hleaf hroom
  have hv := treeV_of_ready_decode hready
  have hrun : ∀ {bits}, srcBits f s = List.replicate n (some false) ++ bits →
      decodeRun s.tabs f s = decodeBits s.tabs.node s.tabs.root s.cfg.bufs.dstCap.toNat bits n .top
        (List.replicate n (nodeAt s.tabs.node s.tabs.root).sym) :=
    decodeRun_singleLeaf hstore hv hleaf hroom
  have hfails : ∀ {c : ErrCode}, (decodeRun s.tabs f s).err = some (errAt c n) →
      ∃ t, exec (.decode f) s = .next t ∧ EndsInError c.num (BitVec.ofNat 32 n) s t := fun h => by
    obtain ⟨t, hexec, hends, -, -⟩ := decode_ends_in_error hready hquiet h
    exact ⟨t, hexec, hends⟩
  have hchild := walkChild_singleLeaf (ns := s.tabs.node) (root := s.tabs.root) hleaf
  refine ⟨fun hbits => ?emits, fun hbits => hfails (c := .malformed) ?malformed,
    fun hbits => hfails (c := .badbit) ?badbit, fun hbits hfull => hfails (c := .capacity) ?capacity⟩
  case emits =>
    have hall := hrun (hbits.trans (List.append_nil _).symm)
    obtain ⟨t, hexec, ⟨-, -, -, -, herr, -⟩, -, -, -, hlen, hbytes, -⟩ := decode_delivers hready hquiet hall
    rw [List.length_replicate] at hlen hbytes
    exact ⟨t, hexec, herr, hlen, hbytes⟩
  case malformed => rw [hrun hbits, decodeBits_malformed (hchild true)]
  case badbit => rw [hrun hbits, decodeBits_badbit]
  case capacity =>
    have hne : walkChild s.tabs.node s.tabs.root .top false ≠ Config.nil := hchild false ▸ root_ne_nil hstore hv
    have hends : (nodeAt s.tabs.node (walkChild s.tabs.node s.tabs.root .top false)).internal = false := by
      rw [hchild]
      exact hleaf
    rw [hrun hbits, decodeBits_capacity hne hends ((List.length_replicate ..).trans hfull)]

end Sys2Proof.Machine
end

section
/-!
PROOF. A command that succeeds, said once for each of the commands a composite runs: it has passed its checks, met no
failing address, and left its results (R186, R189).
-/
namespace Sys2Proof.Machine

/-- A command that succeeds has passed its checks and is its body (R182). -/
theorem ready_of_succeeds {i : Instr} {s t : State} (h : exec i s = .next t) (herr : t.regs.err = false) :
    Ready i s ∧ bodyOf i s = .next t := by
  rw [exec_eq_checked] at h
  obtain ⟨_, -, hc⟩ | ⟨e, -, -, hc⟩ | ⟨hn, hu, hc⟩ := checked_cases i s (bodyOf i s)
  · cases hc.symm.trans h
  · cases hc.symm.trans h
    cases herr
  · exact ⟨⟨hn, hu⟩, hc.symm.trans h⟩

section
variable {f : BitFmt} {s t : State}

theorem count_succeeds (h : exec (.count f) s = .next t) (herr : t.regs.err = false) :
    t = complete { s with tabs := s.tabs.counted (srcBytes s) } := by
  obtain ⟨-, hbody⟩ := ready_of_succeeds h herr
  simp only [bodyOf, countBody] at hbody
  split at hbody <;> cases hbody
  · cases herr
  · rfl

theorem build_succeeds (h : exec (.build f) s = .next t) (herr : t.regs.err = false) :
    ∃ tb, s.tabs.built = some tb ∧ t = complete { s with tabs := tb } := by
  obtain ⟨-, hbody⟩ := ready_of_succeeds h herr
  simp only [bodyOf, buildBody] at hbody
  split at hbody <;> cases hbody
  exact ⟨_, ‹_›, rfl⟩

theorem gencode_succeeds (h : exec (.gencode f) s = .next t) (herr : t.regs.err = false) :
    ∃ ls, treeLeaves s.tabs.node s.tabs.root = some ls ∧ t = complete { s with tabs := s.tabs.coded ls } := by
  obtain ⟨-, hbody⟩ := ready_of_succeeds h herr
  simp only [bodyOf, gencodeBody] at hbody
  split at hbody <;> cases hbody
  exact ⟨_, ‹_›, rfl⟩

theorem encode_succeeds (h : exec (.encode f) s = .next t) (herr : t.regs.err = false) :
    Ready (.encode f) s ∧ ∃ bits, (encodeRun s.tabs.code (srcBytes s) f s.cfg.bufs.dstCap.toNat).result = .ok bits
      ∧ failing s [srcText s.cfg, (dstRange s.cfg).first
          (encodeRun s.tabs.code (srcBytes s) f s.cfg.bufs.dstCap.toNat).extent] = []
      ∧ t = complete { s with
          regs := s.regs.encoded bits.length s.cfg.bufs.srcLen.toNat
          mem := writeBytes s.mem (dstRange s.cfg).base (streamImage f bits) } := by
  obtain ⟨hready, hbody⟩ := ready_of_succeeds h herr
  simp only [bodyOf, encodeBody, Instr.fmt] at hbody
  split at hbody <;> cases hbody
  next hout hrun => exact ⟨hready, _, hrun, (outcomeOf_eq_none.mp hout).1, rfl⟩
  all_goals cases herr

theorem serialize_succeeds (h : exec (.serialize f) s = .next t) (herr : t.regs.err = false) :
    Ready (.serialize f) s ∧ ∃ ls, treeLeaves s.tabs.node s.tabs.root = some ls
      ∧ failing s [(toutRange s.cfg).first (treeText ls).length] = []
      ∧ textCheck (treeText ls) s.cfg.bufs.toutCap.toNat = none
      ∧ t = complete { s with
          regs := s.regs.serialized (treeText ls).length
          mem := writeBytes s.mem (toutRange s.cfg).base (treeText ls) } := by
  obtain ⟨hready, hbody⟩ := ready_of_succeeds h herr
  simp only [bodyOf, serializeBody] at hbody
  split at hbody
  · cases hbody
  next hwalk =>
    split at hbody <;> cases hbody
    · cases herr
    next hout =>
      obtain ⟨hbus, htext⟩ := outcomeOf_eq_none.mp hout
      exact ⟨hready, _, hwalk, hbus, htext, rfl⟩

theorem deserialize_succeeds (h : exec (.deserialize f) s = .next t) (herr : t.regs.err = false) :
    Ready (.deserialize f) s ∧ ∃ x, deserializeText s.tabs.node (treeBytes s) = .ok x
      ∧ failing s [treeRange s.cfg] = [] ∧ t = complete { s with tabs := s.tabs.deserialized x } := by
  obtain ⟨hready, hbody⟩ := ready_of_succeeds h herr
  simp only [bodyOf, deserializeBody] at hbody
  split at hbody <;> cases hbody
  next hout hrun => exact ⟨hready, _, hrun, (outcomeOf_eq_none.mp hout).1, rfl⟩
  all_goals cases herr

theorem decode_succeeds (h : exec (.decode f) s = .next t) (herr : t.regs.err = false) :
    Ready (.decode f) s ∧ (decodeRun s.tabs f s).err = none
      ∧ failing s [srcStream f s.cfg, (dstRange s.cfg).first (decodeRun s.tabs f s).extent] = []
      ∧ t = complete { s with
          regs := s.regs.decoded (decodeRun s.tabs f s).out.length
          mem := writeBytes s.mem (dstRange s.cfg).base (decodeRun s.tabs f s).out } := by
  obtain ⟨hready, hbody⟩ := ready_of_succeeds h herr
  simp only [bodyOf, decodeBody, Instr.fmt] at hbody
  split at hbody <;> cases hbody
  · cases herr
  next hout =>
    obtain ⟨hbus, hrun⟩ := outcomeOf_eq_none.mp hout
    exact ⟨hready, hrun, hbus, rfl⟩

end

/-! COMPRESS (R170). -/

/-- COMPRESS past its checks, its count, build and code steps done, ends with its encode and serialize steps (R170). -/
theorem exec_compress_of_steps {f : BitFmt} {s : State} {tb : Tables} {ls : List (BitString × Byte)}
    (hready : Ready (.compress f) s) (hbuilt : (s.tabs.counted (srcBytes s)).built = some tb)
    (hwalk : treeLeaves tb.node tb.root = some ls) :
    exec (.compress f) s = .next (compressEnd (.compress f) s (tb.coded ls) ls) := by
  rw [exec_ready hready]
  simp only [bodyOf, compressBody, hbuilt, hwalk]

/-- The encode step finds `bits` and both it and the serialize step fit, with no failing address (R125, R140, R186). -/
structure CompressFits (f : BitFmt) (s : State) (tb : Tables) (ls : List (BitString × Byte)) (bits : BitString) :
    Prop where
  stream : (encodeRun tb.code (srcBytes s) f s.cfg.bufs.dstCap.toNat).result = .ok bits
  text : textCheck (treeText ls) s.cfg.bufs.toutCap.toNat = none
  bus : failing s [srcText s.cfg,
    (dstRange s.cfg).first (encodeRun tb.code (srcBytes s) f s.cfg.bufs.dstCap.toNat).extent,
    (toutRange s.cfg).first (treeText ls).length] = []

section
variable {f : BitFmt} {s : State} {tb : Tables} {ls : List (BitString × Byte)}

/-- Where both steps fit, COMPRESS succeeds with both results in place (R170). -/
theorem CompressFits.compressEnd_eq {bits : BitString} (h : CompressFits f s tb ls bits) :
    compressEnd (.compress f) s tb ls = complete { s with
      tabs := tb
      regs := (s.regs.encoded bits.length s.cfg.bufs.srcLen.toNat).serialized (treeText ls).length
      mem := writeBytes (writeBytes s.mem (dstRange s.cfg).base (streamImage f bits)) (toutRange s.cfg).base
        (treeText ls) } := by
  simp only [compressEnd, Instr.fmt, compressErr, h.stream, h.text, outcomeOf_quiet h.bus]

/-- COMPRESS succeeds only where both steps fit (R170). -/
theorem compressFits_of_succeeds (h : (compressEnd (.compress f) s tb ls).regs.err = false) :
    ∃ bits, CompressFits f s tb ls bits := by
  simp only [compressEnd, Instr.fmt] at h
  split at h
  next bits hout hrun =>
    obtain ⟨hbus, htext⟩ := outcomeOf_eq_none.mp hout
    rw [compressErr, hrun] at htext
    exact ⟨bits, hrun, htext, hbus⟩
  next =>
    split at h <;> cases h
  next => cases h

end

/-! DECOMPRESS (R174). -/

/-- A text that is accepted and a stream that is decoded to its end, with no failing address met: DECOMPRESS succeeds
(R174, R186). -/
theorem exec_decompress_succeeds {f : BitFmt} {s : State} {x : Trie} (hready : Ready (.decompress f) s)
    (htext : deserializeText s.tabs.node (treeBytes s) = .ok x)
    (hrun : (decodeRun (s.tabs.deserialized x) f s).err = none)
    (hbus : failing s [srcStream f s.cfg, treeRange s.cfg,
      (dstRange s.cfg).first (decodeRun (s.tabs.deserialized x) f s).extent] = []) :
    exec (.decompress f) s = .next (complete { s with
      tabs := s.tabs.deserialized x
      regs := s.regs.decoded (decodeRun (s.tabs.deserialized x) f s).out.length
      mem := writeBytes s.mem (dstRange s.cfg).base (decodeRun (s.tabs.deserialized x) f s).out }) := by
  rw [exec_ready hready]
  simp only [bodyOf, decompressBody, htext, decompressEnd, Instr.fmt, hrun, outcomeOf_quiet hbus]

end Sys2Proof.Machine
end

section
/-!
PROOF. The composites and the component commands run one after another from an idle core (R172, R176): each component
finds the configuration and the platform of the first, and what the one before it left.
-/
namespace Sys2Proof.Machine

/-- `t` is idle like `s`, on the configuration a launch from `s` would take and on the same platform (R58, R91). -/
structure SameSetup (s t : State) : Prop where
  idle : t.engine = .idle
  cfg : t.cfg = s.cfg
  platform : t.platform = s.platform

theorem SameSetup.trans {s t u : State} (h : SameSetup s t) (h' : SameSetup t u) : SameSetup s u :=
  ⟨h'.idle, h'.cfg.trans h.cfg, h'.platform.trans h.platform⟩

theorem SameSetup.failing {s t : State} (h : SameSetup s t) (rs : List Range) : failing t rs = failing s rs := by
  simp only [Machine.failing, h.platform]

/-- A command run from an idle core leaves the next one the configuration it ran on itself (R58). -/
theorem sameSetup_of_exec {i : Instr} {s t : State} (hidle : s.engine = .idle) (h : exec i s = .next t) :
    SameSetup s t := by
  have hcfg := cfg_of_idle hidle
  obtain ⟨_, -, ⟨_, _, _, _, rfl⟩ | ⟨_, rfl⟩⟩ := exec_ends h <;> exact ⟨rfl, hcfg.symm, rfl⟩

/-- No address of either list of ranges fails, so none of both together (R186). -/
theorem failing_eq_nil_of_cover {s : State} {rs qs ps : List Range} (hr : failing s rs = []) (hq : failing s qs = [])
    (hcover : ps ⊆ rs ++ qs) : failing s ps = [] := by
  rw [List.eq_nil_iff_forall_not_mem] at hr hq ⊢
  intro a ha
  obtain ⟨hbus, hin⟩ := mem_failing.mp ha
  obtain ⟨r, hmem, hhas⟩ := List.any_eq_true.mp hin
  obtain hmem | hmem := List.mem_append.mp (hcover hmem)
  · exact hr a (mem_failing.mpr ⟨hbus, List.any_eq_true.mpr ⟨r, hmem, hhas⟩⟩)
  · exact hq a (mem_failing.mpr ⟨hbus, List.any_eq_true.mpr ⟨r, hmem, hhas⟩⟩)

/-- COMPRESS passes its upfront checks where ENCODE and SERIALIZE pass theirs on the same configuration (R182). -/
theorem upfront_compress {f : BitFmt} {s c d : State} (hc : c.cfg = s.cfg) (hd : d.cfg = s.cfg)
    (hencode : upfront (.encode f) c = none) (hserialize : upfront (.serialize f) d = none) :
    upfront (.compress f) s = none := by
  simp only [upfront, firstFailure_eq_none, upfrontChecks, hc, hd, List.forall_mem_cons] at hencode hserialize ⊢
  obtain ⟨-, hempty, hsrc, hdst, -⟩ := hencode
  obtain ⟨-, htout, hnil⟩ := hserialize
  exact ⟨hempty, hsrc, hdst, htout, hnil⟩

/-- DECOMPRESS passes its upfront checks where DESERIALIZE and DECODE pass theirs on the same configuration (R182). -/
theorem upfront_decompress {f : BitFmt} {s a : State} (ha : a.cfg = s.cfg)
    (hdeserialize : upfront (.deserialize f) s = none) (hdecode : upfront (.decode f) a = none) :
    upfront (.decompress f) s = none := by
  simp only [upfront, firstFailure_eq_none, upfrontChecks, ha, List.forall_mem_cons] at hdeserialize hdecode ⊢
  obtain ⟨hempty, htree, -⟩ := hdeserialize
  obtain ⟨-, hempty', hsrc, hdst, hnil⟩ := hdecode
  exact ⟨hempty', hempty, hsrc, htree, hdst, hnil⟩

theorem SameSetup.srcBytes {s t : State} (h : SameSetup s t) (hmem : t.mem = s.mem) : srcBytes t = srcBytes s := by
  simp only [Machine.srcBytes, h.cfg, hmem]

theorem SameSetup.decodeRun {s t : State} (h : SameSetup s t) (hmem : t.mem = s.mem) (tb : Tables) (f : BitFmt) :
    decodeRun tb f t = decodeRun tb f s := by
  simp only [Machine.decodeRun, h.cfg, hmem]

/-- COMPRESS's steps fit where the sequence's ENCODE and SERIALIZE succeed, and then leave what the sequence leaves
(R172). -/
theorem compress_eq_sequence {f : BitFmt} {s a b c d e : State} (hidle : s.engine = .idle)
    (hmeaning : noMeaning (.compress f) s = none)
    (hcount : exec (.count f) s = .next a) (hokA : a.regs.err = false)
    (hbuild : exec (.build f) a = .next b) (hokB : b.regs.err = false)
    (hgencode : exec (.gencode f) b = .next c) (hokC : c.regs.err = false)
    (hencode : exec (.encode f) c = .next d) (hokD : d.regs.err = false)
    (hserialize : exec (.serialize f) d = .next e) (hokE : e.regs.err = false) :
    ∃ t, exec (.compress f) s = .next t ∧ t.regs.err = false ∧ t.tabs = e.tabs ∧ t.mem = e.mem
      ∧ t.regs.dstLen = e.regs.dstLen ∧ t.regs.ratio = e.regs.ratio ∧ t.regs.toutLen = e.regs.toutLen := by
  have ha := sameSetup_of_exec hidle hcount
  have hb := ha.trans (sameSetup_of_exec ha.idle hbuild)
  have hc := hb.trans (sameSetup_of_exec hb.idle hgencode)
  have hd := hc.trans (sameSetup_of_exec hc.idle hencode)
  obtain rfl := count_succeeds hcount hokA
  obtain ⟨tb, hbuilt, rfl⟩ := build_succeeds hbuild hokB
  obtain ⟨ls, hwalk, rfl⟩ := gencode_succeeds hgencode hokC
  obtain ⟨⟨-, huEncode⟩, bits, hstream, hbus, hdEq⟩ := encode_succeeds hencode hokD
  obtain ⟨⟨-, huSerialize⟩, ls', hwalk', hbus', htext, rfl⟩ := serialize_succeeds hserialize hokE
  obtain rfl : ls' = ls := by
    subst hdEq
    exact Option.some.inj (hwalk'.symm.trans hwalk)
  have hready : Ready (.compress f) s := ⟨hmeaning, upfront_compress hc.cfg hd.cfg huEncode huSerialize⟩
  rw [hc.failing] at hbus
  rw [hd.failing] at hbus'
  rw [hc.srcBytes rfl] at hstream hbus
  rw [hc.cfg] at hstream hbus hdEq
  rw [hd.cfg] at hbus' htext ⊢
  have hfits : CompressFits f s (tb.coded ls') ls' bits :=
    ⟨hstream, htext, failing_eq_nil_of_cover hbus hbus' (List.Subset.refl _)⟩
  have hexec := exec_compress_of_steps hready hbuilt hwalk
  rw [hfits.compressEnd_eq] at hexec
  subst hdEq
  exact ⟨_, hexec, rfl, rfl, rfl, rfl, rfl, rfl⟩

/-- DECOMPRESS's steps end well where DESERIALIZE and then DECODE succeed, and then leave what they leave (R176). -/
theorem decompress_eq_sequence {f : BitFmt} {s a b : State} (hidle : s.engine = .idle)
    (hmeaning : noMeaning (.decompress f) s = none)
    (hdeserialize : exec (.deserialize f) s = .next a) (hokA : a.regs.err = false)
    (hdecode : exec (.decode f) a = .next b) (hokB : b.regs.err = false) :
    ∃ t, exec (.decompress f) s = .next t ∧ t.regs.err = false ∧ t.tabs = b.tabs ∧ t.mem = b.mem
      ∧ t.regs.dstLen = b.regs.dstLen := by
  have ha := sameSetup_of_exec hidle hdeserialize
  obtain ⟨⟨-, huDeserialize⟩, x, htext, hbus, rfl⟩ := deserialize_succeeds hdeserialize hokA
  obtain ⟨⟨-, huDecode⟩, hrun, hbus', rfl⟩ := decode_succeeds hdecode hokB
  rw [ha.failing] at hbus'
  rw [ha.decodeRun rfl] at hrun hbus' ⊢
  rw [ha.cfg] at hbus' ⊢
  have hexec := exec_decompress_succeeds ⟨hmeaning, upfront_decompress ha.cfg huDeserialize huDecode⟩ htext hrun
    (failing_eq_nil_of_cover hbus hbus' (by simp))
  exact ⟨_, hexec, rfl, rfl, rfl, rfl⟩

/-- Settles O47: a composite's steps fit where its components succeed one after another. The components run by `exec` on
an idle core, on its live registers (log 16). -/
theorem compositesEqualTheirSequences : Obligations.CompositesEqualTheirSequences :=
  ⟨fun _ _ _ _ _ _ _ => compress_eq_sequence, fun _ _ _ _ => decompress_eq_sequence⟩

end Sys2Proof.Machine
end

section
/-!
PROOF. The round trip (R173): a COMPRESS that succeeds leaves an acceptable text of its tree and the stream of a walk to
the Leaf of each byte, which DECOMPRESS decodes to these bytes.
-/
namespace Sys2Proof.Machine

/-! The Leaves a text's stream visits (R120, R125). -/

/-- The pairs of code and symbol of a text's bytes, in order. -/
def codedBytes (code : Table BitString 256) (bs : List Byte) : List (BitString × Byte) :=
  bs.map fun b => (code.read b.toNat, b)

theorem map_snd_codedBytes (code : Table BitString 256) (bs : List Byte) : (codedBytes code bs).map Prod.snd = bs := by
  simp [codedBytes, Function.comp_def]

theorem pathsOf_codedBytes (code : Table BitString 256) (bs : List Byte) :
    pathsOf (codedBytes code bs) = streamOf code bs := List.flatMap_map ..

section
variable {t tb : Tables} {ls : List (BitString × Byte)}

/-- The walk of the tree that BUILD makes is a list of acceptable lines (R147 to R149). -/
theorem acceptable_of_built (hbuilt : t.built = some tb) (hwalk : treeLeaves tb.node tb.root = some ls) :
    acceptable ls = true := by
  obtain ⟨hperm, hne, -⟩ := built_walk hbuilt hwalk
  obtain ⟨b, r, hbuild, rfl⟩ := built_eq_some hbuilt
  have hlen : ls.length = (leafNodes t.freq).length := by simpa using hperm.length_eq
  exact acceptable_built hbuild hwalk hlen fun l hl => List.length_pos_iff.mpr (hne l hl)

/-- Every byte of the counted text has a Leaf, and its code is that Leaf's path (R100, R110, R120). -/
theorem codedBytes_subset {bs : List Byte} (hlen : bs.length < 2 ^ 32) (hbuilt : (t.counted bs).built = some tb)
    (hwalk : treeLeaves tb.node tb.root = some ls) {x : BitString × Byte} (hx : x ∈ codedBytes (tb.coded ls).code bs) :
    x ∈ ls := by
  obtain ⟨b, hb, rfl⟩ := List.mem_map.mp hx
  obtain ⟨hperm, -, -⟩ := built_walk hbuilt hwalk
  obtain ⟨l, hl, rfl⟩ := List.mem_map.mp (hperm.mem_iff.mpr ((mem_sym_leafNodes_countBytes hlen).mpr hb))
  rwa [(textTables_of_steps hlen hbuilt hwalk).codes l hl]

end

/-! What a COMPRESS that succeeds leaves (R170). -/

/-- `t` holds what COMPRESS made of SRC of `s`: TOUT the text of the pairs `ls`, DST the stream that visits the Leaves
`xs` among them, whose symbols are the bytes of SRC. -/
structure Compressed (f : BitFmt) (s t : State) (ls xs : List (BitString × Byte)) : Prop where
  lines : acceptable ls = true
  visits : ∀ x ∈ xs, x ∈ ls
  symbols : xs.map Prod.snd = srcBytes s
  dstLen : t.regs.dstLen.toNat = (pathsOf xs).length
  dstFits : streamBytes f (pathsOf xs).length ≤ s.cfg.bufs.dstCap.toNat
  stream : readBits t.mem s.cfg.bufs.dstBase.toNat (pathsOf xs).length f = (pathsOf xs).map some
  toutLen : t.regs.toutLen.toNat = (treeText ls).length
  toutFits : (treeText ls).length ≤ s.cfg.bufs.toutCap.toNat
  text : readBytes t.mem s.cfg.bufs.toutBase.toNat (treeText ls).length = treeText ls

/-- The text written to TOUT leaves the stream in DST as it was (R86). -/
theorem readBits_dst_of_both {f : BitFmt} {s : State} (hmeaning : noMeaning (.compress f) s = none) {bits : BitString}
    (hcap : streamBytes f bits.length ≤ s.cfg.bufs.dstCap.toNat) {text : List Byte}
    (htext : text.length ≤ s.cfg.bufs.toutCap.toNat) (m : Memory) :
    readBits (writeBytes (writeBytes m (dstRange s.cfg).base (streamImage f bits)) (toutRange s.cfg).base text)
      s.cfg.bufs.dstBase.toNat bits.length f = bits.map some := by
  refine (readBits_congr fun j hj => read_writeBytes_of_has_false ?_).trans (readBits_streamImage ..)
  have hdst : (dstRange s.cfg).has (s.cfg.bufs.dstBase.toNat + j) = true :=
    Range.has_iff.mpr ⟨Nat.le_add_right .., Nat.add_lt_add_left (hj.trans_le hcap) _⟩
  exact Bool.eq_false_iff.mpr fun hin =>
    Bool.eq_false_iff.mp (dst_tout_disjoint hmeaning hdst) (has_of_has_shorter (w := toutRange s.cfg) htext hin)

theorem compress_succeeds {f : BitFmt} {s t : State} (h : exec (.compress f) s = .next t) (herr : t.regs.err = false) :
    Ready (.compress f) s ∧ ∃ ls xs, Compressed f s t ls xs := by
  obtain ⟨hready, -⟩ := ready_of_succeeds h herr
  obtain ⟨tb, ls, hbuilt, hwalk⟩ := compress_steps hready.2
  have hlen := length_srcBytes_lt s
  cases (exec_compress_of_steps hready hbuilt hwalk).symm.trans h
  obtain ⟨bits, hfits⟩ := compressFits_of_succeeds herr
  obtain ⟨hbits, hcap⟩ := fits_of_encodeRun_ok hfits.stream
  have htext := fits_of_textCheck hfits.text
  obtain rfl : pathsOf (codedBytes (tb.coded ls).code (srcBytes s)) = bits := by
    have hrun := hfits.stream
    simp only [encodeRun, encodeStream_eq_streamOf (textTables_of_steps hlen hbuilt hwalk).coded] at hrun
    rw [pathsOf_codedBytes]
    split at hrun <;> cases hrun
    rfl
  refine ⟨hready, ls, codedBytes (tb.coded ls).code (srcBytes s), ?_⟩
  rw [hfits.compressEnd_eq]
  exact {
    lines := acceptable_of_built hbuilt hwalk
    visits := fun x => codedBytes_subset hlen hbuilt hwalk
    symbols := map_snd_codedBytes ..
    dstLen := Nat.mod_eq_of_lt (by omega)
    dstFits := hcap
    stream := readBits_dst_of_both hready.1 hcap htext s.mem
    toutLen := toNat_ofNat_of_le_cap htext
    toutFits := htext
    text := readBytes_writeBytes .. }

/-! DECOMPRESS on these results (R173). -/

theorem Range.legal_of_shorter {r : Range} {n : Nat} (hn : n ≤ r.len) (h : r.legal = true) :
    Range.legal ⟨r.base, n⟩ = true := by
  simp only [Range.legal, decide_eq_true_eq] at h ⊢
  omega

/-- A stream of non-empty paths has a bit or more for each (R123). -/
theorem length_le_length_pathsOf {xs : List (BitString × Byte)} (h : ∀ x ∈ xs, 1 ≤ x.1.length) :
    xs.length ≤ (pathsOf xs).length := by
  induction xs with
  | nil => exact Nat.zero_le _
  | cons x xs ih =>
    obtain ⟨hx, hxs⟩ := List.forall_mem_cons.mp h
    have hcons : (pathsOf (x :: xs)).length = x.1.length + (pathsOf xs).length := List.length_append
    have hrest := ih hxs
    rw [hcons, List.length_cons]
    omega

section
variable {f : BitFmt} {s t : State} {ls xs : List (BitString × Byte)} (h : Compressed f s t ls xs)
include h

theorem Compressed.length_xs : xs.length = s.cfg.bufs.srcLen.toNat := by
  rw [← List.length_map (f := Prod.snd), h.symbols, length_srcBytes]

theorem Compressed.dstLen_pos (hsrc : 0 < s.cfg.bufs.srcLen.toNat) : 0 < t.regs.dstLen.toNat := by
  obtain ⟨-, hpaths, -, -⟩ := acceptable_iff.mp h.lines
  have hlen := length_le_length_pathsOf fun x hx => (hpaths x (h.visits x hx)).1
  rw [h.dstLen]
  exact (h.length_xs ▸ hsrc).trans_le hlen

theorem Compressed.toutLen_pos : 0 < t.regs.toutLen.toNat := by
  obtain ⟨hne, -, -, -⟩ := acceptable_iff.mp h.lines
  have hlen := length_treeText ls hne
  have hpos := List.length_pos_iff.mpr hne
  rw [h.toutLen]
  omega

end

/-- The results of COMPRESS pass the upfront checks of DECOMPRESS (R182). -/
theorem Compressed.upfront_decompress {f : BitFmt} {s t u : State} {ls xs : List (BitString × Byte)}
    (h : Compressed f s t ls xs) (hready : Ready (.compress f) s)
    (hsrcBase : u.cfg.bufs.srcBase = s.cfg.bufs.dstBase) (hsrcLen : u.cfg.bufs.srcLen = t.regs.dstLen)
    (htreeBase : u.cfg.bufs.treeBase = s.cfg.bufs.toutBase) (htreeLen : u.cfg.bufs.treeLen = t.regs.toutLen)
    (hdst : (dstRange u.cfg).legal = true) : upfront (.decompress f) u = none := by
  have hlegal : ∀ {b r}, rangeCheck b r ∈ upfrontChecks (.compress f) s → r.legal = true := fun hmem => by
    simpa [rangeCheck] using check_passed hready.2 hmem
  have hnonzero : ∀ {w : Word}, 0 < w.toNat → (w == 0) = false := fun hpos =>
    beq_eq_false_iff_ne.mpr fun hzero => Nat.ne_of_gt hpos (congrArg BitVec.toNat hzero)
  have hstream : (srcStream f u.cfg).legal = true := by
    rw [srcStream, hsrcBase, hsrcLen, h.dstLen]
    exact Range.legal_of_shorter (r := dstRange s.cfg) h.dstFits (hlegal (b := .dst) (by simp [upfrontChecks]))
  have htree : (treeRange u.cfg).legal = true := by
    rw [treeRange, htreeBase, htreeLen, h.toutLen]
    exact Range.legal_of_shorter (r := toutRange s.cfg) h.toutFits (hlegal (b := .tout) (by simp [upfrontChecks]))
  have hsrc : 0 < s.cfg.bufs.srcLen.toNat := srcLen_pos_of_upfront hready.2 (by simp [upfrontChecks])
  simp only [upfront, upfrontChecks, emptyCheck, rangeCheck, firstFailure_cons, firstFailure_nil, hsrcLen, htreeLen,
    hnonzero (h.dstLen_pos hsrc), hnonzero h.toutLen_pos, hstream, htree, hdst]
  rfl

/-- Settles O49: DECOMPRESS finds an acceptable text and a stream that visits the Leaves of the text's bytes, and so
decodes them (R174). -/
theorem decompressInvertsCompress : Obligations.DecompressInvertsCompress := by
  intro f s t u hexec herr hmem hsrcBase hsrcLen htreeBase htreeLen hroom hdst hmeaning hquiet
  obtain ⟨hready, ls, xs, h⟩ := compress_succeeds hexec herr
  have hupfront : upfront (.decompress f) u = none :=
    h.upfront_decompress hready hsrcBase hsrcLen htreeBase htreeLen (decide_eq_true (.inr hdst))
  have htext : treeBytes u = treeText ls := by
    rw [treeBytes, treeRange, hmem, htreeBase, htreeLen, h.toutLen, h.text]
  have hbits : srcBits f u = (pathsOf xs).map some := by
    rw [srcBits, hmem, hsrcBase, hsrcLen, h.dstLen, h.stream]
  obtain ⟨v, -, hv, hwell, hlen, -, -, hbytes, -⟩ := decompressDecodesTheText.1 f u ls xs ⟨hmeaning, hupfront⟩ hquiet
    h.lines htext h.visits hbits (h.length_xs.trans_le hroom)
  obtain ⟨-, -, -, -, herr', -⟩ := hwell
  rw [h.length_xs] at hlen hbytes
  exact ⟨v, hv, herr', BitVec.eq_of_toNat_eq hlen, hbytes.trans h.symbols⟩

end Sys2Proof.Machine
end

section
/-!
PROOF. What every completion leaves, whatever the command (R184, R189, R190), and the interrupt registers (R192, R193).
-/
namespace Sys2Proof.Machine

section
variable {i : Instr} {s t : State} (h : exec i s = .next t)
include h

/-- A command that ends with no error has ended as R189 says. -/
theorem endsWell_of_exec (herr : t.regs.err = false) : EndsWell s t := by
  obtain ⟨tb, -, ⟨d, o, q, m, rfl⟩ | ⟨e, rfl⟩⟩ := exec_ends h
  · exact endsWell_complete s tb d o q m
  · cases herr

/-- A command that ends with an error has ended as R190 says. -/
theorem raiseFor_of_exec (herr : t.regs.err = true) : ∃ e tb, t = raiseFor i e { s with tabs := tb } := by
  obtain ⟨tb, -, ⟨_, _, _, _, rfl⟩ | ⟨e, rfl⟩⟩ := exec_ends h
  · cases herr
  · exact ⟨e, tb, rfl⟩

end

/-- Settles O13: a completion is R189's or R190's, both of which set the pending bits and neither of which is a write of
a mask; the two writes are `writeReg`'s. -/
theorem interruptLineAndAcknowledge : Obligations.InterruptLineAndAcknowledge := by
  refine ⟨fun s => ?_, rfl, fun i s t h => ?_, fun _ _ _ hev => step_regWrite hev, fun _ _ _ hev => step_regWrite hev⟩
  · simp only [irqLine, Bool.or_eq_true, Bool.and_eq_true]
  · cases herr : t.regs.err with
    | false =>
      obtain ⟨-, -, -, ⟨-, -, hdoneIe, herrIe, -⟩, -, -, -, hdoneIp, -⟩ := endsWell_of_exec h herr
      exact ⟨hdoneIp, nofun, hdoneIe, herrIe⟩
    | true =>
      obtain ⟨e, tb, rfl⟩ := raiseFor_of_exec h herr
      exact ⟨rfl, fun _ => rfl, rfl, rfl⟩

/-- Settles O14: a completion with no error is R189's. -/
theorem successfulCompletion : Obligations.SuccessfulCompletion :=
  fun _ _ _ => endsWell_of_exec

/-- Settles O15: a completion with an error is R190's, which clears the result registers of `resultsOf`. -/
theorem errorsReportNoOutput : Obligations.ErrorsReportNoOutput := by
  intro i s t h herr
  obtain ⟨e, tb, rfl⟩ := raiseFor_of_exec h herr
  refine ⟨⟨_, _, e.code.num_ne_zero, endsInError_raiseFor i e s tb⟩, ?_⟩
  cases i <;> exact ⟨rfl, rfl, rfl⟩

end Sys2Proof.Machine
end

section
/-!
PROOF. The upfront checks in their order (R182): the first that fails is the error a command with a meaning ends with.
-/
namespace Sys2Proof.Machine

/-- A range is not empty and runs past the top of memory (R72). -/
def Range.Wraps (r : Range) : Prop := r.len ≠ 0 ∧ 2 ^ 32 < r.base + r.len

theorem Range.legal_iff {r : Range} : r.legal = true ↔ ¬ r.Wraps := by
  rw [Range.legal, decide_eq_true_eq, Range.Wraps, Config.memSize]
  omega

/-- A bit stream that runs past the top of memory has bits (R71, R72). -/
theorem srcLen_ne_zero_of_wraps {f : BitFmt} {c : LaunchCopy} (h : (srcStream f c).Wraps) : c.bufs.srcLen ≠ 0 := by
  intro hzero
  refine h.1 ?_
  simp only [srcStream, hzero]
  cases f <;> rfl

/-! The first check of a list fails, or it passes and leaves the error to the others (R72, R181). -/

section
variable {cs : List (Bool × Err)} {e : Err}

theorem range_fails {b : BufId} {r : Range} (h : r.Wraps) :
    firstFailure (rangeCheck b r :: cs) = some ⟨.range, b.num⟩ := by
  simp [rangeCheck, mt Range.legal_iff.mp (not_not_intro h)]

theorem range_passes {b : BufId} {r : Range} (h : ¬ r.Wraps) (hcs : firstFailure cs = some e) :
    firstFailure (rangeCheck b r :: cs) = some e := by
  simp [rangeCheck, Range.legal_iff.mpr h, hcs]

theorem sequence_fails {valid : Bool} {x : Word} (h : valid = false) :
    firstFailure (sequenceCheck valid x :: cs) = some ⟨.sequence, x⟩ := by
  simp [sequenceCheck, h]

theorem sequence_passes {valid : Bool} {x : Word} (h : valid = true) (hcs : firstFailure cs = some e) :
    firstFailure (sequenceCheck valid x :: cs) = some e := by
  simp [sequenceCheck, h, hcs]

theorem empty_fails {n : Nat} {len : BitVec n} {x : Word} (h : len = 0) :
    firstFailure (emptyCheck (len == 0) x :: cs) = some ⟨.empty, x⟩ := by
  simp [emptyCheck, h]

theorem empty_passes {n : Nat} {len : BitVec n} {x : Word} (h : len ≠ 0) (hcs : firstFailure cs = some e) :
    firstFailure (emptyCheck (len == 0) x :: cs) = some e := by
  rw [emptyCheck, beq_eq_false_iff_ne.mpr h]
  exact hcs

end

/-- A command with a meaning whose upfront checks find an error ends with it, the internal state and memory outside its
write ranges as before (R182, R190). -/
theorem exec_upfront_error {i : Instr} {s : State} {e : Err} (hu : upfront i s = some e) (hn : noMeaning i s = none) :
    ∃ t, exec i s = .next t ∧ EndsInError e.code.num e.info s t ∧ t.tabs = s.tabs
      ∧ MemSameOutside (writeRanges i s.cfg) s t := by
  have hexec : exec i s = .next (raiseFor i e s) := (exec_eq_checked i s).trans (checked_upfront _ hn hu)
  exact ⟨_, hexec, endsInError_raiseFor i e s s.tabs, rfl, (writesWithin_raiseFor i e s s.tabs).1⟩

/-- Settles O18: in each clause the checks before the one named pass, and that one fails. A buffer that runs past the
top of memory is not empty. -/
theorem upfrontChecksInOrder : Obligations.UpfrontChecksInOrder := by
  intro f s fails b bad badSrc badBits badTree badDst badTout
  have ends : ∀ {i : Instr} (e : Err), upfront i s = some e → fails i e.code.num e.info :=
    fun _ hu hn => exec_upfront_error hu hn
  have hbits : badBits = (srcStream f s.cfg).Wraps := by cases f <;> rfl
  have hsrc : badSrc → b.srcLen ≠ 0 := fun h hzero => h.1 (congrArg BitVec.toNat hzero)
  have htree : badTree → b.treeLen ≠ 0 := fun h hzero => h.1 (congrArg BitVec.toNat hzero)
  rw [hbits]
  refine ⟨
    -- COUNT
    fun h => ends ⟨.range, 0⟩ (range_fails h),
    -- BUILD
    fun hv => ends ⟨.sequence, 0⟩ (sequence_fails hv),
    fun hv hn => ends ⟨.empty, 0⟩ (sequence_passes hv (empty_fails hn)),
    -- GENCODE
    fun hv => ends ⟨.sequence, 1⟩ (sequence_fails hv),
    -- ENCODE
    fun hv => ends ⟨.sequence, 2⟩ (sequence_fails hv),
    fun hv h0 => ends ⟨.empty, 0⟩ (sequence_passes hv (empty_fails h0)),
    fun hv hs => ends ⟨.range, 0⟩ (sequence_passes hv (empty_passes (hsrc hs) (range_fails hs))),
    fun hv h0 hs hd => ends ⟨.range, 2⟩
      (sequence_passes hv (empty_passes h0 (range_passes hs (range_fails hd)))),
    -- SERIALIZE
    fun hv => ends ⟨.sequence, 1⟩ (sequence_fails hv),
    fun hv ho => ends ⟨.range, 3⟩ (sequence_passes hv (range_fails ho)),
    -- DESERIALIZE
    fun h0 => ends ⟨.empty, 1⟩ (empty_fails h0),
    fun ht => ends ⟨.range, 1⟩ (empty_passes (htree ht) (range_fails ht)),
    -- DECODE
    fun hv => ends ⟨.sequence, 1⟩ (sequence_fails hv),
    fun hv h0 => ends ⟨.empty, 0⟩ (sequence_passes hv (empty_fails h0)),
    fun hv hs => ends ⟨.range, 0⟩ (sequence_passes hv (empty_passes (srcLen_ne_zero_of_wraps hs) (range_fails hs))),
    fun hv h0 hs hd => ends ⟨.range, 2⟩
      (sequence_passes hv (empty_passes h0 (range_passes hs (range_fails hd)))),
    -- COMPRESS
    fun h0 => ends ⟨.empty, 0⟩ (empty_fails h0),
    fun hs => ends ⟨.range, 0⟩ (empty_passes (hsrc hs) (range_fails hs)),
    fun h0 hs hd => ends ⟨.range, 2⟩ (empty_passes h0 (range_passes hs (range_fails hd))),
    fun h0 hs hd ho => ends ⟨.range, 3⟩ (empty_passes h0 (range_passes hs (range_passes hd (range_fails ho)))),
    -- DECOMPRESS
    fun h0 => ends ⟨.empty, 0⟩ (empty_fails h0),
    fun h0 h0' => ends ⟨.empty, 1⟩ (empty_passes h0 (empty_fails h0')),
    fun h0' hs => ends ⟨.range, 0⟩ (empty_passes (srcLen_ne_zero_of_wraps hs) (empty_passes h0' (range_fails hs))),
    fun h0 hs ht => ends ⟨.range, 1⟩
      (empty_passes h0 (empty_passes (htree ht) (range_passes hs (range_fails ht)))),
    fun h0 h0' hs ht hd => ends ⟨.range, 2⟩
      (empty_passes h0 (empty_passes h0' (range_passes hs (range_passes ht (range_fails hd)))))⟩

end Sys2Proof.Machine
end

section
/-!
PROOF. Bus errors (R186): no check of a command's own is `E_BUS`, so an `E_BUS` is at a failing address among those its
data phase accesses, which are in its ranges; and a success has met none.
-/
namespace Sys2Proof.Machine

/-! The data-check errors are no bus errors (R180). -/

theorem code_ne_bus_of_upfrontChecks (i : Instr) (s : State) : ∀ c ∈ upfrontChecks i s, c.2.code ≠ .bus := by
  cases i <;> simp [upfrontChecks, sequenceCheck, emptyCheck, rangeCheck]

theorem code_ne_bus_of_upfront {i : Instr} {s : State} {e : Err} (h : upfront i s = some e) : e.code ≠ .bus := by
  obtain ⟨c, hc, rfl⟩ := List.mem_map.mp (firstFailure_mem h)
  exact code_ne_bus_of_upfrontChecks i s c hc

theorem errOf_eq_some {α : Type} {r : Except Err α} {e : Err} (h : errOf r = some e) : r = .error e := by
  cases r <;> cases h
  rfl

theorem code_ne_bus_of_encodeRun {code : Table BitString 256} {bs : List Byte} {f : BitFmt} {cap : Nat} {e : Err}
    (h : (encodeRun code bs f cap).result = .error e) : e.code ≠ .bus := by
  simp only [encodeRun] at h
  split at h
  · cases h
    nofun
  · split at h <;> cases h
    nofun

theorem code_ne_bus_of_textCheck {text : List Byte} {cap : Nat} {e : Err} (h : textCheck text cap = some e) :
    e.code ≠ .bus := by
  rw [code_of_textCheck h]
  nofun

theorem code_ne_bus_of_compressErr {code : Table BitString 256} {bs : List Byte} {f : BitFmt} {cap cap' : Nat}
    {text : List Byte} {e : Err} (h : compressErr (encodeRun code bs f cap) text cap' = some e) : e.code ≠ .bus := by
  unfold compressErr at h
  split at h
  next hrun =>
    cases h
    exact code_ne_bus_of_encodeRun hrun
  next => exact code_ne_bus_of_textCheck h

theorem code_ne_bus_of_insertFrom {sym : Byte} {p : BitString} {k : NodeIdx} {t : Trie} {c : ErrCode}
    (h : insertFrom sym p k t = .error c) : c ≠ .bus := by
  induction p generalizing k t with
  | nil =>
    cases h
    nofun
  | cons b p ih =>
    cases p with
    | nil =>
      simp only [insertFrom] at h
      split at h
      · cases h
        nofun
      split at h
      · cases h
        nofun
      split at h <;> cases h
      nofun
    | cons b' p =>
      simp only [insertFrom] at h
      split at h
      · cases h
        nofun
      split at h
      · split at h
        · cases h
          nofun
        · exact ih h
      · exact ih h

theorem code_ne_bus_of_insertLine {t : Trie} {p : BitString} {sym : Byte} {c : ErrCode}
    (h : insertLine t p sym = .error c) : c ≠ .bus := by
  unfold insertLine at h
  split at h
  · cases h
    nofun
  split at h
  · cases h
    nofun
  · exact code_ne_bus_of_insertFrom h

theorem code_ne_bus_of_deserializeLines {fuel : Nat} {text : List Byte} {line : Nat} {t : Trie} {e : Err}
    (h : deserializeLines fuel text line t = .error e) : e.code ≠ .bus := by
  induction fuel generalizing text line t with
  | zero =>
    cases h
    nofun
  | succ fuel ih =>
    simp only [deserializeLines] at h
    split at h
    · cases h
      nofun
    split at h
    next hline =>
      cases h
      exact code_ne_bus_of_insertLine hline
    next =>
      split at h
      · cases h
      · exact ih h

/-! Ranges of the data phases, each within one of the command's (R71, R186). -/

/-- `r` is the first bytes of `q`. -/
structure Range.Within (r q : Range) : Prop where
  base : r.base = q.base
  len : r.len ≤ q.len

theorem Range.Within.refl (r : Range) : r.Within r := ⟨rfl, Nat.le_refl _⟩

theorem Range.first_within (r : Range) (n : Nat) : (r.first n).Within r := ⟨rfl, Nat.min_le_left ..⟩

/-- The bytes of a result that fits lie in the part of the write range that the data phase accesses. -/
theorem Range.result_within {r : Range} {n m : Nat} (hcap : n ≤ r.len) (hm : n ≤ m) :
    Range.Within ⟨r.base, n⟩ (r.first m) := ⟨rfl, Nat.le_min.mpr ⟨hcap, hm⟩⟩

/-- Ranges within others, one by one: so are their addresses. -/
theorem inRanges_of_within {rs qs : List Range} (h : List.Forall₂ Range.Within rs qs) {a : Nat}
    (ha : inRanges rs a = true) : inRanges qs a = true := by
  induction h with
  | nil => exact ha
  | @cons r q rs qs hrq _ ih =>
    obtain ⟨hbase, hlen⟩ := hrq
    refine inRanges_cons.mpr ((inRanges_cons.mp ha).imp (fun hr => ?_) ih)
    rw [Range.has_iff] at hr ⊢
    omega

/-! What R186 says of an ending. -/

/-- `E_BUS` of the ending `t` is at a failing address of the command's ranges, and a success has met none among the
bytes read and written (R186). -/
structure BusKept (i : Instr) (s t : State) : Prop where
  named : t.regs.errcode = 12 → ∃ a ∈ failing s (readRanges i s.cfg ++ writeRanges i s.cfg),
    t.regs.errinfo = BitVec.ofNat 32 a
  avoided : t.regs.err = false → failing s (readRanges i s.cfg ++ writtenRanges i s.cfg t.regs) = []

section
variable {i : Instr} {s t : State} {e : Err} (tb : Tables) {rs : List Range} {d : Option Err}

/-- An error of the command's own is no bus error. -/
theorem busKept_of_ne_bus (h : e.code ≠ .bus) : BusKept i s (raiseFor i e { s with tabs := tb }) :=
  ⟨fun hcode => absurd (ErrCode.num_eq_bus.mp hcode) h, nofun⟩

/-- The error of a data phase is its own, or is at a failing address of the command's ranges. -/
theorem busKept_of_outcome (ho : outcomeOf s rs d = some e) (hd : ∀ e, d = some e → e.code ≠ .bus)
    (hin : List.Forall₂ Range.Within rs (readRanges i s.cfg ++ writeRanges i s.cfg)) :
    BusKept i s (raiseFor i e { s with tabs := tb }) := by
  have hown : d = some e → BusKept i s (raiseFor i e { s with tabs := tb }) :=
    fun he => busKept_of_ne_bus tb (hd e he)
  obtain ⟨-, hc⟩ | ⟨-, -, hc⟩ | ⟨a, ha, hc⟩ := outcomeOf_cases s rs d
  · exact hown (hc.symm.trans ho)
  · exact hown (hc.symm.trans ho)
  · cases hc.symm.trans ho
    obtain ⟨hbus, hrs⟩ := mem_failing.mp ha
    exact ⟨fun _ => ⟨a, mem_failing.mpr ⟨hbus, inRanges_of_within hin hrs⟩, rfl⟩, nofun⟩

/-- A data phase that ends well has met no failing address where it reads and writes. -/
theorem busKept_of_success (herrcode : t.regs.errcode = 0) (ho : outcomeOf s rs d = none)
    (hin : List.Forall₂ Range.Within (readRanges i s.cfg ++ writtenRanges i s.cfg t.regs) rs) : BusKept i s t :=
  ⟨fun hcode => absurd (herrcode.symm.trans hcode) (by decide),
    fun _ => failing_eq_nil_of_imp (outcomeOf_eq_none.mp ho).1 fun _ => inRanges_of_within hin⟩

end

theorem outcomeOf_no_ranges (s : State) : outcomeOf s [] none = none :=
  outcomeOf_eq_none.mpr ⟨failing_eq_nil_iff.mpr fun _ _ => rfl, rfl⟩

/-! The results of the data phases (R125, R140, R160). -/

theorem extent_of_encodeRun_ok {code : Table BitString 256} {bs : List Byte} {f : BitFmt} {cap : Nat} {t : BitString}
    (h : (encodeRun code bs f cap).result = .ok t) : (encodeRun code bs f cap).extent = streamBytes f t.length := by
  simp only [encodeRun] at h ⊢
  split at h
  · cases h
  · split at h <;> cases h
    rw [if_neg ‹_›]

/-- The stream of an encode step that ends well, as its register counts it, lies in the bytes of DST accessed. -/
theorem stream_within {code : Table BitString 256} {bs : List Byte} {f : BitFmt} {c : LaunchCopy} {bits : BitString}
    (h : (encodeRun code bs f c.bufs.dstCap.toNat).result = .ok bits) :
    Range.Within ⟨c.bufs.dstBase.toNat, streamBytes f (BitVec.ofNat 32 bits.length).toNat⟩
      ((dstRange c).first (encodeRun code bs f c.bufs.dstCap.toNat).extent) := by
  have hle : streamBytes f (BitVec.ofNat 32 bits.length).toNat ≤ streamBytes f bits.length :=
    streamBytes_mono f (Nat.mod_le ..)
  rw [extent_of_encodeRun_ok h]
  exact Range.result_within (r := dstRange c) (hle.trans (fits_of_encodeRun_ok h).2) hle

/-- The text of a serialize step that ends well lies in the bytes of TOUT accessed. -/
theorem text_within {text : List Byte} {c : LaunchCopy} (h : textCheck text c.bufs.toutCap.toNat = none) :
    Range.Within ⟨c.bufs.toutBase.toNat, (BitVec.ofNat 32 text.length).toNat⟩ ((toutRange c).first text.length) :=
  Range.result_within (r := toutRange c) ((Nat.mod_le ..).trans (fits_of_textCheck h)) (Nat.mod_le ..)

/-- The bytes decoded lie in the bytes of DST accessed. -/
theorem decoded_within (tb : Tables) (f : BitFmt) (s : State) :
    Range.Within ⟨s.cfg.bufs.dstBase.toNat, (BitVec.ofNat 32 (decodeRun tb f s).out.length).toNat⟩
      ((dstRange s.cfg).first (decodeRun tb f s).extent) :=
  Range.result_within (r := dstRange s.cfg) ((Nat.mod_le ..).trans (length_decodeRun_out_le tb f s))
    ((Nat.mod_le ..).trans (Nat.le_add_right ..))

/-! The commands. -/

section
variable {f : BitFmt} {s t : State}

theorem countBody_busKept (h : countBody (.count f) s = .next t) : BusKept (.count f) s t := by
  unfold countBody at h
  split at h <;> cases h
  next hout => exact busKept_of_outcome _ hout nofun (.cons (.refl _) .nil)
  next hout => exact busKept_of_success rfl hout (.cons (.refl _) .nil)

theorem encodeBody_busKept (h : encodeBody (.encode f) s = .next t) : BusKept (.encode f) s t := by
  simp only [encodeBody] at h
  split at h <;> cases h
  next hout hrun => exact busKept_of_success rfl hout (.cons (.refl _) (.cons (stream_within hrun) .nil))
  next hout =>
    exact busKept_of_outcome s.tabs hout (fun _ he => code_ne_bus_of_encodeRun (errOf_eq_some he))
      (.cons (.refl _) (.cons (Range.first_within ..) .nil))
  next hrun => exact busKept_of_ne_bus s.tabs (code_ne_bus_of_encodeRun hrun)

theorem serializeBody_busKept (h : serializeBody (.serialize f) s = .next t) : BusKept (.serialize f) s t := by
  unfold serializeBody at h
  split at h
  · cases h
  split at h <;> cases h
  next hout =>
    exact busKept_of_outcome s.tabs hout (fun _ => code_ne_bus_of_textCheck) (.cons (Range.first_within ..) .nil)
  next hout => exact busKept_of_success rfl hout (.cons (text_within (outcomeOf_eq_none.mp hout).2) .nil)

theorem deserializeBody_busKept (h : deserializeBody (.deserialize f) s = .next t) : BusKept (.deserialize f) s t := by
  simp only [deserializeBody] at h
  split at h <;> cases h
  next hout _ => exact busKept_of_success rfl hout (.cons (.refl _) .nil)
  next hout =>
    exact busKept_of_outcome _ hout (fun _ he => code_ne_bus_of_deserializeLines (errOf_eq_some he))
      (.cons (.refl _) .nil)
  next hrun => exact busKept_of_ne_bus _ (code_ne_bus_of_deserializeLines hrun)

theorem decodeBody_busKept (h : decodeBody (.decode f) s = .next t) : BusKept (.decode f) s t := by
  simp only [decodeBody] at h
  split at h <;> cases h
  next hout =>
    exact busKept_of_outcome s.tabs hout (fun _ => code_of_decodeBits)
      (.cons (.refl _) (.cons (Range.first_within ..) .nil))
  next hout => exact busKept_of_success rfl hout (.cons (.refl _) (.cons (decoded_within ..) .nil))

/-- COMPRESS ends with its encode and serialize steps over SRC, DST and TOUT (R170). -/
theorem compressEnd_busKept (f : BitFmt) (s : State) (tb : Tables) (ls : List (BitString × Byte)) :
    BusKept (.compress f) s (compressEnd (.compress f) s tb ls) := by
  simp only [compressEnd]
  split
  next hout hrun =>
    have htext := (outcomeOf_eq_none.mp hout).2
    rw [compressErr, hrun] at htext
    exact busKept_of_success rfl hout (.cons (.refl _) (.cons (stream_within hrun) (.cons (text_within htext) .nil)))
  next hout =>
    have hkept := fun tb => busKept_of_outcome (i := .compress f) tb hout (fun _ => code_ne_bus_of_compressErr)
      (.cons (.refl _) (.cons (Range.first_within ..) (.cons (Range.first_within ..) .nil)))
    split <;> exact hkept _
  next hrun => exact busKept_of_ne_bus tb (code_ne_bus_of_encodeRun hrun)

/-- DECOMPRESS ends with its data phase over SRC, TREE and DST, on a text refused or accepted (R174). -/
theorem decompressBody_busKept (h : decompressBody (.decompress f) s = .next t) : BusKept (.decompress f) s t := by
  unfold decompressBody at h
  split at h <;> cases h
  next hrun =>
    have hcode := code_ne_bus_of_deserializeLines hrun
    unfold decompressLost
    split
    next hout =>
      exact busKept_of_outcome _ hout (fun _ he => Option.some.inj he ▸ hcode)
        (.cons (.refl _) (.cons (.refl _) (.cons (Range.first_within ..) .nil)))
    next => exact busKept_of_ne_bus _ hcode
  next =>
    simp only [decompressEnd]
    split
    next hout =>
      have hkept := fun tb => busKept_of_outcome (i := .decompress f) tb hout (fun _ => code_of_decodeBits)
        (.cons (.refl _) (.cons (.refl _) (.cons (Range.first_within ..) .nil)))
      split <;> exact hkept _
    next hout => exact busKept_of_success rfl hout (.cons (.refl _) (.cons (.refl _) (.cons (decoded_within ..) .nil)))

end

/-- What each command does past its checks keeps R186. -/
theorem bodyOf_busKept {i : Instr} {s t : State} (h : bodyOf i s = .next t) : BusKept i s t := by
  cases i with
  | count f => exact countBody_busKept h
  | build f =>
    simp only [bodyOf, buildBody] at h
    split at h <;> cases h
    exact busKept_of_success rfl (outcomeOf_no_ranges s) .nil
  | gencode f =>
    simp only [bodyOf, gencodeBody] at h
    split at h <;> cases h
    exact busKept_of_success rfl (outcomeOf_no_ranges s) .nil
  | encode f => exact encodeBody_busKept h
  | serialize f => exact serializeBody_busKept h
  | deserialize f => exact deserializeBody_busKept h
  | decode f => exact decodeBody_busKept h
  | compress f =>
    simp only [bodyOf, compressBody] at h
    split at h
    · cases h
    split at h <;> cases h
    exact compressEnd_busKept ..
  | decompress f => exact decompressBody_busKept h

theorem exec_busKept {i : Instr} {s t : State} (h : exec i s = .next t) : BusKept i s t := by
  rw [exec_eq_checked] at h
  obtain ⟨_, -, hc⟩ | ⟨e, -, hu, hc⟩ | ⟨-, -, hc⟩ := checked_cases i s (bodyOf i s)
  · cases hc.symm.trans h
  · cases hc.symm.trans h
    exact busKept_of_ne_bus s.tabs (code_ne_bus_of_upfront hu)
  · exact bodyOf_busKept (hc.symm.trans h)

/-- Settles O17: every ending keeps R186; one with no error has met no failing address, least of all where it reads. -/
theorem busErrorsNameAFailingAddress : Obligations.BusErrorsNameAFailingAddress := by
  intro i s t h
  obtain ⟨hnamed, havoided⟩ := exec_busKept h
  refine ⟨hnamed, fun _ hfail => Bool.eq_true_of_not_eq_false fun herr => hfail ?_, havoided⟩
  exact failing_eq_nil_of_imp (havoided herr) fun _ => inRanges_mono (List.subset_append_left ..)

end Sys2Proof.Machine
end

section
/-!
PROOF. The soft reset (R211), which does what the platform's reset does, and the state after reset (R210).
-/
namespace Sys2Proof.Machine

/-- A write of `CTRL` with bit 0 = 0 has no effect (R211). -/
theorem step_ctrl_clear {s : State} {v : Word} {es : List Event}
    (hev : s.events = .regWrite (accessTo s.platform.regBase .ctrl) v :: es) (hv : v.getLsbD 0 = false) :
    step s = .next { s with events := es } :=
  (step_regWrite hev).trans (if_neg (Bool.eq_false_iff.mp hv))

/-- A write of `CTRL` with bit 0 = 1 has the effect of the platform's reset at once (R210, R211). -/
theorem step_ctrl_set {s : State} {v : Word} {es : List Event}
    (hev : s.events = .regWrite (accessTo s.platform.regBase .ctrl) v :: es) (hv : v.getLsbD 0 = true) :
    step s = step { s with events := .hwReset :: es } :=
  (step_regWrite hev).trans (if_pos hv)

/-- Settles O21: the write with bit 0 = 1 steps as the platform's reset, of which `resetLeavesTheResetValues` says
what it leaves; the other write only uses up the event. -/
theorem softResetAbandonsTheCommand : Obligations.SoftResetAbandonsTheCommand := by
  refine fun s v es hev => ⟨step_ctrl_clear hev, fun hv hmeaning => ?_⟩
  rw [step_ctrl_set hev hv]
  obtain ⟨t, hstep, hidle, hwork, hevents, hplatform, hseen, -, hrest⟩ :=
    resetLeavesTheResetValues.2 { s with events := .hwReset :: es } es rfl hmeaning
  exact ⟨t, hstep, hidle, hwork, hevents, hplatform, hseen, hrest⟩

/-- Settles O54: no structure is valid, the codes are those any reset leaves, and memory and registers compute. -/
theorem resetMeetsTheInvariant : Obligations.ResetMeetsTheInvariant :=
  inv_iff.mpr ⟨rfl, rfl, freqOk_of_invalid rfl,
    codeOk_of_code_eq (t := (resetCore [] State.reset).tabs) rfl (codeOk_resetCore ..),
    storeOk_of_invalid rfl, treeOk_of_invalid rfl⟩

end Sys2Proof.Machine
end

section
/-!
PROOF. The invariant's memory part (R71, R72, R74; log 1): every byte a step writes lies below the top of memory, a result
within a range the checks found legal.
-/
namespace Sys2Proof.Machine

/-! Results in legal ranges (R72). -/

theorem legal_of_upfront {i : Instr} {s : State} {b : BufId} {r : Range} (h : upfront i s = none)
    (hc : rangeCheck b r ∈ upfrontChecks i s) : r.legal = true := by
  simpa [rangeCheck] using check_passed h hc

/-- A result within a legal range keeps the canonical form (R72, R74). -/
theorem wf_writeBytes_within {m : Memory} {r : Range} {bs : List Byte} (hlegal : r.legal = true)
    (hlen : bs.length ≤ r.len) (hm : m.wf = true) : (writeBytes m r.base bs).wf = true :=
  wf_writeBytes bs r.base (of_decide_eq_true (Range.legal_of_shorter hlen hlegal)) hm

/-! The commands (R189, R190). -/

/-- DECOMPRESS that succeeds has written what the decode step found over some tables (R174). -/
theorem decompress_succeeds {f : BitFmt} {s t : State} (h : exec (.decompress f) s = .next t)
    (herr : t.regs.err = false) :
    Ready (.decompress f) s ∧ ∃ tb, t.mem = writeBytes s.mem (dstRange s.cfg).base (decodeRun tb f s).out := by
  obtain ⟨hready, hbody⟩ := ready_of_succeeds h herr
  refine ⟨hready, ?_⟩
  simp only [bodyOf, decompressBody] at hbody
  split at hbody <;> cases hbody
  · unfold decompressLost at herr
    split at herr <;> cases herr
  next x _ =>
    simp only [decompressEnd, Instr.fmt] at herr ⊢
    split at herr
    · split at herr <;> cases herr
    · exact ⟨_, rfl⟩

/-- A success keeps memory canonical: each result fits its range, which is legal (R72, R125, R140, R160, R170). -/
theorem wf_of_succeeds {i : Instr} {s t : State} (hs : s.mem.wf = true) (h : exec i s = .next t)
    (herr : t.regs.err = false) : t.mem.wf = true := by
  cases i with
  | count f =>
    obtain rfl := count_succeeds h herr
    exact hs
  | build f =>
    obtain ⟨tb, -, rfl⟩ := build_succeeds h herr
    exact hs
  | gencode f =>
    obtain ⟨ls, -, rfl⟩ := gencode_succeeds h herr
    exact hs
  | encode f =>
    obtain ⟨⟨-, hu⟩, bits, hrun, -, rfl⟩ := encode_succeeds h herr
    have hfits := (length_streamImage f bits).trans_le (fits_of_encodeRun_ok hrun).2
    exact wf_writeBytes_within (legal_of_upfront (b := .dst) hu (by simp [upfrontChecks])) hfits hs
  | serialize f =>
    obtain ⟨⟨-, hu⟩, ls, -, -, htext, rfl⟩ := serialize_succeeds h herr
    exact wf_writeBytes_within (legal_of_upfront (b := .tout) hu (by simp [upfrontChecks])) (fits_of_textCheck htext) hs
  | deserialize f =>
    obtain ⟨-, x, -, -, rfl⟩ := deserialize_succeeds h herr
    exact hs
  | decode f =>
    obtain ⟨⟨-, hu⟩, -, -, rfl⟩ := decode_succeeds h herr
    exact wf_writeBytes_within (legal_of_upfront (b := .dst) hu (by simp [upfrontChecks])) (length_decodeRun_out_le ..) hs
  | compress f =>
    obtain ⟨hready, -⟩ := ready_of_succeeds h herr
    obtain ⟨tb, ls, hbuilt, hwalk⟩ := compress_steps hready.2
    cases (exec_compress_of_steps hready hbuilt hwalk).symm.trans h
    obtain ⟨bits, hfits⟩ := compressFits_of_succeeds herr
    have hstream := (length_streamImage f bits).trans_le (fits_of_encodeRun_ok hfits.stream).2
    rw [hfits.compressEnd_eq]
    refine wf_writeBytes_within (legal_of_upfront (b := .tout) hready.2 (by simp [upfrontChecks]))
      (fits_of_textCheck hfits.text) ?_
    exact wf_writeBytes_within (legal_of_upfront (b := .dst) hready.2 (by simp [upfrontChecks])) hstream hs
  | decompress f =>
    obtain ⟨⟨-, hu⟩, tb, hmem⟩ := decompress_succeeds h herr
    rw [hmem]
    exact wf_writeBytes_within (legal_of_upfront (b := .dst) hu (by simp [upfrontChecks])) (length_decodeRun_out_le ..) hs

/-- A command keeps memory canonical: an error only scribbles, and a success writes its results (R189, R190). -/
theorem exec_wf {i : Instr} {s t : State} (hs : s.mem.wf = true) (h : exec i s = .next t) : t.mem.wf = true := by
  obtain ⟨tb, -, ⟨_, _, _, _, rfl⟩ | ⟨e, rfl⟩⟩ := exec_ends h
  · exact wf_of_succeeds hs h rfl
  · exact wf_scribble s.drawn (writeRanges i s.cfg) hs

/-! The steps of the world (R80). -/

theorem completeRunning_wf {s t : State} (hs : s.mem.wf = true) (h : completeRunning s = .next t) :
    t.mem.wf = true := by
  obtain ⟨-, hc⟩ | ⟨c, i, -, -, hc⟩ | ⟨c, x, -, -, hc⟩ := completeRunning_cases s <;> rw [hc] at h
  · cases h
    exact hs
  · exact exec_wf hs h
  · cases h
    exact hs

theorem resetNow_wf {s t : State} (hs : s.mem.wf = true) (h : resetNow s = .next t) : t.mem.wf = true := by
  obtain ⟨r, hc⟩ | hc := resetNow_cases s <;> rw [hc] at h <;> cases h
  exact wf_scribble s.drawn (runningWrites s) hs

theorem writeWhenIdle_mem (r : RegName) (v : Word) (s : State) : (writeWhenIdle r v s).mem = s.mem := by
  obtain hw | ⟨-, -, hw⟩ | ⟨-, -, hw⟩ | ⟨-, -, hw⟩ | ⟨b, -, -, hw⟩ := writeWhenIdle_cases r v s <;> rw [hw]
  rfl

theorem writeReg_wf {r : RegName} {v : Word} {s t : State} (hs : s.mem.wf = true) (h : writeReg r v s = .next t) :
    t.mem.wf = true := by
  obtain ⟨-, -, hc⟩ | ⟨-, -, hc⟩ | ⟨-, hc⟩ | ⟨-, hc⟩ | ⟨-, -, -, hc⟩ := writeReg_cases r v s <;> rw [hc] at h
  · exact resetNow_wf hs h
  all_goals cases h
  · exact hs
  · exact hs
  · exact hs
  · rwa [writeWhenIdle_mem]

theorem hostRegWrite_wf {a : RegAccess} {v : Word} {s t : State} (hs : s.mem.wf = true)
    (h : hostRegWrite a v s = .next t) : t.mem.wf = true := by
  obtain ⟨r, -, hc⟩ | ⟨-, -, hc⟩ | ⟨r, -, -, hc⟩ := hostRegWrite_cases a v s <;> rw [hc] at h
  · cases h
  · cases h
    exact hs
  · exact writeReg_wf hs h

theorem hostRegRead_mem {a : RegAccess} {s t : State} (h : hostRegRead a s = .next t) : t.mem = s.mem := by
  obtain ⟨r, -, hc⟩ | ⟨-, -, hc⟩ | ⟨r, -, -, hc⟩ := hostRegRead_cases a s <;> rw [hc] at h <;> cases h
  · rfl
  · obtain ⟨-, -, ho⟩ | ⟨-, ho⟩ := observedBy_cases r s <;> rw [ho] <;> rfl

theorem hostMemRead_mem {a : Word} {s t : State} (h : hostMemRead a s = .next t) : t.mem = s.mem := by
  obtain ⟨v, hc⟩ := hostMemRead_cases a s
  cases hc.symm.trans h
  rfl

theorem hostIrqAccept_mem {s t : State} (h : hostIrqAccept s = .next t) : t.mem = s.mem := by
  obtain ⟨-, hc⟩ | ⟨-, hc⟩ := hostIrqAccept_cases s <;> cases hc.symm.trans h <;> rfl

/-- A host write of a byte keeps memory canonical: a 32-bit address lies below the top of memory (R70, R74). -/
theorem hostMemWrite_wf {a : Word} {v : Byte} {s t : State} (hs : s.mem.wf = true)
    (h : hostMemWrite a v s = .next t) : t.mem.wf = true := by
  obtain ⟨-, hc⟩ | ⟨-, hc⟩ := hostMemWrite_cases a v s <;> cases hc.symm.trans h
  exact Memory.wf_write a.toNat v a.isLt hs

/-- Settles O55: only a command's ending, a reset and a host write of a byte change memory, and each of them writes
below its top. -/
theorem memoryStaysCanonical : Obligations.MemoryStaysCanonical := by
  intro s t hs h
  cases hev : s.events with
  | nil =>
    rw [step_no_event hev] at h
    exact completeRunning_wf hs h
  | cons ev es =>
    rw [step_event hev] at h
    cases ev with
    | regRead a => rwa [hostRegRead_mem h]
    | regWrite a v => exact hostRegWrite_wf (s := { s with events := es }) hs h
    | memRead a => rwa [hostMemRead_mem h]
    | memWrite a v => exact hostMemWrite_wf (s := { s with events := es }) hs h
    | irqAccept => rwa [hostIrqAccept_mem h]
    | complete => exact completeRunning_wf (s := { s with events := es }) hs h
    | hwReset => exact resetNow_wf (s := { s with events := es }) hs h

end Sys2Proof.Machine
end
